-- ==== Sys2Proof/Word.lean ====
section
/-! DEFINITION. The word types of the WSAE: bytes, the 32-bit operand fields and the 64-bit words (R11, R85, R110). -/

namespace Sys2Proof

/-- One byte of the host's view of memory (R84). -/
abbrev Byte := BitVec 8

/-- A 32-bit operand field of a command: PRM, SRC or DST (R111, R112). -/
abbrev Half := BitVec 32

/-- A 64-bit word: a DMEM word, a register, half of a command (R85, R110). As a binary64 value it is read by
`Machine/Fp.lean` (R11). -/
abbrev Word := BitVec 64

end Sys2Proof
end

