-- ==== Sys2Proof/Machine/Fp.lean ====
section
/-! DEFINITION. IEEE 754 binary64 arithmetic on 64-bit words (R11 to R14). Every finite value is a whole number of units
of 2^-1074, so each operation computes its exact result as a ratio of natural numbers of such units and rounds once.
The operations are irreducible: proofs unfold them by name only. -/

namespace Sys2Proof.Machine

/-! ## Fields of a binary64 word (R11) -/

/-- The canonical quiet NaN (R11). -/
def fNaN : Word := 0x7FF8000000000000#64

/-- The bits of an infinity without its sign: every magnitude below is finite, every one above is a NaN. -/
def infMag : Nat := 0x7FF0000000000000

/-- The sign bit, bit 63. -/
def fNeg (x : Word) : Bool := x.msb

/-- Bits 62:0. Magnitudes are ordered as the values are. -/
def fMag (x : Word) : Nat := x.toNat % 2 ^ 63

/-- The word of a sign and a magnitude. -/
def fPack (neg : Bool) (mag : Nat) : Word := BitVec.ofNat 64 ((if neg then 2 ^ 63 else 0) + mag)

/-- `isfinite` (R13). -/
def isFinite (x : Word) : Bool := fMag x < infMag

/-- Whether `x` is a NaN. -/
def isNaN (x : Word) : Bool := infMag < fMag x

/-- Whether `x` is an infinity of either sign. -/
def isInf (x : Word) : Bool := fMag x == infMag

/-- Whether `x` is a zero of either sign. -/
def isZero (x : Word) : Bool := fMag x == 0

/-- An infinity. -/
def fInf (neg : Bool) : Word := fPack neg infMag

/-- A zero. -/
def fZero (neg : Bool) : Word := fPack neg 0

/-- The magnitude of a finite value, in units of 2^-1074 (exponent bits 62:52, fraction bits 51:0; subnormals kept). -/
def fUnits (x : Word) : Nat :=
  if fMag x / 2 ^ 52 = 0 then fMag x % 2 ^ 52
  else (2 ^ 52 + fMag x % 2 ^ 52) * 2 ^ (fMag x / 2 ^ 52 - 1)

/-- A finite value in units of 2^-1074. -/
def fInt (x : Word) : Int := if fNeg x then -(fUnits x : Int) else (fUnits x : Int)

/-- One, in units. -/
def unitsPerOne : Nat := 2 ^ 1074

/-! ## Rounding -/

/-- The logarithm to base 2 of `x`, rounded down, for `x < 2^(2^k)`, by halving the width. -/
def log2Below : Nat → Nat → Nat
  | 0, _ => 0
  | k + 1, x => if x < 2 ^ 2 ^ k then log2Below k x else 2 ^ k + log2Below k (x / 2 ^ 2 ^ k)

/-- `Nat.log2` (`floorLog2_eq`), quick to evaluate on the widths that occur. -/
def floorLog2 (x : Nat) : Nat := if x < 2 ^ 2 ^ 13 then log2Below 13 x else Nat.log2 x

/-- The exponent, in units, of the last place of the quotient `a / d`. -/
def ulpExp (a d : Nat) : Nat := floorLog2 (a / d) - 52

/-- The magnitude of the largest binary64 value not above `a / d` units. -/
def roundDown (a d : Nat) : Nat :=
  min infMag (ulpExp a d * 2 ^ 52 + a / (d * 2 ^ ulpExp a d))

/-- The magnitude of the smallest binary64 value not below `a / d` units. -/
def roundUp (a d : Nat) : Nat :=
  min infMag (ulpExp a d * 2 ^ 52 + a / (d * 2 ^ ulpExp a d) + if a % (d * 2 ^ ulpExp a d) = 0 then 0 else 1)

/-- Whether rounding `a / d` to nearest, ties to even, goes up. -/
def roundsUp (a d : Nat) : Bool :=
  2 * (a % (d * 2 ^ ulpExp a d)) > d * 2 ^ ulpExp a d ||
    (2 * (a % (d * 2 ^ ulpExp a d)) == d * 2 ^ ulpExp a d && a / (d * 2 ^ ulpExp a d) % 2 == 1)

/-- The magnitude of the binary64 value nearest `a / d` units, ties to even, with gradual underflow (R11). -/
@[irreducible] def roundNearest (a d : Nat) : Nat :=
  min infMag (ulpExp a d * 2 ^ 52 + a / (d * 2 ^ ulpExp a d) + if roundsUp a d then 1 else 0)

/-! ## The five operations (R11) -/

/-- Negation, an exact sign operation (R11). -/
def fneg (x : Word) : Word := fPack (!fNeg x) (fMag x)

/-- `ABS` (R13). -/
def fabs (x : Word) : Word := fPack false (fMag x)

/-- The sum of finite values. An exact zero is `-0` only when both operands are negative. -/
def addFinite (x y : Word) : Word :=
  if fInt x + fInt y = 0 then fZero (fNeg x && fNeg y)
  else fPack (fInt x + fInt y < 0) (roundNearest (fInt x + fInt y).natAbs 1)

/-- `+` (R11). -/
@[irreducible] def fadd (x y : Word) : Word :=
  if isNaN x || isNaN y then fNaN
  else if isInf x then (if isInf y && fNeg x != fNeg y then fNaN else x)
  else if isInf y then y
  else addFinite x y

/-- `-` (R11): the sum with the negated operand. -/
@[irreducible] def fsub (x y : Word) : Word := if isNaN y then fNaN else fadd x (fneg y)

/-- `*` (R11). -/
@[irreducible] def fmul (x y : Word) : Word :=
  if isNaN x || isNaN y then fNaN
  else if isInf x || isInf y then (if isZero x || isZero y then fNaN else fInf (fNeg x != fNeg y))
  else fPack (fNeg x != fNeg y) (roundNearest (fUnits x * fUnits y) unitsPerOne)

/-- `/` (R11). -/
@[irreducible] def fdiv (x y : Word) : Word :=
  if isNaN x || isNaN y then fNaN
  else if isInf x then (if isInf y then fNaN else fInf (fNeg x != fNeg y))
  else if isInf y then fZero (fNeg x != fNeg y)
  else if isZero y then (if isZero x then fNaN else fInf (fNeg x != fNeg y))
  else fPack (fNeg x != fNeg y) (roundNearest (fUnits x * unitsPerOne) (fUnits y))

/-- Newton's iteration for the integer square root, from above; it stops when it no longer falls. -/
def isqrtLoop (n : Nat) : Nat → Nat → Nat
  | 0, x => x
  | fuel + 1, x => if (x + n / x) / 2 < x then isqrtLoop n fuel ((x + n / x) / 2) else x

/-- The integer square root, rounded down. -/
def isqrt (n : Nat) : Nat := isqrtLoop n (floorLog2 n + 2) (2 ^ (floorLog2 n / 2 + 1))

/-- The magnitude of the root of `u` units, rounded to nearest. A root that is no whole number of units lies strictly
between two such numbers, far below the last place, so their mean rounds as it does. -/
def sqrtMag (u : Nat) : Nat :=
  if isqrt (u * unitsPerOne) * isqrt (u * unitsPerOne) = u * unitsPerOne then roundNearest (isqrt (u * unitsPerOne)) 1
  else roundNearest (2 * isqrt (u * unitsPerOne) + 1) 2

/-- `sqrt` (R11). -/
@[irreducible] def fsqrt (x : Word) : Word :=
  if isNaN x then fNaN
  else if isZero x then x
  else if fNeg x then fNaN
  else if isInf x then x
  else fPack false (sqrtMag (fUnits x))

/-! ## Comparisons, MAX and MIN (R12, R13) -/

/-- A whole number ordered as the value is; both zeros are 0. -/
def fKey (x : Word) : Int := if fNeg x then -(fMag x : Int) else (fMag x : Int)

/-- `<`, false when either operand is NaN (R12). -/
def flt (x y : Word) : Bool := !isNaN x && !isNaN y && decide (fKey x < fKey y)

/-- `<=` (R12). -/
def fle (x y : Word) : Bool := !isNaN x && !isNaN y && decide (fKey x ≤ fKey y)

/-- `MAX` (R13). -/
def fmax (a b : Word) : Word := if isNaN a || isNaN b then fNaN else if flt a b then b else a

/-- `MIN` (R13). -/
def fmin (a b : Word) : Word := if isNaN a || isNaN b then fNaN else if flt b a then b else a

/-! ## Conversions (R12, R14) -/

/-- The binary64 value of a natural number (R12). -/
@[irreducible] def fofNat (n : Nat) : Word := fPack false (roundNearest (n * unitsPerOne) 1)

/-- The binary64 value of an integer (R12). -/
def fofInt (i : Int) : Word := if i < 0 then fneg (fofNat i.natAbs) else fofNat i.natAbs

/-- `TRUNC` of a finite value (R14). -/
@[irreducible] def ftrunc (x : Word) : Int :=
  if fNeg x then -((fUnits x / unitsPerOne : Nat) : Int) else ((fUnits x / unitsPerOne : Nat) : Int)

/-- `floor` of a finite value (R14). -/
@[irreducible] def ffloor (x : Word) : Int := fInt x / (unitsPerOne : Int)

/-- `CEIL` of a finite value (R14). -/
@[irreducible] def fceil (x : Word) : Int := -(-fInt x / (unitsPerOne : Int))

/-- `RHA` of a finite value: to the nearest integer, ties away from zero (R14). -/
@[irreducible] def frha (x : Word) : Int :=
  if fNeg x then -(((2 * fUnits x + unitsPerOne) / (2 * unitsPerOne) : Nat) : Int)
  else (((2 * fUnits x + unitsPerOne) / (2 * unitsPerOne) : Nat) : Int)

/-! ## Constants (R16, R68 and the decimal constants of the rules) -/

/-- 0.0 -/
def f0p0 : Word := 0x0000000000000000#64
/-- 0.5 -/
def f0p5 : Word := 0x3FE0000000000000#64
/-- 1.0 -/
def f1 : Word := 0x3FF0000000000000#64
/-- 2.0 -/
def f2 : Word := 0x4000000000000000#64
/-- 10.0 -/
def f10 : Word := 0x4024000000000000#64
/-- 20.0 -/
def f20 : Word := 0x4034000000000000#64
/-- 1000.0 -/
def f1000 : Word := 0x408F400000000000#64
/-- 0.42, Blackman (R163, R167) -/
def f0p42 : Word := 0x3FDAE147AE147AE1#64
/-- 0.08, Blackman (R163, R167) -/
def f0p08 : Word := 0x3FB47AE147AE147B#64
/-- 0.355768, Nuttall (R167) -/
def nuttall0 : Word := 0x3FD6C4E7253DA72A#64
/-- 0.487396, Nuttall (R167) -/
def nuttall1 : Word := 0x3FDF317EFE0CE0B9#64
/-- 0.144232, Nuttall (R167) -/
def nuttall2 : Word := 0x3FC27631B584B1AB#64
/-- 0.012604, Nuttall (R167) -/
def nuttall3 : Word := 0x3F89D0203E63E8DE#64
/-- `PI` (R16) -/
def fPi : Word := 0x400921FB54442D18#64
/-- `2*PI`, an exact multiple (R16) -/
def f2Pi : Word := 0x401921FB54442D18#64
/-- `4*PI`, an exact multiple (R16) -/
def f4Pi : Word := 0x402921FB54442D18#64
/-- 6.0, for `6.0 * PI` (R16) -/
def f6 : Word := 0x4018000000000000#64
/-- `ENV_RATIO`, 3.0 (R68) -/
def envRatio : Word := 0x4008000000000000#64
/-- `AP_VUV_RATIO`, 3.0 (R68) -/
def apVuvRatio : Word := 0x4008000000000000#64
/-- `AP_GD_RATIO_L`, 4.0 (R68) -/
def apGdRatioL : Word := 0x4010000000000000#64
/-- `AP_GD_RATIO_M`, 3.0 (R68) -/
def apGdRatioM : Word := 0x4008000000000000#64
/-- `AP_GD_RATIO_S`, 2.0 (R68) -/
def apGdRatioS : Word := 0x4000000000000000#64
/-- `AP_SEL_LO`, 4000.0 (R68) -/
def apSelLo : Word := 0x40AF400000000000#64
/-- `AP_SEL_HI`, 8000.0 (R68) -/
def apSelHi : Word := 0x40BF400000000000#64
/-- `AP_SHIFT`, 0.25 (R68) -/
def apShift : Word := 0x3FD0000000000000#64
/-- `VUV_F0`, 100.0 (R68) -/
def vuvF0 : Word := 0x4059000000000000#64
/-- `VUV_F1`, 4000.0 (R68) -/
def vuvF1 : Word := 0x40AF400000000000#64
/-- `VUV_F2`, 7900.0 (R68) -/
def vuvF2 : Word := 0x40BEDC0000000000#64
/-- `BAND_INTERVAL`, 3000.0 (R68) -/
def bandInterval : Word := 0x40A7700000000000#64
/-- `BAND_UPPER`, 15000.0 (R68) -/
def bandUpper : Word := 0x40CD4C0000000000#64
/-- `BAND_K`, 8.0 (R68) -/
def bandK : Word := 0x4020000000000000#64
/-- `REV_F0`, 100.0 (R68) -/
def revF0 : Word := 0x4059000000000000#64
/-- `REV_DIV`, 50.0 (R68) -/
def revDiv : Word := 0x4049000000000000#64
/-- `MARGIN_ENV`, 3.0 (R68) -/
def marginEnv : Word := 0x4008000000000000#64
/-- `MARGIN_AP`, 4.0 (R68) -/
def marginAp : Word := 0x4010000000000000#64

end Sys2Proof.Machine
end

