-- ==== Sys2Proof/Syntax.lean ====
section
/-! DEFINITION. The commands of the WSAE (R117), one constructor per row of the opcode table, with the operand fields
and flags that R117 lists for the row. -/

namespace Sys2Proof

/-- The transform size a command selects with flag SZ (R114, R116). -/
inductive SizeSel where
  | env
  | ap
  deriving DecidableEq, Repr

/-- The window shapes of flag WIN (R115); the fourth encoding is illegal in every command. -/
inductive Win where
  | hann
  | blackman
  | nuttall
  deriving DecidableEq, Repr

/-- The twenty commands of R117. Operand order: flags, then PRM, SRC, DST; a field that R117 shows as 0 is no operand. -/
inductive Instr where
  | nop
  | signal
  | defaults
  | dfftsz (prm dst : Half)
  | df0flr (prm dst : Half)
  | fftr (sz : SizeSel) (src dst : Half)
  | ffti (sz : SizeSel) (src dst : Half)
  | pow (sz : SizeSel) (src dst : Half)
  | wseg (sz : SizeSel) (win : Win) (nrm dcr : Bool) (prm dst : Half)
  | wgen (win : Win) (prm dst : Half)
  | dccorr (sz : SizeSel) (prm src dst : Half)
  | lsmooth (sz : SizeSel) (prm src dst : Half)
  | lifter (sz : SizeSel) (slift : Bool) (prm src dst : Half)
  | envrun (first count : Half)
  | centroid (sz : SizeSel) (src dst : Half)
  | gdelay (sz : SizeSel) (prm src dst : Half)
  | vuv (sz : SizeSel) (src dst : Half)
  | bandap (sz : SizeSel) (prm src dst : Half)
  | apinterp (sz : SizeSel) (src dst : Half)
  | aprun (first count : Half)
  deriving DecidableEq, Repr

end Sys2Proof
end

