-- ==== Sys2Proof/WellFormed.lean ====
section
/-! DEFINITION. Which terms of `Instr` stand for a legal command. The types already bound every field; the one check
left is that the Nuttall window is WGEN's alone (R115, R119 test 3). -/

namespace Sys2Proof

/-- WIN may be `10` (Nuttall) in WGEN only (R115, R117). -/
def Instr.wf : Instr → Bool
  | .wseg _ win _ _ _ _ => win != .nuttall
  | .nop | .signal | .defaults | .dfftsz .. | .df0flr .. | .fftr .. | .ffti .. | .pow .. | .wgen .. | .dccorr ..
  | .lsmooth .. | .lifter .. | .envrun .. | .centroid .. | .gdelay .. | .vuv .. | .bandap .. | .apinterp .. | .aprun .. => true

end Sys2Proof
end

