-- ==== Sys2Proof/Decode.lean ====
section
/-! DEFINITION. Decoding and encoding of commands (R110 to R124), and the byte order of words (R84). -/

namespace Sys2Proof

/-! ## Words and bytes (R84) -/

/-- The eight bytes of a word, byte `k` carrying bits `8k+7 .. 8k` (R84). -/
def bytesOfWord (w : Word) : List Byte :=
  (List.range 8).map fun k => w.extractLsb' (8 * k) 8

/-- The word whose bytes, in rising address order, are these (R84). -/
def wordOfBytes (bs : List Byte) : Word :=
  BitVec.ofNat 64 (bs.foldr (fun b n => n * 256 + b.toNat) 0)

/-! ## Fields (R111, R112, R121) -/

/-- The fields of a command's two words. -/
structure Fields where
  opc : BitVec 8
  flags : BitVec 8
  rsv : BitVec 16
  prm : Half
  src : Half
  dst : Half
  deriving DecidableEq, Repr

/-- R121. -/
def fieldsOf (w0 w1 : Word) : Fields where
  opc := w0.extractLsb' 0 8
  flags := w0.extractLsb' 8 8
  rsv := w0.extractLsb' 16 16
  prm := w0.extractLsb' 32 32
  src := w1.extractLsb' 0 32
  dst := w1.extractLsb' 32 32

/-- FLAGS bit 0 (R114). -/
def Fields.sz (f : Fields) : SizeSel := if f.flags.getLsbD 0 then .ap else .env

/-- FLAGS bits 2:1 (R115); the illegal value `11` is refused before this is asked. -/
def Fields.win (f : Fields) : Win :=
  if f.flags.getLsbD 2 then .nuttall else if f.flags.getLsbD 1 then .blackman else .hann

/-- FLAGS bit 3 (R114). -/
def Fields.nrm (f : Fields) : Bool := f.flags.getLsbD 3

/-- FLAGS bit 4 (R114). -/
def Fields.dcr (f : Fields) : Bool := f.flags.getLsbD 4

/-- FLAGS bit 5 (R114). -/
def Fields.slift (f : Fields) : Bool := f.flags.getLsbD 5

/-! ## The opcode map (R117) -/

/-- One row of R117: the opcode, the FLAGS bits allowed, whether WIN may be `10`, which operand fields are used. -/
structure Row where
  opc : BitVec 8
  flags : BitVec 8
  nuttall : Bool
  prm : Bool
  src : Bool
  dst : Bool
  make : Fields → Instr

/-- FLAGS masks of R114. -/
def flagSz : BitVec 8 := 0x01#8
def flagWin : BitVec 8 := 0x06#8
def flagNrm : BitVec 8 := 0x08#8
def flagDcr : BitVec 8 := 0x10#8
def flagSlift : BitVec 8 := 0x20#8

/-- The complete opcode map (R117). ENVRUN and APRUN use SRC and DST as integers. -/
def opcodeMap : List Row := [
  ⟨0x00#8, 0#8, false, false, false, false, fun _ => .nop⟩,
  ⟨0x01#8, 0#8, false, false, false, false, fun _ => .signal⟩,
  ⟨0x02#8, 0#8, false, false, false, false, fun _ => .defaults⟩,
  ⟨0x03#8, 0#8, false, true, false, true, fun f => .dfftsz f.prm f.dst⟩,
  ⟨0x04#8, 0#8, false, true, false, true, fun f => .df0flr f.prm f.dst⟩,
  ⟨0x10#8, flagSz, false, false, true, true, fun f => .fftr f.sz f.src f.dst⟩,
  ⟨0x11#8, flagSz, false, false, true, true, fun f => .ffti f.sz f.src f.dst⟩,
  ⟨0x12#8, flagSz, false, false, true, true, fun f => .pow f.sz f.src f.dst⟩,
  ⟨0x20#8, flagSz ||| flagWin ||| flagNrm ||| flagDcr, false, true, false, true,
    fun f => .wseg f.sz f.win f.nrm f.dcr f.prm f.dst⟩,
  ⟨0x21#8, flagWin, true, true, false, true, fun f => .wgen f.win f.prm f.dst⟩,
  ⟨0x30#8, flagSz, false, true, true, true, fun f => .dccorr f.sz f.prm f.src f.dst⟩,
  ⟨0x31#8, flagSz, false, true, true, true, fun f => .lsmooth f.sz f.prm f.src f.dst⟩,
  ⟨0x32#8, flagSz ||| flagSlift, false, true, true, true, fun f => .lifter f.sz f.slift f.prm f.src f.dst⟩,
  ⟨0x38#8, 0#8, false, false, true, true, fun f => .envrun f.src f.dst⟩,
  ⟨0x40#8, flagSz, false, false, true, true, fun f => .centroid f.sz f.src f.dst⟩,
  ⟨0x41#8, flagSz, false, true, true, true, fun f => .gdelay f.sz f.prm f.src f.dst⟩,
  ⟨0x42#8, flagSz, false, false, true, true, fun f => .vuv f.sz f.src f.dst⟩,
  ⟨0x43#8, flagSz, false, true, true, true, fun f => .bandap f.sz f.prm f.src f.dst⟩,
  ⟨0x44#8, flagSz, false, false, true, true, fun f => .apinterp f.sz f.src f.dst⟩,
  ⟨0x48#8, 0#8, false, false, true, true, fun f => .aprun f.src f.dst⟩]

/-! ## Decoding (R119, R121) -/

/-- Why a decoder refuses. All but `truncated` are the six tests of R119; `truncated` is for byte strings shorter than
one command (R110), which never reach the engine. -/
inductive Reject where
  | truncated
  | opcode
  | reserved
  | flags
  | prm
  | src
  | dst
  deriving DecidableEq, Repr

/-- The number of the test of R119 (R288, ERRINFO of E_ILLEGAL). -/
def Reject.test : Reject → Nat
  | .truncated => 0
  | .opcode => 1
  | .reserved => 2
  | .flags => 3
  | .prm => 4
  | .src => 5
  | .dst => 6

/-- Test 3 of R119: a FLAGS bit the row does not allow, WIN = `11`, or WIN = `10` outside WGEN. -/
def flagsIllegal (r : Row) (flags : BitVec 8) : Bool :=
  flags &&& ~~~r.flags != 0#8 || flags.getLsbD 2 && (flags.getLsbD 1 || !r.nuttall)

/-- The tests of R119 after the first, in their order. -/
def Row.check (r : Row) (f : Fields) : Except Reject Instr :=
  if f.rsv ≠ 0#16 then .error .reserved
  else if flagsIllegal r f.flags then .error .flags
  else if !r.prm && f.prm != 0#32 then .error .prm
  else if !r.src && f.src != 0#32 then .error .src
  else if !r.dst && f.dst != 0#32 then .error .dst
  else .ok (r.make f)

/-- The command that the words (W0, W1) stand for, or the first test of R119 that they fail. -/
def decodeCmd (w0 w1 : Word) : Except Reject Instr :=
  match opcodeMap.find? (fun r => r.opc == (fieldsOf w0 w1).opc) with
  | none => .error .opcode
  | some r => r.check (fieldsOf w0 w1)

/-- Decoding of any byte string: two little-endian words (R84, R110), then the rest. -/
def decode (bs : List Byte) : Except Reject (Instr × List Byte) :=
  if bs.length < 16 then .error .truncated
  else
    match decodeCmd (wordOfBytes (bs.take 8)) (wordOfBytes ((bs.drop 8).take 8)) with
    | .error e => .error e
    | .ok i => .ok (i, bs.drop 16)

/-! ## Encoding (R124) -/

/-- The bit of SZ (R114, R116). -/
def SizeSel.bit : SizeSel → BitVec 8
  | .env => 0#8
  | .ap => 1#8

/-- WIN in its place, FLAGS bits 2:1 (R115). -/
def Win.bits : Win → BitVec 8
  | .hann => 0x00#8
  | .blackman => 0x02#8
  | .nuttall => 0x04#8

/-- A flag bit in its place. -/
def flagBit (mask : BitVec 8) (b : Bool) : BitVec 8 := if b then mask else 0#8

/-- The opcode of a command (R117). -/
def Instr.opc : Instr → BitVec 8
  | .nop => 0x00#8
  | .signal => 0x01#8
  | .defaults => 0x02#8
  | .dfftsz .. => 0x03#8
  | .df0flr .. => 0x04#8
  | .fftr .. => 0x10#8
  | .ffti .. => 0x11#8
  | .pow .. => 0x12#8
  | .wseg .. => 0x20#8
  | .wgen .. => 0x21#8
  | .dccorr .. => 0x30#8
  | .lsmooth .. => 0x31#8
  | .lifter .. => 0x32#8
  | .envrun .. => 0x38#8
  | .centroid .. => 0x40#8
  | .gdelay .. => 0x41#8
  | .vuv .. => 0x42#8
  | .bandap .. => 0x43#8
  | .apinterp .. => 0x44#8
  | .aprun .. => 0x48#8

/-- The FLAGS field of a command (R114, R124). -/
def Instr.flags : Instr → BitVec 8
  | .nop | .signal | .defaults | .dfftsz .. | .df0flr .. | .envrun .. | .aprun .. => 0#8
  | .fftr sz _ _ | .ffti sz _ _ | .pow sz _ _ | .dccorr sz _ _ _ | .lsmooth sz _ _ _ | .centroid sz _ _
  | .gdelay sz _ _ _ | .vuv sz _ _ | .bandap sz _ _ _ | .apinterp sz _ _ => sz.bit
  | .wseg sz win nrm dcr _ _ => sz.bit ||| win.bits ||| flagBit flagNrm nrm ||| flagBit flagDcr dcr
  | .wgen win _ _ => win.bits
  | .lifter sz slift _ _ _ => sz.bit ||| flagBit flagSlift slift

/-- PRM of a command, 0 where R117 shows 0. -/
def Instr.prm : Instr → Half
  | .dfftsz prm _ | .df0flr prm _ | .wseg _ _ _ _ prm _ | .wgen _ prm _ | .dccorr _ prm _ _ | .lsmooth _ prm _ _
  | .lifter _ _ prm _ _ | .gdelay _ prm _ _ | .bandap _ prm _ _ => prm
  | .nop | .signal | .defaults | .fftr .. | .ffti .. | .pow .. | .envrun .. | .centroid .. | .vuv .. | .apinterp ..
  | .aprun .. => 0#32

/-- SRC of a command, 0 where R117 shows 0; the first frame of a frame engine (R112). -/
def Instr.src : Instr → Half
  | .fftr _ src _ | .ffti _ src _ | .pow _ src _ | .dccorr _ _ src _ | .lsmooth _ _ src _ | .lifter _ _ _ src _
  | .envrun src _ | .centroid _ src _ | .gdelay _ _ src _ | .vuv _ src _ | .bandap _ _ src _ | .apinterp _ src _
  | .aprun src _ => src
  | .nop | .signal | .defaults | .dfftsz .. | .df0flr .. | .wseg .. | .wgen .. => 0#32

/-- DST of a command, 0 where R117 shows 0; the frame count of a frame engine (R112). -/
def Instr.dst : Instr → Half
  | .dfftsz _ dst | .df0flr _ dst | .fftr _ _ dst | .ffti _ _ dst | .pow _ _ dst | .wseg _ _ _ _ _ dst
  | .wgen _ _ dst | .dccorr _ _ _ dst | .lsmooth _ _ _ dst | .lifter _ _ _ _ dst | .envrun _ dst
  | .centroid _ _ dst | .gdelay _ _ _ dst | .vuv _ _ dst | .bandap _ _ _ dst | .apinterp _ _ dst
  | .aprun _ dst => dst
  | .nop | .signal | .defaults => 0#32

/-- The words (W0, W1) of a command (R124). -/
def encode (i : Instr) : Word × Word :=
  (i.prm ++ 0#16 ++ i.flags ++ i.opc, i.dst ++ i.src)

/-! ## What the host asks of the decoder -/

/-- The two words of a command given as one number, bit 0 the least significant of W0, cut to `nbits`. -/
def tableWords (nbits w : Nat) : Word × Word :=
  (BitVec.ofNat 64 (w % 2 ^ nbits), BitVec.ofNat 64 (w % 2 ^ nbits / 2 ^ 64))

/-- The command the decoder reads from the bits `w`, laid out as bytes in address order (R84). -/
def decodeTableWord (nbits w : Nat) : Option Instr :=
  match decode (bytesOfWord (tableWords nbits w).1 ++ bytesOfWord (tableWords nbits w).2) with
  | .ok (i, _) => some i
  | .error _ => none

end Sys2Proof
end

