-- ==== Sys2Proof/Config.lean ====
section
/-! DEFINITION. What an implementation of the WSAE fixes (R8), and the free values: everything the spec leaves
unspecified, each an uninterpreted constant that no proof can see. -/

namespace Sys2Proof

/-- `FP_MODE` (R8, R15): the accuracy of the transcendental function unit. -/
inductive FpMode where
  | cr
  | faithful
  deriving DecidableEq, Repr

/-- The six functions of the transcendental function unit (R15). -/
inductive FpFn where
  | cos
  | sin
  | log
  | exp
  | log10
  | pow10
  deriving DecidableEq, Repr

/-- The implementation parameters of R8. A machine keeps its parameters for ever; statements hold for every value. -/
structure Params where
  log2nMin : Nat
  log2nMax : Nat
  dmemWords : Nat
  cmdqDepth : Nat
  nlanes : Nat
  fpMode : FpMode
  mmioBase : Nat
  deriving DecidableEq, Repr

/-- The default column of R8. `MMIO_BASE` is OPEN there; 0 is a DESIGN CHOICE (log 1, unsafe only for a statement about
the reset state's own base address). -/
def Params.default : Params where
  log2nMin := 4
  log2nMax := 16
  dmemWords := 2 ^ 22
  cmdqDepth := 16
  nlanes := 1
  fpMode := .faithful
  mmioBase := 0

/-- The legal ranges of R8. -/
abbrev Params.Legal (p : Params) : Prop :=
  p.log2nMin = 4 ∧ 4 ≤ p.log2nMax ∧ p.log2nMax ≤ 24 ∧ 2 ^ 16 ≤ p.dmemWords ∧ p.dmemWords ≤ 2 ^ 32 ∧
    1 ≤ p.cmdqDepth ∧ p.cmdqDepth ≤ 255 ∧ 1 ≤ p.nlanes ∧ p.nlanes ≤ 255

/-- `FS_MAX`, fixed (R8). -/
def fsMax : Nat := 2 ^ 31 - 1

/-- Free value: the byte at a byte address of DMEM that nothing has written since power-on (R73, R321, I1; log 2). -/
opaque Config.powerOnByte : Nat → Byte

/-- Free value: with `FP_MODE = FAITHFUL`, whether the unit returns, of the two binary64 neighbours of the exact result,
the one of larger magnitude. A function of the operand alone (R15, I6; log 3). -/
opaque Config.faithfulAway : FpFn → Word → Bool

/-- Free value: the result of a function at an operand for which R15 states none (log 4). -/
opaque Config.fpUnstated : FpFn → Word → Word

/-- Free value: the sample position of a frame whose centre overflows binary64, for which R14 and R165 state none (log 16). -/
opaque Config.originUnstated : Word → Int

/-- Free value: which of the values a racing read may return it does return (R93, R330, I4). The arguments are the
command's seed, the tag of the read within the command, and the word address (log 10). -/
opaque Config.raceRead : Nat → Nat → Nat → Nat

/-- Free value: whether a word that both the host and a pending command wrote ends with the host's value, if that still
stands in it (R330; log 10). The arguments are the command's seed, the word address, and how many times the host has written
the word since the push: each further write of the host makes its own choice. -/
opaque Config.raceKeepsHost : Nat → Nat → Nat → Bool

/-- Free value: whether a stopped or failed command, or a command still executing, puts its computed value into a
word (R188, R294, R322, R332, I2, I3, I5; logs 11, 12). The arguments are the machine's counter of free values and the
word address. -/
opaque Config.wordWritten : Nat → Nat → Bool

end Sys2Proof
end

