-- ==== Sys2Proof/Machine/State.lean ====
section
/-! DEFINITION. The state of the WSAE, as plain data, and the state after power-on reset (R73, R321, R324). -/

namespace Sys2Proof.Machine

/-- DMEM as bytes: word `a` is the bytes at `8a .. 8a+7`, little-endian (R81, R84). Only bytes that something has
written are listed, at strictly rising addresses. -/
abbrev Memory := List Host.Cell

/-- The one form a memory has: addresses strictly rise. An unlisted byte holds no value of the list's own (it reads as
the free value `Config.powerOnByte`, log 2), so no entry can repeat what an unlisted address reads as. -/
abbrev Memory.wf (m : Memory) : Prop := m.Pairwise fun c d => c.1 < d.1

/-- A host write of a DMEM word while a command was pending: the word, its value before and after (R93, R330), the groups of
the command's reads that were done before it, and whether no earlier command has overwritten it since (R92; log 10). -/
structure Race where
  addr : Nat
  old : Word
  new : Word
  done : List Nat
  stands : Bool
  deriving DecidableEq, Repr

/-- A command in the queue or in execution: its words, captured at the push (R36, R100). The other fields are the
model's own: what the host wrote since the push (newest first) and the number its racing accesses' free values are
applied to (log 10); the words it has written so far while it executes, with their values as the host reads them, newest
first (R93, R332; log 12); and the groups of its reads that are done, since what it has written was computed from them
(R103; log 12). -/
structure PendingCmd where
  w0 : Word
  w1 : Word
  races : List Race
  seed : Nat
  landed : List (Nat × Word)
  begun : List Nat
  deriving DecidableEq, Repr

/-- The engine's three states (R38). -/
inductive Engine where
  | idle
  | exec (c : PendingCmd)
  | halt
  deriving DecidableEq, Repr

/-- The configuration registers (R46). -/
structure Csr where
  fs : Word
  framePeriod : Word
  log2nEnv : Word
  log2nAp : Word
  f0Floor : Word
  defaultF0 : Word
  q1 : Word
  apThreshold : Word
  envLsmRatio : Word
  envCtrl : Word
  safeMin : Word
  envEps : Word
  apFloor : Word
  apDcDb : Word
  xBase : Word
  xLen : Word
  f0Base : Word
  f0Len : Word
  envBase : Word
  apBase : Word
  outRows : Word
  outCols : Word
  deriving DecidableEq, Repr

/-- The reset values of R46. -/
def Csr.reset : Csr where
  fs := 0
  framePeriod := 0x4014000000000000#64
  log2nEnv := 0
  log2nAp := 0
  f0Floor := 0x4051C00000000000#64
  defaultF0 := 0x407F400000000000#64
  q1 := 0xBFC3333333333333#64
  apThreshold := 0x3FEB333333333333#64
  envLsmRatio := 0x3FF0000000000000#64
  envCtrl := 0
  safeMin := 0x3D719799812DEA11#64
  envEps := 0x3CB0000000000000#64
  apFloor := 0x3F50624DD2F1A9FC#64
  apDcDb := 0xC04E000000000000#64
  xBase := 0
  xLen := 0
  f0Base := 0
  f0Len := 0
  envBase := 0
  apBase := 0
  outRows := 0
  outCols := 0

/-- One access of the host (R82): a width in bits, an address (`MMIO_BASE` plus an offset) and, for a write, a value. -/
inductive HostAccess where
  | read (bits addr : Nat)
  | write (bits addr : Nat) (v : Word)
  deriving DecidableEq, Repr

/-- Whose turn it is: the host makes an access, the engine takes a step, or the engine goes on inside the command it
executes, so that some of the words it writes take effect (R332). R338 leaves the order open (log 8). -/
inductive Turn where
  | host (a : HostAccess)
  | engine
  | progress
  deriving DecidableEq, Repr

/-- What the block last answered on the host bus (R83): nothing yet, the data of a read, a write taken, an error
response (a read then returns 0), or no response because the address is outside the block (R81). -/
inductive BusResp where
  | none
  | data (v : Word)
  | ack
  | error
  | silent
  deriving DecidableEq, Repr

/-- The whole machine. -/
structure State where
  /-- The implementation parameters (R8); nothing changes them. -/
  cfg : Params
  /-- The turns still to come; with none left the engine runs on its own (the model's own field, log 8). -/
  turns : List Turn
  /-- The last answer on the host bus (the model's own field, log 9). -/
  resp : BusResp
  /-- The counter that free values are applied to (the model's own field, log 11). -/
  free : Nat
  /-- The engine's state and the executing command (R38). -/
  engine : Engine
  /-- The pending commands, oldest first (R36). -/
  queue : List PendingCmd
  /-- HOLD (R37). -/
  hold : Word
  /-- CTRL.IE_DONE (R39). -/
  ieDone : Bool
  /-- CTRL.IE_ERR (R39). -/
  ieErr : Bool
  /-- CTRL.IE_MARK (R39). -/
  ieMark : Bool
  /-- STATUS.DONE (R40). -/
  done : Bool
  /-- STATUS.ERR (R40). -/
  err : Bool
  /-- STATUS.MARK (R40). -/
  mark : Bool
  /-- STATUS.DROP (R40). -/
  drop : Bool
  /-- STATUS.CFGWERR (R40). -/
  cfgwerr : Bool
  /-- ERRCODE (R42). -/
  errCode : Word
  /-- ERRINFO (R43). -/
  errInfo : Word
  /-- ERRCMD0 (R44). -/
  errCmd0 : Word
  /-- ERRCMD1 (R44). -/
  errCmd1 : Word
  /-- COMPLETED (R45). -/
  completed : Word
  /-- The configuration registers (R46). -/
  csr : Csr
  /-- DMEM (R85). -/
  mem : Memory
  deriving DecidableEq, Repr

/-- Why the machine could stop. It never does: every error of this block is a HALT state that records the error
(R285), every malformed host access a bus error without effect (R83). So this type has no value: no one raises it, and
a claim that a step does not fault is safe. -/
inductive Fault where
  deriving DecidableEq, Repr

/-- Why an instruction could have no meaning. -/
inductive Refusal where
  /-- Raised by an arm of `exec` for an instruction without a meaning; no arm raises it. Safe: the run stops. -/
  | notModelled (mnemonic : String)
  deriving DecidableEq, Repr

/-- Power-on reset of a block with parameters `p` (R73, R321). -/
def State.powerOn (p : Params) : State where
  cfg := p
  turns := []
  resp := .none
  free := 0
  engine := .idle
  queue := []
  hold := 0
  ieDone := false
  ieErr := false
  ieMark := false
  done := false
  err := false
  mark := false
  drop := false
  cfgwerr := false
  errCode := 0
  errInfo := 0
  errCmd0 := 0
  errCmd1 := 0
  completed := 0
  csr := Csr.reset
  mem := []

/-- The machine right after power-on reset, with the parameters of R8's default column (R73, R321, R324). -/
def State.reset : State := State.powerOn Params.default

end Sys2Proof.Machine
end

