-- ==== Sys2Proof/Machine/Ops.lean ====
section
/-! DEFINITION. The operations over memory and over the sequencer's registers that the commands share: reading and
writing DMEM, completing a command (R273, R291), raising an error and acknowledging it (R285, R296), and the words of a
command that was stopped (R188, R294, R322). -/

namespace Sys2Proof.Machine

/-! ## DMEM (R84 to R86) -/

/-- The byte at a byte address. A byte that nothing has written holds an arbitrary value (R321; log 2). -/
def Memory.byteAt (m : Memory) (addr : Nat) : Byte := (m.lookup addr).getD (Config.powerOnByte addr)

/-- `DM[a]` (R17, R84). -/
def Memory.wordAt (m : Memory) (a : Nat) : Word := wordOfBytes ((List.range 8).map fun k => m.byteAt (8 * a + k))

/-- `DM[a] <- v` (R17, R84). -/
def Memory.setWord (m : Memory) (a : Nat) (v : Word) : Memory :=
  m.filter (fun c => c.1 < 8 * a) ++ (List.range 8).map (fun k => (8 * a + k, v.extractLsb' (8 * k) 8)) ++
    m.filter (fun c => 8 * a + 8 ≤ c.1)

/-- Several word writes, the first of the list first. -/
def Memory.setWords (m : Memory) (ws : List (Nat × Word)) : Memory := ws.foldl (fun m w => m.setWord w.1 w.2) m

/-! ## The executing command -/

/-- The executing command; outside EXEC no command has been popped and its words read 0 (R294). -/
def State.cmd (s : State) : PendingCmd :=
  match s.engine with
  | .exec c => c
  | .idle | .halt => ⟨0, 0, [], 0, [], []⟩

/-- The group a read belongs to, from the tag that tells a command's reads apart. Group 0 is every read of a primitive
command and of phase 1 of a frame engine, group `i + 1` the reads of frame `i`. The words a command writes are computed
from whole groups (R96, R103, R185). -/
def readGroup (tag : Nat) : Nat := tag / 16

/-- The host's writes of word `a` since the push of `c`, newest first. -/
def PendingCmd.racesAt (c : PendingCmd) (a : Nat) : List Race := c.races.filter fun r => r.addr == a

/-- The word `a` as it was before the first host write that came after the reads of group `g` (R103); if there was none,
as it is. -/
def PendingCmd.before (c : PendingCmd) (m : Memory) (g a : Nat) : Word :=
  match ((c.racesAt a).filter fun r => r.done.contains g).getLast? with
  | some r => r.old
  | none => m.wordAt a

/-- The values a read of word `a` in group `g` by command `c` may return: the word and, for each host write of it since
the push that the read may meet, the value before and the value written (R93, R330). -/
def readChoices (c : PendingCmd) (m : Memory) (g a : Nat) : List Word :=
  c.before m g a :: ((c.racesAt a).filter fun r => !r.done.contains g).flatMap fun r => [r.old, r.new]

/-- The choice that `n` makes among some values; of one value, that one. -/
def choose (n : Nat) : List Word → Word
  | [v] => v
  | vs => vs.getD (n % vs.length) 0

/-- A read of word `a` by the executing command. `tag` tells the command's reads apart, since each read of a word that
the host writes meanwhile makes its own choice (R93; log 10). -/
def State.cmdRead (s : State) (tag a : Nat) : Word :=
  if s.cmd.races.isEmpty then s.mem.wordAt a
  else choose (Config.raceRead s.cmd.seed tag a) (readChoices s.cmd s.mem (readGroup tag) a)

/-- The last host write of word `a` since the push of `c`, if no earlier command has overwritten it: only then may the word
end with the host's value and not the command's (R92, R330). -/
def PendingCmd.standing (c : PendingCmd) (a : Nat) : Option Word :=
  match c.races.find? fun r => r.addr == a with
  | some r => if r.stands then some r.new else none
  | none => none

/-- The host's value, if it stands in word `a` and the executing command's own write leaves it there: chosen anew for each
write of the word by the host (R330; log 10). -/
def State.keptByHost (s : State) (a : Nat) : Option Word :=
  match s.cmd.standing a with
  | some h => if Config.raceKeepsHost s.cmd.seed a (s.cmd.racesAt a).length then some h else none
  | none => none

/-- What word `a` holds after the executing command writes `v` to it: `v`, or the host's value (R330; log 10). -/
def State.settle (s : State) (a : Nat) (v : Word) : Word := (s.keptByHost a).getD v

/-! ## Errors (R281, R285) -/

/-- The error codes (R281). -/
inductive ErrCode where
  | illegal
  | config
  | shape
  | addr
  | nonfinite
  | param
  | winlen
  | range
  | numeric
  | abort
  deriving DecidableEq, Repr

/-- The value ERRCODE takes (R281). -/
def ErrCode.code : ErrCode → Word
  | .illegal => 0x01
  | .config => 0x02
  | .shape => 0x03
  | .addr => 0x04
  | .nonfinite => 0x05
  | .param => 0x06
  | .winlen => 0x07
  | .range => 0x08
  | .numeric => 0x09
  | .abort => 0x0A

/-- What `raise E_X(info)` is given (R17, R288). -/
structure Raise where
  code : ErrCode
  info : Word
  deriving DecidableEq, Repr

/-- A check or a computation that may raise (R17). -/
abbrev Check (α : Type) := Except Raise α

/-- `if not b: raise code(info)`. -/
def require (b : Bool) (code : ErrCode) (info : Nat) : Check Unit :=
  if b then .ok () else .error ⟨code, BitVec.ofNat 64 info⟩

/-- `raise E_X(info)`, as one step (R285, R286): what is recorded, the flush of the queue, HALT. This is the block's one
way of taking an exception (R295). -/
def State.raise (s : State) (r : Raise) : State :=
  { s with
    errCode := r.code.code
    errInfo := r.info
    errCmd0 := s.cmd.w0
    errCmd1 := s.cmd.w1
    err := true
    queue := []
    engine := .halt }

/-- The return from an error: the host writes 1 to STATUS.ERR (R64, R296). Without an error it does nothing. -/
def State.ackErr (s : State) : State :=
  if s.err then { s with err := false, errCode := 0, errInfo := 0, errCmd0 := 0, errCmd1 := 0, engine := .idle } else s

/-! ## What a command does -/

/-- The writes of a command that completes: DMEM words, the configuration registers (DEFAULTS only), STATUS.MARK. -/
structure Effect where
  writes : List (Nat × Word) := []
  csr : Option Csr := none
  mark : Bool := false
  deriving DecidableEq, Repr

/-- How a command ends: it completes; it raises before it has written anything; or it raises in phase 2 of a frame
engine, when each of the listed words may or may not have been written (R188, R228). -/
inductive Verdict where
  | done (e : Effect)
  | failed (r : Raise)
  | spoiled (r : Raise) (words : List (Nat × Word))
  deriving DecidableEq, Repr

/-- A primitive command either completes or raises with nothing written (R103, R287). -/
def Verdict.ofCheck : Check Effect → Verdict
  | .ok e => .done e
  | .error r => .failed r

/-- The words a command stopped at some point may have written, with the values it computed for them (R294, R322). -/
def Verdict.words : Verdict → List (Nat × Word)
  | .done e => e.writes
  | .failed _ => []
  | .spoiled _ ws => ws

/-- `n` consecutive words from word address `a` on. -/
def wordsAt (a : Nat) (vs : List Word) : List (Nat × Word) :=
  (List.range vs.length).map fun k => (a + k, vs.getD k 0)

/-- The effect of writing a buffer at `a`. -/
def Effect.buffer (a : Nat) (vs : List Word) : Effect := { writes := wordsAt a vs }

/-- A queued command learns that an earlier command has completed and computed `w a` for word `a`, where `kept a` is the
host's value if the word kept it. Where the host wrote such a word meanwhile, the older of the two values it may read is now
the earlier command's (R93, R95), and if the word did not keep the host's value, that value is gone from it (R92). -/
def PendingCmd.overwritten (w kept : Nat → Option Word) (c : PendingCmd) : PendingCmd :=
  { c with races := c.races.map fun r =>
      { r with old := (w r.addr).getD r.old, stands := r.stands && ((w r.addr).isNone || (kept r.addr).isSome) } }

/-- The writes of a completing command, all at once, seen by every later command (R94, R95, R254). -/
def State.apply (s : State) (e : Effect) : State :=
  { s with
    queue := s.queue.map (PendingCmd.overwritten (fun a => e.writes.lookup a) s.keptByHost)
    mem := s.mem.setWords (e.writes.map fun w => (w.1, s.settle w.1 w.2))
    csr := e.csr.getD s.csr
    mark := s.mark || e.mark }

/-- Whether the engine puts the value computed for word `a` into it now (R93, R294, R332; logs 11, 12). -/
def State.lands (s : State) (a : Nat) : Bool := Config.wordWritten s.free a

/-- What a word of a stopped or failed command is left with: the value computed for it, or the value it had got while the
command executed; `none` leaves it as it was (R188, R294, R322; log 11). -/
def State.leftWith (s : State) (w : Nat × Word) : Option Word :=
  if s.lands w.1 then some (s.settle w.1 w.2) else s.cmd.landed.lookup w.1

/-- Of the words a stopped or failed command may have written, some hold a value computed for them and the others are as
they were (R188, R294, R322; log 11). -/
def State.applySome (s : State) (ws : List (Nat × Word)) : State :=
  { s with
    mem := s.mem.setWords (ws.filterMap fun w => (s.leftWith w).map fun v => (w.1, v))
    free := s.free + 1 }

/-- `complete()` (R273, R291): count the command; pop the next one, or go to IDLE and set DONE. -/
def State.complete (s : State) : State :=
  match s.queue with
  | [] => { s with completed := s.completed + 1, engine := .idle, done := true }
  | c :: q => { s with completed := s.completed + 1, engine := .exec c, queue := q }

/-- The end of a command (R273). -/
def State.finish (s : State) : Verdict → State
  | .done e => (s.apply e).complete
  | .failed r => s.raise r
  | .spoiled r ws => (s.applySome ws).raise r

/-- The outcome of every command of this block: it ends, in one way or the other, and the machine goes on. -/
def State.run (s : State) (v : Verdict) : Host.Outcome State Fault Refusal := .next (s.finish v)

end Sys2Proof.Machine
end

