-- ==== Sys2Proof/Machine/Operands.lean ====
section
/-! DEFINITION. Operand forms and their checks: the size a command selects (R116), configuration registers (R46, R282),
regions (R87, R88, R118, R284), parameter words, buffers (R18, R89) and waveform samples (R90, R161). -/

namespace Sys2Proof.Machine

/-! ## Configuration checks (R282) -/

/-- Finite and `> 0`. -/
def posFinite (w : Word) : Bool := isFinite w && flt f0p0 w

/-- `FS` is legal (R47). -/
def Csr.fsLegal (c : Csr) : Bool := 1 ≤ c.fs.toNat && c.fs.toNat ≤ fsMax

/-- The sample rate as a binary64 value (R47). -/
def Csr.fsF (c : Csr) : Word := fofNat c.fs.toNat

/-- A size exponent is legal (R49). -/
def State.expLegal (s : State) (e : Word) : Bool := s.cfg.log2nMin ≤ e.toNat && e.toNat ≤ s.cfg.log2nMax

/-- `AP_FLOOR` is legal (R57). -/
def Csr.apFloorLegal (c : Csr) : Bool := posFinite c.apFloor && fle c.apFloor f1

/-- "check FS legal". -/
def State.needFs (s : State) : Check Unit := require s.csr.fsLegal .config 0x080

/-- "check SAFE_MIN legal" (R55). -/
def State.needSafeMin (s : State) : Check Unit := require (posFinite s.csr.safeMin) .config 0x0D0

/-- "check ENV_EPS legal" (R56). -/
def State.needEnvEps (s : State) : Check Unit := require (posFinite s.csr.envEps) .config 0x0D8

/-- "check AP_FLOOR legal" (R57). -/
def State.needApFloor (s : State) : Check Unit := require s.csr.apFloorLegal .config 0x0E0

/-- "check AP_DC_DB finite" (R58). -/
def State.needApDcDb (s : State) : Check Unit := require (isFinite s.csr.apDcDb) .config 0x0E8

/-- The size register that SZ selects (R116). -/
def Csr.sizeReg (c : Csr) : SizeSel → Word
  | .env => c.log2nEnv
  | .ap => c.log2nAp

/-- Its offset, the ERRINFO of an illegal exponent (R282). -/
def sizeOffset : SizeSel → Nat
  | .env => 0x090
  | .ap => 0x098

/-- The exponent `L` of the selected size (R116). -/
def State.sizeExp (s : State) (sz : SizeSel) : Nat := (s.csr.sizeReg sz).toNat

/-- "N = size(SZ)" as a check (R116). -/
def State.needSize (s : State) (sz : SizeSel) : Check Unit :=
  require (s.expLegal (s.csr.sizeReg sz)) .config (sizeOffset sz)

/-- `N = 2^L` (R9). -/
abbrev sizeN (l : Nat) : Nat := 2 ^ l

/-- `h = N/2`, the index of the last bin (R9). -/
abbrev sizeH (l : Nat) : Nat := 2 ^ l / 2

/-- `B = N/2 + 1` (R9). -/
abbrev sizeB (l : Nat) : Nat := 2 ^ l / 2 + 1

/-! ## Regions (R87, R88, R284) -/

/-- A region is valid, on exact integers (R87). -/
def State.regionOk (s : State) (a n : Nat) : Bool := a + n ≤ s.cfg.dmemWords

/-- Two regions overlap (R88). -/
def overlaps (a n b m : Nat) : Bool := 0 < n && 0 < m && a < b + m && b < a + n

/-- ERRINFO of an invalid PRM region (R284). -/
def regionPrm : Nat := 0
/-- ERRINFO of an invalid SRC region (R284). -/
def regionSrc : Nat := 1
/-- ERRINFO of an invalid DST region (R284). -/
def regionDst : Nat := 2
/-- ERRINFO of an invalid waveform region (R284). -/
def regionX : Nat := 3

/-- "check region (a, n)" (R284). -/
def State.needRegion (s : State) (info a n : Nat) : Check Unit := require (s.regionOk a n) .addr info

/-! ## Words a command reads -/

/-- Tags of the reads of group 0 (`readGroup`): parameter words, source words, the F0 words as the two checks of phase 1
read them, and the waveform words of WSEG. -/
def tagPrm : Nat := 0
/-- See `tagPrm`. -/
def tagSrc : Nat := 1
/-- See `tagPrm`. -/
def tagF0Finite : Nat := 2
/-- See `tagPrm`. -/
def tagF0Limit : Nat := 3
/-- See `tagPrm`. -/
def tagX : Nat := 4

/-- The tag of the F0 read of frame `i` in phase 2, in group `i + 1`. -/
def tagF0 (i : Nat) : Nat := 16 * (i + 1)

/-- The tag of the waveform reads of segment `seg` (below 10) of frame `i`, in group `i + 1`. -/
def tagWave (seg i : Nat) : Nat := 16 * (i + 1) + 1 + seg

/-- Word `k` of the parameter block (R113). -/
def State.prmWord (s : State) (prm : Half) (k : Nat) : Word := s.cmdRead tagPrm (prm.toNat + k)

/-- A buffer of `n` words at SRC (R18, R89). -/
def State.srcWords (s : State) (src : Half) (n : Nat) : List Word :=
  (List.range n).map fun k => s.cmdRead tagSrc (src.toNat + k)

/-- `X(j)` (R161): outside the waveform `+0.0`, and no memory is read. -/
def State.sample (s : State) (tag : Nat) (j : Int) : Word :=
  if 0 ≤ j ∧ j < s.csr.xLen.toNat then s.cmdRead tag (s.csr.xBase.toNat + j.toNat) else f0p0

/-- "if not isfinite(x): raise E_NONFINITE(k)" (R288). -/
def needFinite (x : Word) (k : Nat) : Check Unit := require (isFinite x) .nonfinite k

/-- "if not (x > 0): raise E_PARAM(k)" (R288). -/
def needPositive (x : Word) (k : Nat) : Check Unit := require (flt f0p0 x) .param k

/-! ## Complex buffers (R18) -/

/-- A complex value. -/
structure Cpx where
  re : Word
  im : Word
  deriving DecidableEq, Repr

/-- The `b` complex values of an interleaved buffer (R18). -/
def cpxOfWords (b : Nat) (ws : List Word) : List Cpx :=
  (List.range b).map fun k => ⟨ws.getD (2 * k) f0p0, ws.getD (2 * k + 1) f0p0⟩

/-- The interleaved words of complex values (R18). -/
def wordsOfCpx (zs : List Cpx) : List Word := zs.flatMap fun z => [z.re, z.im]

end Sys2Proof.Machine
end

