-- ==== Sys2Proof/Machine/Helpers.lean ====
section
/-! DEFINITION. The derivation helpers (R250, R251) and the commands DF0FLR, DFFTSZ and DEFAULTS (R252 to R254). -/

namespace Sys2Proof.Machine

/-- `F0FloorR(P, r)` (R250). -/
def f0FloorR (fs r : Word) (p : Nat) : Word := fdiv (fmul r fs) (fsub (fofNat p) f2)

/-- The exponent of `FFTSizeR(f, r)`: the smallest `k` of `lo .. hi` with `F0FloorR(2^k, r) <= f` (R251). -/
def fftSizeExp (lo hi : Nat) (fs f r : Word) : Option Nat :=
  ((List.range (hi + 1)).filter fun k => lo ≤ k).find? fun k => fle (f0FloorR fs r (2 ^ k)) f

/-- `FFTSizeR` with the machine's size range, as an exponent. -/
def State.fftSizeExp (s : State) (f r : Word) : Option Nat :=
  Sys2Proof.Machine.fftSizeExp s.cfg.log2nMin s.cfg.log2nMax s.csr.fsF f r

/-- The exponent of a legal size given as a number (R252). -/
def State.sizeOf? (s : State) (p : Nat) : Option Nat :=
  ((List.range (s.cfg.log2nMax + 1)).filter fun k => s.cfg.log2nMin ≤ k).find? fun k => 2 ^ k == p

/-- DF0FLR (R252). -/
def planDf0flr (prm dst : Half) (s : State) : Check Effect := do
  s.needFs
  s.needRegion regionPrm prm.toNat 2
  s.needRegion regionDst dst.toNat 1
  needFinite (s.prmWord prm 1) 1
  require (s.sizeOf? (s.prmWord prm 0).toNat).isSome .param 0
  needPositive (s.prmWord prm 1) 1
  pure (.buffer dst.toNat [f0FloorR s.csr.fsF (s.prmWord prm 1) (s.prmWord prm 0).toNat])

/-- A value that must exist (R251, R253, R254). -/
def orRaise (o : Option Nat) (code : ErrCode) (info : Nat) : Check Nat :=
  match o with
  | some k => .ok k
  | none => .error ⟨code, BitVec.ofNat 64 info⟩

/-- DFFTSZ (R253). -/
def planDfftsz (prm dst : Half) (s : State) : Check Effect := do
  s.needFs
  s.needRegion regionPrm prm.toNat 2
  s.needRegion regionDst dst.toNat 1
  needFinite (s.prmWord prm 0) 0
  needFinite (s.prmWord prm 1) 1
  needPositive (s.prmWord prm 0) 0
  needPositive (s.prmWord prm 1) 1
  let k ← orRaise (s.fftSizeExp (s.prmWord prm 0) (s.prmWord prm 1)) .param 0
  pure (.buffer dst.toNat [BitVec.ofNat 64 (2 ^ k)])

/-- The option registers as DEFAULTS leaves them: their reset values, and the two size exponents (R254). -/
def Csr.withDefaults (c : Csr) (ke ka : Nat) : Csr :=
  { c with
    f0Floor := Csr.reset.f0Floor
    defaultF0 := Csr.reset.defaultF0
    q1 := Csr.reset.q1
    apThreshold := Csr.reset.apThreshold
    envLsmRatio := Csr.reset.envLsmRatio
    envCtrl := Csr.reset.envCtrl
    safeMin := Csr.reset.safeMin
    envEps := Csr.reset.envEps
    apFloor := Csr.reset.apFloor
    apDcDb := Csr.reset.apDcDb
    log2nEnv := BitVec.ofNat 64 ke
    log2nAp := BitVec.ofNat 64 ka }

/-- DEFAULTS (R254). -/
def planDefaults (s : State) : Check Effect := do
  s.needFs
  let ke ← orRaise (s.fftSizeExp Csr.reset.f0Floor marginEnv) .config 0x080
  let ka ← orRaise (s.fftSizeExp Csr.reset.f0Floor marginAp) .config 0x080
  pure { writes := [], csr := some (s.csr.withDefaults ke ka) }

/-- DF0FLR (R252). -/
def execDf0flr (prm dst : Half) (s : State) : Host.Outcome State Fault Refusal :=
  s.run (.ofCheck (planDf0flr prm dst s))

/-- DFFTSZ (R253). -/
def execDfftsz (prm dst : Half) (s : State) : Host.Outcome State Fault Refusal :=
  s.run (.ofCheck (planDfftsz prm dst s))

/-- DEFAULTS (R254). -/
def execDefaults (s : State) : Host.Outcome State Fault Refusal :=
  s.run (.ofCheck (planDefaults s))

end Sys2Proof.Machine
end

