-- ==== Sys2Proof/Machine/Trans.lean ====
section
/-! DEFINITION. The transcendental function unit (R15) and the twiddle table (R67, R140).

Each function is computed as a ratio of natural numbers close to the exact result and rounded once: to nearest under `CR`,
to the neighbour the free value `Config.faithfulAway` chooses under `FAITHFUL`. A rational result (at the operands R15
lists, and ten to the power of any integer) is computed exactly. Every other result is irrational, so it is no binary64
value and no midpoint of two; the ratio is then within 2^-300 of it, relative to it and, where the operand is so small
that the result is near 1 or near the operand, relative to its distance from that too. That this always tells the neighbours and the nearest apart is DEDUCED (log 3). -/

namespace Sys2Proof.Machine

/-! ## Constants, to 1536 fraction bits -/

/-- The number of fraction bits of the three constants. -/
def constBits : Nat := 1536

/-- Half of pi, times `2^constBits`, rounded down. -/
def halfPi : Nat :=
  0x1921fb54442d18469898cc51701b839a252049c1114cf98e804177d4c76273644a29410f31c6809bbdf2a33679a748636605614dbe4be286e9fc26adadaa3848bc90b6aecc4bcfd8de89885d34c6fdad617feb96de80d6fdbdc70d7f6b5133f4b5d3e4822f8963fcc9250cca3d9c8b67b8400f97142c77e0b31b4906c38aba734d22c7f51fa499ebf06caba47b9475b2c38c5e6ac410aa5773daa520ee12d2cdace186a9c95793009e2e8d811943042f86520bc8c5c6d9c77c73cee58301d0c07

/-- The natural logarithm of 2, times `2^constBits`, rounded down. -/
def ln2 : Nat :=
  0xb17217f7d1cf79abc9e3b39803f2f6af40f343267298b62d8a0d175b8baafa2be7b876206debac98559552fb4afa1b10ed2eae35c138214427573b291169b8253e96ca16224ae8c51acbda11317c387eb9ea9bc3b136603b256fa0ec7657f74b72ce87b19d6548caf5dfa6bd38303248655fa1872f20e3a2da2d97c50f3fd5c607f4ca11fb5bfb90610d30f88fe551a2ee569d6dfc1efa157d2e23de1400b39617460775db8990e5c943e732b479cd33cccc4e659393514c4c1a1e0bd1d6095d

/-- The natural logarithm of 10, times `2^constBits`, rounded down. -/
def ln10 : Nat :=
  0x24d763776aaa2b05ba95b58ae0b4c28a38a3fb3e76977e43a0f187a0807c0b5ca58bc0b5ec6a0417331c32f00b17c35a0b1889061042f8b6bee3de2100b945b59e0b3e28a2a324479d96a9b0ec360c7efbd9b3ac12acf1be94586ed2748671eef299ecd6c8d8142163a4cda3511e2713d6c22c15f57b7883d1a7a963a4c17a607891e3f2ab4ebba627356d0b9a89c586691fb2c9a5e31753f6c74a3a95f53f703902fcf30785049a915d973789a0ce76fd1fea5b7ac9c4182be2121baa6dd0078

/-! ## Power series in fixed point with `p` fraction bits -/

/-- The terms of the sine or cosine series from term `t`, whose divisors go on from `k`; `sq` is the squared argument.
The two sums are those of the terms that are added and of those that are subtracted. -/
def trigLoop (p sq : Nat) : Nat → Nat → Nat → Nat → Nat → Nat
  | 0, _, _, pos, neg => pos - neg
  | fuel + 1, k, t, pos, neg =>
    if t = 0 then pos - neg
    else trigLoop p sq fuel (k + 4) (t * sq / 2 ^ p / (k * (k + 1)) * sq / 2 ^ p / ((k + 2) * (k + 3)))
      (pos + t) (neg + t * sq / 2 ^ p / (k * (k + 1)))

/-- The cosine of `r / 2^p`, for `0 <= r / 2^p <= pi/2`, times `2^p`. -/
def cosSeries (p r : Nat) : Nat := trigLoop p (r * r / 2 ^ p) p 1 (2 ^ p) 0 0

/-- The sine of `r / 2^p`, for `0 <= r / 2^p <= pi/2`, times `2^p`. -/
def sinSeries (p r : Nat) : Nat := trigLoop p (r * r / 2 ^ p) p 2 r 0 0

/-- The exponential series from term `t`, number `k`. -/
def expLoop (p r : Nat) : Nat → Nat → Nat → Nat → Nat
  | 0, _, _, sum => sum
  | fuel + 1, k, t, sum => if t = 0 then sum else expLoop p r fuel (k + 1) (t * r / 2 ^ p / k) (sum + t)

/-- `exp` of `r / 2^p`, for `0 <= r / 2^p < 1`, times `2^p`. -/
def expSeries (p r : Nat) : Nat := expLoop p r p 1 (2 ^ p) 0

/-- The series of the inverse hyperbolic tangent from the odd power `z`, number `k`. -/
def atanhLoop (p sq : Nat) : Nat → Nat → Nat → Nat → Nat
  | 0, _, _, sum => sum
  | fuel + 1, k, z, sum => if z = 0 then sum else atanhLoop p sq fuel (k + 2) (z * sq / 2 ^ p) (sum + z / k)

/-- The logarithm of `(1 + z) / (1 - z)` with `z` times `2^p` given, for `0 <= z < 1/2`, times `2^p`. -/
def logSeries (p z : Nat) : Nat := 2 * atanhLoop p (z * z / 2 ^ p) p 1 z 0

/-! ## Results as exact ratios -/

/-- A number: its sign and its magnitude as a ratio. -/
structure Ratio where
  neg : Bool
  num : Nat
  den : Nat
  deriving DecidableEq, Repr

/-- Fraction bits enough for a relative error below 2^-300 when the operand is `u` units: 400, and three times as many
more as the operand lies below one. -/
def trigBits (u : Nat) : Nat := 400 + 3 * (1074 - floorLog2 u)

/-- The operand times `2^constBits`, as a number of quarter turns. -/
def quarterTurns (u : Nat) : Nat := u * 2 ^ (constBits - 1074) / halfPi

/-- What is left of `u` units after whole quarter turns, with `trigBits u` fraction bits. -/
def quarterRest (u : Nat) : Nat :=
  if quarterTurns u = 0 then u * 2 ^ trigBits u / unitsPerOne
  else u * 2 ^ (constBits - 1074) % halfPi / 2 ^ (constBits - trigBits u)

/-- The cosine of `u` units, after `turns` further quarter turns: `turns = 0` gives the cosine, 3 the sine. -/
def trigRatio (turns u : Nat) : Ratio where
  neg := (quarterTurns u + turns) % 4 == 1 || (quarterTurns u + turns) % 4 == 2
  num := if (quarterTurns u + turns) % 2 = 0 then cosSeries (trigBits u) (quarterRest u)
    else sinSeries (trigBits u) (quarterRest u)
  den := 2 ^ trigBits u

/-- Fraction bits for the exponential of `y / 2^q`: 400, and as many more as the operand lies below one. -/
def expBits (y q : Nat) : Nat := 400 + (q - floorLog2 y)

/-- `exp` of `y / 2^q`, which is positive. -/
def expPos (y q : Nat) : Ratio where
  neg := false
  num := expSeries (expBits y q) (y * 2 ^ expBits y q / 2 ^ q % (ln2 / 2 ^ (constBits - expBits y q))) *
    2 ^ (y * 2 ^ expBits y q / 2 ^ q / (ln2 / 2 ^ (constBits - expBits y q)))
  den := 2 ^ expBits y q

/-- `exp` of `-y / 2^q`, with `y` positive. -/
def expNeg (y q : Nat) : Ratio where
  neg := false
  num := expSeries (expBits y q)
    ((y * 2 ^ expBits y q / 2 ^ q / (ln2 / 2 ^ (constBits - expBits y q)) + 1) * (ln2 / 2 ^ (constBits - expBits y q)) -
      y * 2 ^ expBits y q / 2 ^ q)
  den := 2 ^ (expBits y q + (y * 2 ^ expBits y q / 2 ^ q / (ln2 / 2 ^ (constBits - expBits y q)) + 1))

/-- A positive number below every positive binary64 value, for an exponential too small to compute. -/
def tinyRatio : Ratio := ⟨false, 1, 2 ^ 3000⟩

/-- A number above every binary64 value, for an exponential too large to compute. -/
def hugeRatio : Ratio := ⟨false, 2 ^ 3000, 1⟩

/-- `exp` of a nonzero finite operand given as sign and `y / 2^q`. Beyond 2000 the result is below or above every finite
binary64 value. -/
def expRatio (neg : Bool) (y q : Nat) : Ratio :=
  if 2000 * 2 ^ q ≤ y then (if neg then tinyRatio else hugeRatio)
  else if neg then expNeg y q else expPos y q

/-- The fraction bits of logarithms. -/
def logBits : Nat := 400

/-- The logarithm of the significand of `u > 0` units, in `[1, 2)`, times `2^logBits`. -/
def logSig (u : Nat) : Nat :=
  logSeries logBits ((u - 2 ^ floorLog2 u) * 2 ^ logBits / (u + 2 ^ floorLog2 u))

/-- `ln u` of `u > 0` units. -/
def logRatio (u : Nat) : Ratio :=
  if 1074 ≤ floorLog2 u then
    ⟨false, (floorLog2 u - 1074) * (ln2 / 2 ^ (constBits - logBits)) + logSig u, 2 ^ logBits⟩
  else ⟨true, (1074 - floorLog2 u) * (ln2 / 2 ^ (constBits - logBits)) - logSig u, 2 ^ logBits⟩

/-- `log10` of `u > 0` units. -/
def log10Ratio (u : Nat) : Ratio :=
  ⟨(logRatio u).neg, (logRatio u).num * 2 ^ constBits, (logRatio u).den * ln10⟩

/-! ## The function unit (R15) -/

/-- The rounding of `FP_MODE` (R15, I6). The largest finite value is the last neighbour below infinity, and a result
beyond it is an infinity in both modes. -/
def fpRound (m : FpMode) (fn : FpFn) (x : Word) (r : Ratio) : Word :=
  match m with
  | .cr => fPack r.neg (if infMag ≤ roundDown (r.num * unitsPerOne) r.den + 1 ∧
      roundDown (r.num * unitsPerOne) r.den ≠ roundUp (r.num * unitsPerOne) r.den then infMag
    else roundNearest (r.num * unitsPerOne) r.den)
  | .faithful => fPack r.neg (if infMag ≤ roundDown (r.num * unitsPerOne) r.den + 1 ∧
      roundDown (r.num * unitsPerOne) r.den ≠ roundUp (r.num * unitsPerOne) r.den then infMag
    else if Config.faithfulAway fn x then roundUp (r.num * unitsPerOne) r.den
    else roundDown (r.num * unitsPerOne) r.den)

/-- The `k` in `0 .. 22` with `u` equal to `10^k` in units, if there is one (R15). -/
def powerOfTen (u : Nat) : Option Nat := (List.range 23).find? fun k => 10 ^ k * unitsPerOne == u

/-- `FP_COS` (R15). The cosine of an infinity is unstated: a free value (log 4). -/
@[irreducible] def fpCos (m : FpMode) (x : Word) : Word :=
  if isNaN x then fNaN
  else if isInf x then Config.fpUnstated .cos x
  else if isZero x then f1
  else fpRound m .cos x (trigRatio 0 (fUnits x))

/-- `FP_SIN` (R15). The sine of an infinity and the sign of the sine of `-0` are unstated: free values (log 4). -/
@[irreducible] def fpSin (m : FpMode) (x : Word) : Word :=
  if isNaN x then fNaN
  else if isInf x then Config.fpUnstated .sin x
  else if isZero x then fZero (fNeg x && fNeg (Config.fpUnstated .sin x))
  else fpRound m .sin x ⟨(trigRatio 3 (fUnits x)).neg != fNeg x, (trigRatio 3 (fUnits x)).num, (trigRatio 3 (fUnits x)).den⟩

/-- `FP_LOG` (R15). The logarithm of `-0` is unstated: a free value (log 4); that of `+inf` is `+inf` (DEDUCED, log 5). -/
@[irreducible] def fpLog (m : FpMode) (x : Word) : Word :=
  if isNaN x then fNaN
  else if isZero x then (if fNeg x then Config.fpUnstated .log x else fInf true)
  else if fNeg x then fNaN
  else if isInf x then fInf false
  else if x = f1 then f0p0
  else fpRound m .log x (logRatio (fUnits x))

/-- `FP_LOG10` (R15), with the same open points as `fpLog`. -/
@[irreducible] def fpLog10 (m : FpMode) (x : Word) : Word :=
  if isNaN x then fNaN
  else if isZero x then (if fNeg x then Config.fpUnstated .log10 x else fInf true)
  else if fNeg x then fNaN
  else if isInf x then fInf false
  else match powerOfTen (fUnits x) with
    | some k => fofNat k
    | none => fpRound m .log10 x (log10Ratio (fUnits x))

/-- `FP_EXP` (R15). -/
@[irreducible] def fpExp (m : FpMode) (x : Word) : Word :=
  if isNaN x then fNaN
  else if isInf x then (if fNeg x then f0p0 else fInf false)
  else if isZero x then f1
  else fpRound m .exp x (expRatio (fNeg x) (fUnits x) 1074)

/-- `10^k` or, with `neg`, `10^-k`, exactly. -/
def pow10Ratio (neg : Bool) (k : Nat) : Ratio := if neg then ⟨false, 1, 10 ^ k⟩ else ⟨false, 10 ^ k, 1⟩

/-- `FP_POW10` (R15). The power of an integer is rational and taken exactly (beyond 400 it is out of range anyway); every
other is irrational. -/
@[irreducible] def fpPow10 (m : FpMode) (x : Word) : Word :=
  if isNaN x then fNaN
  else if isInf x then (if fNeg x then f0p0 else fInf false)
  else if isZero x then f1
  else if !fNeg x && fUnits x % unitsPerOne == 0 && decide (fUnits x / unitsPerOne ≤ 22) then
    fofNat (10 ^ (fUnits x / unitsPerOne))
  else if fUnits x % unitsPerOne == 0 && decide (fUnits x / unitsPerOne ≤ 400) then
    fpRound m .pow10 x (pow10Ratio (fNeg x) (fUnits x / unitsPerOne))
  else fpRound m .pow10 x (expRatio (fNeg x) (fUnits x * ln10) (1074 + constBits))

/-! ## The twiddle table (R67, R140) -/

/-- The magnitude of the binary64 value nearest `cos(2 pi t / 2^l)`, for an angle of at most a quarter turn. -/
def cosTurnMag (l t : Nat) : Nat :=
  if t = 0 then fMag f1
  else if 4 * t = 2 ^ l then 0
  else roundNearest (cosSeries logBits (4 * t * (halfPi / 2 ^ (constBits - logBits)) / 2 ^ l) * unitsPerOne) (2 ^ logBits)

/-- `TC[t]`: the value nearest `cos(2 pi t / NMAX)`, `NMAX = 2^lmax`, `t` below `NMAX / 2` (R67). -/
@[irreducible] def tableCos (lmax t : Nat) : Word :=
  if 4 * t ≤ 2 ^ lmax then fPack false (cosTurnMag lmax t) else fPack true (cosTurnMag lmax (2 ^ lmax / 2 - t))

/-- `TS[t]`: the value nearest `sin(2 pi t / NMAX)` (R67). -/
@[irreducible] def tableSin (lmax t : Nat) : Word :=
  fPack false (if 4 * t ≤ 2 ^ lmax then cosTurnMag lmax (2 ^ lmax / 4 - t) else cosTurnMag lmax (t - 2 ^ lmax / 4))

/-- `WC_N(t)` for `N = 2^l` (R140). -/
def twCos (lmax l t : Nat) : Word := tableCos lmax (t * 2 ^ (lmax - l))

/-- `WS_N(t)` for `N = 2^l` (R140). -/
def twSin (lmax l t : Nat) : Word := tableSin lmax (t * 2 ^ (lmax - l))

end Sys2Proof.Machine
end

