-- ==== Sys2Proof/Machine/Transform.lean ====
section
/-! DEFINITION. The FFT engine: the radix-2 core (R141) and the commands FFTR, FFTI and POW (R142 to R145). -/

namespace Sys2Proof.Machine

/-- The low `l` bits of `n`, reversed (R141). -/
def bitrev : Nat → Nat → Nat
  | 0, _ => 0
  | l + 1, n => n % 2 * 2 ^ l + bitrev l (n / 2)

/-- A complex zero. -/
def cZero : Cpx := ⟨f0p0, f0p0⟩

/-- `a[bitrev_L(n)] = z[n]` (R141); reversing bits twice gives them back, so slot `m` takes `z[bitrev m]`. -/
def bitrevOrder (l : Nat) (z : List Cpx) : List Cpx := (List.range (2 ^ l)).map fun m => z.getD (bitrev l m) cZero

/-- `(wr, wi)` for index `t`: the sine negated in the forward direction (R141). -/
def twiddle (lmax l : Nat) (fwd : Bool) (t : Nat) : Cpx :=
  ⟨twCos lmax l t, if fwd then fneg (twSin lmax l t) else twSin lmax l t⟩

/-- `(tr, ti)` of one butterfly (R141). -/
def cmul (w b : Cpx) : Cpx :=
  ⟨fsub (fmul w.re b.re) (fmul w.im b.im), fadd (fmul w.re b.im) (fmul w.im b.re)⟩

/-- Complex addition, one rounding a part. -/
def cadd (a b : Cpx) : Cpx := ⟨fadd a.re b.re, fadd a.im b.im⟩

/-- Complex subtraction, one rounding a part. -/
def csub (a b : Cpx) : Cpx := ⟨fsub a.re b.re, fsub a.im b.im⟩

/-- The butterflies of one stage on `blocks` blocks of `2h` values, with the stage's `h` twiddles (R141). Butterflies of
one stage touch different values, so their order within it does not show. -/
def fftBlocks (h : Nat) (tw : List Cpx) : Nat → List Cpx → List Cpx
  | 0, _ => []
  | blocks + 1, a =>
    List.zipWith cadd (a.take h) (List.zipWith cmul tw ((a.drop h).take h)) ++
      List.zipWith csub (a.take h) (List.zipWith cmul tw ((a.drop h).take h)) ++
      fftBlocks h tw blocks (a.drop (2 * h))

/-- Stage `s` of `1 .. L`: `m = 2^s`, `h = m/2`, `step = N/m` (R141). -/
def fftStage (lmax l : Nat) (fwd : Bool) (a : List Cpx) (s : Nat) : List Cpx :=
  fftBlocks (2 ^ (s - 1)) ((List.range (2 ^ (s - 1))).map fun j => twiddle lmax l fwd (j * 2 ^ (l - s))) (2 ^ (l - s)) a

/-- `FFT_CORE(z, sgn)` for `N = 2^l` (R141); `fwd` is `sgn < 0`. -/
def fftCore (lmax l : Nat) (fwd : Bool) (z : List Cpx) : List Cpx :=
  (List.range l).foldl (fun a k => fftStage lmax l fwd a (k + 1)) (bitrevOrder l z)

/-- The computation of FFTR: the first `B` bins of the forward transform of `N` real values (R142). -/
def fftReal (lmax l : Nat) (x : List Word) : List Cpx := (fftCore lmax l true (x.map fun w => ⟨w, f0p0⟩)).take (sizeB l)

/-- The conjugate-symmetric spectrum that FFTI transforms (R143): the imaginary parts of bins 0 and `N/2` are ignored. -/
def hermitian (l : Nat) (y : List Cpx) : List Cpx :=
  (List.range (sizeN l)).map fun n =>
    if n = 0 ∨ n = sizeH l then ⟨(y.getD n cZero).re, f0p0⟩
    else if n < sizeH l then y.getD n cZero
    else ⟨(y.getD (sizeN l - n) cZero).re, fneg (y.getD (sizeN l - n) cZero).im⟩

/-- The computation of FFTI: `N` real values, not divided by `N` (R143). -/
def fftInverse (lmax l : Nat) (y : List Cpx) : List Word := (fftCore lmax l false (hermitian l y)).map Cpx.re

/-- `re*re + im*im` (R144). -/
def powerOf (z : Cpx) : Word := fadd (fmul z.re z.re) (fmul z.im z.im)

/-- The computation of POW (R144). -/
def powerSpectrum (y : List Cpx) : List Word := y.map powerOf

/-! ## Commands -/

/-- FFTR (R142). -/
def planFftr (sz : SizeSel) (src dst : Half) (s : State) : Check Effect := do
  s.needSize sz
  s.needRegion regionSrc src.toNat (sizeN (s.sizeExp sz))
  s.needRegion regionDst dst.toNat (sizeN (s.sizeExp sz) + 2)
  pure (.buffer dst.toNat
    (wordsOfCpx (fftReal s.cfg.log2nMax (s.sizeExp sz) (s.srcWords src (sizeN (s.sizeExp sz))))))

/-- FFTI (R143). -/
def planFfti (sz : SizeSel) (src dst : Half) (s : State) : Check Effect := do
  s.needSize sz
  s.needRegion regionSrc src.toNat (sizeN (s.sizeExp sz) + 2)
  s.needRegion regionDst dst.toNat (sizeN (s.sizeExp sz))
  pure (.buffer dst.toNat (fftInverse s.cfg.log2nMax (s.sizeExp sz)
    (cpxOfWords (sizeB (s.sizeExp sz)) (s.srcWords src (sizeN (s.sizeExp sz) + 2)))))

/-- POW (R144). -/
def planPow (sz : SizeSel) (src dst : Half) (s : State) : Check Effect := do
  s.needSize sz
  s.needRegion regionSrc src.toNat (sizeN (s.sizeExp sz) + 2)
  s.needRegion regionDst dst.toNat (sizeB (s.sizeExp sz))
  pure (.buffer dst.toNat
    (powerSpectrum (cpxOfWords (sizeB (s.sizeExp sz)) (s.srcWords src (sizeN (s.sizeExp sz) + 2)))))

/-- FFTR (R142). -/
def execFftr (sz : SizeSel) (src dst : Half) (s : State) : Host.Outcome State Fault Refusal :=
  s.run (.ofCheck (planFftr sz src dst s))

/-- FFTI (R143). -/
def execFfti (sz : SizeSel) (src dst : Half) (s : State) : Host.Outcome State Fault Refusal :=
  s.run (.ofCheck (planFfti sz src dst s))

/-- POW (R144). -/
def execPow (sz : SizeSel) (src dst : Half) (s : State) : Host.Outcome State Fault Refusal :=
  s.run (.ofCheck (planPow sz src dst s))

end Sys2Proof.Machine
end

