-- ==== Sys2Proof/Machine/Window.lean ====
section
/-! DEFINITION. The window generator and segment extractor: frame centres and samples (R160, R161), the F0-adaptive
window (R162 to R165, R168), and the commands WSEG and WGEN (R166, R167). -/

namespace Sys2Proof.Machine

/-! ## The F0-adaptive window -/

/-- `FrameCentre(i)` (R160). -/
def frameCentre (c : Csr) (i : Nat) : Word := fmul (fdiv (fmul (fofNat i) c.framePeriod) f1000) c.fsF

/-- `hx` (R162). -/
def winHx (fs r f0 : Word) : Word := fdiv (fdiv (fmul r fs) f0) f2

/-- `H = RHA(hx)`, of a finite `hx` that is not negative (R162). -/
def winH (fs r f0 : Word) : Nat := (frha (winHx fs r f0)).toNat

/-- `Lw = 2*H + 1` (R162); `WinLen(r, f0)` (R168). -/
def winLen (fs r f0 : Word) : Nat := 2 * winH fs r f0 + 1

/-- The window fits `n` points: `hx` is finite and `Lw <= n` (R162). -/
def winFits (fs r f0 : Word) (n : Nat) : Bool := isFinite (winHx fs r f0) && winLen fs r f0 ≤ n

/-- ERRINFO of E_WINLEN: `min(Lw, 2^64 - 1)`, and `2^64 - 1` when `hx` is not finite (R162). -/
def winLenInfo (fs r f0 : Word) : Nat :=
  if isFinite (winHx fs r f0) then min (winLen fs r f0) (2 ^ 64 - 1) else 2 ^ 64 - 1

/-- The angle `a` at point `i` of a window of half-length `h` (R163). -/
def winAngle (fs r f0 : Word) (h i : Nat) : Word :=
  fmul (fmul fPi (fdiv (fdiv (fmul f2 (fofInt ((i : Int) - h))) r) fs)) f0

/-- The window function of an angle (R163). WSEG has no Nuttall form; decoding admits none (R119). -/
def winValue (m : FpMode) (win : Win) (a : Word) : Word :=
  match win with
  | .hann => fadd (fmul f0p5 (fpCos m a)) f0p5
  | .blackman | .nuttall =>
    fadd (fadd f0p42 (fmul f0p5 (fpCos m a))) (fmul f0p08 (fpCos m (fmul a f2)))

/-- A sum in list order, from `+0.0` (R17). -/
def fsum (xs : List Word) : Word := xs.foldl fadd f0p0

/-- Every value divided by `e`. -/
def divAll (e : Word) (w : List Word) : List Word := w.map fun x => fdiv x e

/-- `w[i] / e` with `e` the root of the window's energy (R164). -/
def winNormalise (w : List Word) : List Word := divAll (fsqrt (fsum (w.map fun y => fmul y y))) w

/-- The window of R163, normalised with NRM (R164). -/
def winValues (m : FpMode) (win : Win) (nrm : Bool) (fs r f0 : Word) : List Word :=
  if nrm then
    winNormalise ((List.range (winLen fs r f0)).map fun i => winValue m win (winAngle fs r f0 (winH fs r f0) i))
  else (List.range (winLen fs r f0)).map fun i => winValue m win (winAngle fs r f0 (winH fs r f0) i)

/-- `origin = RHA(centre)` (R165). A centre that overflows is no finite value, and R14 states no conversion for it: the
origin is a free value (log 16). -/
def winOrigin (centre : Word) : Int := if isFinite centre then frha centre else Config.originUnstated centre

/-- `v[i] - w[i] * coef` (R165). -/
def subScaled (coef : Word) (w v : List Word) : List Word := List.zipWith (fun x y => fsub x (fmul y coef)) v w

/-- Mean removal, DCR (R165). -/
def winRemoveMean (w v : List Word) : List Word := subScaled (fdiv (fsum v) (fsum w)) w v

/-- The sample indices under the window (R165). -/
def winIndices (centre : Word) (h : Nat) : List Int :=
  (List.range (2 * h + 1)).map fun (i : Nat) => winOrigin centre + (i : Int) - (h : Int)

/-- E_NONFINITE for the first sample under the window that is not finite (R161, R165). -/
def samplesFinite (x : Int → Word) (js : List Int) : Check Unit :=
  match js.find? fun j => !isFinite (x j) with
  | none => .ok ()
  | some j => .error ⟨.nonfinite, BitVec.ofNat 64 j.toNat⟩

/-- `v` of R165 from the samples and the window. -/
def winSegment (x : Int → Word) (js : List Int) (w : List Word) (dcr : Bool) : List Word :=
  if dcr then winRemoveMean w (List.zipWith (fun j y => fmul (x j) y) js w)
  else List.zipWith (fun j y => fmul (x j) y) js w

/-- The first `n` of the values and then `+0.0`: "zero-pad to the FFT size" (R166). -/
def padTo (n : Nat) (v : List Word) : List Word := (List.range n).map fun k => v.getD k f0p0

/-- The computation of WSEG on `N = 2^l` points: R162 to R165, padded. -/
def segment (m : FpMode) (fs : Word) (l : Nat) (x : Int → Word) (centre f0 r : Word) (win : Win) (nrm dcr : Bool) :
    Check (List Word) := do
  require (winFits fs r f0 (sizeN l)) .winlen (winLenInfo fs r f0)
  samplesFinite x (winIndices centre (winH fs r f0))
  pure (padTo (sizeN l) (winSegment x (winIndices centre (winH fs r f0)) (winValues m win nrm fs r f0) dcr))

/-! ## WGEN (R167) -/

/-- `x = t / (L - 1.0)`. -/
def genX (len t : Nat) : Word := fdiv (fofNat t) (fsub (fofNat len) f1)

/-- The window function of R167 at `x`. -/
def genValue (m : FpMode) (win : Win) (x : Word) : Word :=
  match win with
  | .hann => fsub f0p5 (fmul f0p5 (fpCos m (fmul f2Pi x)))
  | .blackman => fadd (fsub f0p42 (fmul f0p5 (fpCos m (fmul f2Pi x)))) (fmul f0p08 (fpCos m (fmul f4Pi x)))
  | .nuttall =>
    fsub (fadd (fsub nuttall0 (fmul nuttall1 (fpCos m (fmul f2Pi x)))) (fmul nuttall2 (fpCos m (fmul f4Pi x))))
      (fmul nuttall3 (fpCos m (fmul (fmul f6 fPi) x)))

/-- The window of `len` points (R167). -/
def genWindow (m : FpMode) (win : Win) (len : Nat) : List Word :=
  if len = 1 then [f1] else (List.range len).map fun t => genValue m win (genX len t)

/-! ## Commands -/

/-- WSEG (R166). The Nuttall shape is illegal (R119 test 3) and never decodes to this command. -/
def planWseg (sz : SizeSel) (win : Win) (nrm dcr : Bool) (prm dst : Half) (s : State) : Check Effect := do
  require (win != .nuttall) .illegal 3
  s.needFs
  s.needSize sz
  s.needRegion regionPrm prm.toNat 3
  s.needRegion regionX s.csr.xBase.toNat s.csr.xLen.toNat
  s.needRegion regionDst dst.toNat (sizeN (s.sizeExp sz))
  needFinite (s.prmWord prm 0) 0
  needFinite (s.prmWord prm 1) 1
  needFinite (s.prmWord prm 2) 2
  needPositive (s.prmWord prm 1) 1
  needPositive (s.prmWord prm 2) 2
  let v ← segment s.cfg.fpMode s.csr.fsF (s.sizeExp sz) (s.sample tagX) (s.prmWord prm 0) (s.prmWord prm 1)
    (s.prmWord prm 2) win nrm dcr
  pure (.buffer dst.toNat v)

/-- `L` of WGEN (R167). -/
def wgenLen (prm : Half) (s : State) : Nat := (s.prmWord prm 0).toNat

/-- WGEN (R167). -/
def planWgen (win : Win) (prm dst : Half) (s : State) : Check Effect := do
  s.needRegion regionPrm prm.toNat 1
  require (1 ≤ wgenLen prm s && wgenLen prm s ≤ 2 ^ s.cfg.log2nMax) .param (wgenLen prm s)
  s.needRegion regionDst dst.toNat (wgenLen prm s)
  pure (.buffer dst.toNat (genWindow s.cfg.fpMode win (wgenLen prm s)))

/-- WSEG (R166). -/
def execWseg (sz : SizeSel) (win : Win) (nrm dcr : Bool) (prm dst : Half) (s : State) :
    Host.Outcome State Fault Refusal :=
  s.run (.ofCheck (planWseg sz win nrm dcr prm dst s))

/-- WGEN (R167). -/
def execWgen (win : Win) (prm dst : Half) (s : State) : Host.Outcome State Fault Refusal :=
  s.run (.ofCheck (planWgen win prm dst s))

end Sys2Proof.Machine
end

