-- ==== Sys2Proof/Machine/Envelope.lean ====
section
/-! DEFINITION. The spectral envelope unit: DCCORR, LSMOOTH and LIFTER (R181 to R184) and the envelope frame engine
ENVRUN (R180, R185 to R189), with the parts of the frame engines that ENVRUN and APRUN share (R188, R282 to R284). -/

namespace Sys2Proof.Machine

/-! ## Interpolation (R181) -/

/-- One query of `interp1Q`. -/
def interpAt (x0 d : Word) (y : List Word) (xi : Word) : Check Word :=
  let t := fdiv (fsub xi x0) d
  if isFinite t && 0 ≤ ftrunc t && ftrunc t < y.length then
    let j := (ftrunc t).toNat
    let dy := if j + 1 < y.length then fsub (y.getD (j + 1) f0p0) (y.getD j f0p0) else f0p0
    .ok (fadd (y.getD j f0p0) (fmul dy (fsub t (fofInt (ftrunc t)))))
  else .error ⟨.range, 0⟩

/-- `interp1Q(x0, d, y, xi)` (R181). -/
def interp1Q (x0 d : Word) (y xi : List Word) : Check (List Word) := xi.mapM (interpAt x0 d y)

/-! ## DCCORR (R182) -/

/-- `t = (f0 * N) / FS`, also LSMOOTH's with the width for `f0` (R182, R183). -/
def binsOf (fs : Word) (l : Nat) (f0 : Word) : Word := fdiv (fmul f0 (fofNat (sizeN l))) fs

/-- "t < N/2 - 1", the check of f0 (R182). -/
def dcLegal (fs : Word) (l : Nat) (f0 : Word) : Bool := flt (binsOf fs l f0) (fofNat (sizeH l - 1))

/-- `(i * FS) / N`: the frequency of bin `i` as R182 and R224 compute it. -/
def binFreq (fs : Word) (l i : Nat) : Word := fdiv (fmul (fofNat i) fs) (fofNat (sizeN l))

/-- `FS / N`. -/
def binStep (fs : Word) (l : Nat) : Word := fdiv fs (fofNat (sizeN l))

/-- `out[k] = p[k] + rep[k]` where there is a replica, else `p[k]` (R182). -/
def addReplica (p rep : List Word) : List Word := List.zipWith fadd p rep ++ p.drop rep.length

/-- The computation of DCCORR. A `U` beyond `N/2` has no grid `p[0..U]`; the check of `f0` excludes it (log 15). -/
def dcCorr (fs : Word) (l : Nat) (p : List Word) (f0 : Word) : Check (List Word) := do
  require (isFinite (binsOf fs l f0) && 0 ≤ ftrunc (binsOf fs l f0) && ftrunc (binsOf fs l f0) + 2 ≤ sizeH l) .range 0
  let u := (ftrunc (binsOf fs l f0)).toNat + 2
  let rep ← interp1Q f0 (fneg (binStep fs l)) (p.take (u + 1)) ((List.range (u - 1)).map (binFreq fs l))
  pure (addReplica p rep)

/-! ## LSMOOTH (R183) -/

/-- "t < h", the check of the width (R183). -/
def smoothLegal (fs : Word) (l : Nat) (w : Word) : Bool := flt (binsOf fs l w) (fofNat (sizeH l))

/-- `mir`: the spectrum mirrored at both ends by `bd` bins (R183). -/
def mirrored (h bd : Nat) (p : List Word) : List Word :=
  (List.range (h + 2 * bd + 1)).map fun i =>
    if i < bd then p.getD (bd - i) f0p0 else if i ≤ h + bd then p.getD (i - bd) f0p0 else p.getD (2 * h + bd - i) f0p0

/-- Running sums after `acc`: each value plus the sum before it. -/
def sumsFrom (acc : Word) : List Word → List Word
  | [] => []
  | x :: xs => fadd x acc :: sumsFrom (fadd x acc) xs

/-- The cumulative sum, the first value as it is (R183, R223). -/
def cumSum : List Word → List Word
  | [] => []
  | x :: xs => x :: sumsFrom x xs

/-- `origin = (-(Bd - 0.5) * FS) / N` (R183). -/
def smoothOrigin (fs : Word) (l bd : Nat) : Word :=
  fdiv (fmul (fneg (fsub (fofNat bd) f0p5)) fs) (fofNat (sizeN l))

/-- `lo[k] = ((k / N) * FS) - w / 2.0` (R183). -/
def smoothLo (fs : Word) (l : Nat) (w : Word) (k : Nat) : Word :=
  fsub (fmul (fdiv (fofNat k) (fofNat (sizeN l))) fs) (fdiv w f2)

/-- The computation of LSMOOTH. A `Bd` beyond `h` has no mirror; the check of the width excludes it (log 15). -/
def smooth (fs : Word) (l : Nat) (p : List Word) (w : Word) : Check (List Word) := do
  require (isFinite (binsOf fs l w) && 0 ≤ ftrunc (binsOf fs l w) && ftrunc (binsOf fs l w) + 1 ≤ sizeH l) .range 0
  let bd := (ftrunc (binsOf fs l w)).toNat + 1
  let seg := cumSum ((mirrored (sizeH l) bd p).map fun x => fdiv (fmul x fs) (fofNat (sizeN l)))
  let lo := (List.range (sizeB l)).map (smoothLo fs l w)
  let lower ← interp1Q (smoothOrigin fs l bd) (binStep fs l) seg lo
  let upper ← interp1Q (smoothOrigin fs l bd) (binStep fs l) seg (lo.map fun x => fadd x w)
  pure (List.zipWith (fun a b => fdiv (fsub a b) w) upper lower)

/-! ## LIFTER (R184) -/

/-- The even real sequence of length `N` of the log spectrum `lg` (R184). -/
def evenExtend (l : Nat) (lg : List Word) : List Word :=
  (List.range (sizeN l)).map fun n => if n ≤ sizeH l then lg.getD n f0p0 else lg.getD (sizeN l - n) f0p0

/-- `q = k / FS`, the quefrency (R184). -/
def quefrency (fs : Word) (k : Nat) : Word := fdiv (fofNat k) fs

/-- `sl`: the sinc smoothing lifter, 1 without SLIFT and at `k = 0` (R184). -/
def sincLift (m : FpMode) (fs : Word) (slift : Bool) (f0 : Word) (k : Nat) : Word :=
  if k = 0 || !slift then f1
  else fdiv (fpSin m (fmul (fmul fPi f0) (quefrency fs k))) (fmul (fmul fPi f0) (quefrency fs k))

/-- `cl`: the q1 compensation lifter (R184). -/
def q1Lift (m : FpMode) (fs q1 f0 : Word) (k : Nat) : Word :=
  if k = 0 then fadd (fsub f1 (fmul f2 q1)) (fmul f2 q1)
  else fadd (fsub f1 (fmul f2 q1)) (fmul (fmul f2 q1) (fpCos m (fmul (fmul f2Pi (quefrency fs k)) f0)))

/-- `((C[k].re * sl) * cl) / N` for each bin (R184). -/
def liftCepstrum (m : FpMode) (fs : Word) (l : Nat) (slift : Bool) (f0 q1 : Word) (c : List Cpx) : List Cpx :=
  (List.range (sizeB l)).map fun k =>
    ⟨fdiv (fmul (fmul (c.getD k cZero).re (sincLift m fs slift f0 k)) (q1Lift m fs q1 f0 k)) (fofNat (sizeN l)), f0p0⟩

/-- `MAX(ABS(FP_EXP(z)), eps)` (R184). -/
def expFloor (m : FpMode) (eps z : Word) : Word := fmax (fabs (fpExp m z)) eps

/-- The computation of LIFTER (R184). -/
def lift (p : Params) (fs : Word) (l : Nat) (slift : Bool) (eps f0 q1 : Word) (spec : List Word) : List Word :=
  ((fftInverse p.log2nMax l (liftCepstrum p.fpMode fs l slift f0 q1
    (fftReal p.log2nMax l (evenExtend l (spec.map fun x => fpLog p.fpMode (fmax x eps)))))).take (sizeB l)).map
      (expFloor p.fpMode eps)

/-! ## Primitive commands -/

/-- DCCORR (R182). -/
def planDccorr (sz : SizeSel) (prm src dst : Half) (s : State) : Check Effect := do
  s.needFs
  s.needSize sz
  s.needRegion regionPrm prm.toNat 1
  s.needRegion regionSrc src.toNat (sizeB (s.sizeExp sz))
  s.needRegion regionDst dst.toNat (sizeB (s.sizeExp sz))
  needFinite (s.prmWord prm 0) 0
  needPositive (s.prmWord prm 0) 0
  require (dcLegal s.csr.fsF (s.sizeExp sz) (s.prmWord prm 0)) .param 0
  let out ← dcCorr s.csr.fsF (s.sizeExp sz) (s.srcWords src (sizeB (s.sizeExp sz))) (s.prmWord prm 0)
  pure (.buffer dst.toNat out)

/-- LSMOOTH (R183). -/
def planLsmooth (sz : SizeSel) (prm src dst : Half) (s : State) : Check Effect := do
  s.needFs
  s.needSize sz
  s.needRegion regionPrm prm.toNat 1
  s.needRegion regionSrc src.toNat (sizeB (s.sizeExp sz))
  s.needRegion regionDst dst.toNat (sizeB (s.sizeExp sz))
  needFinite (s.prmWord prm 0) 0
  needPositive (s.prmWord prm 0) 0
  require (smoothLegal s.csr.fsF (s.sizeExp sz) (s.prmWord prm 0)) .param 0
  let out ← smooth s.csr.fsF (s.sizeExp sz) (s.srcWords src (sizeB (s.sizeExp sz))) (s.prmWord prm 0)
  pure (.buffer dst.toNat out)

/-- LIFTER (R184). -/
def planLifter (sz : SizeSel) (slift : Bool) (prm src dst : Half) (s : State) : Check Effect := do
  s.needFs
  s.needEnvEps
  s.needSize sz
  s.needRegion regionPrm prm.toNat 2
  s.needRegion regionSrc src.toNat (sizeB (s.sizeExp sz))
  s.needRegion regionDst dst.toNat (sizeB (s.sizeExp sz))
  needFinite (s.prmWord prm 0) 0
  needFinite (s.prmWord prm 1) 1
  needPositive (s.prmWord prm 0) 0
  pure (.buffer dst.toNat (lift s.cfg s.csr.fsF (s.sizeExp sz) slift s.csr.envEps (s.prmWord prm 0) (s.prmWord prm 1)
    (s.srcWords src (sizeB (s.sizeExp sz)))))

/-! ## What the frame engines share -/

/-- `EffF0` (R180). -/
def effF0 (c : Csr) (f0r : Word) : Word := if flt c.f0Floor f0r then f0r else c.defaultF0

/-- The F0 word of frame `i` (R90). -/
def State.f0Word (s : State) (tag i : Nat) : Word := s.cmdRead tag (s.csr.f0Base.toNat + i)

/-- The frames `FIRST .. FIRST + COUNT - 1`. -/
def frameRange (first count : Nat) : List Nat := (List.range count).map fun k => first + k

/-- "raise code(i)" for the lowest frame of a list that fails a check. -/
def allFrames (ok : Nat → Bool) (code : ErrCode) (frames : List Nat) : Check Unit :=
  match frames.find? fun i => !ok i with
  | none => .ok ()
  | some i => .error ⟨code, BitVec.ofNat 64 i⟩

/-- The shape check of a frame engine (R283). -/
def State.needShape (s : State) : Check Unit := do
  require (s.csr.outRows == s.csr.f0Len) .shape 0
  require (s.csr.outCols.toNat == sizeB (s.sizeExp .env)) .shape 1

/-- The number of words of an output matrix (R59). -/
def Csr.outWords (c : Csr) : Nat := c.outRows.toNat * c.outCols.toNat

/-- The address checks of a frame engine whose output matrix is at `base` (R284). -/
def State.needArrays (s : State) (base : Word) : Check Unit := do
  s.needRegion 3 s.csr.xBase.toNat s.csr.xLen.toNat
  s.needRegion 4 s.csr.f0Base.toNat s.csr.f0Len.toNat
  s.needRegion 5 base.toNat s.csr.outWords
  require (!overlaps base.toNat s.csr.outWords s.csr.xBase.toNat s.csr.xLen.toNat) .addr 6
  require (!overlaps base.toNat s.csr.outWords s.csr.f0Base.toNat s.csr.f0Len.toNat) .addr 7

/-- The checks of the frame range and of the F0 values (R186, R226); `f0Ok` is the engine's check of an effective F0. -/
def State.needFrames (s : State) (first count : Nat) (f0Ok : Word → Bool) : Check Unit := do
  require (first + count ≤ s.csr.f0Len.toNat) .param (first + count)
  allFrames (fun i => isFinite (s.f0Word tagF0Finite i)) .nonfinite (frameRange first count)
  allFrames (fun i => f0Ok (effF0 s.csr (s.f0Word tagF0Limit i))) .param (frameRange first count)

/-- What one frame of phase 2 comes to: the row it computed (none when the frame stopped before it had one) and the
error it raises, if any (R188). -/
structure FrameOut where
  row : List Word
  err : Option ErrCode
  deriving DecidableEq, Repr

/-- A computed row, with E_NUMERIC when a value of it is not finite (R188). -/
def FrameOut.ofCheck : Check (List Word) → FrameOut
  | .error r => ⟨[], some r.code⟩
  | .ok row => ⟨row, if row.all isFinite then none else some .numeric⟩

/-- The words of the rows that frames of a range computed, row `i` at `base + i * cols` (R90). -/
def rowWords (base cols first : Nat) (outs : List FrameOut) : List (Nat × Word) :=
  (List.range outs.length).flatMap fun k => wordsAt (base + (first + k) * cols) (outs.getD k ⟨[], none⟩).row

/-- The end of phase 2 (R188, R228): the rows of the range, or the error of the lowest failing frame with that frame's
index, the words of the range's rows then being unspecified. -/
def phase2 (base cols first : Nat) (outs : List FrameOut) : Verdict :=
  match outs.findIdx? fun o => o.err.isSome with
  | none => .done { writes := rowWords base cols first outs }
  | some k => .spoiled ⟨((outs.getD k ⟨[], none⟩).err.getD .numeric), BitVec.ofNat 64 (first + k)⟩
      (rowWords base cols first outs)

/-- Phase 1, then phase 2 (R185, R225). -/
def phases (one : Check Unit) (two : Verdict) : Verdict :=
  match one with
  | .ok _ => two
  | .error r => .failed r

/-! ## ENVRUN (R185 to R189) -/

/-- The configuration checks of ENVRUN (R282). A default window whose half-length is not finite does not fit (log 14). -/
def State.needEnvConfig (s : State) : Check Unit := do
  s.needFs
  require (posFinite s.csr.framePeriod) .config 0x088
  s.needSize .env
  require (posFinite s.csr.f0Floor) .config 0x0A0
  require (posFinite s.csr.defaultF0) .config 0x0A8
  require (isFinite s.csr.q1) .config 0x0B0
  require (posFinite s.csr.envLsmRatio) .config 0x0C0
  require (posFinite s.csr.envEps) .config 0x0D8
  require (fle (f0FloorR s.csr.fsF envRatio (sizeN (s.sizeExp .env))) s.csr.f0Floor) .config 0x090
  require (winFits s.csr.fsF envRatio s.csr.defaultF0 (sizeN (s.sizeExp .env))) .config 0x0A8

/-- The checks of an effective F0 (R186). -/
def envF0Ok (c : Csr) (f0 : Word) : Bool :=
  dcLegal c.fsF c.log2nEnv.toNat f0 && smoothLegal c.fsF c.log2nEnv.toNat (fmul c.envLsmRatio f0)

/-- Phase 1 of ENVRUN (R186). -/
def State.envPhase1 (s : State) (first count : Nat) : Check Unit := do
  s.needEnvConfig
  s.needShape
  s.needArrays s.csr.envBase
  s.needFrames first count (envF0Ok s.csr)

/-- ENV_CTRL.SLIFT (R54). -/
def Csr.slift (c : Csr) : Bool := c.envCtrl.getLsbD 0

/-- The row of frame `i` (R187). -/
def State.envRow (s : State) (i : Nat) : Check (List Word) := do
  let fs := s.csr.fsF
  let l := s.sizeExp .env
  let f0 := effF0 s.csr (s.f0Word (tagF0 i) i)
  let seg ← segment s.cfg.fpMode fs l (s.sample (tagWave 0 i)) (frameCentre s.csr i) f0 envRatio .hann true true
  let p ← dcCorr fs l (powerSpectrum (fftReal s.cfg.log2nMax l seg)) f0
  let p ← smooth fs l p (fmul s.csr.envLsmRatio f0)
  pure (lift s.cfg fs l s.csr.slift s.csr.envEps f0 s.csr.q1 p)

/-- ENVRUN (R185). -/
def planEnvrun (first count : Half) (s : State) : Verdict :=
  phases (s.envPhase1 first.toNat count.toNat)
    (phase2 s.csr.envBase.toNat s.csr.outCols.toNat first.toNat
      ((frameRange first.toNat count.toNat).map fun i => .ofCheck (s.envRow i)))

/-- DCCORR (R182). -/
def execDccorr (sz : SizeSel) (prm src dst : Half) (s : State) : Host.Outcome State Fault Refusal :=
  s.run (.ofCheck (planDccorr sz prm src dst s))

/-- LSMOOTH (R183). -/
def execLsmooth (sz : SizeSel) (prm src dst : Half) (s : State) : Host.Outcome State Fault Refusal :=
  s.run (.ofCheck (planLsmooth sz prm src dst s))

/-- LIFTER (R184). -/
def execLifter (sz : SizeSel) (slift : Bool) (prm src dst : Half) (s : State) : Host.Outcome State Fault Refusal :=
  s.run (.ofCheck (planLifter sz slift prm src dst s))

/-- ENVRUN (R185). -/
def execEnvrun (first count : Half) (s : State) : Host.Outcome State Fault Refusal := s.run (planEnvrun first count s)

end Sys2Proof.Machine
end

