-- ==== Sys2Proof/Machine/Aperiodicity.lean ====
section
/-! DEFINITION. The aperiodicity unit: CENTROID, GDELAY and VUV (R210 to R213), the bands, BANDAP and APINTERP (R220 to
R224), and the aperiodicity frame engine APRUN (R225 to R229). -/

namespace Sys2Proof.Machine

/-! ## Group delay (R210, R211) -/

/-- `u`: the segment divided by the root of its energy, floored (R210). -/
def unitEnergy (safeMin : Word) (x : List Word) : List Word :=
  divAll (fsqrt (fmax (fsum (x.map fun y => fmul y y)) safeMin)) x

/-- `v[n] = u[n] * (n + 1.0)` (R210). -/
def timeWeighted (u : List Word) : List Word :=
  List.zipWith (fun x n => fmul x (fofNat (n + 1))) u (List.range u.length)

/-- The real part of a spectrum times the conjugate of another (R210). -/
def cDot (a b : Cpx) : Word := fadd (fmul a.re b.re) (fmul a.im b.im)

/-- The computation of CENTROID (R210). -/
def centroid (lmax l : Nat) (safeMin : Word) (x : List Word) : List Word :=
  List.zipWith cDot (fftReal lmax l (unitEnergy safeMin x)) (fftReal lmax l (timeWeighted (unitEnergy safeMin x)))

/-- `g[k] = sc[k] / MAX(sp[k], SAFE_MIN)` (R211). -/
def delayRatio (safeMin : Word) (sc sp : List Word) : List Word :=
  List.zipWith (fun a b => fdiv a (fmax b safeMin)) sc sp

/-- The computation of GDELAY (R211). -/
def groupDelay (fs : Word) (l : Nat) (safeMin : Word) (sc sp : List Word) (f0 : Word) : Check (List Word) := do
  let g ← smooth fs l (delayRatio safeMin sc sp) (fdiv f0 f2)
  let sm ← smooth fs l g f0
  pure (List.zipWith fsub g sm)

/-! ## VUV (R212) -/

/-- `b[j] = min(CEIL((F * N) / FS), h)` (R212). -/
def vuvBin (fs : Word) (l : Nat) (f : Word) : Nat := min (fceil (binsOf fs l f)).toNat (sizeH l)

/-- The sum of the bins after `lo` up to `hi`, in order, from `+0.0` (R212). -/
def binSum (p : List Word) (lo hi : Nat) : Word := fsum ((p.drop (lo + 1)).take (hi - lo))

/-- `num` of R212: the running sum when the loop reaches bin `b[1]`, and 0 when it does not (`b[1] = b[0]`). -/
def vuvNum (p : List Word) (b0 b1 b2 : Nat) : Word := if b1 ≤ b2 then binSum p b0 b1 else f0p0

/-- The computation of VUV (R212). -/
def vuvIndicator (fs : Word) (l : Nat) (safeMin : Word) (p : List Word) : Word :=
  fdiv (vuvNum p (vuvBin fs l vuvF0) (vuvBin fs l vuvF1) (vuvBin fs l vuvF2))
    (fmax (binSum p (vuvBin fs l vuvF0) (vuvBin fs l vuvF2)) safeMin)

/-! ## Bands (R220 to R222) -/

/-- `nb` (R220). -/
def bandCount (fs : Word) : Nat :=
  let v := fdiv (fmin bandUpper (fsub (fdiv fs f2) bandInterval)) bandInterval
  if flt f0p0 v then (ftrunc v).toNat else 0

/-- `hb = (Lb - 1) / 2` (R221). -/
def bandHalf (fs : Word) (l : Nat) : Nat := (ftrunc (binsOf fs l bandInterval)).toNat

/-- `Lb = 2 * TRUNC((BAND_INTERVAL * N) / FS) + 1` (R221). -/
def bandLen (fs : Word) (l : Nat) : Nat := 2 * bandHalf fs l + 1

/-- `bb` (R222). -/
def bandBoundary (fs : Word) (l : Nat) : Int := frha (fdiv (fmul (fofNat (sizeN l)) bandK) (fofNat (bandLen fs l)))

/-- `idx = N/2 - bb - 1` (R222). -/
def bandIdx (fs : Word) (l : Nat) : Int := (sizeH l : Int) - bandBoundary fs l - 1

/-- `BAND_INTERVAL * (j + 1)`, the centre of band `j` in Hz (R220). -/
def bandFreq (j : Nat) : Word := fmul bandInterval (fofNat (j + 1))

/-- `c[j]` (R222). -/
def bandCentre (fs : Word) (l j : Nat) : Nat := (ftrunc (fdiv (fmul (bandFreq j) (fofNat (sizeN l))) fs)).toNat

/-- The geometry is legal (R222). -/
def bandsLegal (fs : Word) (l : Nat) : Bool :=
  bandCount fs == 0 ||
    (3 ≤ bandLen fs l && 0 ≤ bandIdx fs l &&
      (List.range (bandCount fs)).all fun j =>
        bandHalf fs l ≤ bandCentre fs l j && bandCentre fs l j + bandHalf fs l ≤ sizeH l)

/-! ## BANDAP (R223) -/

/-- Where a value goes in the ascending order, NaN last (R223). -/
def insertSorted (x : Word) : List Word → List Word
  | [] => [x]
  | y :: ys => if flt y x || (isNaN x && !isNaN y) then y :: insertSorted x ys else x :: y :: ys

/-- The values in ascending order, NaN last (R223). -/
def sortAscending (xs : List Word) : List Word := xs.foldr insertSorted []

/-- `u` of band `j`: the band's bins under the band window, then zeros (R223). -/
def bandSegment (m : FpMode) (fs : Word) (l : Nat) (g : List Word) (j : Nat) : List Word :=
  padTo (sizeN l) (List.zipWith fmul ((g.drop (bandCentre fs l j - bandHalf fs l)).take (bandLen fs l))
    (genWindow m .nuttall (bandLen fs l)))

/-- `MIN(0.0, a + (f0 - REV_F0) / REV_DIV)` with `a` in dB from the cumulative powers `cs` (R223). -/
def bandValue (m : FpMode) (safeMin f0 : Word) (idx h : Nat) (cs : List Word) : Word :=
  fmin f0p0 (fadd (fmul f10 (fpLog10 m (fmax (fdiv (cs.getD idx f0p0) (fmax (cs.getD h f0p0) safeMin)) safeMin)))
    (fdiv (fsub f0 revF0) revDiv))

/-- `coarse[j]` (R223). -/
def bandCoarse (p : Params) (fs : Word) (l : Nat) (safeMin f0 : Word) (g : List Word) (j : Nat) : Word :=
  bandValue p.fpMode safeMin f0 (bandIdx fs l).toNat (sizeH l)
    (cumSum (sortAscending (powerSpectrum (fftReal p.log2nMax l (bandSegment p.fpMode fs l g j)))))

/-- The computation of BANDAP (R223). -/
def bandAperiodicity (p : Params) (fs : Word) (l : Nat) (safeMin : Word) (g : List Word) (f0 : Word) :
    Check (List Word) := do
  require (bandsLegal fs l) .range 0
  pure ((List.range (bandCount fs)).map (bandCoarse p fs l safeMin f0 g))

/-! ## APINTERP (R224) -/

/-- `Xc` (R224). -/
def coarseX (fs : Word) : List Word :=
  (List.range (bandCount fs + 1)).map (fun j => if j = 0 then f0p0 else fmul bandInterval (fofNat j)) ++ [fdiv fs f2]

/-- `Yc` (R224). -/
def coarseY (dcDb safeMin : Word) (coarse : List Word) : List Word := dcDb :: coarse ++ [fneg safeMin]

/-- The largest `s` in `0 .. nb` with `Xc[s] <= xi` (R224). -/
def coarseSeg (xc : List Word) (nb : Nat) (xi : Word) : Nat :=
  (((List.range (nb + 1)).filter fun s => fle (xc.getD s f0p0) xi).getLast?).getD 0

/-- `val`: the dB value of the piecewise linear curve at `xi` (R224). -/
def coarseAt (xc yc : List Word) (nb : Nat) (xi : Word) : Word :=
  let s := coarseSeg xc nb xi
  fadd (yc.getD s f0p0)
    (fmul (fdiv (fsub xi (xc.getD s f0p0)) (fsub (xc.getD (s + 1) f0p0) (xc.getD s f0p0)))
      (fsub (yc.getD (s + 1) f0p0) (yc.getD s f0p0)))

/-- `MIN(MAX(ap, AP_FLOOR), 1.0)` (R224). -/
def apClip (floor ap : Word) : Word := fmin (fmax ap floor) f1

/-- The computation of APINTERP (R224). -/
def apInterp (m : FpMode) (c : Csr) (l : Nat) (coarse : List Word) : List Word :=
  (List.range (sizeB l)).map fun k =>
    apClip c.apFloor (fpPow10 m (fdiv
      (coarseAt (coarseX c.fsF) (coarseY c.apDcDb c.safeMin coarse) (bandCount c.fsF) (binFreq c.fsF l k)) f20))

/-! ## Primitive commands -/

/-- CENTROID (R210). -/
def planCentroid (sz : SizeSel) (src dst : Half) (s : State) : Check Effect := do
  s.needSafeMin
  s.needSize sz
  s.needRegion regionSrc src.toNat (sizeN (s.sizeExp sz))
  s.needRegion regionDst dst.toNat (sizeB (s.sizeExp sz))
  pure (.buffer dst.toNat
    (centroid s.cfg.log2nMax (s.sizeExp sz) s.csr.safeMin (s.srcWords src (sizeN (s.sizeExp sz)))))

/-- GDELAY (R211). -/
def planGdelay (sz : SizeSel) (prm src dst : Half) (s : State) : Check Effect := do
  s.needFs
  s.needSafeMin
  s.needSize sz
  s.needRegion regionPrm prm.toNat 1
  s.needRegion regionSrc src.toNat (2 * sizeB (s.sizeExp sz))
  s.needRegion regionDst dst.toNat (sizeB (s.sizeExp sz))
  needFinite (s.prmWord prm 0) 0
  needPositive (s.prmWord prm 0) 0
  require (smoothLegal s.csr.fsF (s.sizeExp sz) (s.prmWord prm 0)) .param 0
  let out ← groupDelay s.csr.fsF (s.sizeExp sz) s.csr.safeMin
    ((s.srcWords src (2 * sizeB (s.sizeExp sz))).take (sizeB (s.sizeExp sz)))
    ((s.srcWords src (2 * sizeB (s.sizeExp sz))).drop (sizeB (s.sizeExp sz))) (s.prmWord prm 0)
  pure (.buffer dst.toNat out)

/-- VUV (R212). -/
def planVuv (sz : SizeSel) (src dst : Half) (s : State) : Check Effect := do
  s.needFs
  s.needSafeMin
  s.needSize sz
  s.needRegion regionSrc src.toNat (sizeB (s.sizeExp sz))
  s.needRegion regionDst dst.toNat 1
  pure (.buffer dst.toNat
    [vuvIndicator s.csr.fsF (s.sizeExp sz) s.csr.safeMin (s.srcWords src (sizeB (s.sizeExp sz)))])

/-- BANDAP (R223). -/
def planBandap (sz : SizeSel) (prm src dst : Half) (s : State) : Check Effect := do
  s.needFs
  s.needSafeMin
  s.needSize sz
  s.needRegion regionPrm prm.toNat 1
  s.needRegion regionSrc src.toNat (sizeB (s.sizeExp sz))
  s.needRegion regionDst dst.toNat (bandCount s.csr.fsF)
  needFinite (s.prmWord prm 0) 0
  needPositive (s.prmWord prm 0) 0
  let out ← bandAperiodicity s.cfg s.csr.fsF (s.sizeExp sz) s.csr.safeMin
    (s.srcWords src (sizeB (s.sizeExp sz))) (s.prmWord prm 0)
  pure (.buffer dst.toNat out)

/-- APINTERP (R224). -/
def planApinterp (sz : SizeSel) (src dst : Half) (s : State) : Check Effect := do
  s.needFs
  s.needApDcDb
  s.needSafeMin
  s.needApFloor
  s.needSize sz
  s.needRegion regionSrc src.toNat (bandCount s.csr.fsF)
  s.needRegion regionDst dst.toNat (sizeB (s.sizeExp sz))
  pure (.buffer dst.toNat
    (apInterp s.cfg.fpMode s.csr (s.sizeExp sz) (s.srcWords src (bandCount s.csr.fsF))))

/-! ## APRUN (R225 to R229) -/

/-- The configuration checks of APRUN (R282). -/
def State.needApConfig (s : State) : Check Unit := do
  s.needFs
  require (posFinite s.csr.framePeriod) .config 0x088
  s.needSize .env
  s.needSize .ap
  require (posFinite s.csr.f0Floor) .config 0x0A0
  require (posFinite s.csr.defaultF0) .config 0x0A8
  require (isFinite s.csr.apThreshold) .config 0x0B8
  s.needSafeMin
  s.needApFloor
  s.needApDcDb
  require (fle (f0FloorR s.csr.fsF marginAp (sizeN (s.sizeExp .ap))) s.csr.f0Floor) .config 0x098
  require (winFits s.csr.fsF apGdRatioL s.csr.defaultF0 (sizeN (s.sizeExp .ap))) .config 0x0A8
  require (bandsLegal s.csr.fsF (s.sizeExp .ap)) .config 0x098

/-- Phase 1 of APRUN (R226). -/
def State.apPhase1 (s : State) (first count : Nat) : Check Unit := do
  s.needApConfig
  s.needShape
  s.needArrays s.csr.apBase
  s.needFrames first count (dcLegal s.csr.fsF s.csr.log2nAp.toNat)

/-- A segment of frame `i`, size `N_A`, no normalisation, mean removed (R227). `seg` numbers the frame's segments. -/
def State.apSegment (s : State) (i seg : Nat) (centre f0 r : Word) (win : Win) : Check (List Word) :=
  segment s.cfg.fpMode s.csr.fsF (s.sizeExp .ap) (s.sample (tagWave seg i)) centre f0 r win false true

/-- The band values at one window length: group delay from two segments shifted by a quarter period (R227). -/
def State.apBands (s : State) (i seg : Nat) (centre f0 r : Word) : Check (List Word) := do
  let fs := s.csr.fsF
  let l := s.sizeExp .ap
  let d := fdiv (fmul apShift fs) f0
  let s1 ← s.apSegment i seg (fsub centre d) f0 r .blackman
  let s2 ← s.apSegment i (seg + 1) (fadd centre d) f0 r .blackman
  let sc ← dcCorr fs l (List.zipWith fadd (centroid s.cfg.log2nMax l s.csr.safeMin s1)
    (centroid s.cfg.log2nMax l s.csr.safeMin s2)) f0
  let sh ← s.apSegment i (seg + 2) centre f0 r .hann
  let sp ← dcCorr fs l (powerSpectrum (fftReal s.cfg.log2nMax l sh)) f0
  let sp ← smooth fs l sp f0
  let g ← groupDelay fs l s.csr.safeMin sc sp f0
  bandAperiodicity s.cfg fs l s.csr.safeMin g f0

/-- The per-band selection: the long window below `AP_SEL_LO`, the intermediate below `AP_SEL_HI`, else the short (R227). -/
def selectBands (nb : Nat) (short mid long : List Word) : List Word :=
  (List.range nb).map fun j =>
    if flt (bandFreq j) apSelLo then long.getD j f0p0
    else if flt (bandFreq j) apSelHi then mid.getD j f0p0
    else short.getD j f0p0

/-- The value of every bin of an unvoiced frame (R227). -/
def unvoicedValue (c : Csr) : Word := apClip c.apFloor (fsub f1 c.safeMin)

/-- The row of frame `i` (R227). -/
def State.apRow (s : State) (i : Nat) : Check (List Word) := do
  let f0 := effF0 s.csr (s.f0Word (tagF0 i) i)
  let centre := frameCentre s.csr i
  let s0 ← s.apSegment i 0 centre f0 apVuvRatio .blackman
  if flt s.csr.apThreshold (vuvIndicator s.csr.fsF (s.sizeExp .ap) s.csr.safeMin
      (powerSpectrum (fftReal s.cfg.log2nMax (s.sizeExp .ap) s0))) then do
    let short ← s.apBands i 1 centre f0 apGdRatioS
    let mid ← s.apBands i 4 centre f0 apGdRatioM
    let long ← s.apBands i 7 centre f0 apGdRatioL
    pure (apInterp s.cfg.fpMode s.csr (s.sizeExp .env) (selectBands (bandCount s.csr.fsF) short mid long))
  else pure (List.replicate (sizeB (s.sizeExp .env)) (unvoicedValue s.csr))

/-- APRUN (R225). -/
def planAprun (first count : Half) (s : State) : Verdict :=
  phases (s.apPhase1 first.toNat count.toNat)
    (phase2 s.csr.apBase.toNat s.csr.outCols.toNat first.toNat
      ((frameRange first.toNat count.toNat).map fun i => .ofCheck (s.apRow i)))

/-- CENTROID (R210). -/
def execCentroid (sz : SizeSel) (src dst : Half) (s : State) : Host.Outcome State Fault Refusal :=
  s.run (.ofCheck (planCentroid sz src dst s))

/-- GDELAY (R211). -/
def execGdelay (sz : SizeSel) (prm src dst : Half) (s : State) : Host.Outcome State Fault Refusal :=
  s.run (.ofCheck (planGdelay sz prm src dst s))

/-- VUV (R212). -/
def execVuv (sz : SizeSel) (src dst : Half) (s : State) : Host.Outcome State Fault Refusal :=
  s.run (.ofCheck (planVuv sz src dst s))

/-- BANDAP (R223). -/
def execBandap (sz : SizeSel) (prm src dst : Half) (s : State) : Host.Outcome State Fault Refusal :=
  s.run (.ofCheck (planBandap sz prm src dst s))

/-- APINTERP (R224). -/
def execApinterp (sz : SizeSel) (src dst : Half) (s : State) : Host.Outcome State Fault Refusal :=
  s.run (.ofCheck (planApinterp sz src dst s))

/-- APRUN (R225). -/
def execAprun (first count : Half) (s : State) : Host.Outcome State Fault Refusal := s.run (planAprun first count s)

end Sys2Proof.Machine
end

