-- ==== Sys2Proof/Machine/Control.lean ====
section
/-! DEFINITION. The sequencer's own commands, NOP and SIGNAL (R270, R271). -/

namespace Sys2Proof.Machine

/-- NOP: nothing but completion (R120, R270). -/
def planNop (_s : State) : Check Effect := pure { writes := [] }

/-- SIGNAL: MARK, then completion (R271). -/
def planSignal (_s : State) : Check Effect := pure { writes := [], mark := true }

/-- NOP (R270). -/
def execNop (s : State) : Host.Outcome State Fault Refusal := s.run (.ofCheck (planNop s))

/-- SIGNAL (R271). -/
def execSignal (s : State) : Host.Outcome State Fault Refusal := s.run (.ofCheck (planSignal s))

end Sys2Proof.Machine
end

