-- ==== Sys2Proof/Machine/Dispatch.lean ====
section
/-! DEFINITION. One arm per command of R117, each a direct call of the command's meaning. -/

namespace Sys2Proof.Machine

def exec (i : Instr) (s : State) : Host.Outcome State Fault Refusal :=
  match i with
  | .nop => Sys2Proof.Machine.execNop s
  | .signal => Sys2Proof.Machine.execSignal s
  | .defaults => Sys2Proof.Machine.execDefaults s
  | .dfftsz prm dst => Sys2Proof.Machine.execDfftsz prm dst s
  | .df0flr prm dst => Sys2Proof.Machine.execDf0flr prm dst s
  | .fftr sz src dst => Sys2Proof.Machine.execFftr sz src dst s
  | .ffti sz src dst => Sys2Proof.Machine.execFfti sz src dst s
  | .pow sz src dst => Sys2Proof.Machine.execPow sz src dst s
  | .wseg sz win nrm dcr prm dst => Sys2Proof.Machine.execWseg sz win nrm dcr prm dst s
  | .wgen win prm dst => Sys2Proof.Machine.execWgen win prm dst s
  | .dccorr sz prm src dst => Sys2Proof.Machine.execDccorr sz prm src dst s
  | .lsmooth sz prm src dst => Sys2Proof.Machine.execLsmooth sz prm src dst s
  | .lifter sz slift prm src dst => Sys2Proof.Machine.execLifter sz slift prm src dst s
  | .envrun first count => Sys2Proof.Machine.execEnvrun first count s
  | .centroid sz src dst => Sys2Proof.Machine.execCentroid sz src dst s
  | .gdelay sz prm src dst => Sys2Proof.Machine.execGdelay sz prm src dst s
  | .vuv sz src dst => Sys2Proof.Machine.execVuv sz src dst s
  | .bandap sz prm src dst => Sys2Proof.Machine.execBandap sz prm src dst s
  | .apinterp sz src dst => Sys2Proof.Machine.execApinterp sz src dst s
  | .aprun first count => Sys2Proof.Machine.execAprun first count s

end Sys2Proof.Machine
end

