-- ==== Sys2Proof/Machine/Flags.lean ====
section
/-! DEFINITION. The flag and control words of the register page: STATUS, CTRL, IRQ (R39 to R41) and the fixed
identification registers (R31 to R33). The only flags of the block are those of STATUS (R70). -/

namespace Sys2Proof.Machine

/-- A flag in its bit of a 64-bit register. -/
def bitAt (k : Nat) (b : Bool) : Word := (BitVec.ofBool b).setWidth 64 <<< k

/-- QCOUNT: the pending entries; the executing command is not counted (R36). -/
def State.qcount (s : State) : Nat := s.queue.length

/-- Whether the engine is in EXEC (R38). -/
def State.executing (s : State) : Bool :=
  match s.engine with
  | .exec _ => true
  | .idle | .halt => false

/-- STATUS.BUSY (R40). -/
def State.busy (s : State) : Bool := s.executing || s.qcount != 0

/-- STATUS.QFULL (R40). -/
def State.qfull (s : State) : Bool := s.qcount == s.cfg.cmdqDepth

/-- STATUS as the host reads it (R40). -/
def State.status (s : State) : Word :=
  bitAt 0 s.busy ||| bitAt 1 s.qfull ||| bitAt 8 s.done ||| bitAt 9 s.err ||| bitAt 10 s.mark ||| bitAt 11 s.drop |||
    bitAt 12 s.cfgwerr ||| (BitVec.ofNat 8 s.qcount).setWidth 64 <<< 16

/-- CTRL as the host reads it; ABORT and SRST read 0 (R39). -/
def State.ctrl (s : State) : Word := bitAt 0 s.ieDone ||| bitAt 1 s.ieErr ||| bitAt 2 s.ieMark

/-- The interrupt output (R41). -/
def State.irq (s : State) : Bool := s.done && s.ieDone || s.err && s.ieErr || s.mark && s.ieMark

/-- ID (R31). -/
def idWord : Word := 0x574F524C01000000#64

/-- CAP0 (R32). -/
def State.cap0 (s : State) : Word :=
  (BitVec.ofNat 5 s.cfg.log2nMin).setWidth 64 ||| (BitVec.ofNat 5 s.cfg.log2nMax).setWidth 64 <<< 8 |||
    (BitVec.ofNat 8 s.cfg.cmdqDepth).setWidth 64 <<< 16 ||| (BitVec.ofNat 8 s.cfg.nlanes).setWidth 64 <<< 24 |||
    bitAt 32 (s.cfg.fpMode == .cr)

/-- CAP1 (R33). -/
def State.cap1 (s : State) : Word := BitVec.ofNat 64 s.cfg.dmemWords

end Sys2Proof.Machine
end

