-- ==== Sys2Proof/Machine/HostPort.lean ====
section
/-! DEFINITION. The host's accesses (R81 to R84): the register page (R31 to R66), the DMEM window (R81, R92, R93),
bus errors (R83), abort (R294) and soft reset (R322). -/

namespace Sys2Proof.Machine

/-! ## The executing command, as the host may observe or stop it -/

/-- What the command `i` comes to in state `s`. -/
def planOf (i : Instr) (s : State) : Verdict :=
  match i with
  | .nop => .ofCheck (planNop s)
  | .signal => .ofCheck (planSignal s)
  | .defaults => .ofCheck (planDefaults s)
  | .dfftsz prm dst => .ofCheck (planDfftsz prm dst s)
  | .df0flr prm dst => .ofCheck (planDf0flr prm dst s)
  | .fftr sz src dst => .ofCheck (planFftr sz src dst s)
  | .ffti sz src dst => .ofCheck (planFfti sz src dst s)
  | .pow sz src dst => .ofCheck (planPow sz src dst s)
  | .wseg sz win nrm dcr prm dst => .ofCheck (planWseg sz win nrm dcr prm dst s)
  | .wgen win prm dst => .ofCheck (planWgen win prm dst s)
  | .dccorr sz prm src dst => .ofCheck (planDccorr sz prm src dst s)
  | .lsmooth sz prm src dst => .ofCheck (planLsmooth sz prm src dst s)
  | .lifter sz slift prm src dst => .ofCheck (planLifter sz slift prm src dst s)
  | .envrun first count => planEnvrun first count s
  | .centroid sz src dst => .ofCheck (planCentroid sz src dst s)
  | .gdelay sz prm src dst => .ofCheck (planGdelay sz prm src dst s)
  | .vuv sz src dst => .ofCheck (planVuv sz src dst s)
  | .bandap sz prm src dst => .ofCheck (planBandap sz prm src dst s)
  | .apinterp sz src dst => .ofCheck (planApinterp sz src dst s)
  | .aprun first count => planAprun first count s

/-- The words the executing command may have written by now, with the values it computes for them; none outside EXEC,
and none for a command that raises before it writes (R287, R294, R322, R332). -/
def State.inFlight (s : State) : List (Nat × Word) :=
  match s.engine with
  | .exec c =>
    match decodeCmd c.w0 c.w1 with
    | .ok i => (planOf i s).words
    | .error _ => []
  | .idle | .halt => []

/-- The groups of reads (`readGroup`) that come before command `i` writes word `a`: a primitive command reads everything
before it writes anything (R103), a frame engine's phase 1 comes before its phase 2 (R185, R225), and frame `f` writes row
`f` alone from what it read (R90, R96). -/
def readsBefore (i : Instr) (c : Csr) (a : Nat) : List Nat :=
  match i with
  | .envrun _ _ => [0, (a - c.envBase.toNat) / c.outCols.toNat + 1]
  | .aprun _ _ => [0, (a - c.apBase.toNat) / c.outCols.toNat + 1]
  | .nop | .signal | .defaults | .dfftsz _ _ | .df0flr _ _ | .fftr _ _ _ | .ffti _ _ _ | .pow _ _ _
  | .wseg _ _ _ _ _ _ | .wgen _ _ _ | .dccorr _ _ _ _ | .lsmooth _ _ _ _ | .lifter _ _ _ _ _ | .centroid _ _ _
  | .gdelay _ _ _ _ | .vuv _ _ _ | .bandap _ _ _ _ | .apinterp _ _ _ => [0]

/-- `readsBefore` of the executing command `c`. -/
def State.readsBefore (s : State) (c : PendingCmd) (a : Nat) : List Nat :=
  match decodeCmd c.w0 c.w1 with
  | .ok i => Sys2Proof.Machine.readsBefore i s.csr a
  | .error _ => []

/-- The words that take effect at a turn inside the executing command, with the values computed for them. -/
def State.landing (s : State) : List (Nat × Word) := s.inFlight.filter fun w => s.lands w.1

/-- The engine goes on inside the command it executes: some of the words the command writes take effect, each with the
value computed for it (R93, R96, R332), and the reads they were computed from are done (R103; log 12). The command goes on
reading memory; the words that took effect stand beside it until the command ends. -/
def State.progress (s : State) : State :=
  match s.engine with
  | .exec c =>
    { s with
      engine := .exec { c with
        landed := (s.landing.map fun w => (w.1, s.settle w.1 w.2)) ++ c.landed
        begun := (s.landing.flatMap fun w => s.readsBefore c w.1) ++ c.begun }
      free := s.free + 1 }
  | .idle | .halt => s

/-- Stopping the executing command at an unspecified point (R294, R322; log 11). -/
def State.stop (s : State) : State := s.applySome s.inFlight

/-- Abort (R294): without effect when not busy, else the command stops and E_ABORT is raised. -/
def State.abort (s : State) : State := if s.busy then s.stop.raise ⟨.abort, 0⟩ else s

/-- Soft reset, as one step (R322, R73). -/
def State.softReset (s : State) : State :=
  { State.powerOn s.cfg with turns := s.turns, resp := s.resp, free := s.stop.free, mem := s.stop.mem }

/-! ## Register reads (R31 to R46, R62, R63) -/

/-- The configuration registers in offset order, from `0x080` (R46). -/
def Csr.regs (c : Csr) : List Word := [
  c.fs, c.framePeriod, c.log2nEnv, c.log2nAp, c.f0Floor, c.defaultF0, c.q1, c.apThreshold, c.envLsmRatio, c.envCtrl,
  c.safeMin, c.envEps, c.apFloor, c.apDcDb, c.xBase, c.xLen, c.f0Base, c.f0Len, c.envBase, c.apBase, c.outRows, c.outCols]

/-- The word at a register offset; reserved offsets, CMD_LO and CMD_HI read 0 (R45, R62, R63). -/
def State.regRead (s : State) (off : Nat) : Word :=
  if off = 0x000 then idWord
  else if off = 0x008 then s.cap0
  else if off = 0x010 then s.cap1
  else if off = 0x018 then s.ctrl
  else if off = 0x020 then s.status
  else if off = 0x028 then s.errCode
  else if off = 0x030 then s.errInfo
  else if off = 0x038 then s.errCmd0
  else if off = 0x040 then s.errCmd1
  else if off = 0x058 then s.completed
  else if 0x080 ≤ off then s.csr.regs.getD ((off - 0x080) / 8) 0
  else 0

/-! ## Register writes -/

/-- A configuration register after a write of `v`; ENV_CTRL keeps bit 0 only (R46, R54, R60). -/
def Csr.set (c : Csr) (off : Nat) (v : Word) : Csr :=
  if off = 0x080 then { c with fs := v }
  else if off = 0x088 then { c with framePeriod := v }
  else if off = 0x090 then { c with log2nEnv := v }
  else if off = 0x098 then { c with log2nAp := v }
  else if off = 0x0A0 then { c with f0Floor := v }
  else if off = 0x0A8 then { c with defaultF0 := v }
  else if off = 0x0B0 then { c with q1 := v }
  else if off = 0x0B8 then { c with apThreshold := v }
  else if off = 0x0C0 then { c with envLsmRatio := v }
  else if off = 0x0C8 then { c with envCtrl := v &&& 1 }
  else if off = 0x0D0 then { c with safeMin := v }
  else if off = 0x0D8 then { c with envEps := v }
  else if off = 0x0E0 then { c with apFloor := v }
  else if off = 0x0E8 then { c with apDcDb := v }
  else if off = 0x0F0 then { c with xBase := v }
  else if off = 0x0F8 then { c with xLen := v }
  else if off = 0x100 then { c with f0Base := v }
  else if off = 0x108 then { c with f0Len := v }
  else if off = 0x110 then { c with envBase := v }
  else if off = 0x118 then { c with apBase := v }
  else if off = 0x120 then { c with outRows := v }
  else if off = 0x128 then { c with outCols := v }
  else c

/-- A write of a configuration register: dropped, with CFGWERR, while busy (R60, R61). -/
def State.writeCsr (s : State) (off : Nat) (v : Word) : State :=
  if s.busy then { s with cfgwerr := true } else { s with csr := s.csr.set off v }

/-- A write of STATUS: write-1-to-clear (R64). -/
def State.writeStatus (s : State) (v : Word) : State :=
  { (if v.getLsbD 9 then s.ackErr else s) with
    done := s.done && !v.getLsbD 8
    mark := s.mark && !v.getLsbD 10
    drop := s.drop && !v.getLsbD 11
    cfgwerr := s.cfgwerr && !v.getLsbD 12 }

/-- A write of CTRL (R65). -/
def State.writeCtrl (s : State) (v : Word) : State :=
  let s' := { s with ieDone := v.getLsbD 0, ieErr := v.getLsbD 1, ieMark := v.getLsbD 2 }
  if v.getLsbD 9 then s'.softReset else if v.getLsbD 8 then s'.abort else s'

/-- A write of CMD_HI: the push of `(HOLD, v)`, dropped in HALT or when the queue is full (R66). -/
def State.push (s : State) (v : Word) : State :=
  if s.engine = .halt ∨ s.qfull then { s with drop := true }
  else { s with queue := s.queue ++ [⟨s.hold, v, [], s.free, [], []⟩], free := s.free + 1 }

/-- A host write to a register offset; read-only registers and reserved offsets ignore it (R62, R63). -/
def State.regWrite (s : State) (off : Nat) (v : Word) : State :=
  if off = 0x018 then s.writeCtrl v
  else if off = 0x020 then s.writeStatus v
  else if off = 0x048 then { s with hold := v }
  else if off = 0x050 then s.push v
  else if 0x080 ≤ off ∧ off ≤ 0x128 then s.writeCsr off v
  else s

/-! ## The DMEM window (R81, R93, R330, R332) -/

/-- A host read of word `a`: the last value written to it by the host or by the engine (R92), the executing command's
writes so far among them (R93, R332). -/
def State.hostWord (s : State) (a : Nat) : Word := (s.cmd.landed.lookup a).getD (s.mem.wordAt a)

/-- A pending command learns of a host write of `v` to word `a`, which held `old` for it (R93, R330); reads that are
done do not meet it (R103), and the word then holds the host's value (R92). -/
def PendingCmd.race (c : PendingCmd) (a : Nat) (old v : Word) : PendingCmd :=
  { c with races := ⟨a, old, v, c.begun, true⟩ :: c.races, landed := c.landed.filter fun w => w.1 != a }

/-- The engine's state with the executing command, if any, told of a host write. -/
def Engine.race (e : Engine) (a : Nat) (old v : Word) : Engine :=
  match e with
  | .exec c => .exec (c.race a old v)
  | .idle => .idle
  | .halt => .halt

/-- A host write of word `a`, told to every command already pushed (R93, R328, R330). The old value is the word of memory
for the executing command, whose reads come before its own writes (R103), and for a queued command what the executing
command has written there, if it has (R95). -/
def State.hostSetWord (s : State) (a : Nat) (v : Word) : State :=
  { s with
    mem := s.mem.setWord a v
    engine := s.engine.race a (s.mem.wordAt a) v
    queue := s.queue.map fun c => c.race a (s.hostWord a) v }

/-! ## Accesses -/

/-- Where an access falls (R81 to R83). -/
inductive Place where
  | outside
  | busError
  | register (off : Nat)
  | dmem (a : Nat)
  deriving DecidableEq, Repr

/-- The place of an access of `bits` bits at `addr` (R81 to R83). Outside the block the platform decides. -/
def State.place (s : State) (bits addr : Nat) : Place :=
  if addr < s.cfg.mmioBase ∨ s.cfg.mmioBase + 0x100000 + 8 * s.cfg.dmemWords ≤ addr then .outside
  else if bits ≠ 64 ∨ (addr - s.cfg.mmioBase) % 8 ≠ 0 then .busError
  else if addr - s.cfg.mmioBase < 0x1000 then .register (addr - s.cfg.mmioBase)
  else if addr - s.cfg.mmioBase < 0x100000 then .busError
  else .dmem ((addr - s.cfg.mmioBase - 0x100000) / 8)

/-- A host read. It changes nothing but the bus response (R101). -/
def State.hostRead (s : State) (bits addr : Nat) : State :=
  match s.place bits addr with
  | .outside => { s with resp := .silent }
  | .busError => { s with resp := .error }
  | .register off => { s with resp := .data (s.regRead off) }
  | .dmem a => { s with resp := .data (s.hostWord a) }

/-- A host write. -/
def State.hostWrite (s : State) (bits addr : Nat) (v : Word) : State :=
  match s.place bits addr with
  | .outside => { s with resp := .silent }
  | .busError => { s with resp := .error }
  | .register off => { s.regWrite off v with resp := .ack }
  | .dmem a => { s.hostSetWord a v with resp := .ack }

/-- One host access. -/
def State.host (s : State) : HostAccess → State
  | .read bits addr => s.hostRead bits addr
  | .write bits addr v => s.hostWrite bits addr v

end Sys2Proof.Machine
end

