-- ==== Sys2Proof/Machine/Step.lean ====
section
/-! DEFINITION. One step of the machine: a turn of the host or of the engine (R30, R38, R273, R332). -/

namespace Sys2Proof.Machine

/-- One step of the engine (R38, R273): IDLE pops the head of the queue, if there is one; EXEC decodes and runs the
command, or raises E_ILLEGAL with the number of the failing test (R119, R288); IDLE with nothing queued, and HALT, do
nothing (R323, R286). -/
def State.engineStep (s : State) : Host.Outcome State Fault Refusal :=
  match s.engine with
  | .idle =>
    match s.queue with
    | [] => .next s
    | c :: q => .next { s with engine := .exec c, queue := q }
  | .exec c =>
    match decodeCmd c.w0 c.w1 with
    | .ok i => exec i s
    | .error r => .next (s.raise ⟨.illegal, BitVec.ofNat 64 r.test⟩)
  | .halt => .next s

/-- One step: the agent whose turn it is moves; with no turn listed the engine does (R338, log 8). -/
def step (s : State) : Host.Outcome State Fault Refusal :=
  match s.turns with
  | [] => s.engineStep
  | .engine :: ts => { s with turns := ts }.engineStep
  | .progress :: ts => .next { s with turns := ts }.progress
  | .host a :: ts => .next ({ s with turns := ts }.host a)

/-- `s` with the command of the bits `w` (numbered as the opcode table numbers them) popped and about to be executed by
the very next step: the engine in EXEC with it, and no turn of the host before it. -/
def State.withFetchWord (s : State) (nbits w : Nat) : State :=
  { s with engine := .exec ⟨(tableWords nbits w).1, (tableWords nbits w).2, [], s.free, [], []⟩, turns := [] }

end Sys2Proof.Machine
end

