-- ==== Sys2Proof/Safety.lean ====
section
/-! DEFINITION. The terms claims are made in: the invariant of the machine, how a command ends (R273, R285), the words it
writes, and the loops of the rules in the index form in which the spec writes them. -/

namespace Sys2Proof.Machine

/-! ## The invariant -/

/-- Every word that the executing command `c` has written (log 12) holds what `c` computes for it, and the reads this was
computed from are done (R93, R103). -/
def PendingCmd.Landed (c : PendingCmd) (s : State) : Prop :=
  ∀ w ∈ c.landed, (∃ v, (w.1, v) ∈ s.inFlight ∧ w.2 = s.settle w.1 v) ∧ ∀ g ∈ s.readsBefore c w.1, g ∈ c.begun

/-- What holds of the machine at reset and for ever after. -/
structure State.Inv (s : State) : Prop where
  /-- The parameters are in the ranges of R8. -/
  legal : s.cfg.Legal
  /-- Memory has its one form. -/
  memForm : s.mem.wf
  /-- Every byte ever written is a byte of DMEM (R85, R87). -/
  memRange : ∀ c ∈ s.mem, c.1 < 8 * s.cfg.dmemWords
  /-- The queue holds at most CMDQ_DEPTH commands (R36). -/
  depth : s.queue.length ≤ s.cfg.cmdqDepth
  /-- The engine is in HALT exactly while STATUS.ERR is 1 (R38, R285, R296). -/
  halted : s.engine = .halt ↔ s.err = true
  /-- In HALT the queue is empty (R38, R286). -/
  flushed : s.err = true → s.queue = []
  /-- A recorded error has a code of R281. -/
  recorded : s.err = true → 1 ≤ s.errCode.toNat ∧ s.errCode.toNat ≤ 0x0A
  /-- The error registers are 0 when STATUS.ERR is 0 (R42 to R44). -/
  unrecorded : s.err = false → s.errCode = 0 ∧ s.errInfo = 0 ∧ s.errCmd0 = 0 ∧ s.errCmd1 = 0
  /-- ENV_CTRL bits 63:1 are hardwired to 0 (R54). -/
  envCtrl : s.csr.envCtrl.toNat ≤ 1
  /-- A queued command has not begun (R95). -/
  fresh : ∀ c ∈ s.queue, c.landed = [] ∧ c.begun = []
  /-- What the executing command has written is what it computes for the word, from reads that are done (R93, R103). -/
  landed : ∀ c, s.engine = .exec c → c.Landed s
  /-- A host's value that stands, for a command in the queue or in execution, is what the word holds (R92). -/
  standing : ∀ c, c ∈ s.queue ∨ s.engine = .exec c → ∀ a h, c.standing a = some h → s.mem.wordAt a = h

/-! ## How a command ends -/

/-- What no command changes. -/
structure Kept (s t : State) : Prop where
  cfg : t.cfg = s.cfg
  turns : t.turns = s.turns
  resp : t.resp = s.resp
  hold : t.hold = s.hold
  ieDone : t.ieDone = s.ieDone
  ieErr : t.ieErr = s.ieErr
  ieMark : t.ieMark = s.ieMark
  drop : t.drop = s.drop
  cfgwerr : t.cfgwerr = s.cfgwerr

/-- A command completed (R273, R291): COMPLETED counts it, and the next command is popped, or the engine goes to IDLE and
DONE is set. The queued commands are as they were, but that one that may read an older value of a word the host wrote
meanwhile finds there the value `w` the completed command computed for it, if it did, and that the host's value no longer stands in
such a word that did not keep it (R92, R93, R95, log 10). What the command
did to MARK, to the configuration registers and to DMEM is said beside this. -/
structure Completed (s t : State) (w : Nat → Option Word) : Prop where
  kept : Kept s t
  free : t.free = s.free
  count : t.completed = s.completed + 1
  last : s.queue = [] → t.engine = .idle ∧ t.queue = [] ∧ t.done = true
  next : ∀ c q, s.queue = c :: q →
    t.engine = .exec (c.overwritten w s.keptByHost) ∧ t.queue = q.map (PendingCmd.overwritten w s.keptByHost) ∧ t.done = s.done
  err : t.err = s.err
  errCode : t.errCode = s.errCode
  errInfo : t.errInfo = s.errInfo
  errCmd0 : t.errCmd0 = s.errCmd0
  errCmd1 : t.errCmd1 = s.errCmd1

/-- An error was raised (R285, R286): the record, the flushed queue, HALT; COMPLETED, DONE, MARK and the configuration
registers as they were. What DMEM holds is said beside this. -/
structure Raised (s t : State) (code info : Word) : Prop where
  kept : Kept s t
  errCode : t.errCode = code
  errInfo : t.errInfo = info
  errCmd0 : t.errCmd0 = s.cmd.w0
  errCmd1 : t.errCmd1 = s.cmd.w1
  err : t.err = true
  queue : t.queue = []
  engine : t.engine = .halt
  completed : t.completed = s.completed
  done : t.done = s.done
  mark : t.mark = s.mark
  csr : t.csr = s.csr

/-- The command raises `code` with `info`, having written nothing (R285, R287). -/
def RaisesClean (i : Instr) (s : State) (code : ErrCode) (info : Word) : Prop :=
  ∃ t, exec i s = .next t ∧ Raised s t code.code info ∧ t.free = s.free ∧ t.mem = s.mem

/-- Words `dst .. dst + n - 1` took the values `v`, as they settle when the host wrote them meanwhile (R330, log 10), and every
other byte of memory is as it was. -/
structure WroteBuffer (s t : State) (dst n : Nat) (v : Nat → Word) : Prop where
  words : ∀ k < n, t.mem.wordAt (dst + k) = s.settle (dst + k) (v k)
  others : ∀ b, b < 8 * dst ∨ 8 * (dst + n) ≤ b → t.mem.byteAt b = s.mem.byteAt b

/-- The command completes and its whole effect is the `n` words at `dst` (R103, R118, R273). -/
def CompletesWith (i : Instr) (s : State) (dst n : Nat) (v : Nat → Word) : Prop :=
  ∃ t, exec i s = .next t ∧ Completed s t (fun a => if dst ≤ a ∧ a < dst + n then some (v (a - dst)) else none) ∧
    t.csr = s.csr ∧ t.mark = s.mark ∧ WroteBuffer s t dst n v

/-! ## Conditions of the rules -/

/-- `1 <= FS <= FS_MAX` (R47). -/
def FsOk (s : State) : Prop := 1 ≤ s.csr.fs.toNat ∧ s.csr.fs.toNat ≤ 2 ^ 31 - 1

/-- The exponent that SZ selects is legal (R116). -/
def SizeOk (s : State) (sz : SizeSel) : Prop :=
  s.cfg.log2nMin ≤ s.sizeExp sz ∧ s.sizeExp sz ≤ s.cfg.log2nMax

/-! The register checks of the primitive commands, each with the offset that E_CONFIG records (R282). -/

/-- FS is legal (R47). -/
def fsRow (s : State) : Bool × Nat := (decide (1 ≤ s.csr.fs.toNat ∧ s.csr.fs.toNat ≤ 2 ^ 31 - 1), 0x080)

/-- The exponent that SZ selects is legal (R49, R116). -/
def sizeRow (s : State) (sz : SizeSel) : Bool × Nat :=
  match sz with
  | .env => (decide (s.cfg.log2nMin ≤ s.csr.log2nEnv.toNat ∧ s.csr.log2nEnv.toNat ≤ s.cfg.log2nMax), 0x090)
  | .ap => (decide (s.cfg.log2nMin ≤ s.csr.log2nAp.toNat ∧ s.csr.log2nAp.toNat ≤ s.cfg.log2nMax), 0x098)

/-- SAFE_MIN is legal (R55). -/
def safeMinRow (s : State) : Bool × Nat := (isFinite s.csr.safeMin && flt f0p0 s.csr.safeMin, 0x0D0)

/-- ENV_EPS is legal (R56). -/
def envEpsRow (s : State) : Bool × Nat := (isFinite s.csr.envEps && flt f0p0 s.csr.envEps, 0x0D8)

/-- AP_FLOOR is legal (R57). -/
def apFloorRow (s : State) : Bool × Nat :=
  (isFinite s.csr.apFloor && flt f0p0 s.csr.apFloor && fle s.csr.apFloor f1, 0x0E0)

/-- AP_DC_DB is finite (R58). -/
def apDcDbRow (s : State) : Bool × Nat := (isFinite s.csr.apDcDb, 0x0E8)

/-- Finite and `> 0`. -/
def Positive (x : Word) : Prop := isFinite x = true ∧ flt f0p0 x = true

/-! ## The value of a word, and its rounding (R11) -/

/-- Bit 63. -/
def Spec.sign (x : Word) : Bool := x.getLsbD 63

/-- Bits 62:52. -/
def Spec.exponent (x : Word) : Nat := x.toNat / 2 ^ 52 % 2 ^ 11

/-- Bits 51:0. -/
def Spec.fraction (x : Word) : Nat := x.toNat % 2 ^ 52

/-- Neither a NaN nor an infinity. -/
def Spec.Finite (x : Word) : Prop := Spec.exponent x ≠ 2047

/-- An infinity. -/
def Spec.Infinite (x : Word) : Prop := Spec.exponent x = 2047 ∧ Spec.fraction x = 0

/-- A NaN. -/
def Spec.NotANumber (x : Word) : Prop := Spec.exponent x = 2047 ∧ Spec.fraction x ≠ 0

/-- The canonical quiet NaN. -/
def Spec.nan : Word := 0x7FF8000000000000#64

/-- The infinity of a sign. -/
def Spec.infinity (neg : Bool) : Word := if neg then 0xFFF0000000000000#64 else 0x7FF0000000000000#64

/-- The zero of a sign. -/
def Spec.zero (neg : Bool) : Word := if neg then 0x8000000000000000#64 else 0

/-- The value of a finite word; a zero exponent is that of the subnormals. -/
def Spec.value (x : Word) : ℚ :=
  (if Spec.sign x then -1 else 1) *
    if Spec.exponent x = 0 then (Spec.fraction x : ℚ) * 2 ^ (-1074 : ℤ)
    else (2 ^ 52 + (Spec.fraction x : ℚ)) * 2 ^ ((Spec.exponent x : ℤ) - 1075)

/-- `w` is the exact result `r`, rounded once: a zero of sign `neg` when `r` is 0; else of the sign of `r` and, below half a
last place beyond the largest finite value, a finite word nearest `r`, of two equally near the one with an even
fraction, and from there on an infinity. -/
def Spec.Rounded (r : ℝ) (neg : Bool) (w : Word) : Prop :=
  (r = 0 → w = Spec.zero neg) ∧
  (r ≠ 0 → (Spec.sign w = true ↔ r < 0)) ∧
  (r ≠ 0 → |r| < (2 ^ 54 - 1) * 2 ^ 970 → Spec.Finite w ∧ ∀ y, Spec.Finite y →
    |(Spec.value w : ℝ) - r| ≤ |(Spec.value y : ℝ) - r| ∧
      (|(Spec.value w : ℝ) - r| = |(Spec.value y : ℝ) - r| → Spec.value y ≠ Spec.value w → Spec.fraction w % 2 = 0)) ∧
  ((2 ^ 54 - 1) * 2 ^ 970 ≤ |r| → Spec.Infinite w)

/-! ## The formulas of the rules

Written out here from the rules, apart from the machine's own definitions, so that a statement says them itself. -/

/-- `(wr, wi)` of R141: the sine negated in the forward direction. -/
def Spec.twiddle (lmax l : Nat) (fwd : Bool) (t : Nat) : Cpx :=
  ⟨twCos lmax l t, if fwd then fneg (twSin lmax l t) else twSin lmax l t⟩

/-- `(tr, ti)` of R141. -/
def Spec.turned (w b : Cpx) : Cpx :=
  ⟨fsub (fmul w.re b.re) (fmul w.im b.im), fadd (fmul w.re b.im) (fmul w.im b.re)⟩

/-- `re*re + im*im` (R144). -/
def Spec.power (z : Cpx) : Word := fadd (fmul z.re z.re) (fmul z.im z.im)

/-- `FrameCentre(i) = ((i * FRAME_PERIOD) / 1000.0) * FS` (R160). -/
def Spec.frameCentre (c : Csr) (i : Nat) : Word :=
  fmul (fdiv (fmul (fofNat i) c.framePeriod) 0x408F400000000000#64) (fofNat c.fs.toNat)

/-- `hx = ((r * FS) / f0) / 2.0` (R162). -/
def Spec.halfLength (fs r f0 : Word) : Word := fdiv (fdiv (fmul r fs) f0) f2

/-- `H = RHA(hx)` (R162). -/
def Spec.winH (fs r f0 : Word) : Nat := (frha (Spec.halfLength fs r f0)).toNat

/-- `Lw = 2*H + 1` (R162, R168). -/
def Spec.winLen (fs r f0 : Word) : Nat := 2 * Spec.winH fs r f0 + 1

/-- `hx` is finite and `Lw <= N` (R162). -/
def Spec.winFits (fs r f0 : Word) (n : Nat) : Bool :=
  isFinite (Spec.halfLength fs r f0) && decide (Spec.winLen fs r f0 ≤ n)

/-- `a = (PI * pos) * f0` with `pos = ((2.0 * b) / r) / FS` and `b = i - H` (R163). -/
def Spec.winAngle (fs r f0 : Word) (h i : Nat) : Word :=
  fmul (fmul fPi (fdiv (fdiv (fmul f2 (fofInt ((i : Int) - h))) r) fs)) f0

/-- `w[i]` of R163. -/
def Spec.winValue (m : FpMode) (win : Win) (a : Word) : Word :=
  match win with
  | .hann => fadd (fmul f0p5 (fpCos m a)) f0p5
  | .blackman | .nuttall => fadd (fadd f0p42 (fmul f0p5 (fpCos m a))) (fmul f0p08 (fpCos m (fmul a f2)))

/-- `origin = RHA(centre)` (R165), for a centre that is finite (log 16 for another). -/
def Spec.origin (centre : Word) : Int := if isFinite centre then frha centre else Config.originUnstated centre

/-- The Nuttall window of `n` points at `t` (R167). -/
def Spec.nuttall (m : FpMode) (n t : Nat) : Word :=
  let x := fdiv (fofNat t) (fsub (fofNat n) f1)
  let c1 := fpCos m (fmul f2Pi x)
  let c2 := fpCos m (fmul f4Pi x)
  let c3 := fpCos m (fmul (fmul f6 fPi) x)
  if n = 1 then f1 else fsub (fadd (fsub nuttall0 (fmul nuttall1 c1)) (fmul nuttall2 c2)) (fmul nuttall3 c3)

/-- `EffF0` (R180). -/
def Spec.effF0 (c : Csr) (f0r : Word) : Word := if flt c.f0Floor f0r then f0r else c.defaultF0

/-- `(f * N) / FS` (R182, R183, R211, R212, R221). -/
def Spec.bins (fs : Word) (l : Nat) (f : Word) : Word := fdiv (fmul f (fofNat (2 ^ l))) fs

/-- `(i * FS) / N` (R182, R224). -/
def Spec.binFreq (fs : Word) (l i : Nat) : Word := fdiv (fmul (fofNat i) fs) (fofNat (2 ^ l))

/-- `FS / N` (R182, R183). -/
def Spec.binStep (fs : Word) (l : Nat) : Word := fdiv fs (fofNat (2 ^ l))

/-- `origin = (-(Bd - 0.5) * FS) / N` (R183). -/
def Spec.smoothOrigin (fs : Word) (l bd : Nat) : Word :=
  fdiv (fmul (fneg (fsub (fofNat bd) f0p5)) fs) (fofNat (2 ^ l))

/-- `lo[k] = ((k / N) * FS) - w / 2.0` (R183). -/
def Spec.smoothLo (fs : Word) (l : Nat) (w : Word) (k : Nat) : Word :=
  fsub (fmul (fdiv (fofNat k) (fofNat (2 ^ l))) fs) (fdiv w f2)

/-- `sl` of R184: 1.0 at `k = 0` and without SLIFT, else `FP_SIN(a) / a` with `a = (PI * f0) * q` and `q = k / FS`. -/
def Spec.sinc (m : FpMode) (fs : Word) (slift : Bool) (f0 : Word) (k : Nat) : Word :=
  let a := fmul (fmul fPi f0) (fdiv (fofNat k) fs)
  if k = 0 || !slift then f1 else fdiv (fpSin m a) a

/-- `cl` of R184. -/
def Spec.compensation (m : FpMode) (fs q1 f0 : Word) (k : Nat) : Word :=
  if k = 0 then fadd (fsub f1 (fmul f2 q1)) (fmul f2 q1)
  else fadd (fsub f1 (fmul f2 q1)) (fmul (fmul f2 q1) (fpCos m (fmul (fmul f2Pi (fdiv (fofNat k) fs)) f0)))

/-- `b[j]` of R212. -/
def Spec.vuvBin (fs : Word) (l : Nat) (f : Word) : Nat := min (fceil (Spec.bins fs l f)).toNat (2 ^ l / 2)

/-- `nb` (R220). -/
def Spec.bandCount (fs : Word) : Nat :=
  let v := fdiv (fmin bandUpper (fsub (fdiv fs f2) bandInterval)) bandInterval
  if flt f0p0 v then (ftrunc v).toNat else 0

/-- `hb` (R221). -/
def Spec.bandHalf (fs : Word) (l : Nat) : Nat := (ftrunc (Spec.bins fs l bandInterval)).toNat

/-- `Lb` (R221). -/
def Spec.bandLen (fs : Word) (l : Nat) : Nat := 2 * Spec.bandHalf fs l + 1

/-- `idx = N/2 - bb - 1` with `bb = RHA((N * BAND_K) / Lb)` (R222). -/
def Spec.bandIdx (fs : Word) (l : Nat) : Int :=
  ((2 ^ l / 2 : Nat) : Int) - frha (fdiv (fmul (fofNat (2 ^ l)) bandK) (fofNat (Spec.bandLen fs l))) - 1

/-- `c[j]` (R222). -/
def Spec.bandCentre (fs : Word) (l j : Nat) : Nat :=
  (ftrunc (fdiv (fmul (fmul bandInterval (fofNat (j + 1))) (fofNat (2 ^ l))) fs)).toNat

/-- The geometry is legal (R222). -/
def Spec.bandsLegal (fs : Word) (l : Nat) : Bool :=
  decide (Spec.bandCount fs = 0 ∨
    3 ≤ Spec.bandLen fs l ∧ 0 ≤ Spec.bandIdx fs l ∧
      ∀ j < Spec.bandCount fs, Spec.bandHalf fs l ≤ Spec.bandCentre fs l j ∧
        Spec.bandCentre fs l j + Spec.bandHalf fs l ≤ 2 ^ l / 2)

/-- Regions `(a, n)` and `(b, m)` overlap (R88). -/
def Spec.overlap (a n b m : Nat) : Bool := decide (0 < n ∧ 0 < m ∧ a < b + m ∧ b < a + n)

/-! ## The loops of the rules -/

/-- `for i in 0..n-1: acc = acc + f(i)` from `+0.0` (R17). -/
def loopSum (n : Nat) (f : Nat → Word) : Word := (List.range n).foldl (fun acc i => fadd acc (f i)) f0p0

/-- One stage of the loop nest of R141: what `a[n]` becomes. `m = 2^s`, `h = m/2`, `step = N/m`; `n` is `b + j` or
`b + j + h`. -/
def loopStage (lmax l : Nat) (fwd : Bool) (s : Nat) (a : Nat → Cpx) (n : Nat) : Cpx :=
  if n % 2 ^ s < 2 ^ (s - 1) then
    let t := Spec.turned (Spec.twiddle lmax l fwd (n % 2 ^ s * 2 ^ (l - s))) (a (n + 2 ^ (s - 1)))
    ⟨fadd (a n).re t.re, fadd (a n).im t.im⟩
  else
    let t := Spec.turned (Spec.twiddle lmax l fwd ((n % 2 ^ s - 2 ^ (s - 1)) * 2 ^ (l - s))) (a n)
    ⟨fsub (a (n - 2 ^ (s - 1))).re t.re, fsub (a (n - 2 ^ (s - 1))).im t.im⟩

/-- The array after stages `1 .. s` of R141, from the array after the bit-reversed copy. -/
def loopStages (lmax l : Nat) (fwd : Bool) (a : Nat → Cpx) : Nat → Nat → Cpx
  | 0 => a
  | s + 1 => loopStage lmax l fwd (s + 1) (loopStages lmax l fwd a s)

/-- `FFT_CORE` of R141 as an array; `rev` is the bit-reversed copy of `z`. -/
def loopCore (lmax l : Nat) (fwd : Bool) (z : Nat → Cpx) : Nat → Cpx :=
  loopStages lmax l fwd (fun n => z (bitrev l n)) l

/-- The forward transform of real values, bin `k` (R142). -/
def loopForward (lmax l : Nat) (x : Nat → Word) (k : Nat) : Cpx := loopCore lmax l true (fun n => ⟨x n, f0p0⟩) k

/-- The inverse transform of a half spectrum, sample `n` (R143). -/
def loopInverse (lmax l : Nat) (y : Nat → Cpx) (n : Nat) : Word :=
  (loopCore lmax l false (fun k =>
    if k = 0 ∨ k = 2 ^ l / 2 then ⟨(y k).re, f0p0⟩
    else if k < 2 ^ l / 2 then y k
    else ⟨(y (2 ^ l - k)).re, fneg (y (2 ^ l - k)).im⟩) n).re

/-- The window of R163 and, with `nrm`, R164. -/
def loopWindow (m : FpMode) (win : Win) (nrm : Bool) (fs r f0 : Word) (i : Nat) : Word :=
  let w := fun i => Spec.winValue m win (Spec.winAngle fs r f0 (Spec.winH fs r f0) i)
  if nrm then fdiv (w i) (fsqrt (loopSum (Spec.winLen fs r f0) fun i => fmul (w i) (w i))) else w i

/-- The segment of R165 and the zeros after it (R166); `x` gives the sample at an integer index. -/
def loopSegment (m : FpMode) (win : Win) (nrm dcr : Bool) (fs r f0 centre : Word) (x : Int → Word) (k : Nat) : Word :=
  let w := loopWindow m win nrm fs r f0
  let v := fun i : Nat => fmul (x (Spec.origin centre + i - Spec.winH fs r f0)) (w i)
  let coef := fdiv (loopSum (Spec.winLen fs r f0) v) (loopSum (Spec.winLen fs r f0) w)
  if k < Spec.winLen fs r f0 then (if dcr then fsub (v k) (fmul (w k) coef) else v k) else f0p0

/-- `t` of one query of `interp1Q` (R181). -/
def gridPos (x0 d xi : Word) : Word := fdiv (fsub xi x0) d

/-- The query falls on a grid of `n` points (R181). -/
def InGrid (x0 d : Word) (n : Nat) (xi : Word) : Prop :=
  isFinite (gridPos x0 d xi) = true ∧ 0 ≤ ftrunc (gridPos x0 d xi) ∧ ftrunc (gridPos x0 d xi) ≤ (n : Int) - 1

/-- The answer to a query on a grid of `n` points (R181). -/
def gridValue (x0 d : Word) (n : Nat) (y : Nat → Word) (xi : Word) : Word :=
  let t := gridPos x0 d xi
  let base := (ftrunc t).toNat
  let dy := if base = n - 1 then f0p0 else fsub (y (base + 1)) (y base)
  fadd (y base) (fmul dy (fsub t (fofInt base)))

/-- `mir[i]` of R183. -/
def loopMirror (h bd : Nat) (p : Nat → Word) (i : Nat) : Word :=
  if i < bd then p (bd - i) else if i ≤ h + bd then p (i - bd) else p (2 * h + bd - i)

/-- `seg[i]` of R183. -/
def loopSeg (fs : Word) (l h bd : Nat) (p : Nat → Word) : Nat → Word
  | 0 => fdiv (fmul (loopMirror h bd p 0) fs) (fofNat (2 ^ l))
  | i + 1 => fadd (fdiv (fmul (loopMirror h bd p (i + 1)) fs) (fofNat (2 ^ l))) (loopSeg fs l h bd p i)

/-- `Bd` of R183. -/
def smoothBd (fs : Word) (l : Nat) (w : Word) : Nat := (ftrunc (Spec.bins fs l w)).toNat + 1

/-- Every query of LSMOOTH falls on its grid, which R183 says of every legal width. -/
def SmoothInGrid (fs : Word) (l : Nat) (w : Word) : Prop :=
  ∀ k ≤ 2 ^ l / 2,
    InGrid (Spec.smoothOrigin fs l (smoothBd fs l w)) (Spec.binStep fs l) (2 ^ l / 2 + 2 * smoothBd fs l w + 1)
      (Spec.smoothLo fs l w k) ∧
    InGrid (Spec.smoothOrigin fs l (smoothBd fs l w)) (Spec.binStep fs l) (2 ^ l / 2 + 2 * smoothBd fs l w + 1)
      (fadd (Spec.smoothLo fs l w k) w)

/-- `out[k]` of R183. -/
def loopSmooth (fs : Word) (l : Nat) (w : Word) (p : Nat → Word) (k : Nat) : Word :=
  let bd := smoothBd fs l w
  let interp := gridValue (Spec.smoothOrigin fs l bd) (Spec.binStep fs l) (2 ^ l / 2 + 2 * bd + 1) (loopSeg fs l (2 ^ l / 2) bd p)
  fdiv (fsub (interp (fadd (Spec.smoothLo fs l w k) w)) (interp (Spec.smoothLo fs l w k))) w

/-- `U` of R182. -/
def dcU (fs : Word) (l : Nat) (f0 : Word) : Nat := (ftrunc (Spec.bins fs l f0)).toNat + 2

/-- Every query of DCCORR falls on its grid, which R182 says of every legal f0. -/
def DcInGrid (fs : Word) (l : Nat) (f0 : Word) : Prop :=
  ∀ i ≤ dcU fs l f0 - 2, InGrid f0 (fneg (Spec.binStep fs l)) (dcU fs l f0 + 1) (Spec.binFreq fs l i)

/-- `out[k]` of R182. -/
def loopDc (fs : Word) (l : Nat) (f0 : Word) (p : Nat → Word) (k : Nat) : Word :=
  if k ≤ dcU fs l f0 - 2 then
    fadd (p k) (gridValue f0 (fneg (Spec.binStep fs l)) (dcU fs l f0 + 1) p (Spec.binFreq fs l k))
  else p k

/-- `out[k]` of R184; `p` is the input spectrum. -/
def loopLift (m : FpMode) (lmax : Nat) (fs : Word) (l : Nat) (slift : Bool) (eps f0 q1 : Word) (p : Nat → Word)
    (k : Nat) : Word :=
  let e := fun n => fpLog m (fmax (p (if n ≤ 2 ^ l / 2 then n else 2 ^ l - n)) eps)
  let y := fun k : Nat =>
    (⟨fdiv (fmul (fmul (loopForward lmax l e k).re (Spec.sinc m fs slift f0 k)) (Spec.compensation m fs q1 f0 k))
      (fofNat (2 ^ l)), f0p0⟩ : Cpx)
  fmax (fabs (fpExp m (loopInverse lmax l y k))) eps

/-- `out[k]` of R210; `x` is the segment. -/
def loopCentroid (lmax l : Nat) (safeMin : Word) (x : Nat → Word) (k : Nat) : Word :=
  let nr := fsqrt (fmax (loopSum (2 ^ l) fun n => fmul (x n) (x n)) safeMin)
  let u := fun n => fdiv (x n) nr
  let a := loopForward lmax l u k
  let b := loopForward lmax l (fun n => fmul (u n) (fofNat (n + 1))) k
  fadd (fmul a.re b.re) (fmul a.im b.im)

/-- `(s, num)` after `n` turns of the loop of R212 that starts at `j = lo + 1`; `hi` is `b[1]`. -/
def loopVuv (p : Nat → Word) (lo hi : Nat) : Nat → Word × Word
  | 0 => (f0p0, f0p0)
  | n + 1 =>
    let s := fadd (loopVuv p lo hi n).1 (p (lo + n + 1))
    (s, if lo + n + 1 = hi then s else (loopVuv p lo hi n).2)

/-- The value of R212. -/
def loopVuvValue (fs : Word) (l : Nat) (safeMin : Word) (p : Nat → Word) : Word :=
  let b := fun f => Spec.vuvBin fs l f
  let r := loopVuv p (b vuvF0) (b vuvF1) (b vuvF2 - b vuvF0)
  fdiv r.2 (fmax (if b vuvF0 < b vuvF2 then r.1 else f0p0) safeMin)

/-- `cs[k]` of R223: the running sum of the sorted powers, without a zero before the first. -/
def loopCum (q : Nat → Word) : Nat → Word
  | 0 => q 0
  | k + 1 => fadd (q (k + 1)) (loopCum q k)

/-- `P[k]` of R223 for band `j`: the power of the band's bins under the band window. -/
def loopBandPower (m : FpMode) (lmax : Nat) (fs : Word) (l : Nat) (g : Nat → Word) (j k : Nat) : Word :=
  let u := fun t => if t < Spec.bandLen fs l then
    fmul (g (Spec.bandCentre fs l j - Spec.bandHalf fs l + t)) (Spec.nuttall m (Spec.bandLen fs l) t) else f0p0
  Spec.power (loopForward lmax l u k)

/-- The values that R223 takes for band `j`, before the sum: `P` sorted ascending. -/
def loopSorted (m : FpMode) (lmax : Nat) (fs : Word) (l : Nat) (g : Nat → Word) (j : Nat) : List Word :=
  sortAscending ((List.range (2 ^ l / 2 + 1)).map (loopBandPower m lmax fs l g j))

/-- `coarse[j]` of R223. -/
def loopBand (m : FpMode) (lmax : Nat) (fs : Word) (l : Nat) (safeMin f0 : Word) (g : Nat → Word) (j : Nat) : Word :=
  let cs := loopCum fun k => (loopSorted m lmax fs l g j).getD k f0p0
  let r := fdiv (cs (Spec.bandIdx fs l).toNat) (fmax (cs (2 ^ l / 2)) safeMin)
  fmin f0p0 (fadd (fmul f10 (fpLog10 m (fmax r safeMin))) (fdiv (fsub f0 revF0) revDiv))

/-- `Xc[j]` of R224. -/
def curveX (fs : Word) (nb j : Nat) : Word :=
  if j = 0 then f0p0 else if j ≤ nb then fmul bandInterval (fofNat j) else fdiv fs f2

/-- `Yc[j]` of R224; `coarse` gives the band values. -/
def curveY (c : Csr) (nb : Nat) (coarse : Nat → Word) (j : Nat) : Word :=
  if j = 0 then c.apDcDb else if j ≤ nb then coarse (j - 1) else fneg c.safeMin

/-- The segment of the curve at `xi` (R224): the largest `s` in `0..nb` with `Xc[s] <= xi`. -/
def curveSeg (fs : Word) (nb : Nat) (xi : Word) : Nat :=
  (List.range (nb + 1)).foldl (fun best s => if fle (curveX fs nb s) xi then s else best) 0

/-- `out[k]` of R224 on `2^l` points. -/
def loopApInterp (m : FpMode) (c : Csr) (l : Nat) (coarse : Nat → Word) (k : Nat) : Word :=
  let nb := Spec.bandCount c.fsF
  let xi := fdiv (fmul (fofNat k) c.fsF) (fofNat (2 ^ l))
  let s := curveSeg c.fsF nb xi
  let val := fadd (curveY c nb coarse s)
    (fmul (fdiv (fsub xi (curveX c.fsF nb s)) (fsub (curveX c.fsF nb (s + 1)) (curveX c.fsF nb s)))
      (fsub (curveY c nb coarse (s + 1)) (curveY c nb coarse s)))
  fmin (fmax (fpPow10 m (fdiv val f20)) c.apFloor) f1

/-- `out[k]` of R211. -/
def loopGdelay (fs : Word) (l : Nat) (safeMin f0 : Word) (sc sp : Nat → Word) (k : Nat) : Word :=
  let g := loopSmooth fs l (fdiv f0 f2) fun k => fdiv (sc k) (fmax (sp k) safeMin)
  fsub (g k) (loopSmooth fs l f0 g k)

/-! ## Frame engines -/

/-- What every frame engine's phase 1 requires beside its configuration: shape (R283), regions and overlap (R284) of the
output matrix at `base`, the frame range, and finite F0 values (R186, R226). -/
structure FramesReady (s : State) (base : Word) (first count : Nat) : Prop where
  rows : s.csr.outRows = s.csr.f0Len
  cols : s.csr.outCols.toNat = 2 ^ s.csr.log2nEnv.toNat / 2 + 1
  wave : s.csr.xBase.toNat + s.csr.xLen.toNat ≤ s.cfg.dmemWords
  pitch : s.csr.f0Base.toNat + s.csr.f0Len.toNat ≤ s.cfg.dmemWords
  out : base.toNat + s.csr.outRows.toNat * s.csr.outCols.toNat ≤ s.cfg.dmemWords
  offWave : Spec.overlap base.toNat (s.csr.outRows.toNat * s.csr.outCols.toNat) s.csr.xBase.toNat s.csr.xLen.toNat = false
  offPitch : Spec.overlap base.toNat (s.csr.outRows.toNat * s.csr.outCols.toNat) s.csr.f0Base.toNat s.csr.f0Len.toNat = false
  range : first + count ≤ s.csr.f0Len.toNat
  finite : ∀ i, first ≤ i → i < first + count → isFinite (s.cmdRead tagF0Finite (s.csr.f0Base.toNat + i)) = true

/-- The configuration checks of ENVRUN (R282), in their order, with the ERRINFO of each. -/
def envConfigRows (s : State) : List (Bool × Nat) :=
  let c := s.csr
  let n := 2 ^ c.log2nEnv.toNat
  [(decide (1 ≤ c.fs.toNat ∧ c.fs.toNat ≤ 2 ^ 31 - 1), 0x080),
    (isFinite c.framePeriod && flt f0p0 c.framePeriod, 0x088),
    (decide (s.cfg.log2nMin ≤ c.log2nEnv.toNat ∧ c.log2nEnv.toNat ≤ s.cfg.log2nMax), 0x090),
    (isFinite c.f0Floor && flt f0p0 c.f0Floor, 0x0A0),
    (isFinite c.defaultF0 && flt f0p0 c.defaultF0, 0x0A8),
    (isFinite c.q1, 0x0B0),
    (isFinite c.envLsmRatio && flt f0p0 c.envLsmRatio, 0x0C0),
    (isFinite c.envEps && flt f0p0 c.envEps, 0x0D8),
    (fle (fdiv (fmul envRatio c.fsF) (fsub (fofNat n) f2)) c.f0Floor, 0x090),
    (isFinite (Spec.halfLength c.fsF envRatio c.defaultF0) && decide (Spec.winLen c.fsF envRatio c.defaultF0 ≤ n), 0x0A8)]

/-- The configuration checks of APRUN (R282), in their order, with the ERRINFO of each. -/
def apConfigRows (s : State) : List (Bool × Nat) :=
  let c := s.csr
  let n := 2 ^ c.log2nAp.toNat
  [(decide (1 ≤ c.fs.toNat ∧ c.fs.toNat ≤ 2 ^ 31 - 1), 0x080),
    (isFinite c.framePeriod && flt f0p0 c.framePeriod, 0x088),
    (decide (s.cfg.log2nMin ≤ c.log2nEnv.toNat ∧ c.log2nEnv.toNat ≤ s.cfg.log2nMax), 0x090),
    (decide (s.cfg.log2nMin ≤ c.log2nAp.toNat ∧ c.log2nAp.toNat ≤ s.cfg.log2nMax), 0x098),
    (isFinite c.f0Floor && flt f0p0 c.f0Floor, 0x0A0),
    (isFinite c.defaultF0 && flt f0p0 c.defaultF0, 0x0A8),
    (isFinite c.apThreshold, 0x0B8),
    (isFinite c.safeMin && flt f0p0 c.safeMin, 0x0D0),
    (isFinite c.apFloor && flt f0p0 c.apFloor && fle c.apFloor f1, 0x0E0),
    (isFinite c.apDcDb, 0x0E8),
    (fle (fdiv (fmul marginAp c.fsF) (fsub (fofNat n) f2)) c.f0Floor, 0x098),
    (isFinite (Spec.halfLength c.fsF apGdRatioL c.defaultF0) && decide (Spec.winLen c.fsF apGdRatioL c.defaultF0 ≤ n), 0x0A8),
    (Spec.bandsLegal c.fsF c.log2nAp.toNat, 0x098)]

/-- Phase 1 of ENVRUN passes (R186). -/
structure EnvReady (s : State) (first count : Nat) : Prop where
  config : ∀ row ∈ envConfigRows s, row.1 = true
  frames : FramesReady s s.csr.envBase first count
  limits : ∀ i, first ≤ i → i < first + count →
    flt (Spec.bins s.csr.fsF s.csr.log2nEnv.toNat (Spec.effF0 s.csr (s.cmdRead tagF0Limit (s.csr.f0Base.toNat + i))))
      (fofNat (2 ^ s.csr.log2nEnv.toNat / 2 - 1)) = true ∧
    flt (Spec.bins s.csr.fsF s.csr.log2nEnv.toNat
        (fmul s.csr.envLsmRatio (Spec.effF0 s.csr (s.cmdRead tagF0Limit (s.csr.f0Base.toNat + i)))))
      (fofNat (2 ^ s.csr.log2nEnv.toNat / 2)) = true

/-- Phase 1 of APRUN passes (R226). -/
structure ApReady (s : State) (first count : Nat) : Prop where
  config : ∀ row ∈ apConfigRows s, row.1 = true
  frames : FramesReady s s.csr.apBase first count
  limits : ∀ i, first ≤ i → i < first + count →
    flt (Spec.bins s.csr.fsF s.csr.log2nAp.toNat (Spec.effF0 s.csr (s.cmdRead tagF0Limit (s.csr.f0Base.toNat + i))))
      (fofNat (2 ^ s.csr.log2nAp.toNat / 2 - 1)) = true

/-- A segment can be extracted: the window fits (R162) and no sample under it is NaN or infinite (R161). -/
def SegmentOk (fs : Word) (l : Nat) (x : Int → Word) (centre f0 r : Word) : Prop :=
  Spec.winFits fs r f0 (2 ^ l) = true ∧
    ∀ k < Spec.winLen fs r f0, isFinite (x (Spec.origin centre + (k : Int) - (Spec.winH fs r f0 : Int))) = true

/-- The check of f0 and the grid of R182: `(f0 * N) / FS < N/2 - 1`, and every query on the grid. -/
def DcFits (fs : Word) (l : Nat) (f0 : Word) : Prop :=
  flt (Spec.bins fs l f0) (fofNat (2 ^ l / 2 - 1)) = true ∧ DcInGrid fs l f0

/-- The check of the width and the grid of R183: `(w * N) / FS < N/2`, and every query on the grid. -/
def SmoothFits (fs : Word) (l : Nat) (w : Word) : Prop :=
  flt (Spec.bins fs l w) (fofNat (2 ^ l / 2)) = true ∧ SmoothInGrid fs l w

/-- The effective F0 of frame `i` as phase 2 reads it (R180, R187). -/
def frameF0 (s : State) (i : Nat) : Word := Spec.effF0 s.csr (s.cmdRead (tagF0 i) (s.csr.f0Base.toNat + i))

/-- Bin `k` of the envelope row of frame `i` (R187). -/
def loopEnvRow (s : State) (i k : Nat) : Word :=
  let fs := s.csr.fsF
  let l := s.csr.log2nEnv.toNat
  let f0 := frameF0 s i
  let seg := loopSegment s.cfg.fpMode .hann true true fs envRatio f0 (Spec.frameCentre s.csr i) (s.sample (tagWave 0 i))
  let p := fun k => Spec.power (loopForward s.cfg.log2nMax l seg k)
  loopLift s.cfg.fpMode s.cfg.log2nMax fs l (s.csr.envCtrl.getLsbD 0) s.csr.envEps f0 s.csr.q1
    (loopSmooth fs l (fmul s.csr.envLsmRatio f0) (loopDc fs l f0 p)) k

/-- Frame `i` of ENVRUN meets no error of R188. -/
structure EnvFrameOk (s : State) (i : Nat) : Prop where
  segment : SegmentOk s.csr.fsF s.csr.log2nEnv.toNat (s.sample (tagWave 0 i)) (Spec.frameCentre s.csr i) (frameF0 s i) envRatio
  dc : DcFits s.csr.fsF s.csr.log2nEnv.toNat (frameF0 s i)
  smooth : SmoothFits s.csr.fsF s.csr.log2nEnv.toNat (fmul s.csr.envLsmRatio (frameF0 s i))
  finite : ∀ k ≤ 2 ^ s.csr.log2nEnv.toNat / 2, isFinite (loopEnvRow s i k) = true

/-- A segment of frame `i` of APRUN (R227); `seg` tells the frame's segments apart. -/
def loopApSegment (s : State) (i seg : Nat) (centre r : Word) (win : Win) : Nat → Word :=
  loopSegment s.cfg.fpMode win false true s.csr.fsF r (frameF0 s i) centre (s.sample (tagWave seg i))

/-- `d` of R227. -/
def quarterPeriod (s : State) (i : Nat) : Word := fdiv (fmul apShift s.csr.fsF) (frameF0 s i)

/-- `coarse_w[j]` of R227 for the window ratio `r`, whose segments are numbered from `seg`. -/
def loopApBand (s : State) (i seg : Nat) (r : Word) (j : Nat) : Word :=
  let fs := s.csr.fsF
  let l := s.csr.log2nAp.toNat
  let lmax := s.cfg.log2nMax
  let f0 := frameF0 s i
  let c := Spec.frameCentre s.csr i
  let c1 := loopCentroid lmax l s.csr.safeMin (loopApSegment s i seg (fsub c (quarterPeriod s i)) r .blackman)
  let c2 := loopCentroid lmax l s.csr.safeMin (loopApSegment s i (seg + 1) (fadd c (quarterPeriod s i)) r .blackman)
  let sc := loopDc fs l f0 fun k => fadd (c1 k) (c2 k)
  let sh := loopApSegment s i (seg + 2) c r .hann
  let sp := loopSmooth fs l f0 (loopDc fs l f0 fun k => Spec.power (loopForward lmax l sh k))
  loopBand s.cfg.fpMode lmax fs l s.csr.safeMin f0 (loopGdelay fs l s.csr.safeMin f0 sc sp) j

/-- `a0` of R227. -/
def loopGate (s : State) (i : Nat) : Word :=
  loopVuvValue s.csr.fsF s.csr.log2nAp.toNat s.csr.safeMin fun k =>
    Spec.power (loopForward s.cfg.log2nMax s.csr.log2nAp.toNat
      (loopApSegment s i 0 (Spec.frameCentre s.csr i) apVuvRatio .blackman) k)

/-- `coarse[j]` of R227, the per-band combination. -/
def loopApCoarse (s : State) (i j : Nat) : Word :=
  if flt (fmul bandInterval (fofNat (j + 1))) apSelLo then loopApBand s i 7 apGdRatioL j
  else if flt (fmul bandInterval (fofNat (j + 1))) apSelHi then loopApBand s i 4 apGdRatioM j
  else loopApBand s i 1 apGdRatioS j

/-- Bin `k` of the aperiodicity row of frame `i` (R227). -/
def loopApRow (s : State) (i k : Nat) : Word :=
  if flt s.csr.apThreshold (loopGate s i) then
    loopApInterp s.cfg.fpMode s.csr s.csr.log2nEnv.toNat (loopApCoarse s i) k
  else fmin (fmax (fsub f1 s.csr.safeMin) s.csr.apFloor) f1

/-- The segments and smoothings of one window ratio of a voiced frame meet no error (R228). -/
structure ApBandOk (s : State) (i seg : Nat) (r : Word) : Prop where
  before : SegmentOk s.csr.fsF s.csr.log2nAp.toNat (s.sample (tagWave seg i))
    (fsub (Spec.frameCentre s.csr i) (quarterPeriod s i)) (frameF0 s i) r
  after : SegmentOk s.csr.fsF s.csr.log2nAp.toNat (s.sample (tagWave (seg + 1) i))
    (fadd (Spec.frameCentre s.csr i) (quarterPeriod s i)) (frameF0 s i) r
  centred : SegmentOk s.csr.fsF s.csr.log2nAp.toNat (s.sample (tagWave (seg + 2) i))
    (Spec.frameCentre s.csr i) (frameF0 s i) r

/-- Frame `i` of APRUN meets no error of R228. -/
structure ApFrameOk (s : State) (i : Nat) : Prop where
  gate : SegmentOk s.csr.fsF s.csr.log2nAp.toNat (s.sample (tagWave 0 i)) (Spec.frameCentre s.csr i) (frameF0 s i) apVuvRatio
  voiced : flt s.csr.apThreshold (loopGate s i) = true →
    ApBandOk s i 1 apGdRatioS ∧ ApBandOk s i 4 apGdRatioM ∧ ApBandOk s i 7 apGdRatioL ∧
    DcFits s.csr.fsF s.csr.log2nAp.toNat (frameF0 s i) ∧
    SmoothFits s.csr.fsF s.csr.log2nAp.toNat (frameF0 s i) ∧
    SmoothFits s.csr.fsF s.csr.log2nAp.toNat (fdiv (frameF0 s i) f2)
  finite : ∀ k ≤ 2 ^ s.csr.log2nEnv.toNat / 2, isFinite (loopApRow s i k) = true

/-! ### The errors of phase 2 (R188, R228) -/

/-- `e` is the code of the first of some checks that fails. -/
def FirstFails (checks : List (Prop × ErrCode)) (e : ErrCode) : Prop :=
  ∃ passed failed later, checks = passed ++ (failed, e) :: later ∧ (∀ c ∈ passed, c.1) ∧ ¬ failed

/-- What the extraction of a segment checks (R162, R161), in its order. -/
def segmentChecks (fs : Word) (l : Nat) (x : Int → Word) (centre f0 r : Word) : List (Prop × ErrCode) :=
  [(Spec.winFits fs r f0 (2 ^ l) = true, .winlen),
    (∀ k < Spec.winLen fs r f0, isFinite (x (Spec.origin centre + (k : Int) - (Spec.winH fs r f0 : Int))) = true,
      .nonfinite)]

/-- What frame `i` of ENVRUN checks, in the order of R187. -/
def envFrameChecks (s : State) (i : Nat) : List (Prop × ErrCode) :=
  let fs := s.csr.fsF
  let l := s.csr.log2nEnv.toNat
  let f0 := frameF0 s i
  segmentChecks fs l (s.sample (tagWave 0 i)) (Spec.frameCentre s.csr i) f0 envRatio ++
    [(DcFits fs l f0, .range), (SmoothFits fs l (fmul s.csr.envLsmRatio f0), .range),
      (∀ k ≤ 2 ^ l / 2, isFinite (loopEnvRow s i k) = true, .numeric)]

/-- What one window ratio of a voiced frame of APRUN checks, in the order of R227; its segments are numbered from `seg`. -/
def apRatioChecks (s : State) (i seg : Nat) (r : Word) : List (Prop × ErrCode) :=
  let fs := s.csr.fsF
  let l := s.csr.log2nAp.toNat
  let f0 := frameF0 s i
  let c := Spec.frameCentre s.csr i
  segmentChecks fs l (s.sample (tagWave seg i)) (fsub c (quarterPeriod s i)) f0 r ++
    segmentChecks fs l (s.sample (tagWave (seg + 1) i)) (fadd c (quarterPeriod s i)) f0 r ++
    [(DcFits fs l f0, .range)] ++ segmentChecks fs l (s.sample (tagWave (seg + 2) i)) c f0 r ++
    [(SmoothFits fs l f0, .range), (SmoothFits fs l (fdiv f0 f2), .range)]

/-- What frame `i` of APRUN checks, in the order of R227. -/
def apFrameChecks (s : State) (i : Nat) : List (Prop × ErrCode) :=
  segmentChecks s.csr.fsF s.csr.log2nAp.toNat (s.sample (tagWave 0 i)) (Spec.frameCentre s.csr i) (frameF0 s i) apVuvRatio ++
    (if flt s.csr.apThreshold (loopGate s i) then
      apRatioChecks s i 1 apGdRatioS ++ apRatioChecks s i 4 apGdRatioM ++ apRatioChecks s i 7 apGdRatioL
    else []) ++
    [(∀ k ≤ 2 ^ s.csr.log2nEnv.toNat / 2, isFinite (loopApRow s i k) = true, .numeric)]

/-- The command completes, and its whole effect is rows `first .. first + count - 1` of the matrix at `base` (R59, R90). -/
def CompletesWithRows (i : Instr) (s : State) (base : Word) (first count : Nat) (v : Nat → Nat → Word) : Prop :=
  ∃ t, exec i s = .next t ∧
    Completed s t (fun a =>
      let k := a - base.toNat
      let cols := s.csr.outCols.toNat
      if base.toNat + first * cols ≤ a ∧ a < base.toNat + (first + count) * cols then some (v (k / cols) (k % cols))
      else none) ∧
    t.csr = s.csr ∧ t.mark = s.mark ∧
    (∀ f k, first ≤ f → f < first + count → k < s.csr.outCols.toNat →
      t.mem.wordAt (base.toNat + f * s.csr.outCols.toNat + k) =
        s.settle (base.toNat + f * s.csr.outCols.toNat + k) (v f k)) ∧
    ∀ b, b < 8 * (base.toNat + first * s.csr.outCols.toNat) ∨
        8 * (base.toNat + (first + count) * s.csr.outCols.toNat) ≤ b →
      t.mem.byteAt b = s.mem.byteAt b

end Sys2Proof.Machine
end

