-- ==== Sys2Proof/Certificates/Slice0/Obligations.lean ====
section
/-! DEFINITION. The statements for the provers, each a `Prop` from the numbered rules of the spec. -/

open Sys2Proof Sys2Proof.Machine

/-! ## Encoding (R110 to R124) -/

/-- R121 and R124 agree: decoding the two words that R124 gives a legal command gives the command back, alone and at the
front of any byte string (R84), with every operand at every value. -/
def Obligations.DecodesWhatItEncodes : Prop :=
  ∀ i : Instr, i.wf = true →
    decodeCmd (encode i).1 (encode i).2 = .ok i ∧
      ∀ rest : List Byte, decode (bytesOfWord (encode i).1 ++ bytesOfWord (encode i).2 ++ rest) = .ok (i, rest)

/-- The other direction: a pair of words that decodes is the encoding of what it decodes to, and that is a legal command,
so no two pairs of words stand for one command and no bit of a command is ignored (R119, R120). -/
def Obligations.EncodesWhatItDecodes : Prop :=
  ∀ (w0 w1 : Word) (i : Instr), decodeCmd w0 w1 = .ok i → i.wf = true ∧ encode i = (w0, w1)

/-- The opcodes of R117 whose row has the given operand or flag. -/
def opcodesWith (p : String) : List Nat :=
  if p = "PRM" then [0x03, 0x04, 0x20, 0x21, 0x30, 0x31, 0x32, 0x41, 0x43]
  else if p = "SRC" then [0x10, 0x11, 0x12, 0x30, 0x31, 0x32, 0x38, 0x40, 0x41, 0x42, 0x43, 0x44, 0x48]
  else if p = "DST" then
    [0x03, 0x04, 0x10, 0x11, 0x12, 0x20, 0x21, 0x30, 0x31, 0x32, 0x38, 0x40, 0x41, 0x42, 0x43, 0x44, 0x48]
  else if p = "SZ" then [0x10, 0x11, 0x12, 0x20, 0x30, 0x31, 0x32, 0x40, 0x41, 0x42, 0x43, 0x44]
  else if p = "WIN" then [0x20, 0x21]
  else if p = "NRM" ∨ p = "DCR" then [0x20]
  else if p = "SLIFT" then [0x32]
  else [0x00, 0x01, 0x02, 0x03, 0x04, 0x10, 0x11, 0x12, 0x20, 0x21, 0x30, 0x31, 0x32, 0x38, 0x40, 0x41, 0x42, 0x43, 0x44,
    0x48]

/-- Test `n` of R119 finds fault with the command `(W0, W1)`, on the numbers themselves. -/
def failsTest (n w0 w1 : Nat) : Prop :=
  let opc := w0 % 2 ^ 8
  let bit := fun k => w0 / 2 ^ (8 + k) % 2
  match n with
  | 1 => opc ∉ opcodesWith "any"
  | 2 => w0 / 2 ^ 16 % 2 ^ 16 ≠ 0
  | 3 =>
    (bit 0 = 1 ∧ opc ∉ opcodesWith "SZ") ∨ ((bit 1 = 1 ∨ bit 2 = 1) ∧ opc ∉ opcodesWith "WIN") ∨
      (bit 3 = 1 ∧ opc ∉ opcodesWith "NRM") ∨ (bit 4 = 1 ∧ opc ∉ opcodesWith "DCR") ∨
      (bit 5 = 1 ∧ opc ∉ opcodesWith "SLIFT") ∨ bit 6 = 1 ∨ bit 7 = 1 ∨ (bit 1 = 1 ∧ bit 2 = 1) ∨
      (bit 2 = 1 ∧ bit 1 = 0 ∧ opc ≠ 0x21)
  | 4 => w0 / 2 ^ 32 ≠ 0 ∧ opc ∉ opcodesWith "PRM"
  | 5 => w1 % 2 ^ 32 ≠ 0 ∧ opc ∉ opcodesWith "SRC"
  | 6 => w1 / 2 ^ 32 ≠ 0 ∧ opc ∉ opcodesWith "DST"
  | _ => False

/-- R119: a command is illegal exactly when one of the six tests fails, and then the engine, in its next step, raises
E_ILLEGAL with the number of the first that fails, before any other check. -/
def Obligations.IllegalCommandsRaiseInOrder : Prop :=
  ∀ w0 w1 : Word,
    ((∃ i, decodeCmd w0 w1 = .ok i) ↔ ∀ n, 1 ≤ n → n ≤ 6 → ¬ failsTest n w0.toNat w1.toNat) ∧
    ∀ n, 1 ≤ n → n ≤ 6 → failsTest n w0.toNat w1.toNat →
      (∀ m, 1 ≤ m → m < n → ¬ failsTest m w0.toNat w1.toNat) →
      ∀ (s : State) (c : PendingCmd), s.turns = [] → s.engine = .exec c → c.w0 = w0 → c.w1 = w1 →
        ∃ t, step s = .next t ∧ Raised s t ErrCode.illegal.code (BitVec.ofNat 64 n) ∧ t.mem = s.mem

/-- The worked encodings of R124, word by word. -/
def Obligations.WorkedEncodingsDecode : Prop :=
  decodeCmd 0x0000000000000000#64 0x0000000000000000#64 = .ok .nop ∧
  decodeCmd 0x0000000000000001#64 0x0000000000000000#64 = .ok .signal ∧
  decodeCmd 0x0000000000000002#64 0x0000000000000000#64 = .ok .defaults ∧
  decodeCmd 0x0000001000000003#64 0x0000002000000000#64 = .ok (.dfftsz 0x10#32 0x20#32) ∧
  decodeCmd 0x0000000000000110#64 0x0000200000001000#64 = .ok (.fftr .ap 0x1000#32 0x2000#32) ∧
  decodeCmd 0x0000001000001320#64 0x0000300000000000#64 = .ok (.wseg .ap .blackman false true 0x10#32 0x3000#32) ∧
  decodeCmd 0x0000001800002032#64 0x0000400000003000#64 = .ok (.lifter .env true 0x18#32 0x3000#32 0x4000#32) ∧
  decodeCmd 0x0000000000000038#64 0x000000C800000000#64 = .ok (.envrun 0#32 200#32) ∧
  decodeCmd 0x0000000000000048#64 0x000000C800000000#64 = .ok (.aprun 0#32 200#32)

/-! ## The sequencer (R35, R38, R270 to R274) -/

/-- When the engine executes a command whose words decode to `i`, the step is `exec i` of the state, whether the engine's
turn is listed or no turn is listed (the turn is then used up). That a command is one step, and the list of turns, are the
model's (logs 7 and 8; R338 leaves them open). -/
def Obligations.StepRunsTheDecodedCommand : Prop :=
  ∀ (s : State) (c : PendingCmd) (i : Instr), s.engine = .exec c → decodeCmd c.w0 c.w1 = .ok i →
    (s.turns = [] → step s = exec i s) ∧
    ∀ ts, s.turns = .engine :: ts → step s = exec i { s with turns := ts }

/-- R38: IDLE with a queued command pops the head and enters EXEC; IDLE with an empty queue and HALT do nothing
(R286, R323), whether the engine's turn is listed, and then used up, or no turn is; a listed turn of the host is one access
of the host; a listed turn inside the executing command makes some of the words it writes take effect, each with the value
computed for it, notes that the reads before them are done (R103), and changes nothing else but the counter of free values
(R332). The list of turns and its kinds (logs 8, 12) and a step that leaves an idle machine as it is (log 13) are the
model's. -/
def Obligations.SequencerOutsideExec : Prop :=
  ∀ s : State,
    (s.turns = [] → s.engine = .idle → ∀ c q, s.queue = c :: q →
      step s = .next { s with engine := .exec c, queue := q }) ∧
    (s.turns = [] → s.engine = .idle → s.queue = [] → step s = .next s) ∧
    (s.turns = [] → s.engine = .halt → step s = .next s) ∧
    (∀ ts, s.turns = .engine :: ts →
      (s.engine = .idle → ∀ c q, s.queue = c :: q →
        step s = .next { s with turns := ts, engine := .exec c, queue := q }) ∧
      (s.engine = .idle → s.queue = [] → step s = .next { s with turns := ts }) ∧
      (s.engine = .halt → step s = .next { s with turns := ts })) ∧
    (∀ a ts, s.turns = .host a :: ts → step s = .next ({ s with turns := ts }.host a)) ∧
    ∀ ts, s.turns = .progress :: ts →
      ((∀ c, s.engine ≠ .exec c) → step s = .next { s with turns := ts }) ∧
      ∀ c, s.engine = .exec c → ∃ (ws : List (Nat × Word)) (gs : List Nat),
        step s = .next { s with
          turns := ts, engine := .exec { c with landed := ws ++ c.landed, begun := gs ++ c.begun }, free := s.free + 1 } ∧
        (∀ w ∈ ws, (∃ v, (w.1, v) ∈ s.inFlight ∧ w.2 = s.settle w.1 v) ∧ ∀ g ∈ s.readsBefore c w.1, g ∈ gs) ∧
        ∀ g ∈ gs, ∃ w ∈ ws, g ∈ s.readsBefore c w.1

/-- R291 and R293: a command either completes or raises, never both and never neither; completing counts it and goes on
with the queue, whose commands then have, in a word that the host wrote too, its value for the older one and bring back no
value of the host's that it overwrote (R92, R95, log 10); raising records the error,
flushes the queue and halts (R273, R285, R286). -/
def Obligations.CommandsCompleteOrRaise : Prop :=
  ∀ (i : Instr) (s : State), ∃ t, exec i s = .next t ∧
    ((Completed s t (fun a => (planOf i s).words.lookup a) ∧ t.engine ≠ .halt) ∨ ∃ (e : ErrCode) (info : Word), Raised s t e.code info)

/-- R285: what raising an error records and does, for the step of any executing command that ends in HALT: the code of
R281, the command's words, ERR, the empty queue, HALT; COMPLETED and DONE unchanged, no configuration register written,
and IRQ high if IE_ERR is 1. -/
def Obligations.RaisingRecordsTheCommand : Prop :=
  ∀ (s t : State) (c : PendingCmd), s.turns = [] → s.engine = .exec c → step s = .next t → t.engine = .halt →
    (∃ e : ErrCode, t.errCode = e.code) ∧ t.errCmd0 = c.w0 ∧ t.errCmd1 = c.w1 ∧ t.err = true ∧ t.queue = [] ∧
      t.completed = s.completed ∧ t.done = s.done ∧ t.csr = s.csr ∧ (s.ieErr = true → t.irq = true)

/-- R287: after an error of a primitive command or of DEFAULTS, DMEM and the configuration registers are unchanged. -/
def Obligations.PrimitiveErrorsChangeNoData : Prop :=
  ∀ (i : Instr) (s t : State), (∀ first count, i ≠ .envrun first count) → (∀ first count, i ≠ .aprun first count) →
    exec i s = .next t → t.engine = .halt → t.mem = s.mem ∧ t.csr = s.csr

/-- R188 and R228. An error of a frame engine leaves every byte outside the output rows of its range as it was. When phase 1
has passed, the lowest frame with a failing check is the one reported, with the code of its first failing check in the
order of R187 and R227, and each word of the rows of the range holds its old value, the value the host has already seen
the command write to it (log 12), or the value computed for it. R188 takes E_RANGE for impossible; that a correction or
smoothing that has no grid raises it, as after an F0 that the host raised since phase 1, is the model's choice (log 15). -/
def Obligations.FrameErrorsSpoilOnlyTheirRows : Prop :=
  ∀ (first count : Half) (s : State) (i : Instr) (base : Word) (ready : Prop) (checks : Nat → List (Prop × ErrCode))
      (row : Nat → Nat → Word),
    (i = .envrun first count ∧ base = s.csr.envBase ∧ ready = EnvReady s first.toNat count.toNat ∧
      checks = envFrameChecks s ∧ row = loopEnvRow s) ∨
    (i = .aprun first count ∧ base = s.csr.apBase ∧ ready = ApReady s first.toNat count.toNat ∧
      checks = apFrameChecks s ∧ row = loopApRow s) →
    (∀ t, exec i s = .next t → t.engine = .halt →
      t.csr = s.csr ∧ ∀ b,
        b < 8 * (base.toNat + first.toNat * s.csr.outCols.toNat) ∨
          8 * (base.toNat + (first.toNat + count.toNat) * s.csr.outCols.toNat) ≤ b →
        t.mem.byteAt b = s.mem.byteAt b) ∧
    (s.cfg.Legal → ready → ∀ (f : Nat) (e : ErrCode), first.toNat ≤ f → f < first.toNat + count.toNat →
      FirstFails (checks f) e → (∀ g, first.toNat ≤ g → g < f → ∀ c ∈ checks g, c.1) →
      ∃ t, exec i s = .next t ∧ Raised s t e.code (BitVec.ofNat 64 f) ∧
        ∀ g k, first.toNat ≤ g → g < first.toNat + count.toNat → k < s.csr.outCols.toNat →
          let a := base.toNat + g * s.csr.outCols.toNat + k
          t.mem.wordAt a = s.mem.wordAt a ∨ s.cmd.landed.lookup a = some (t.mem.wordAt a) ∨
            t.mem.wordAt a = s.settle a (row g k))

/-- R254 and R70: DEFAULTS alone writes configuration registers, SIGNAL alone sets MARK, and no command changes a
parameter, HOLD, an interrupt enable, DROP or CFGWERR, or clears DONE or ERR. -/
def Obligations.OnlyDefaultsConfiguresOnlySignalMarks : Prop :=
  ∀ (i : Instr) (s t : State), exec i s = .next t →
    Kept s t ∧ (i ≠ .defaults → t.csr = s.csr) ∧ (i ≠ .signal → t.mark = s.mark) ∧
      (s.done = true → t.done = true) ∧ (s.err = true → t.err = true)

/-- R8: no step changes an implementation parameter. -/
def Obligations.ParametersNeverChange : Prop :=
  ∀ s t : State, step s = .next t → t.cfg = s.cfg

/-! ## What each command does when it completes -/

/-- NOP completes in every state and does nothing else (R270); SIGNAL completes in every state and sets MARK (R271). -/
def Obligations.NopAndSignalComplete : Prop :=
  ∀ s : State,
    (∃ t, exec .nop s = .next t ∧ Completed s t (fun _ => none) ∧ t.csr = s.csr ∧ t.mark = s.mark ∧ t.mem = s.mem) ∧
    ∃ t, exec .signal s = .next t ∧ Completed s t (fun _ => none) ∧ t.csr = s.csr ∧ t.mark = true ∧ t.mem = s.mem

/-- `k` is the exponent of `FFTSizeR(f, r)`: the smallest legal one with `F0FloorR(2^k, r) <= f` (R250, R251). -/
def IsSizeExp (s : State) (f r : Word) (k : Nat) : Prop :=
  s.cfg.log2nMin ≤ k ∧ k ≤ s.cfg.log2nMax ∧
    fle (fdiv (fmul r s.csr.fsF) (fsub (fofNat (2 ^ k)) f2)) f = true ∧
    ∀ j, s.cfg.log2nMin ≤ j → j < k → fle (fdiv (fmul r s.csr.fsF) (fsub (fofNat (2 ^ j)) f2)) f = false

/-- DEFAULTS (R254): with a legal FS and sizes that exist, the option registers take the reference values and the two
exponents the derived ones, FS, FRAME_PERIOD and the array registers stay, and DMEM stays. -/
def Obligations.DefaultsCompletes : Prop :=
  ∀ (s : State) (ke ka : Nat), FsOk s → IsSizeExp s 0x4051C00000000000#64 marginEnv ke →
    IsSizeExp s 0x4051C00000000000#64 marginAp ka →
    ∃ t, exec .defaults s = .next t ∧ Completed s t (fun _ => none) ∧ t.mark = s.mark ∧ t.mem = s.mem ∧
      t.csr.f0Floor = 0x4051C00000000000#64 ∧ t.csr.defaultF0 = 0x407F400000000000#64 ∧
      t.csr.q1 = 0xBFC3333333333333#64 ∧ t.csr.apThreshold = 0x3FEB333333333333#64 ∧
      t.csr.envLsmRatio = 0x3FF0000000000000#64 ∧ t.csr.envCtrl = 0 ∧ t.csr.safeMin = 0x3D719799812DEA11#64 ∧
      t.csr.envEps = 0x3CB0000000000000#64 ∧ t.csr.apFloor = 0x3F50624DD2F1A9FC#64 ∧
      t.csr.apDcDb = 0xC04E000000000000#64 ∧ t.csr.log2nEnv = BitVec.ofNat 64 ke ∧
      t.csr.log2nAp = BitVec.ofNat 64 ka ∧
      t.csr.fs = s.csr.fs ∧ t.csr.framePeriod = s.csr.framePeriod ∧ t.csr.xBase = s.csr.xBase ∧
      t.csr.xLen = s.csr.xLen ∧ t.csr.f0Base = s.csr.f0Base ∧ t.csr.f0Len = s.csr.f0Len ∧
      t.csr.envBase = s.csr.envBase ∧ t.csr.apBase = s.csr.apBase ∧ t.csr.outRows = s.csr.outRows ∧
      t.csr.outCols = s.csr.outCols

/-- DFFTSZ (R253): the smallest legal size whose floor is at most `f`, as a `u64`. -/
def Obligations.DfftszCompletes : Prop :=
  ∀ (prm dst : Half) (s : State) (k : Nat), FsOk s →
    prm.toNat + 2 ≤ s.cfg.dmemWords → dst.toNat + 1 ≤ s.cfg.dmemWords →
    Positive (s.cmdRead tagPrm prm.toNat) → Positive (s.cmdRead tagPrm (prm.toNat + 1)) →
    IsSizeExp s (s.cmdRead tagPrm prm.toNat) (s.cmdRead tagPrm (prm.toNat + 1)) k →
    CompletesWith (.dfftsz prm dst) s dst.toNat 1 fun _ => BitVec.ofNat 64 (2 ^ k)

/-- DF0FLR (R252): `(r * FS) / (P - 2.0)` of a legal size `P`. -/
def Obligations.DfZeroFlrCompletes : Prop :=
  ∀ (prm dst : Half) (s : State) (k : Nat), FsOk s →
    prm.toNat + 2 ≤ s.cfg.dmemWords → dst.toNat + 1 ≤ s.cfg.dmemWords →
    (s.cmdRead tagPrm prm.toNat).toNat = 2 ^ k → s.cfg.log2nMin ≤ k → k ≤ s.cfg.log2nMax →
    Positive (s.cmdRead tagPrm (prm.toNat + 1)) →
    CompletesWith (.df0flr prm dst) s dst.toNat 1 fun _ =>
      fdiv (fmul (s.cmdRead tagPrm (prm.toNat + 1)) s.csr.fsF) (fsub (fofNat (2 ^ k)) f2)

/-- FFTR (R142): the first `N/2 + 1` bins of the transform of R141, in the loop order and grouping of its pseudocode,
interleaved. -/
def Obligations.FftrCompletes : Prop :=
  ∀ (sz : SizeSel) (src dst : Half) (s : State), s.cfg.Legal → SizeOk s sz →
    src.toNat + 2 ^ s.sizeExp sz ≤ s.cfg.dmemWords → dst.toNat + (2 ^ s.sizeExp sz + 2) ≤ s.cfg.dmemWords →
    CompletesWith (.fftr sz src dst) s dst.toNat (2 ^ s.sizeExp sz + 2) fun k =>
      let a := loopForward s.cfg.log2nMax (s.sizeExp sz) (fun n => s.cmdRead tagSrc (src.toNat + n)) (k / 2)
      if k % 2 = 0 then a.re else a.im

/-- FFTI (R143): the real parts of the inverse transform of R141 of the conjugate-symmetric spectrum, not divided by `N`;
the imaginary parts of bins 0 and `N/2` play no part. -/
def Obligations.FftiCompletes : Prop :=
  ∀ (sz : SizeSel) (src dst : Half) (s : State), s.cfg.Legal → SizeOk s sz →
    src.toNat + (2 ^ s.sizeExp sz + 2) ≤ s.cfg.dmemWords → dst.toNat + 2 ^ s.sizeExp sz ≤ s.cfg.dmemWords →
    CompletesWith (.ffti sz src dst) s dst.toNat (2 ^ s.sizeExp sz)
      (loopInverse s.cfg.log2nMax (s.sizeExp sz) fun k =>
        ⟨s.cmdRead tagSrc (src.toNat + 2 * k), s.cmdRead tagSrc (src.toNat + (2 * k + 1))⟩)

/-- POW (R144): `re*re + im*im` of each bin. -/
def Obligations.PowCompletes : Prop :=
  ∀ (sz : SizeSel) (src dst : Half) (s : State), s.cfg.Legal → SizeOk s sz →
    src.toNat + (2 ^ s.sizeExp sz + 2) ≤ s.cfg.dmemWords →
    dst.toNat + (2 ^ s.sizeExp sz / 2 + 1) ≤ s.cfg.dmemWords →
    CompletesWith (.pow sz src dst) s dst.toNat (2 ^ s.sizeExp sz / 2 + 1) fun k =>
      let re := s.cmdRead tagSrc (src.toNat + 2 * k)
      let im := s.cmdRead tagSrc (src.toNat + (2 * k + 1))
      fadd (fmul re re) (fmul im im)

/-- WSEG (R162 to R166): the windowed segment, with normalisation and mean removal as the flags say, then zeros. -/
def Obligations.WsegCompletes : Prop :=
  ∀ (sz : SizeSel) (win : Win) (nrm dcr : Bool) (prm dst : Half) (s : State), win ≠ .nuttall → FsOk s → SizeOk s sz →
    prm.toNat + 3 ≤ s.cfg.dmemWords → s.csr.xBase.toNat + s.csr.xLen.toNat ≤ s.cfg.dmemWords →
    dst.toNat + 2 ^ s.sizeExp sz ≤ s.cfg.dmemWords →
    isFinite (s.cmdRead tagPrm prm.toNat) = true → Positive (s.cmdRead tagPrm (prm.toNat + 1)) →
    Positive (s.cmdRead tagPrm (prm.toNat + 2)) →
    SegmentOk s.csr.fsF (s.sizeExp sz) (s.sample tagX) (s.cmdRead tagPrm prm.toNat)
      (s.cmdRead tagPrm (prm.toNat + 1)) (s.cmdRead tagPrm (prm.toNat + 2)) →
    CompletesWith (.wseg sz win nrm dcr prm dst) s dst.toNat (2 ^ s.sizeExp sz)
      (loopSegment s.cfg.fpMode win nrm dcr s.csr.fsF (s.cmdRead tagPrm (prm.toNat + 2))
        (s.cmdRead tagPrm (prm.toNat + 1)) (s.cmdRead tagPrm prm.toNat) (s.sample tagX))

/-- WGEN (R167): the window of `L` points; one point is 1.0. -/
def Obligations.WgenCompletes : Prop :=
  ∀ (win : Win) (prm dst : Half) (s : State) (len : Nat), prm.toNat + 1 ≤ s.cfg.dmemWords →
    (s.cmdRead tagPrm prm.toNat).toNat = len → 1 ≤ len → len ≤ 2 ^ s.cfg.log2nMax →
    dst.toNat + len ≤ s.cfg.dmemWords →
    CompletesWith (.wgen win prm dst) s dst.toNat len fun t =>
      let x := fdiv (fofNat t) (fsub (fofNat len) f1)
      let c1 := fpCos s.cfg.fpMode (fmul f2Pi x)
      let c2 := fpCos s.cfg.fpMode (fmul f4Pi x)
      let c3 := fpCos s.cfg.fpMode (fmul (fmul f6 fPi) x)
      if len = 1 then f1
      else match win with
        | .hann => fsub f0p5 (fmul f0p5 c1)
        | .blackman => fadd (fsub f0p42 (fmul f0p5 c1)) (fmul f0p08 c2)
        | .nuttall => fsub (fadd (fsub nuttall0 (fmul nuttall1 c1)) (fmul nuttall2 c2)) (fmul nuttall3 c3)

/-- DCCORR (R181, R182), for a legal f0 whose queries fall on the grid (R182: they always do). -/
def Obligations.DccorrCompletes : Prop :=
  ∀ (sz : SizeSel) (prm src dst : Half) (s : State), s.cfg.Legal → FsOk s → SizeOk s sz →
    prm.toNat + 1 ≤ s.cfg.dmemWords → src.toNat + (2 ^ s.sizeExp sz / 2 + 1) ≤ s.cfg.dmemWords →
    dst.toNat + (2 ^ s.sizeExp sz / 2 + 1) ≤ s.cfg.dmemWords →
    Positive (s.cmdRead tagPrm prm.toNat) → DcFits s.csr.fsF (s.sizeExp sz) (s.cmdRead tagPrm prm.toNat) →
    CompletesWith (.dccorr sz prm src dst) s dst.toNat (2 ^ s.sizeExp sz / 2 + 1)
      (loopDc s.csr.fsF (s.sizeExp sz) (s.cmdRead tagPrm prm.toNat) fun k => s.cmdRead tagSrc (src.toNat + k))

/-- LSMOOTH (R181, R183), for a legal width whose queries fall on the grid (R183: they always do). -/
def Obligations.LsmoothCompletes : Prop :=
  ∀ (sz : SizeSel) (prm src dst : Half) (s : State), s.cfg.Legal → FsOk s → SizeOk s sz →
    prm.toNat + 1 ≤ s.cfg.dmemWords → src.toNat + (2 ^ s.sizeExp sz / 2 + 1) ≤ s.cfg.dmemWords →
    dst.toNat + (2 ^ s.sizeExp sz / 2 + 1) ≤ s.cfg.dmemWords →
    Positive (s.cmdRead tagPrm prm.toNat) → SmoothFits s.csr.fsF (s.sizeExp sz) (s.cmdRead tagPrm prm.toNat) →
    CompletesWith (.lsmooth sz prm src dst) s dst.toNat (2 ^ s.sizeExp sz / 2 + 1)
      (loopSmooth s.csr.fsF (s.sizeExp sz) (s.cmdRead tagPrm prm.toNat) fun k => s.cmdRead tagSrc (src.toNat + k))

/-- LIFTER (R184). -/
def Obligations.LifterCompletes : Prop :=
  ∀ (sz : SizeSel) (slift : Bool) (prm src dst : Half) (s : State), s.cfg.Legal → FsOk s → Positive s.csr.envEps →
    SizeOk s sz → prm.toNat + 2 ≤ s.cfg.dmemWords → src.toNat + (2 ^ s.sizeExp sz / 2 + 1) ≤ s.cfg.dmemWords →
    dst.toNat + (2 ^ s.sizeExp sz / 2 + 1) ≤ s.cfg.dmemWords →
    Positive (s.cmdRead tagPrm prm.toNat) → isFinite (s.cmdRead tagPrm (prm.toNat + 1)) = true →
    CompletesWith (.lifter sz slift prm src dst) s dst.toNat (2 ^ s.sizeExp sz / 2 + 1)
      (loopLift s.cfg.fpMode s.cfg.log2nMax s.csr.fsF (s.sizeExp sz) slift s.csr.envEps (s.cmdRead tagPrm prm.toNat)
        (s.cmdRead tagPrm (prm.toNat + 1)) fun k => s.cmdRead tagSrc (src.toNat + k))

/-- ENVRUN (R185 to R187): phase 1 passes and every frame of the range meets no error of R188; then the rows of the range
hold the values of R187, and nothing else of DMEM changes. -/
def Obligations.EnvrunCompletes : Prop :=
  ∀ (first count : Half) (s : State), s.cfg.Legal → EnvReady s first.toNat count.toNat →
    (∀ i, first.toNat ≤ i → i < first.toNat + count.toNat → EnvFrameOk s i) →
    CompletesWithRows (.envrun first count) s s.csr.envBase first.toNat count.toNat (loopEnvRow s)

/-- CENTROID (R210). -/
def Obligations.CentroidCompletes : Prop :=
  ∀ (sz : SizeSel) (src dst : Half) (s : State), s.cfg.Legal → Positive s.csr.safeMin → SizeOk s sz →
    src.toNat + 2 ^ s.sizeExp sz ≤ s.cfg.dmemWords → dst.toNat + (2 ^ s.sizeExp sz / 2 + 1) ≤ s.cfg.dmemWords →
    CompletesWith (.centroid sz src dst) s dst.toNat (2 ^ s.sizeExp sz / 2 + 1)
      (loopCentroid s.cfg.log2nMax (s.sizeExp sz) s.csr.safeMin fun n => s.cmdRead tagSrc (src.toNat + n))

/-- GDELAY (R211), for a legal f0 whose queries fall on the grids of the two smoothings (R211: they always do). -/
def Obligations.GdelayCompletes : Prop :=
  ∀ (sz : SizeSel) (prm src dst : Half) (s : State), s.cfg.Legal → FsOk s → Positive s.csr.safeMin → SizeOk s sz →
    prm.toNat + 1 ≤ s.cfg.dmemWords → src.toNat + 2 * (2 ^ s.sizeExp sz / 2 + 1) ≤ s.cfg.dmemWords →
    dst.toNat + (2 ^ s.sizeExp sz / 2 + 1) ≤ s.cfg.dmemWords →
    Positive (s.cmdRead tagPrm prm.toNat) → SmoothFits s.csr.fsF (s.sizeExp sz) (s.cmdRead tagPrm prm.toNat) →
    SmoothFits s.csr.fsF (s.sizeExp sz) (fdiv (s.cmdRead tagPrm prm.toNat) f2) →
    CompletesWith (.gdelay sz prm src dst) s dst.toNat (2 ^ s.sizeExp sz / 2 + 1)
      (loopGdelay s.csr.fsF (s.sizeExp sz) s.csr.safeMin (s.cmdRead tagPrm prm.toNat)
        (fun k => s.cmdRead tagSrc (src.toNat + k))
        fun k => s.cmdRead tagSrc (src.toNat + (2 ^ s.sizeExp sz / 2 + 1 + k)))

/-- VUV (R212). -/
def Obligations.VuvCompletes : Prop :=
  ∀ (sz : SizeSel) (src dst : Half) (s : State), s.cfg.Legal → FsOk s → Positive s.csr.safeMin → SizeOk s sz →
    src.toNat + (2 ^ s.sizeExp sz / 2 + 1) ≤ s.cfg.dmemWords → dst.toNat + 1 ≤ s.cfg.dmemWords →
    CompletesWith (.vuv sz src dst) s dst.toNat 1 fun _ =>
      loopVuvValue s.csr.fsF (s.sizeExp sz) s.csr.safeMin fun k => s.cmdRead tagSrc (src.toNat + k)

/-- BANDAP (R220 to R223), for a legal band geometry. -/
def Obligations.BandapCompletes : Prop :=
  ∀ (sz : SizeSel) (prm src dst : Half) (s : State), s.cfg.Legal → FsOk s → Positive s.csr.safeMin → SizeOk s sz →
    prm.toNat + 1 ≤ s.cfg.dmemWords → src.toNat + (2 ^ s.sizeExp sz / 2 + 1) ≤ s.cfg.dmemWords →
    dst.toNat + Spec.bandCount s.csr.fsF ≤ s.cfg.dmemWords →
    Positive (s.cmdRead tagPrm prm.toNat) → Spec.bandsLegal s.csr.fsF (s.sizeExp sz) = true →
    CompletesWith (.bandap sz prm src dst) s dst.toNat (Spec.bandCount s.csr.fsF)
      (loopBand s.cfg.fpMode s.cfg.log2nMax s.csr.fsF (s.sizeExp sz) s.csr.safeMin (s.cmdRead tagPrm prm.toNat)
        fun k => s.cmdRead tagSrc (src.toNat + k))

/-- APINTERP (R220, R224). -/
def Obligations.ApinterpCompletes : Prop :=
  ∀ (sz : SizeSel) (src dst : Half) (s : State), s.cfg.Legal → FsOk s → isFinite s.csr.apDcDb = true →
    Positive s.csr.safeMin → Positive s.csr.apFloor → fle s.csr.apFloor f1 = true → SizeOk s sz →
    src.toNat + Spec.bandCount s.csr.fsF ≤ s.cfg.dmemWords → dst.toNat + (2 ^ s.sizeExp sz / 2 + 1) ≤ s.cfg.dmemWords →
    CompletesWith (.apinterp sz src dst) s dst.toNat (2 ^ s.sizeExp sz / 2 + 1)
      (loopApInterp s.cfg.fpMode s.csr (s.sizeExp sz) fun j => s.cmdRead tagSrc (src.toNat + j))

/-- APRUN (R225 to R227): phase 1 passes and every frame of the range meets no error of R228; then the rows of the range
hold the values of R227, and nothing else of DMEM changes. -/
def Obligations.AprunCompletes : Prop :=
  ∀ (first count : Half) (s : State), s.cfg.Legal → ApReady s first.toNat count.toNat →
    (∀ i, first.toNat ≤ i → i < first.toNat + count.toNat → ApFrameOk s i) →
    CompletesWithRows (.aprun first count) s s.csr.apBase first.toNat count.toNat (loopApRow s)

/-! ## Errors and their order (R281 to R289) -/

/-- FFTR, FFTI and POW: an exponent out of range raises E_CONFIG with the offset of the size register; then an invalid
SRC region raises E_ADDR(1), then an invalid DST region E_ADDR(2) (R116, R118, R284, R289). `a` and `b` are the lengths
of the two regions. The exponent is that of the register that SZ selects (R116). -/
def Obligations.TransformErrors : Prop :=
  ∀ (sz : SizeSel) (src dst : Half) (s : State),
    s.sizeExp sz = (match sz with | .env => s.csr.log2nEnv.toNat | .ap => s.csr.log2nAp.toNat) ∧
    (let n := 2 ^ s.sizeExp sz
    ∀ (i : Instr) (a b : Nat), (i, a, b) ∈ [(Instr.fftr sz src dst, n, n + 2), (.ffti sz src dst, n + 2, n),
      (.pow sz src dst, n + 2, n / 2 + 1)] →
      (¬ SizeOk s sz → RaisesClean i s .config (match sz with | .env => 0x090 | .ap => 0x098)) ∧
      (SizeOk s sz → s.cfg.dmemWords < src.toNat + a → RaisesClean i s .addr 1) ∧
      (SizeOk s sz → src.toNat + a ≤ s.cfg.dmemWords → s.cfg.dmemWords < dst.toNat + b → RaisesClean i s .addr 2))

/-- A command that needs FS raises E_CONFIG(0x080) when FS is not in `1 .. FS_MAX`, before every other check (R47,
R282); the value the commands compute with is FS as a binary64 (R12, R47). -/
def Obligations.SampleRateErrors : Prop :=
  ∀ (s : State) (sz : SizeSel) (win : Win) (nrm dcr slift : Bool) (prm src dst : Half),
    s.csr.fsF = fofNat s.csr.fs.toNat ∧
    (¬ FsOk s → win ≠ .nuttall →
      ∀ i ∈ [Instr.defaults, .dfftsz prm dst, .df0flr prm dst, .wseg sz win nrm dcr prm dst, .dccorr sz prm src dst,
        .lsmooth sz prm src dst, .lifter sz slift prm src dst, .envrun src dst, .gdelay sz prm src dst, .vuv sz src dst,
        .bandap sz prm src dst, .apinterp sz src dst, .aprun src dst], RaisesClean i s .config 0x080)

/-- WSEG's errors in the order of R166: FS and the size, with the offset of the register (R282); the regions PRM, X, DST
(R284); then the parameters, non-finite before out of range; then the window (R162); then the lowest sample under the
window that is not finite (R161). A sample outside the waveform is `+0.0`. -/
def Obligations.WsegErrors : Prop :=
  ∀ (sz : SizeSel) (win : Win) (nrm dcr : Bool) (prm dst : Half) (s : State),
    let i := Instr.wseg sz win nrm dcr prm dst
    let centre := s.cmdRead tagPrm prm.toNat
    let f0 := s.cmdRead tagPrm (prm.toNat + 1)
    let r := s.cmdRead tagPrm (prm.toNat + 2)
    let fs := s.csr.fsF
    let x := s.sample tagX
    (∀ j : Int, x j = if 0 ≤ j ∧ j < s.csr.xLen.toNat then s.cmdRead tagX (s.csr.xBase.toNat + j.toNat)
      else 0) ∧
    (win ≠ .nuttall →
      (∀ n, [fsRow s, sizeRow s sz].find? (fun row => !row.1) = some (false, n) →
        RaisesClean i s .config (BitVec.ofNat 64 n)) ∧
      (FsOk s → SizeOk s sz →
        (s.cfg.dmemWords < prm.toNat + 3 → RaisesClean i s .addr 0) ∧
        (prm.toNat + 3 ≤ s.cfg.dmemWords →
          (s.cfg.dmemWords < s.csr.xBase.toNat + s.csr.xLen.toNat → RaisesClean i s .addr 3) ∧
          (s.csr.xBase.toNat + s.csr.xLen.toNat ≤ s.cfg.dmemWords →
            (s.cfg.dmemWords < dst.toNat + 2 ^ s.sizeExp sz → RaisesClean i s .addr 2) ∧
            (dst.toNat + 2 ^ s.sizeExp sz ≤ s.cfg.dmemWords →
              (isFinite centre = false → RaisesClean i s .nonfinite 0) ∧
              (isFinite centre = true → isFinite f0 = false → RaisesClean i s .nonfinite 1) ∧
              (isFinite centre = true → isFinite f0 = true → isFinite r = false → RaisesClean i s .nonfinite 2) ∧
              (isFinite centre = true → isFinite f0 = true → isFinite r = true →
                (flt f0p0 f0 = false → RaisesClean i s .param 1) ∧
                (flt f0p0 f0 = true → flt f0p0 r = false → RaisesClean i s .param 2) ∧
                (flt f0p0 f0 = true → flt f0p0 r = true →
                  (isFinite (Spec.halfLength fs r f0) = false →
                    RaisesClean i s .winlen (BitVec.ofNat 64 (2 ^ 64 - 1))) ∧
                  (isFinite (Spec.halfLength fs r f0) = true → 2 ^ s.sizeExp sz < Spec.winLen fs r f0 →
                    RaisesClean i s .winlen (BitVec.ofNat 64 (min (Spec.winLen fs r f0) (2 ^ 64 - 1)))) ∧
                  (isFinite (Spec.halfLength fs r f0) = true → Spec.winLen fs r f0 ≤ 2 ^ s.sizeExp sz →
                    ∀ k < Spec.winLen fs r f0,
                      (∀ k' < k, isFinite (x (Spec.origin centre + (k' : Int) - (Spec.winH fs r f0 : Int))) = true) →
                      isFinite (x (Spec.origin centre + (k : Int) - (Spec.winH fs r f0 : Int))) = false →
                      RaisesClean i s .nonfinite
                        (BitVec.ofNat 64 (Spec.origin centre + (k : Int) - (Spec.winH fs r f0 : Int)).toNat)))))))))

/-- WGEN's errors in the order of R167 and R284: the parameter block, then `L`, then the DST region. -/
def Obligations.WgenErrors : Prop :=
  ∀ (win : Win) (prm dst : Half) (s : State),
    let len := s.cmdRead tagPrm prm.toNat
    (s.cfg.dmemWords < prm.toNat + 1 → RaisesClean (.wgen win prm dst) s .addr 0) ∧
    (prm.toNat + 1 ≤ s.cfg.dmemWords →
      (len.toNat < 1 ∨ 2 ^ s.cfg.log2nMax < len.toNat → RaisesClean (.wgen win prm dst) s .param len) ∧
      (1 ≤ len.toNat → len.toNat ≤ 2 ^ s.cfg.log2nMax → s.cfg.dmemWords < dst.toNat + len.toNat →
        RaisesClean (.wgen win prm dst) s .addr 2))

/-- The errors of DF0FLR, DFFTSZ and DEFAULTS after the check of FS (R252 to R254). -/
def Obligations.HelperErrors : Prop :=
  ∀ (prm dst : Half) (s : State),
    let a := s.cmdRead tagPrm prm.toNat
    let r := s.cmdRead tagPrm (prm.toNat + 1)
    FsOk s →
    ((∀ k, ¬ IsSizeExp s 0x4051C00000000000#64 marginEnv k) ∨ (∀ k, ¬ IsSizeExp s 0x4051C00000000000#64 marginAp k) →
      RaisesClean .defaults s .config 0x080) ∧
    (∀ i ∈ [Instr.df0flr prm dst, .dfftsz prm dst],
      (s.cfg.dmemWords < prm.toNat + 2 → RaisesClean i s .addr 0) ∧
      (prm.toNat + 2 ≤ s.cfg.dmemWords → s.cfg.dmemWords < dst.toNat + 1 → RaisesClean i s .addr 2)) ∧
    (prm.toNat + 2 ≤ s.cfg.dmemWords → dst.toNat + 1 ≤ s.cfg.dmemWords →
      (isFinite r = false → RaisesClean (.df0flr prm dst) s .nonfinite 1) ∧
      (isFinite r = true → (∀ k, s.cfg.log2nMin ≤ k → k ≤ s.cfg.log2nMax → a.toNat ≠ 2 ^ k) →
        RaisesClean (.df0flr prm dst) s .param 0) ∧
      (isFinite r = true → (∃ k, s.cfg.log2nMin ≤ k ∧ k ≤ s.cfg.log2nMax ∧ a.toNat = 2 ^ k) → flt f0p0 r = false →
        RaisesClean (.df0flr prm dst) s .param 1) ∧
      (isFinite a = false → RaisesClean (.dfftsz prm dst) s .nonfinite 0) ∧
      (isFinite a = true → isFinite r = false → RaisesClean (.dfftsz prm dst) s .nonfinite 1) ∧
      (isFinite a = true → isFinite r = true →
        (flt f0p0 a = false → RaisesClean (.dfftsz prm dst) s .param 0) ∧
        (flt f0p0 a = true → flt f0p0 r = false → RaisesClean (.dfftsz prm dst) s .param 1) ∧
        (flt f0p0 a = true → flt f0p0 r = true → (∀ k, ¬ IsSizeExp s a r k) → RaisesClean (.dfftsz prm dst) s .param 0)))

/-- The primitive commands of the envelope and aperiodicity units: each with the registers it checks, in the order of its
pseudocode and with the ERRINFO of each (R282), and the lengths of its PRM (0 when it has no parameter block), SRC and
DST regions (R117, R118). -/
def spectrumCommands (s : State) (sz : SizeSel) (slift : Bool) (prm src dst : Half) :
    List (Instr × List (Bool × Nat) × Nat × Nat × Nat) :=
  let n := 2 ^ s.sizeExp sz
  let b := n / 2 + 1
  let nb := Spec.bandCount s.csr.fsF
  [(.dccorr sz prm src dst, [fsRow s, sizeRow s sz], 1, b, b),
    (.lsmooth sz prm src dst, [fsRow s, sizeRow s sz], 1, b, b),
    (.lifter sz slift prm src dst, [fsRow s, envEpsRow s, sizeRow s sz], 2, b, b),
    (.centroid sz src dst, [safeMinRow s, sizeRow s sz], 0, n, b),
    (.gdelay sz prm src dst, [fsRow s, safeMinRow s, sizeRow s sz], 1, 2 * b, b),
    (.vuv sz src dst, [fsRow s, safeMinRow s, sizeRow s sz], 0, b, 1),
    (.bandap sz prm src dst, [fsRow s, safeMinRow s, sizeRow s sz], 1, b, nb),
    (.apinterp sz src dst, [fsRow s, apDcDbRow s, safeMinRow s, apFloorRow s, sizeRow s sz], 0, nb, b)]

/-- DCCORR, LSMOOTH, LIFTER, CENTROID, GDELAY, VUV, BANDAP and APINTERP: the first register that is not legal raises
E_CONFIG with its offset; then invalid regions raise E_ADDR in the order PRM, SRC, DST; then, for those with a parameter
block, an f0 or width that is not finite raises E_NONFINITE(0), and one that is not above 0, or too high for the size,
E_PARAM(0); LIFTER's q1 is checked for finiteness before f0's range; an illegal band geometry raises E_RANGE(0)
(R182 to R184, R210 to R212, R223, R224, R282, R284, R289). -/
def Obligations.SpectrumCommandErrors : Prop :=
  ∀ (sz : SizeSel) (slift : Bool) (prm src dst : Half) (s : State) (i : Instr) (rows : List (Bool × Nat)) (p a b : Nat),
    (i, rows, p, a, b) ∈ spectrumCommands s sz slift prm src dst →
    let x := s.cmdRead tagPrm prm.toNat
    let q := s.cmdRead tagPrm (prm.toNat + 1)
    (∀ n, rows.find? (fun row => !row.1) = some (false, n) → RaisesClean i s .config (BitVec.ofNat 64 n)) ∧
    ((∀ row ∈ rows, row.1 = true) →
      (1 ≤ p → s.cfg.dmemWords < prm.toNat + p → RaisesClean i s .addr 0) ∧
      ((1 ≤ p → prm.toNat + p ≤ s.cfg.dmemWords) →
        (s.cfg.dmemWords < src.toNat + a → RaisesClean i s .addr 1) ∧
        (src.toNat + a ≤ s.cfg.dmemWords → s.cfg.dmemWords < dst.toNat + b → RaisesClean i s .addr 2) ∧
        (1 ≤ p → src.toNat + a ≤ s.cfg.dmemWords → dst.toNat + b ≤ s.cfg.dmemWords →
          (isFinite x = false → RaisesClean i s .nonfinite 0) ∧
          (isFinite x = true → p = 2 → isFinite q = false → RaisesClean i s .nonfinite 1) ∧
          (isFinite x = true → (p = 2 → isFinite q = true) → flt f0p0 x = false → RaisesClean i s .param 0) ∧
          (Positive x → i = .dccorr sz prm src dst →
            flt (Spec.bins s.csr.fsF (s.sizeExp sz) x) (fofNat (2 ^ s.sizeExp sz / 2 - 1)) = false →
            RaisesClean i s .param 0) ∧
          (Positive x → i = .lsmooth sz prm src dst ∨ i = .gdelay sz prm src dst →
            flt (Spec.bins s.csr.fsF (s.sizeExp sz) x) (fofNat (2 ^ s.sizeExp sz / 2)) = false →
            RaisesClean i s .param 0) ∧
          (Positive x → i = .bandap sz prm src dst → Spec.bandsLegal s.csr.fsF (s.sizeExp sz) = false →
            RaisesClean i s .range 0))))

/-- The configuration checks of ENVRUN and APRUN (R282): the first row of the table that fails gives E_CONFIG with the
offset of that row, before every other check. -/
def Obligations.FrameConfigurationOrder : Prop :=
  ∀ (first count : Half) (s : State) (offset : Nat),
    ((envConfigRows s).find? (fun row => !row.1) = some (false, offset) →
      RaisesClean (.envrun first count) s .config (BitVec.ofNat 64 offset)) ∧
    ((apConfigRows s).find? (fun row => !row.1) = some (false, offset) →
      RaisesClean (.aprun first count) s .config (BitVec.ofNat 64 offset))

/-- R283, after the configuration checks: OUT_ROWS must equal F0_LEN, else E_SHAPE(0), and then OUT_COLS must equal
`N_E/2 + 1`, else E_SHAPE(1). -/
def Obligations.FrameShapeErrors : Prop :=
  ∀ (first count : Half) (s : State) (i : Instr),
    (i = .envrun first count ∧ ∀ row ∈ envConfigRows s, row.1 = true) ∨
      (i = .aprun first count ∧ ∀ row ∈ apConfigRows s, row.1 = true) →
    (s.csr.outRows ≠ s.csr.f0Len → RaisesClean i s .shape 0) ∧
    (s.csr.outRows = s.csr.f0Len → s.csr.outCols.toNat ≠ 2 ^ s.csr.log2nEnv.toNat / 2 + 1 → RaisesClean i s .shape 1)

/-- After configuration and shape: the address checks of R284 in their order, then the frame range, then the lowest F0
value that is not finite, then the lowest frame whose effective F0 is too high (R186, R226, R289). -/
def Obligations.FrameRangeErrors : Prop :=
  ∀ (first count : Half) (s : State) (i : Instr) (base : Word) (tooHigh : Word → Prop),
    (i = .envrun first count ∧ base = s.csr.envBase ∧ (∀ row ∈ envConfigRows s, row.1 = true) ∧
      tooHigh = (fun f0 =>
        flt (Spec.bins s.csr.fsF s.csr.log2nEnv.toNat f0) (fofNat (2 ^ s.csr.log2nEnv.toNat / 2 - 1)) = false ∨
        flt (Spec.bins s.csr.fsF s.csr.log2nEnv.toNat (fmul s.csr.envLsmRatio f0))
          (fofNat (2 ^ s.csr.log2nEnv.toNat / 2)) = false)) ∨
    (i = .aprun first count ∧ base = s.csr.apBase ∧ (∀ row ∈ apConfigRows s, row.1 = true) ∧
      tooHigh = (fun f0 =>
        flt (Spec.bins s.csr.fsF s.csr.log2nAp.toNat f0) (fofNat (2 ^ s.csr.log2nAp.toNat / 2 - 1)) = false)) →
    s.csr.outRows = s.csr.f0Len → s.csr.outCols.toNat = 2 ^ s.csr.log2nEnv.toNat / 2 + 1 →
    let size := s.csr.outRows.toNat * s.csr.outCols.toNat
    let f0Read := fun tag f => s.cmdRead tag (s.csr.f0Base.toNat + f)
    ∀ checks : List (Bool × Nat),
      checks = [(decide (s.csr.xBase.toNat + s.csr.xLen.toNat ≤ s.cfg.dmemWords), 3),
        (decide (s.csr.f0Base.toNat + s.csr.f0Len.toNat ≤ s.cfg.dmemWords), 4),
        (decide (base.toNat + size ≤ s.cfg.dmemWords), 5),
        (!Spec.overlap base.toNat size s.csr.xBase.toNat s.csr.xLen.toNat, 6),
        (!Spec.overlap base.toNat size s.csr.f0Base.toNat s.csr.f0Len.toNat, 7)] →
      (∀ n, checks.find? (fun row => !row.1) = some (false, n) → RaisesClean i s .addr (BitVec.ofNat 64 n)) ∧
      ((∀ row ∈ checks, row.1 = true) →
        (s.csr.f0Len.toNat < first.toNat + count.toNat →
          RaisesClean i s .param (BitVec.ofNat 64 (first.toNat + count.toNat))) ∧
        (first.toNat + count.toNat ≤ s.csr.f0Len.toNat →
          (∀ f, first.toNat ≤ f → f < first.toNat + count.toNat → isFinite (f0Read tagF0Finite f) = false →
            (∀ g, first.toNat ≤ g → g < f → isFinite (f0Read tagF0Finite g) = true) →
            RaisesClean i s .nonfinite (BitVec.ofNat 64 f)) ∧
          ((∀ f, first.toNat ≤ f → f < first.toNat + count.toNat → isFinite (f0Read tagF0Finite f) = true) →
            ∀ f, first.toNat ≤ f → f < first.toNat + count.toNat → tooHigh (Spec.effF0 s.csr (f0Read tagF0Limit f)) →
              (∀ g, first.toNat ≤ g → g < f → ¬ tooHigh (Spec.effF0 s.csr (f0Read tagF0Limit g))) →
              RaisesClean i s .param (BitVec.ofNat 64 f))))

/-- R324: from the power-on state of any machine with legal parameters, every command that needs FS or a size raises
E_CONFIG, and NOP, SIGNAL and WGEN do not. `s` is such a state with the command popped. -/
def Obligations.ResetNeedsConfiguration : Prop :=
  ∀ (p : Params) (c : PendingCmd) (i : Instr), p.Legal → i.wf = true →
    let s := { State.powerOn p with engine := .exec c }
    ∃ t, exec i s = .next t ∧
      (i.opc = 0x00#8 ∨ i.opc = 0x01#8 ∨ i.opc = 0x21#8 → t.errCode ≠ ErrCode.config.code) ∧
      (i.opc ≠ 0x00#8 → i.opc ≠ 0x01#8 → i.opc ≠ 0x21#8 → t.engine = .halt ∧ t.errCode = ErrCode.config.code)

/-! ## The host (R31 to R66, R81 to R101) -/

/-- R83: an access inside the block that is not 64 bits wide, not at a multiple of 8, or in the unmapped range has no
effect on any state but the bus response, which is an error (`resp` is the model's field for it, log 9). -/
def Obligations.BusErrorsHaveNoEffect : Prop :=
  ∀ (s : State) (bits off : Nat) (v : Word), off < 0x100000 + 8 * s.cfg.dmemWords →
    (bits ≠ 64 ∨ off % 8 ≠ 0 ∨ (0x1000 ≤ off ∧ off < 0x100000)) →
    s.host (.read bits (s.cfg.mmioBase + off)) = { s with resp := .error } ∧
    s.host (.write bits (s.cfg.mmioBase + off) v) = { s with resp := .error }

/-- R60: while BUSY is 0, a host write to configuration register `k` stores the value (ENV_CTRL, the tenth, bit 0 only),
leaves the others alone, and changes nothing else (but `resp`, log 9); the register then reads the value back (R46). -/
def Obligations.ConfigurationWriteWhileIdle : Prop :=
  ∀ (s : State) (k : Nat) (v : Word), k < 22 → (∀ c, s.engine ≠ .exec c) → s.queue = [] →
    let off := 0x080 + 8 * k
    let t := s.host (.write 64 (s.cfg.mmioBase + off) v)
    t.regRead off = (if k = 9 then v &&& 1 else v) ∧
      (∀ j < 22, j ≠ k → t.regRead (0x080 + 8 * j) = s.regRead (0x080 + 8 * j)) ∧
      t = { s with csr := t.csr, resp := .ack }

/-- R61: while BUSY is 1, a host write to a configuration register sets CFGWERR and changes nothing else (but `resp`, log 9).
-/
def Obligations.ConfigurationWriteWhileBusy : Prop :=
  ∀ (s : State) (k : Nat) (v : Word), k < 22 → ((∃ c, s.engine = .exec c) ∨ s.queue ≠ []) →
    s.host (.write 64 (s.cfg.mmioBase + (0x080 + 8 * k)) v) = { s with cfgwerr := true, resp := .ack }

/-- R66: a write of CMD_LO sets HOLD; a write of CMD_HI pushes `(HOLD, v)` at the tail, unless the engine is in HALT or
the queue is full, when it sets DROP and pushes nothing. The fields `races`, `landed`, `begun`, `free` and `resp` are the
model's (logs 9 to 12). -/
def Obligations.PushOrDrop : Prop :=
  ∀ (s : State) (v : Word),
    s.host (.write 64 (s.cfg.mmioBase + 0x048) v) = { s with hold := v, resp := .ack } ∧
    (let t := s.host (.write 64 (s.cfg.mmioBase + 0x050) v);
      (s.engine = .halt ∨ s.queue.length = s.cfg.cmdqDepth → t = { s with drop := true, resp := .ack }) ∧
      (s.engine ≠ .halt → s.queue.length ≠ s.cfg.cmdqDepth →
        ∃ c, c.w0 = s.hold ∧ c.w1 = v ∧ c.races = [] ∧ c.landed = [] ∧ c.begun = [] ∧
          t = { s with queue := s.queue ++ [c], free := t.free, resp := .ack }))

/-- R64: a write of STATUS clears the flags whose bit is 1; bit 9, while ERR is 1, also clears the error registers and
returns the engine to IDLE; every other bit is ignored. -/
def Obligations.StatusWriteClears : Prop :=
  ∀ (s : State) (v : Word),
    let t := s.host (.write 64 (s.cfg.mmioBase + 0x020) v)
    (t.done = if v.getLsbD 8 then false else s.done) ∧ (t.mark = if v.getLsbD 10 then false else s.mark) ∧
      (t.drop = if v.getLsbD 11 then false else s.drop) ∧ (t.cfgwerr = if v.getLsbD 12 then false else s.cfgwerr) ∧
      (v.getLsbD 9 = true → s.err = true →
        t.err = false ∧ t.errCode = 0 ∧ t.errInfo = 0 ∧ t.errCmd0 = 0 ∧ t.errCmd1 = 0 ∧ t.engine = .idle) ∧
      (v.getLsbD 9 = false ∨ s.err = false →
        t.err = s.err ∧ t.errCode = s.errCode ∧ t.errInfo = s.errInfo ∧ t.errCmd0 = s.errCmd0 ∧ t.errCmd1 = s.errCmd1 ∧
          t.engine = s.engine) ∧
      t = { s with done := t.done, mark := t.mark, drop := t.drop, cfgwerr := t.cfgwerr, err := t.err,
                   errCode := t.errCode, errInfo := t.errInfo, errCmd0 := t.errCmd0, errCmd1 := t.errCmd1,
                   engine := t.engine, resp := .ack }

/-- Word by word, memory `m` is `s`'s, but that words the executing command of `s` writes may hold the value it computes
for them, as it settles, or the value the host has already seen it write (R294, R322; logs 11, 12). -/
def StoppedMemory (s : State) (m : Memory) : Prop :=
  ∀ a, m.wordAt a = s.mem.wordAt a ∨ ∃ v, (a, v) ∈ s.inFlight ∧
    (m.wordAt a = s.settle a v ∨ s.cmd.landed.lookup a = some (m.wordAt a))

/-- R65, R294 and R322: a write of CTRL stores the three enables; bit 9 performs a soft reset and bit 8 is then
ignored; bit 8 alone aborts: without effect when not busy, else E_ABORT(0) is raised (R285) with the words of the stopped
command, or 0 when none had been popped; an abort changes nothing else but words of memory that the stopped command writes.
The fields `resp` and `free` are the model's (logs 9 and 11), and so is the form of what a stopped command leaves in memory
(log 11). -/
def Obligations.ControlWrite : Prop :=
  ∀ (s : State) (v : Word),
    let t := s.host (.write 64 (s.cfg.mmioBase + 0x018) v)
    (v.getLsbD 9 = true →
      t = { State.powerOn s.cfg with turns := s.turns, resp := .ack, free := t.free, mem := t.mem } ∧
        StoppedMemory s t.mem) ∧
    (v.getLsbD 9 = false → t.ieDone = v.getLsbD 0 ∧ t.ieErr = v.getLsbD 1 ∧ t.ieMark = v.getLsbD 2) ∧
    (v.getLsbD 9 = false → v.getLsbD 8 = false ∨ ((∀ c, s.engine ≠ .exec c) ∧ s.queue = []) →
      t = { s with ieDone := v.getLsbD 0, ieErr := v.getLsbD 1, ieMark := v.getLsbD 2, resp := .ack }) ∧
    (v.getLsbD 9 = false → v.getLsbD 8 = true → (∃ c, s.engine = .exec c) ∨ s.queue ≠ [] →
      t = { s with
        ieDone := v.getLsbD 0, ieErr := v.getLsbD 1, ieMark := v.getLsbD 2, err := true, errCode := ErrCode.abort.code,
        errInfo := 0, errCmd0 := t.errCmd0, errCmd1 := t.errCmd1, queue := [], engine := .halt, free := t.free,
        mem := t.mem, resp := .ack } ∧
      (∀ c, s.engine = .exec c → t.errCmd0 = c.w0 ∧ t.errCmd1 = c.w1) ∧
      ((∀ c, s.engine ≠ .exec c) → t.errCmd0 = 0 ∧ t.errCmd1 = 0) ∧ StoppedMemory s t.mem)

/-- R40, R39 and R41: every bit of STATUS and of CTRL as the host reads them, and IRQ. -/
def Obligations.StatusControlIrqBits : Prop :=
  ∀ s : State,
    ((s.regRead 0x020).getLsbD 0 = true ↔ (∃ c, s.engine = .exec c) ∨ s.queue ≠ []) ∧
    (∀ k < 64, k ≠ 0 → (s.regRead 0x020).getLsbD k =
      if k = 1 then decide (s.queue.length = s.cfg.cmdqDepth)
      else if k = 8 then s.done else if k = 9 then s.err else if k = 10 then s.mark
      else if k = 11 then s.drop else if k = 12 then s.cfgwerr
      else if 16 ≤ k ∧ k ≤ 23 then s.queue.length.testBit (k - 16) else false) ∧
    (∀ k < 64, (s.regRead 0x018).getLsbD k =
      if k = 0 then s.ieDone else if k = 1 then s.ieErr else if k = 2 then s.ieMark else false) ∧
    (s.irq = true ↔ s.done = true ∧ s.ieDone = true ∨ s.err = true ∧ s.ieErr = true ∨ s.mark = true ∧ s.ieMark = true)

/-- R92, R62, R63, R31, R42 to R46: what a host read of a register answers. It answers the register at that offset and
changes nothing but the bus response (log 9): ID, the parameters in CAP0 and CAP1 (as after reset, `ResetValues`), the error
registers, COMPLETED, the configuration registers at the offsets of R46; CMD_LO, CMD_HI and the reserved offsets read 0. CTRL
and STATUS are those of `StatusControlIrqBits`. The host's writes to the read-only registers and to reserved offsets change
nothing but the bus response. -/
def Obligations.ReadOnlyAndReservedRegisters : Prop :=
  ∀ (s : State) (off : Nat) (v : Word), off % 8 = 0 → off < 0x1000 →
    s.host (.read 64 (s.cfg.mmioBase + off)) = { s with resp := .data (s.regRead off) } ∧
    s.regRead 0x000 = 0x574F524C01000000#64 ∧
    s.regRead 0x008 = (State.powerOn s.cfg).regRead 0x008 ∧ s.regRead 0x010 = (State.powerOn s.cfg).regRead 0x010 ∧
    s.regRead 0x028 = s.errCode ∧ s.regRead 0x030 = s.errInfo ∧ s.regRead 0x038 = s.errCmd0 ∧
    s.regRead 0x040 = s.errCmd1 ∧ s.regRead 0x058 = s.completed ∧
    (List.range 22).map (fun k => s.regRead (0x080 + 8 * k)) =
      [s.csr.fs, s.csr.framePeriod, s.csr.log2nEnv, s.csr.log2nAp, s.csr.f0Floor, s.csr.defaultF0, s.csr.q1,
        s.csr.apThreshold, s.csr.envLsmRatio, s.csr.envCtrl, s.csr.safeMin, s.csr.envEps, s.csr.apFloor, s.csr.apDcDb,
        s.csr.xBase, s.csr.xLen, s.csr.f0Base, s.csr.f0Len, s.csr.envBase, s.csr.apBase, s.csr.outRows, s.csr.outCols] ∧
    (off ∈ [0x000, 0x008, 0x010, 0x028, 0x030, 0x038, 0x040, 0x058] ∨ (0x060 ≤ off ∧ off ≤ 0x07F) ∨ 0x130 ≤ off →
      s.host (.write 64 (s.cfg.mmioBase + off) v) = { s with resp := .ack }) ∧
    (off ∈ [0x048, 0x050] ∨ (0x060 ≤ off ∧ off ≤ 0x07F) ∨ 0x130 ≤ off →
      s.host (.read 64 (s.cfg.mmioBase + off)) = { s with resp := .data 0 })

/-- R101, R92, R93, R95, R103 and R332. No read of the host changes anything but the bus response (log 9), so it is
idempotent. A DMEM word reads as the last value written to it: while a command executes, the value that the command has
written to it so far (log 12), if any, else the word of memory. A value that the host has so seen stays there while the
command goes on and when it ends, in whatever way. A host write of a word makes it read the value written, changes no other
byte, no register, no flag and no other state, and is told to every command pushed before (log 10): to the executing one
with the word of memory as the old value, to a queued one with what the host would have read, so that it reads nothing older
than what an earlier command wrote. A read of a command returns the word or the value before or after such a write, and a
read that is done returns the same for ever. What a command leaves in a word is what it computes for it or a value of the
host's that stands there, and that is what the word holds already, so that no value that has been overwritten comes back.
Without such writes a command reads the words of memory and its words hold what it computes (R93, R330). The words in flight, whose values may show before the end, are those the command leaves when
it completes. -/
def Obligations.HostReadsAndWritesOfMemory : Prop :=
  ∀ (s : State) (bits addr a : Nat) (v : Word), a < s.cfg.dmemWords →
    let there := s.cfg.mmioBase + 0x100000 + 8 * a
    let told := fun (old : Word) (c : PendingCmd) =>
      { c with races := ⟨a, old, v, c.begun, true⟩ :: c.races, landed := c.landed.filter fun w => w.1 != a }
    (let t := s.host (.read bits addr);
      t = { s with resp := t.resp }) ∧
    ((∀ c, s.engine ≠ .exec c) → (s.host (.read 64 there)).resp = .data (s.mem.wordAt a)) ∧
    (∀ c, s.engine = .exec c → (s.host (.read 64 there)).resp = .data ((c.landed.lookup a).getD (s.mem.wordAt a))) ∧
    (let t := s.host (.write 64 there v);
      t.mem.wordAt a = v ∧ (∀ b, b < 8 * a ∨ 8 * a + 8 ≤ b → t.mem.byteAt b = s.mem.byteAt b) ∧
        t = { s with mem := t.mem, engine := t.engine, resp := .ack,
                     queue := s.queue.map (told ((s.cmd.landed.lookup a).getD (s.mem.wordAt a))) } ∧
        ((∀ c, s.engine ≠ .exec c) → t.engine = s.engine) ∧
        (∀ c, s.engine = .exec c → t.engine = .exec (told (s.mem.wordAt a) c) ∧
          ∀ tag b, readGroup tag ∈ c.begun → t.cmdRead tag b = s.cmdRead tag b) ∧
        (∀ off, t.regRead off = s.regRead off) ∧ t.irq = s.irq ∧ (t.host (.read 64 there)).resp = .data v) ∧
    (s.cmd.races = [] → ∀ tag, s.cmdRead tag a = s.mem.wordAt a ∧ s.settle a v = v) ∧
    (s.settle a v = v ∨ s.cmd.standing a = some (s.settle a v)) ∧
    (s.Inv → s.settle a v = v ∨ s.settle a v = s.mem.wordAt a) ∧
    (∀ tag, s.cmdRead tag a = s.mem.wordAt a ∨
      ∃ r ∈ s.cmd.races, r.addr = a ∧ (s.cmdRead tag a = r.old ∨ s.cmdRead tag a = r.new)) ∧
    ∀ (c : PendingCmd) (i : Instr) (t : State), s.engine = .exec c → decodeCmd c.w0 c.w1 = .ok i → exec i s = .next t →
      (t.engine ≠ .halt → (∀ w, (a, w) ∈ s.inFlight → t.mem.wordAt a = s.settle a w) ∧
        ((∀ w, (a, w) ∉ s.inFlight) → t.mem.wordAt a = s.mem.wordAt a)) ∧
      ∀ w, s.Inv → c.landed.lookup a = some w →
        t.mem.wordAt a = w ∧ (s.progress.host (.read 64 there)).resp = .data w

/-- R73, R46, R321, R31 to R33: every register as the host reads it after power-on reset, and the engine, the queue, HOLD
and IRQ, for every legal choice of parameters; CAP0 and CAP1 give the parameters. DMEM is no part of the statement. -/
def Obligations.ResetValues : Prop :=
  ∀ p : Params, p.Legal →
    let s := State.powerOn p
    s.engine = .idle ∧ s.queue = [] ∧ s.hold = 0 ∧ s.irq = false ∧
      (∀ off ∈ [0x018, 0x020, 0x028, 0x030, 0x038, 0x040, 0x048, 0x050, 0x058], s.regRead off = 0) ∧
      (List.range 22).map (fun k => s.regRead (0x080 + 8 * k)) =
        [0, 0x4014000000000000, 0, 0, 0x4051C00000000000, 0x407F400000000000, 0xBFC3333333333333, 0x3FEB333333333333,
          0x3FF0000000000000, 0, 0x3D719799812DEA11, 0x3CB0000000000000, 0x3F50624DD2F1A9FC, 0xC04E000000000000,
          0, 0, 0, 0, 0, 0, 0, 0] ∧
      s.regRead 0x000 = 0x574F524C01000000 ∧
      (s.regRead 0x008).toNat = p.log2nMin + p.log2nMax * 2 ^ 8 + p.cmdqDepth * 2 ^ 16 + p.nlanes * 2 ^ 24 +
        (match p.fpMode with | .cr => 2 ^ 32 | .faithful => 0) ∧
      (s.regRead 0x010).toNat = p.dmemWords

/-! ## Arithmetic (R11 to R14, R16) -/

/-- The constants of R68 and the decimal constants of R163, R167 and the other rules, with the number each stands for. -/
def decimalConstants : List (Word × Nat × Nat) := [
  (f0p5, 1, 2), (f1, 1, 1), (f2, 2, 1), (f6, 6, 1), (f10, 10, 1), (f20, 20, 1), (f0p42, 42, 100), (f0p08, 8, 100),
  (nuttall0, 355768, 1000000), (nuttall1, 487396, 1000000), (nuttall2, 144232, 1000000), (nuttall3, 12604, 1000000),
  (envRatio, 3, 1), (apVuvRatio, 3, 1), (apGdRatioL, 4, 1), (apGdRatioM, 3, 1), (apGdRatioS, 2, 1), (apSelLo, 4000, 1),
  (apSelHi, 8000, 1), (apShift, 1, 4), (vuvF0, 100, 1), (vuvF1, 4000, 1), (vuvF2, 7900, 1), (bandInterval, 3000, 1),
  (bandUpper, 15000, 1), (bandK, 8, 1), (revF0, 100, 1), (revDiv, 50, 1), (marginEnv, 3, 1), (marginAp, 4, 1)]

/-- R67 and R140, for every size `NMAX = 2^lmax` a machine may have (R8): the four entries the rule names, the entries at an
eighth of a turn as the values nearest the cosine and the sine there, the symmetries of the exact values, which the nearest
values share, and that a transform of size `2^l` uses the entries `t * NMAX / N`. How the entries are computed is the
model's (log 6). -/
def TwiddleTableValues : Prop :=
  ∀ lmax : Nat, 4 ≤ lmax → lmax ≤ 24 →
    let nmax := 2 ^ lmax
    tableCos lmax 0 = f1 ∧ tableSin lmax 0 = 0 ∧ tableCos lmax (nmax / 4) = 0 ∧ tableSin lmax (nmax / 4) = f1 ∧
    Spec.Rounded (Real.cos (Real.pi / 4)) false (tableCos lmax (nmax / 8)) ∧
    Spec.Rounded (Real.sin (Real.pi / 4)) false (tableSin lmax (nmax / 8)) ∧
    (∀ t, 0 < t → t < nmax / 2 → t ≠ nmax / 4 → tableCos lmax (nmax / 2 - t) = fneg (tableCos lmax t)) ∧
    (∀ t, 0 < t → t < nmax / 2 → tableSin lmax (nmax / 2 - t) = tableSin lmax t) ∧
    (∀ t ≤ nmax / 4, tableSin lmax t = tableCos lmax (nmax / 4 - t)) ∧
    ∀ l ≤ lmax, ∀ t, twCos lmax l t = tableCos lmax (t * (nmax / 2 ^ l)) ∧
      twSin lmax l t = tableSin lmax (t * (nmax / 2 ^ l))

/-- R15, in both modes: the results it lists as exact, the infinities and the NaN; under CR, ten to the power of an integer
as the power rounded once, and some values of the six functions nearest the exact ones; under FAITHFUL, a result at
most one place from that under CR. The logarithm of `+inf` is the model's reading (log 5), a result that R15 does not
state is a free value and no part of this but that the sine of `-0` is a zero (log 4), and how the functions are computed is
the model's (log 3). -/
def FunctionUnitValues : Prop :=
  (∀ m : FpMode,
    fpCos m 0 = f1 ∧ fpCos m 0x8000000000000000#64 = f1 ∧
    fpSin m 0 = 0 ∧ isZero (fpSin m 0x8000000000000000#64) = true ∧
    fpLog m f1 = 0 ∧ fpExp m 0 = f1 ∧ fpExp m 0x8000000000000000#64 = f1 ∧
    (∀ k ≤ 22, fpLog10 m (fofNat (10 ^ k)) = fofNat k ∧ fpPow10 m (fofNat k) = fofNat (10 ^ k)) ∧
    fpLog m 0 = Spec.infinity true ∧ fpLog10 m 0 = Spec.infinity true ∧
    fpLog m (Spec.infinity false) = Spec.infinity false ∧ fpLog10 m (Spec.infinity false) = Spec.infinity false ∧
    fpExp m (Spec.infinity true) = 0 ∧ fpPow10 m (Spec.infinity true) = 0 ∧
    fpExp m (Spec.infinity false) = Spec.infinity false ∧ fpPow10 m (Spec.infinity false) = Spec.infinity false ∧
    ∀ x : Word,
      (Spec.NotANumber x → fpCos m x = Spec.nan ∧ fpSin m x = Spec.nan ∧ fpLog m x = Spec.nan ∧ fpExp m x = Spec.nan ∧
        fpLog10 m x = Spec.nan ∧ fpPow10 m x = Spec.nan) ∧
      ((Spec.Finite x ∧ Spec.value x < 0) ∨ x = Spec.infinity true → fpLog m x = Spec.nan ∧ fpLog10 m x = Spec.nan) ∧
      (Spec.Finite x → 2000 ≤ Spec.value x →
        fpExp m x = Spec.infinity false ∧ fpPow10 m x = Spec.infinity false)) ∧
  (∀ k ≤ 400, Spec.Rounded ((10 : ℝ) ^ k) false (fpPow10 .cr (fofNat k)) ∧
    Spec.Rounded ((10 : ℝ) ^ (-(k : ℤ))) false (fpPow10 .cr (fneg (fofNat k)))) ∧
  fpCos .cr f1 = 0x3FE14A280FB5068C#64 ∧ fpSin .cr f1 = 0x3FEAED548F090CEE#64 ∧ fpLog .cr f2 = 0x3FE62E42FEFA39EF#64 ∧
  fpExp .cr f1 = 0x4005BF0A8B145769#64 ∧ fpLog10 .cr f2 = 0x3FD34413509F79FF#64 ∧
  fpPow10 .cr f0p5 = 0x40094C583ADA5B53#64 ∧
  ∀ f ∈ [fpCos, fpSin, fpLog, fpExp, fpLog10, fpPow10], ∀ x : Word, (fKey (f .faithful x) - fKey (f .cr x)).natAbs ≤ 1

/-- R11, R12 and R16 on the values of the words themselves (`Spec.value`): `+`, `-`, `*`, `/`, `sqrt` and the conversion of
integers round the exact result once, to nearest with ties to even and gradual underflow; a NaN operand and an operation
without a value give the canonical NaN; infinities, division by zero and the signs of zeros are those of IEEE 754;
negation flips bit 63, which of a NaN is the model's reading of R11 (log 19); `<` and `<=` compare values, and are false
for a NaN; the decimal constants are nearest the numbers they denote. The twiddle table (R67, R140) and the function unit
(R15) are those of `TwiddleTableValues` and `FunctionUnitValues`. -/
def Obligations.RoundingIsToNearestEven : Prop :=
  (∀ a d : Nat, 0 < d →
    let m := roundNearest a d
    let units := fun k => (fUnits (fPack false k) : Int)
    (m < infMag → ∀ k < infMag,
      |units m * d - a| ≤ |units k * d - a| ∧ (|units m * d - a| = |units k * d - a| → k ≠ m → m % 2 = 0)) ∧
    (m = infMag ↔ (2 ^ 54 - 1) * 2 ^ 2044 * d ≤ a)) ∧
  (∀ x y : Word,
    let sx := Spec.sign x
    let sy := Spec.sign y
    let vx := (Spec.value x : ℝ)
    let vy := (Spec.value y : ℝ)
    (isFinite x = true ↔ Spec.Finite x) ∧ (isNaN x = true ↔ Spec.NotANumber x) ∧ (isInf x = true ↔ Spec.Infinite x) ∧
    fneg x = x ^^^ 0x8000000000000000#64 ∧
    (Spec.Finite x → Spec.Finite y →
      Spec.Rounded (vx + vy) (sx && sy) (fadd x y) ∧ Spec.Rounded (vx - vy) (sx && !sy) (fsub x y) ∧
      Spec.Rounded (vx * vy) (sx != sy) (fmul x y) ∧ (vy ≠ 0 → Spec.Rounded (vx / vy) (sx != sy) (fdiv x y)) ∧
      (vy = 0 → fdiv x y = if vx = 0 then Spec.nan else Spec.infinity (sx != sy)) ∧
      (flt x y = true ↔ vx < vy) ∧ (fle x y = true ↔ vx ≤ vy)) ∧
    (Spec.Finite x → vx = 0 → fsqrt x = x) ∧ (Spec.Finite x → vx < 0 → fsqrt x = Spec.nan) ∧
    (Spec.Finite x → 0 < vx → Spec.Rounded √vx false (fsqrt x)) ∧
    (Spec.Infinite x → (fsqrt x = if sx then Spec.nan else x)) ∧ (Spec.NotANumber x → fsqrt x = Spec.nan) ∧
    (Spec.NotANumber x ∨ Spec.NotANumber y →
      fadd x y = Spec.nan ∧ fsub x y = Spec.nan ∧ fmul x y = Spec.nan ∧ fdiv x y = Spec.nan ∧
        flt x y = false ∧ fle x y = false) ∧
    (Spec.Infinite x → Spec.Finite y →
      fadd x y = x ∧ fadd y x = x ∧ fsub x y = x ∧ fsub y x = Spec.infinity (!sx) ∧
      (fmul x y = if vy = 0 then Spec.nan else Spec.infinity (sx != sy)) ∧
      (fmul y x = if vy = 0 then Spec.nan else Spec.infinity (sx != sy)) ∧
      fdiv x y = Spec.infinity (sx != sy) ∧ fdiv y x = Spec.zero (sx != sy) ∧
      flt x y = sx ∧ fle x y = sx ∧ flt y x = !sx ∧ fle y x = !sx) ∧
    (Spec.Infinite x → Spec.Infinite y →
      (fadd x y = if sx = sy then x else Spec.nan) ∧ (fsub x y = if sx = sy then Spec.nan else x) ∧
      fmul x y = Spec.infinity (sx != sy) ∧ fdiv x y = Spec.nan ∧ (flt x y = (sx && !sy)) ∧ (fle x y = (sx || !sy)))) ∧
  (∀ n : Nat, Spec.Rounded (n : ℝ) false (fofNat n)) ∧ (∀ i : Int, Spec.Rounded (i : ℝ) false (fofInt i)) ∧
  (∀ c ∈ decimalConstants, Spec.Rounded ((c.2.1 : ℝ) / (c.2.2 : ℝ)) false c.1) ∧
  fPi = 0x400921FB54442D18#64 ∧ Spec.value f2Pi = 2 * Spec.value fPi ∧ Spec.value f4Pi = 4 * Spec.value fPi ∧
  TwiddleTableValues ∧ FunctionUnitValues

/-- R13: MAX and MIN, with the canonical NaN for a NaN operand. -/
def Obligations.MaxAndMin : Prop :=
  ∀ a b : Word,
    (isNaN a = true ∨ isNaN b = true → fmax a b = 0x7FF8000000000000#64 ∧ fmin a b = 0x7FF8000000000000#64) ∧
    (isNaN a = false → isNaN b = false →
      (fmax a b = if flt a b then b else a) ∧ (fmin a b = if flt b a then b else a)) ∧
    (fabs a = a &&& 0x7FFFFFFFFFFFFFFF#64) ∧ (isFinite a = true ↔ isNaN a = false ∧ isInf a = false)

/-- R14: TRUNC, floor, CEIL and RHA of a finite value `x`, exactly; values are in units of 2^-1074, `u` of them to one. -/
def Obligations.ConversionsToInteger : Prop :=
  ∀ x : Word, isFinite x = true →
    let u := (2 ^ 1074 : Int)
    let v := fInt x
    (0 ≤ v → ftrunc x * u ≤ v ∧ v < (ftrunc x + 1) * u) ∧ (v ≤ 0 → v ≤ ftrunc x * u ∧ (ftrunc x - 1) * u < v) ∧
      (ffloor x * u ≤ v ∧ v < (ffloor x + 1) * u) ∧ (v ≤ fceil x * u ∧ (fceil x - 1) * u < v) ∧
      (0 ≤ v → 2 * (frha x * u) ≤ 2 * v + u ∧ 2 * v + u < 2 * ((frha x + 1) * u)) ∧
      (v ≤ 0 → 2 * v - u ≤ 2 * (frha x * u) ∧ 2 * ((frha x - 1) * u) < 2 * v - u)

/-- R223: the sort puts the same values in ascending order, a NaN after every number. -/
def Obligations.BandPowersAreSorted : Prop :=
  ∀ xs : List Word, (sortAscending xs).Perm xs ∧
    (sortAscending xs).Pairwise fun a b => (isNaN a = true → isNaN b = true) ∧ flt b a = false

/-! ## Whole-machine rules -/

/-- The invariant holds at reset. -/
def Obligations.InvariantAtReset : Prop := State.reset.Inv

/-- Every step keeps the invariant: the parameters legal, memory in its one form (log 2) and inside DMEM, the queue within its
depth, HALT exactly while ERR is 1 and then with an empty queue and a code of R281, the error registers 0 otherwise, and
the hardwired bits of ENV_CTRL 0 (R36, R38, R42 to R44, R54, R85, R281, R285, R286, R296); and of the model's own fields
(logs 10, 12), a queued command not begun, every word that the executing command has written holding what it computes,
from reads that are done, and a value of the host's that stands being what its word holds (R92, R93, R95, R101, R103). -/
def Obligations.InvariantKeptByEveryStep : Prop :=
  ∀ s t : State, s.Inv → step s = .next t → t.Inv

/-- What R189 derives from R184 and R188: after a successful ENVRUN whose words the host did not touch meanwhile, every
value of every row of its range is finite and at least ENV_EPS, and ENV_EPS is above 0. -/
def Obligations.EnvelopeValuesArePositive : Prop :=
  ∀ (first count : Half) (s t : State), exec (.envrun first count) s = .next t → t.engine ≠ .halt → s.cmd.races = [] →
    flt f0p0 s.csr.envEps = true ∧ s.csr.outRows = s.csr.f0Len ∧
      s.csr.outCols.toNat = 2 ^ s.csr.log2nEnv.toNat / 2 + 1 ∧
      ∀ i k, first.toNat ≤ i → i < first.toNat + count.toNat → k < s.csr.outCols.toNat →
        isFinite (t.mem.wordAt (s.csr.envBase.toNat + i * s.csr.outCols.toNat + k)) = true ∧
        fle s.csr.envEps (t.mem.wordAt (s.csr.envBase.toNat + i * s.csr.outCols.toNat + k)) = true

/-- R229: after a successful APRUN whose words the host did not touch meanwhile, every value of every row of its range is
finite and between AP_FLOOR and 1.0. -/
def Obligations.AperiodicityValuesAreRatios : Prop :=
  ∀ (first count : Half) (s t : State), exec (.aprun first count) s = .next t → t.engine ≠ .halt → s.cmd.races = [] →
    s.csr.outRows = s.csr.f0Len ∧ s.csr.outCols.toNat = 2 ^ s.csr.log2nEnv.toNat / 2 + 1 ∧
      ∀ i k, first.toNat ≤ i → i < first.toNat + count.toNat → k < s.csr.outCols.toNat →
        isFinite (t.mem.wordAt (s.csr.apBase.toNat + i * s.csr.outCols.toNat + k)) = true ∧
        fle s.csr.apFloor (t.mem.wordAt (s.csr.apBase.toNat + i * s.csr.outCols.toNat + k)) = true ∧
        fle (t.mem.wordAt (s.csr.apBase.toNat + i * s.csr.outCols.toNat + k)) f1 = true

/-- R96, R187, R225, R337: a row depends on LOG2N_MAX, FP_MODE, the configuration registers, the waveform and its own
frame's F0 and on nothing else. Two runs, over ranges of their own, from states that agree in these write the same row,
whatever else of the states differs, NLANES among the rest: so splitting a range, the number of lanes and the order of
frames do not show. -/
def Obligations.RowsDependOnTheirInputsOnly : Prop :=
  ∀ (first count first' count' : Half) (s s' t t' : State) (i : Nat),
    s.cfg.log2nMax = s'.cfg.log2nMax → s.cfg.fpMode = s'.cfg.fpMode →
    s.csr = s'.csr → s.cmd.races = [] → s'.cmd.races = [] →
    (∀ j < s.csr.xLen.toNat, s.mem.wordAt (s.csr.xBase.toNat + j) = s'.mem.wordAt (s.csr.xBase.toNat + j)) →
    s.mem.wordAt (s.csr.f0Base.toNat + i) = s'.mem.wordAt (s.csr.f0Base.toNat + i) →
    first.toNat ≤ i → i < first.toNat + count.toNat → first'.toNat ≤ i → i < first'.toNat + count'.toNat →
    t.engine ≠ .halt → t'.engine ≠ .halt →
    (exec (.envrun first count) s = .next t → exec (.envrun first' count') s' = .next t' →
      ∀ k < s.csr.outCols.toNat, t.mem.wordAt (s.csr.envBase.toNat + i * s.csr.outCols.toNat + k) =
        t'.mem.wordAt (s.csr.envBase.toNat + i * s.csr.outCols.toNat + k)) ∧
    (exec (.aprun first count) s = .next t → exec (.aprun first' count') s' = .next t' →
      ∀ k < s.csr.outCols.toNat, t.mem.wordAt (s.csr.apBase.toNat + i * s.csr.outCols.toNat + k) =
        t'.mem.wordAt (s.csr.apBase.toNat + i * s.csr.outCols.toNat + k))
end

