-- ==== Sys2Proof/Laws/Lists.lean ====
section
/-! SUPPORT. Elements of lists by index, with a default: what each list operation that the units use does to them. -/

namespace Sys2Proof.Machine

theorem getD_map_range {α : Type} (f : Nat → α) (n k : Nat) (d : α) (h : k < n) : ((List.range n).map f).getD k d = f k := by
  simp [List.getD_eq_getElem?_getD, h]

theorem getD_map {α β : Type} (f : α → β) (xs : List α) (k : Nat) (d : α) (e : β) (h : k < xs.length) :
    (xs.map f).getD k e = f (xs.getD k d) := by
  simp [List.getD_eq_getElem?_getD, h]

theorem getD_zipWith {α β γ : Type} (f : α → β → γ) (xs : List α) (ys : List β) (k : Nat) (a : α) (b : β) (c : γ)
    (hx : k < xs.length) (hy : k < ys.length) : (List.zipWith f xs ys).getD k c = f (xs.getD k a) (ys.getD k b) := by
  simp [List.getD_eq_getElem?_getD, hx, hy]

theorem getD_take {α : Type} (xs : List α) (n k : Nat) (d : α) (h : k < n) : (xs.take n).getD k d = xs.getD k d := by
  simp [List.getD_eq_getElem?_getD, h]

theorem getD_drop {α : Type} (xs : List α) (n k : Nat) (d : α) : (xs.drop n).getD k d = xs.getD (n + k) d := by
  simp [List.getD_eq_getElem?_getD, List.getElem?_drop]

theorem getD_append_left {α : Type} (xs ys : List α) (k : Nat) (d : α) (h : k < xs.length) : (xs ++ ys).getD k d = xs.getD k d := by
  simp [List.getD_eq_getElem?_getD, List.getElem?_append_left h]

theorem getD_append_right {α : Type} (xs ys : List α) (k : Nat) (d : α) (h : xs.length ≤ k) : (xs ++ ys).getD k d = ys.getD (k - xs.length) d := by
  simp [List.getD_eq_getElem?_getD, List.getElem?_append_right h]

theorem ext_getD {α : Type} {xs ys : List α} (d : α) (hl : xs.length = ys.length) (h : ∀ k < xs.length, xs.getD k d = ys.getD k d) : xs = ys := by
  apply List.ext_getElem hl
  intro k h1 h2
  have := h k h1
  simpa [List.getD_eq_getElem?_getD, h1, h2] using this

end Sys2Proof.Machine
end

