-- ==== Sys2Proof/Laws/Fft.lean ====
section
/-! SUPPORT. The transform as lists computes it is the loop nest of R141, element by element; its lengths. -/

namespace Sys2Proof.Machine

theorem length_fftBlocks (h : Nat) (tw : List Cpx) (htw : tw.length = h) : ∀ (blocks : Nat) (a : List Cpx), a.length = 2 * h * blocks →
    (fftBlocks h tw blocks a).length = 2 * h * blocks
  | 0, _, _ => by simp [fftBlocks]
  | b + 1, a, ha => by
    have ha' : a.length = 2 * h * b + 2 * h := by rw [ha]; ring
    have ih := length_fftBlocks h tw htw b (a.drop (2*h)) (by rw [List.length_drop]; omega)
    simp only [fftBlocks, List.length_append, List.length_zipWith, List.length_take, List.length_drop, ih, htw]
    rw [Nat.mul_add]
    omega

theorem getD_fftBlocks (h : Nat) (hh : 0 < h) (tw : List Cpx) (htw : tw.length = h) : ∀ (blocks : Nat) (a : List Cpx), a.length = 2 * h * blocks →
    ∀ n < 2 * h * blocks, (fftBlocks h tw blocks a).getD n cZero =
      if n % (2*h) < h then cadd (a.getD n cZero) (cmul (tw.getD (n % (2*h)) cZero) (a.getD (n + h) cZero))
      else csub (a.getD (n - h) cZero) (cmul (tw.getD (n % (2*h) - h) cZero) (a.getD n cZero))
  | 0, _, _ => by intro n hn; omega
  | b + 1, a, ha => by
    intro n hn
    have ha' : a.length = 2 * h * b + 2 * h := by rw [ha]; ring
    have ih := getD_fftBlocks h hh tw htw b (a.drop (2*h)) (by rw [List.length_drop]; omega)
    have hlz1 : (List.zipWith cadd (a.take h) (List.zipWith cmul tw ((a.drop h).take h))).length = h := by
      simp only [List.length_zipWith, List.length_take, List.length_drop, htw]; omega
    have hlz2 : (List.zipWith csub (a.take h) (List.zipWith cmul tw ((a.drop h).take h))).length = h := by
      simp only [List.length_zipWith, List.length_take, List.length_drop, htw]; omega
    have htm : (List.zipWith cmul tw ((a.drop h).take h)).length = h := by
      simp only [List.length_zipWith, List.length_take, List.length_drop, htw]; omega
    have htk : (a.take h).length = h := by simp only [List.length_take]; omega
    have hdt : ((a.drop h).take h).length = h := by simp only [List.length_take, List.length_drop]; omega
    by_cases hn2 : n < 2 * h
    · rw [Nat.mod_eq_of_lt hn2]
      rw [fftBlocks]
      by_cases hn1 : n < h
      · rw [if_pos hn1, getD_append_left _ _ _ _ (by rw [List.length_append]; omega), getD_append_left _ _ _ _ (by omega),
          getD_zipWith cadd _ _ n cZero cZero cZero (by omega) (by omega),
          getD_zipWith cmul _ _ n cZero cZero cZero (by omega) (by omega),
          getD_take _ _ _ _ hn1, getD_take _ _ _ _ hn1, getD_drop, Nat.add_comm h n]
      · rw [if_neg hn1, getD_append_left _ _ _ _ (by rw [List.length_append]; omega), getD_append_right _ _ _ _ (by omega), hlz1,
          getD_zipWith csub _ _ (n-h) cZero cZero cZero (by omega) (by omega),
          getD_zipWith cmul _ _ (n-h) cZero cZero cZero (by omega) (by omega),
          getD_take _ _ _ _ (by omega), getD_take _ _ _ _ (by omega), getD_drop, show h + (n - h) = n by omega]
    · rw [fftBlocks, getD_append_right _ _ _ _ (by rw [List.length_append]; omega), List.length_append, hlz1, hlz2,
        ih _ (by rw [Nat.mul_add] at hn; omega)]
      have hmod : (n - (h + h)) % (2*h) = n % (2*h) := by
        rw [show h + h = 2 * h by omega]; exact (Nat.mod_eq_sub_mod (by omega)).symm
      rw [hmod]
      simp only [getD_drop]
      split
      · rw [show 2 * h + (n - (h + h)) = n by omega, show 2 * h + (n - (h + h) + h) = n + h by omega]
      · have : h ≤ n - (h+h) := by
          have := Nat.mod_le (n - (h+h)) (2*h)
          omega
        rw [show 2 * h + (n - (h + h)) = n by omega, show 2 * h + (n - (h + h) - h) = n - h by omega]

theorem stage_pow {l s : Nat} (hs : 1 ≤ s) (hl : s ≤ l) : 2 * 2 ^ (s-1) * 2 ^ (l - s) = 2 ^ l := by
  rw [show 2 * 2 ^ (s-1) = 2 ^ s by rw [← Nat.pow_succ']; congr 1; omega, ← Nat.pow_add]; congr 1; omega

theorem length_fftStage {lmax l : Nat} {fwd : Bool} {a : List Cpx} {s : Nat} (hs : 1 ≤ s) (hl : s ≤ l) (ha : a.length = 2 ^ l) :
    (fftStage lmax l fwd a s).length = 2 ^ l := by
  unfold fftStage
  rw [length_fftBlocks _ _ (by simp) _ _ (by rw [ha, stage_pow hs hl]), stage_pow hs hl]

theorem getD_fftStage {lmax l : Nat} {fwd : Bool} {a : List Cpx} {s : Nat} (hs : 1 ≤ s) (hl : s ≤ l) (ha : a.length = 2 ^ l) {n : Nat} (hn : n < 2 ^ l) :
    (fftStage lmax l fwd a s).getD n cZero = loopStage lmax l fwd s (fun k => a.getD k cZero) n := by
  unfold fftStage loopStage
  rw [getD_fftBlocks _ (Nat.two_pow_pos _) _ (by simp) _ _ (by rw [ha, stage_pow hs hl]) n (by rw [stage_pow hs hl]; exact hn)]
  have h2 : 2 * 2 ^ (s-1) = 2 ^ s := by rw [← Nat.pow_succ']; congr 1; omega
  rw [h2]
  have hm := Nat.mod_lt n (Nat.two_pow_pos s)
  split
  · rename_i hlt
    rw [getD_map_range _ _ _ _ hlt]
    rfl
  · rw [getD_map_range _ _ _ _ (by omega)]
    rfl

theorem core_fold {lmax l : Nat} {fwd : Bool} {a : List Cpx} (ha : a.length = 2 ^ l) : ∀ s ≤ l,
    ((List.range s).foldl (fun a k => fftStage lmax l fwd a (k + 1)) a).length = 2 ^ l ∧
    ∀ n < 2 ^ l, ((List.range s).foldl (fun a k => fftStage lmax l fwd a (k + 1)) a).getD n cZero =
      loopStages lmax l fwd (fun k => a.getD k cZero) s n
  | 0, _ => ⟨ha, fun _ _ => rfl⟩
  | s + 1, h => by
    obtain ⟨h1, h2⟩ := core_fold (lmax := lmax) (fwd := fwd) ha s (by omega)
    rw [List.range_succ, List.foldl_append]
    simp only [List.foldl_cons, List.foldl_nil]
    refine ⟨length_fftStage (by omega) h h1, fun n hn => ?_⟩
    rw [getD_fftStage (by omega) h h1 hn, loopStages]
    unfold loopStage
    have hp : 2 ^ (s+1) = 2 * 2 ^ s := Nat.pow_succ'
    simp only [Nat.add_sub_cancel]
    split
    · rename_i hlt
      rw [h2 _ hn, h2]
      -- n + 2^s < 2^l
      have hd : 2 ^ l = 2 ^ (s+1) * 2 ^ (l - (s+1)) := by rw [← Nat.pow_add]; congr 1; omega
      have hq : n / 2 ^ (s+1) < 2 ^ (l - (s+1)) := by
        rw [Nat.div_lt_iff_lt_mul (Nat.two_pow_pos _), Nat.mul_comm, ← hd]; exact hn
      have := Nat.div_add_mod n (2^(s+1))
      calc n + 2 ^ s < 2 ^ (s+1) * (n / 2 ^ (s+1)) + 2 ^ (s+1) := by omega
        _ = 2 ^ (s+1) * (n / 2 ^ (s+1) + 1) := by ring
        _ ≤ 2 ^ (s+1) * 2 ^ (l - (s+1)) := Nat.mul_le_mul_left _ hq
        _ = 2 ^ l := hd.symm
    · rw [h2 _ hn, h2 _ (by omega)]

theorem bitrev_lt : ∀ l n, bitrev l n < 2 ^ l
  | 0, _ => by simp [bitrev]
  | l + 1, n => by
    have := bitrev_lt l (n / 2)
    have h2 : n % 2 < 2 := Nat.mod_lt _ (by decide)
    simp only [bitrev]
    rw [Nat.pow_succ']
    have : n % 2 * 2 ^ l ≤ 1 * 2 ^ l := Nat.mul_le_mul_right _ (by omega)
    omega

theorem length_fftCore {lmax l : Nat} {fwd : Bool} {z : List Cpx} : (fftCore lmax l fwd z).length = 2 ^ l :=
  (core_fold (by simp [bitrevOrder]) l (Nat.le_refl _)).1

theorem loopStages_congr {lmax l : Nat} {fwd : Bool} {a b : Nat → Cpx} : ∀ s ≤ l, (∀ n < 2 ^ l, a n = b n) →
    ∀ n < 2 ^ l, loopStages lmax l fwd a s n = loopStages lmax l fwd b s n
  | 0, _, h => h
  | s + 1, hs, h => by
    intro n hn
    have ih := loopStages_congr (lmax := lmax) (fwd := fwd) s (by omega) h
    simp only [loopStages, loopStage, Nat.add_sub_cancel]
    have hp : 2 ^ (s+1) = 2 * 2 ^ s := Nat.pow_succ'
    split
    · rw [ih _ hn, ih]
      have hd : 2 ^ l = 2 ^ (s+1) * 2 ^ (l - (s+1)) := by rw [← Nat.pow_add]; congr 1; omega
      have hq : n / 2 ^ (s+1) < 2 ^ (l - (s+1)) := by
        rw [Nat.div_lt_iff_lt_mul (Nat.two_pow_pos _), Nat.mul_comm, ← hd]; exact hn
      have := Nat.div_add_mod n (2^(s+1))
      calc n + 2 ^ s < 2 ^ (s+1) * (n / 2 ^ (s+1)) + 2 ^ (s+1) := by omega
        _ = 2 ^ (s+1) * (n / 2 ^ (s+1) + 1) := by ring
        _ ≤ 2 ^ (s+1) * 2 ^ (l - (s+1)) := Nat.mul_le_mul_left _ hq
        _ = 2 ^ l := hd.symm
    · rw [ih _ hn, ih _ (by omega)]

theorem getD_fftCore {lmax l : Nat} {fwd : Bool} {z : List Cpx} {z' : Nat → Cpx} (hz : ∀ n < 2 ^ l, z.getD n cZero = z' n) {n : Nat} (hn : n < 2 ^ l) :
    (fftCore lmax l fwd z).getD n cZero = loopCore lmax l fwd z' n := by
  unfold fftCore loopCore
  rw [(core_fold (by simp [bitrevOrder]) l (Nat.le_refl _)).2 n hn]
  apply loopStages_congr l (Nat.le_refl _) _ n hn
  intro k hk
  rw [bitrevOrder, getD_map_range _ _ _ _ hk, hz _ (bitrev_lt l k)]

theorem half_lt {l : Nat} : 2 ^ l / 2 < 2 ^ l := Nat.div_lt_self (Nat.two_pow_pos _) (by decide)

theorem length_fftReal {lmax l : Nat} {x : List Word} : (fftReal lmax l x).length = 2 ^ l / 2 + 1 := by
  have := @half_lt l
  simp only [fftReal, List.length_take, length_fftCore, sizeB]; omega

theorem getD_fftReal {lmax l : Nat} {x : List Word} {x' : Nat → Word} (hx : x.length = 2 ^ l) (h : ∀ n < 2 ^ l, x.getD n f0p0 = x' n) {k : Nat} (hk : k ≤ 2 ^ l / 2) :
    (fftReal lmax l x).getD k cZero = loopForward lmax l x' k := by
  have := @half_lt l
  unfold fftReal loopForward
  rw [getD_take _ _ _ _ (by unfold sizeB; omega)]
  apply getD_fftCore _ (by omega)
  intro n hn
  rw [getD_map _ _ _ f0p0 _ (by omega), h n hn]

theorem length_fftInverse {lmax l : Nat} {y : List Cpx} : (fftInverse lmax l y).length = 2 ^ l := by
  simp only [fftInverse, List.length_map, length_fftCore]

theorem getD_fftInverse {lmax l : Nat} {y : List Cpx} {y' : Nat → Cpx} (h : ∀ n ≤ 2 ^ l / 2, y.getD n cZero = y' n) {k : Nat} (hk : k < 2 ^ l) :
    (fftInverse lmax l y).getD k f0p0 = loopInverse lmax l y' k := by
  unfold fftInverse loopInverse
  rw [getD_map _ _ _ cZero _ (by rw [length_fftCore]; exact hk)]
  congr 1
  apply getD_fftCore _ hk
  intro n hn
  have hn' : n < sizeN l := hn
  unfold hermitian
  rw [getD_map_range _ _ _ _ hn']
  simp only [sizeN, sizeH]
  by_cases h1 : n = 0 ∨ n = 2 ^ l / 2
  · rw [if_pos h1, if_pos h1, h n (by omega)]
  · rw [if_neg h1, if_neg h1]
    by_cases h2 : n < 2 ^ l / 2
    · rw [if_pos h2, if_pos h2, h n (by omega)]
    · rw [if_neg h2, if_neg h2, h _ (by omega)]

end Sys2Proof.Machine
end

