-- ==== Sys2Proof/Laws/Fp.lean ====
section
/-! SUPPORT. Small facts of the binary64 arithmetic: signs and magnitudes of packed words, the exactness of small
integers, and what a comparison with an integer says of a truncation. -/

namespace Sys2Proof.Machine

/-! ## The logarithm to base 2 -/

theorem log2Below_eq : ∀ k x, x < 2 ^ 2 ^ k → log2Below k x = Nat.log2 x
  | 0, x, h => by
    obtain rfl | rfl : x = 0 ∨ x = 1 := by omega
    · decide
    · decide
  | k + 1, x, h => by
    unfold log2Below
    split
    · exact log2Below_eq k x ‹_›
    · next hx =>
      have hp : 0 < 2 ^ 2 ^ k := Nat.two_pow_pos _
      have hd : 0 < x / 2 ^ 2 ^ k := Nat.div_pos (by omega) hp
      have hlt : x / 2 ^ 2 ^ k < 2 ^ 2 ^ k := by
        rw [Nat.div_lt_iff_lt_mul hp, ← Nat.pow_add, ← Nat.two_mul, ← Nat.pow_succ']
        exact h
      rw [log2Below_eq k _ hlt, eq_comm, Nat.log2_eq_iff (by omega)]
      have h1 := Nat.log2_self_le (Nat.ne_of_gt hd)
      have h2 := Nat.lt_log2_self (n := x / 2 ^ 2 ^ k)
      constructor
      · rw [Nat.pow_add, Nat.mul_comm]
        exact (Nat.le_div_iff_mul_le hp).1 h1
      · rw [Nat.add_assoc, Nat.pow_add, Nat.mul_comm]
        exact (Nat.div_lt_iff_lt_mul hp).1 h2

/-- `floorLog2` is the logarithm to base 2, rounded down, of every number. -/
theorem floorLog2_eq (x : Nat) : floorLog2 x = Nat.log2 x := by
  unfold floorLog2
  split
  · exact log2Below_eq 13 x ‹_›
  · rfl

/-! ## Fields of a packed word -/

theorem fMag_lt (x : Word) : fMag x < 2 ^ 63 := Nat.mod_lt _ (by decide)

theorem fMag_fPack {neg : Bool} {m : Nat} (h : m < 2 ^ 63) : fMag (fPack neg m) = m := by
  cases neg <;> simp only [fMag, fPack, BitVec.toNat_ofNat] <;> simp <;> omega

theorem fNeg_fPack {neg : Bool} {m : Nat} (h : m < 2 ^ 63) : fNeg (fPack neg m) = neg := by
  cases neg <;> simp only [fNeg, fPack, BitVec.msb_eq_decide, BitVec.toNat_ofNat] <;> simp <;> omega

theorem roundNearest_le (a d : Nat) : roundNearest a d ≤ infMag  := by
  unfold roundNearest
  exact Nat.min_le_left _ _

theorem roundNearest_lt (a d : Nat) : roundNearest a d < 2 ^ 63 :=
  Nat.lt_of_le_of_lt (roundNearest_le a d) (by decide)

/-- Larger magnitudes stand for larger values. -/
theorem fUnits_mono {x y : Word} (h : fMag x < fMag y) : fUnits x < fUnits y := by
  have key : ∀ m n : Nat, m < n →
      (if m / 2 ^ 52 = 0 then m % 2 ^ 52 else (2 ^ 52 + m % 2 ^ 52) * 2 ^ (m / 2 ^ 52 - 1)) <
        (if n / 2 ^ 52 = 0 then n % 2 ^ 52 else (2 ^ 52 + n % 2 ^ 52) * 2 ^ (n / 2 ^ 52 - 1)) := by
    intro m n hmn
    have hm := Nat.div_add_mod m (2 ^ 52)
    have hn := Nat.div_add_mod n (2 ^ 52)
    have hm' := Nat.mod_lt m (show 2 ^ 52 > 0 by decide)
    have hn' := Nat.mod_lt n (show 2 ^ 52 > 0 by decide)
    generalize m / 2 ^ 52 = em at *
    generalize m % 2 ^ 52 = fm at *
    generalize n / 2 ^ 52 = en at *
    generalize n % 2 ^ 52 = fn at *
    have hle : em ≤ en := by omega
    rcases Nat.eq_or_lt_of_le hle with rfl | hlt
    · have hf : fm < fn := by omega
      split
      · exact hf
      · exact Nat.mul_lt_mul_of_pos_right (by omega) (Nat.pow_pos (by decide))
    · have hen : en ≠ 0 := by omega
      simp only [hen, if_false]
      have hp : 0 < 2 ^ (en - 1) := Nat.pow_pos (by decide)
      split
      · calc fm < 2 ^ 52 + fn := by omega
          _ ≤ (2 ^ 52 + fn) * 2 ^ (en - 1) := Nat.le_mul_of_pos_right _ hp
      · have he : 2 ^ (en - 1) = 2 ^ (em - 1) * 2 ^ (en - em) := by
          rw [← Nat.pow_add]; congr 1; omega
        have h2 : 2 ≤ 2 ^ (en - em) := by
          calc 2 = 2 ^ 1 := rfl
            _ ≤ 2 ^ (en - em) := Nat.pow_le_pow_right (by decide) (by omega)
        have hq : 0 < 2 ^ (em - 1) := Nat.pow_pos (by decide)
        calc (2 ^ 52 + fm) * 2 ^ (em - 1) < (2 ^ 52 + 2 ^ 52) * 2 ^ (em - 1) :=
              Nat.mul_lt_mul_of_pos_right (by omega) hq
          _ = 2 ^ 52 * (2 ^ (em - 1) * 2) := by ring
          _ ≤ 2 ^ 52 * (2 ^ (em - 1) * 2 ^ (en - em)) := Nat.mul_le_mul_left _ (Nat.mul_le_mul_left _ h2)
          _ = 2 ^ 52 * 2 ^ (en - 1) := by rw [he]
          _ ≤ (2 ^ 52 + fn) * 2 ^ (en - 1) := Nat.mul_le_mul_right _ (by omega)
  exact key _ _ h

/-! ## Small integers are exact (R12) -/

theorem two_pow_split {a b c : Nat} (h : a = b + c) : 2 ^ a = 2 ^ b * 2 ^ c := by rw [h, Nat.pow_add]

theorem unitsPerOne_pos : 0 < unitsPerOne := Nat.two_pow_pos 1074

theorem unitsPerOne_eq {k : Nat} (h : k ≤ 52) : unitsPerOne = 2 ^ (52 - k) * 2 ^ (k + 1022) :=
  two_pow_split (by omega)

theorem roundNearest_ofNat {n : Nat} (h0 : n ≠ 0) (h : n < 2 ^ 53) :
    roundNearest (n * unitsPerOne) 1 = (Nat.log2 n + 1022) * 2 ^ 52 + n * 2 ^ (52 - Nat.log2 n) := by
  have hl : Nat.log2 n ≤ 52 := by
    have := (Nat.log2_lt h0).2 h
    omega
  have hlog : Nat.log2 (n * unitsPerOne) = Nat.log2 n + 1074 := by
    have hu : unitsPerOne = 2 ^ 1074 := rfl
    rw [hu, Nat.log2_eq_iff (Nat.mul_ne_zero h0 (Nat.ne_of_gt (Nat.two_pow_pos 1074)))]
    have h1 := Nat.log2_self_le h0
    have h2 := Nat.lt_log2_self (n := n)
    constructor
    · rw [Nat.pow_add]; exact Nat.mul_le_mul_right _ h1
    · rw [show Nat.log2 n + 1074 + 1 = (Nat.log2 n + 1) + 1074 by omega, Nat.pow_add]
      exact Nat.mul_lt_mul_of_pos_right h2 (Nat.two_pow_pos _)
  have hu : ulpExp (n * unitsPerOne) 1 = Nat.log2 n + 1022 := by
    simp only [ulpExp, floorLog2_eq, Nat.div_one, hlog]; omega
  have hs : n * unitsPerOne = n * 2 ^ (52 - Nat.log2 n) * 2 ^ (Nat.log2 n + 1022) := by
    rw [unitsPerOne_eq hl, Nat.mul_assoc]
  have hp : 0 < 2 ^ (Nat.log2 n + 1022) := Nat.two_pow_pos _
  have hr : roundsUp (n * unitsPerOne) 1 = false := by
    have hm : n * unitsPerOne % (1 * 2 ^ (Nat.log2 n + 1022)) = 0 := by rw [Nat.one_mul, hs, Nat.mul_mod_left]
    simp only [roundsUp, hu, hm]
    have : 2 ^ (Nat.log2 n + 1022) ≠ 0 := Nat.ne_of_gt hp
    simp [this.symm]
  have hd : n * unitsPerOne / (1 * 2 ^ (Nat.log2 n + 1022)) = n * 2 ^ (52 - Nat.log2 n) := by
    rw [Nat.one_mul, hs, Nat.mul_div_cancel _ hp]
  have hb : n * 2 ^ (52 - Nat.log2 n) < 2 ^ 53 := by
    calc n * 2 ^ (52 - Nat.log2 n) < 2 ^ (Nat.log2 n + 1) * 2 ^ (52 - Nat.log2 n) :=
          Nat.mul_lt_mul_of_pos_right Nat.lt_log2_self (Nat.two_pow_pos _)
      _ = 2 ^ 53 := (two_pow_split (by omega)).symm
  simp only [roundNearest, hr, hu, hd]
  have : (Nat.log2 n + 1022) * 2 ^ 52 + n * 2 ^ (52 - Nat.log2 n) ≤ infMag := by
    have : infMag = 2047 * 2 ^ 52 := by decide
    omega
  simp only [Bool.false_eq_true, if_false, Nat.add_zero]
  exact Nat.min_eq_right this

/-- The value of a small integer, in units. -/
theorem fUnits_fofNat {n : Nat} (h : n < 2 ^ 53) : fUnits (fofNat n) = n * unitsPerOne := by
  by_cases h0 : n = 0
  · subst h0; decide +kernel
  have hl : Nat.log2 n ≤ 52 := by
    have := (Nat.log2_lt h0).2 h
    omega
  have hlo : 2 ^ 52 ≤ n * 2 ^ (52 - Nat.log2 n) := by
    calc 2 ^ 52 = 2 ^ Nat.log2 n * 2 ^ (52 - Nat.log2 n) := two_pow_split (by omega)
      _ ≤ n * 2 ^ (52 - Nat.log2 n) := Nat.mul_le_mul_right _ (Nat.log2_self_le h0)
  have hhi : n * 2 ^ (52 - Nat.log2 n) < 2 ^ 53 := by
    calc n * 2 ^ (52 - Nat.log2 n) < 2 ^ (Nat.log2 n + 1) * 2 ^ (52 - Nat.log2 n) :=
          Nat.mul_lt_mul_of_pos_right Nat.lt_log2_self (Nat.two_pow_pos _)
      _ = 2 ^ 53 := (two_pow_split (by omega)).symm
  have hm : fMag (fofNat n) = (Nat.log2 n + 1022) * 2 ^ 52 + n * 2 ^ (52 - Nat.log2 n) := by
    unfold fofNat
    rw [fMag_fPack (roundNearest_lt _ _), roundNearest_ofNat h0 h]
  have hs : n * unitsPerOne = n * 2 ^ (52 - Nat.log2 n) * 2 ^ (Nat.log2 n + 1022) := by
    rw [unitsPerOne_eq hl, Nat.mul_assoc]
  rw [hs]
  unfold fUnits
  rw [hm]
  generalize n * 2 ^ (52 - Nat.log2 n) = q at *
  generalize Nat.log2 n = k at *
  have h1 : ((k + 1022) * 2 ^ 52 + q) / 2 ^ 52 = k + 1023 := by omega
  have h2 : ((k + 1022) * 2 ^ 52 + q) % 2 ^ 52 = q - 2 ^ 52 := by omega
  rw [h1, h2, if_neg (by omega), show k + 1023 - 1 = k + 1022 by omega, Nat.add_sub_cancel' hlo]

theorem fNeg_fofNat (n : Nat) : fNeg (fofNat n) = false := by
  unfold fofNat
  exact fNeg_fPack (roundNearest_lt _ _)

/-! ## Comparisons -/

/-- What `x < n` says of a value that is not negative (R12, R14). -/
theorem ftrunc_of_flt {x : Word} {n : Nat} (hn : n < 2 ^ 53) (hx : fNeg x = false) (h : flt x (fofNat n) = true) :
    isFinite x = true ∧ 0 ≤ ftrunc x ∧ (ftrunc x).toNat < n := by
  simp only [flt, Bool.and_eq_true, Bool.not_eq_true', decide_eq_true_eq, fKey, hx, fNeg_fofNat,
    Bool.false_eq_true, if_false] at h
  have hlt : fMag x < fMag (fofNat n) := by omega
  have hle : fMag (fofNat n) ≤ infMag := by
    unfold fofNat
    rw [fMag_fPack (roundNearest_lt _ _)]
    exact roundNearest_le _ _
  have hu := fUnits_mono hlt
  rw [fUnits_fofNat hn] at hu
  have ht : ftrunc x = ((fUnits x / unitsPerOne : Nat) : Int) := by
    simp only [ftrunc, hx, Bool.false_eq_true, if_false]
  refine ⟨by simp only [isFinite, decide_eq_true_eq]; omega, ?_, ?_⟩ <;> rw [ht]
  · exact Int.natCast_nonneg _
  · rw [Int.toNat_natCast]
    exact (Nat.div_lt_iff_lt_mul unitsPerOne_pos).2 hu

/-! ## Signs -/

/-- A product of two values that are not negative is NaN or not negative. -/
theorem fmul_sign {x y : Word} (hx : fNeg x = false) (hy : fNeg y = false) : fNeg (fmul x y) = false := by
  unfold fmul
  split
  · decide
  split
  · split
    · decide
    · simp only [hx, hy, fInf]; exact fNeg_fPack (by decide)
  · simp only [hx, hy]; exact fNeg_fPack (roundNearest_lt _ _)

/-- A quotient of two values that are not negative is NaN or not negative. -/
theorem fdiv_sign {x y : Word} (hx : fNeg x = false) (hy : fNeg y = false) : fNeg (fdiv x y) = false := by
  unfold fdiv
  split
  · decide
  split
  · split
    · decide
    · simp only [hx, hy, fInf]; exact fNeg_fPack (by decide)
  split
  · simp only [hx, hy, fZero]; exact fNeg_fPack (by decide)
  split
  · split
    · decide
    · simp only [hx, hy, fInf]; exact fNeg_fPack (by decide)
  · simp only [hx, hy]; exact fNeg_fPack (roundNearest_lt _ _)

/-- `0 < x` excludes the sign. -/
theorem fNeg_of_pos {x : Word} (h : flt f0p0 x = true) : fNeg x = false := by
  have h0 : fKey f0p0 = 0 := by decide
  simp only [flt, Bool.and_eq_true, h0, decide_eq_true_eq] at h
  cases hn : fNeg x with
  | false => rfl
  | true =>
    have : fKey x = -(fMag x : Int) := by simp only [fKey, hn, if_true]
    omega

/-- `(f0 * N) / FS` of a positive `f0` is NaN or not negative. -/
theorem binsOf_sign {w : Word} (n l : Nat) (hw : fNeg w = false) : fNeg (binsOf (fofNat n) l w) = false :=
  fdiv_sign (fmul_sign hw (fNeg_fofNat _)) (fNeg_fofNat _)

/-! ## Floors and ceilings (R13) -/

/-- A finite `MAX` is at least its second operand. -/
theorem fmax_floor {a e : Word} (h : isFinite (fmax a e) = true) : fle e (fmax a e) = true := by
  unfold fmax at h ⊢
  split at h
  · exact absurd h (by decide)
  · rename_i hn
    rw [if_neg hn]
    simp only [Bool.or_eq_true, not_or, Bool.not_eq_true] at hn
    cases hf : flt a e with
    | true =>
      simp only [if_true]
      simp [fle, hn.2]
    | false =>
      simp only [Bool.false_eq_true, if_false]
      simp only [flt, hn.1, hn.2, Bool.not_false, Bool.true_and, decide_eq_false_iff_not] at hf
      simp only [fle, hn.1, hn.2, Bool.not_false, Bool.true_and, decide_eq_true_eq]
      omega

/-- A finite value clipped to `a .. 1.0` lies there. -/
theorem fmin_clip {x a : Word} (ha1 : fle a f1 = true) (hf : isFinite (fmin (fmax x a) f1) = true) :
    fle a (fmin (fmax x a) f1) = true ∧ fle (fmin (fmax x a) f1) f1 = true := by
  have n1 : isNaN f1 = false := by decide
  have hfa : isNaN (fmax x a) = false := by
    cases h : isNaN (fmax x a) with
    | false => rfl
    | true =>
      unfold fmin at hf
      rw [h, Bool.true_or, if_pos rfl] at hf
      exact absurd hf (by decide)
  have na : isNaN a = false := by
    simp only [fle, Bool.and_eq_true, Bool.not_eq_true'] at ha1
    exact ha1.1.1
  have e1 : fle a (fmax x a) = true := by
    unfold fmax at hfa ⊢
    split at hfa
    · exact absurd hfa (by decide)
    · rename_i hn
      rw [if_neg hn]
      simp only [Bool.or_eq_true, not_or, Bool.not_eq_true] at hn
      cases hf : flt x a with
      | true =>
        simp only [if_true]
        simp [fle, hn.2]
      | false =>
        simp only [Bool.false_eq_true, if_false]
        simp only [flt, hn.1, hn.2, Bool.not_false, Bool.true_and, decide_eq_false_iff_not] at hf
        simp only [fle, hn.1, hn.2, Bool.not_false, Bool.true_and, decide_eq_true_eq]
        omega
  generalize fmax x a = y at hfa e1 hf
  unfold fmin
  rw [hfa, n1]
  simp only [Bool.or_self, Bool.false_eq_true, if_false]
  cases h : flt f1 y with
  | true => rw [if_pos rfl]; exact ⟨ha1, by decide⟩
  | false =>
    refine ⟨e1, ?_⟩
    simp only [Bool.false_eq_true, if_false]
    simp only [flt, hfa, n1, Bool.not_false, Bool.true_and, decide_eq_false_iff_not] at h
    simp only [fle, hfa, n1, Bool.not_false, Bool.true_and, decide_eq_true_eq]
    omega

end Sys2Proof.Machine
end

