-- ==== Sys2Proof/Laws/Memory.lean ====
section
/-! SUPPORT. The laws of DMEM: a read after a write, what a write leaves alone, and that every write keeps the one form
a memory has. -/

namespace Sys2Proof.Machine

/-! ## Bytes and words (R84) -/

/-- Splitting a word into bytes and joining them again gives it back. -/
theorem wordOfBytes_extract (v : Word) :
    wordOfBytes ((List.range 8).map fun k => v.extractLsb' (8 * k) 8) = v := by
  apply BitVec.eq_of_toNat_eq
  have h := v.isLt
  simp only [wordOfBytes, List.range, List.range.loop, List.map, List.foldr, BitVec.toNat_ofNat,
    BitVec.extractLsb'_toNat, Nat.shiftRight_eq_div_pow]
  omega

/-! ## One word -/

variable (m : Memory)

theorem lookup_filter_lt {b n : Nat} (h : b < n) :
    (m.filter fun c => c.1 < n).lookup b = m.lookup b := by
  induction m with
  | nil => rfl
  | cons c m ih =>
    obtain ⟨x, y⟩ := c
    by_cases hx : x < n
    · simp [hx, List.lookup_cons, ih]
    · have : (b == x) = false := by simp; omega
      simp [hx, List.lookup_cons, ih, this]

theorem lookup_filter_ge {b n : Nat} (h : n ≤ b) :
    (m.filter fun c => n ≤ c.1).lookup b = m.lookup b := by
  induction m with
  | nil => rfl
  | cons c m ih =>
    obtain ⟨x, y⟩ := c
    by_cases hx : n ≤ x
    · simp [hx, List.lookup_cons, ih]
    · have : (b == x) = false := by simp; omega
      simp [hx, List.lookup_cons, ih, this]

theorem lookup_eq_none_of {b : Nat} (h : ∀ c ∈ m, c.1 ≠ b) : m.lookup b = none := by
  induction m with
  | nil => rfl
  | cons c m ih =>
    obtain ⟨x, y⟩ := c
    have hx : (b == x) = false := by
      have := h (x, y) (by simp)
      simp only [beq_eq_false_iff_ne]
      exact fun e => this e.symm
    simp [List.lookup_cons, hx, ih fun c hc => h c (by simp [hc])]

/-- The cells of one written word. -/
def wordCells (a : Nat) (v : Word) : Memory := (List.range 8).map fun k => (8 * a + k, v.extractLsb' (8 * k) 8)

theorem setWord_eq (a : Nat) (v : Word) :
    m.setWord a v = m.filter (fun c => c.1 < 8 * a) ++ wordCells a v ++ m.filter (fun c => 8 * a + 8 ≤ c.1) := rfl

theorem mem_wordCells {a : Nat} {v : Word} {c : Host.Cell} (h : c ∈ wordCells a v) : 8 * a ≤ c.1 ∧ c.1 < 8 * a + 8 := by
  simp only [wordCells, List.mem_map, List.mem_range] at h
  obtain ⟨k, hk, rfl⟩ := h
  exact ⟨by simp, by simpa using hk⟩

theorem lookup_wordCells {a k : Nat} (v : Word) (h : k < 8) :
    (wordCells a v).lookup (8 * a + k) = some (v.extractLsb' (8 * k) 8) := by
  have hk : ∀ i j : Nat, (8 * a + i == 8 * a + j) = (i == j) := fun i j => by
    rw [Bool.eq_iff_iff]
    simp
  have h0 : ∀ i : Nat, (8 * a + i == 8 * a) = (i == 0) := fun i => hk i 0
  have : k = 0 ∨ k = 1 ∨ k = 2 ∨ k = 3 ∨ k = 4 ∨ k = 5 ∨ k = 6 ∨ k = 7 := by omega
  rcases this with rfl | rfl | rfl | rfl | rfl | rfl | rfl | rfl <;>
    simp [wordCells, List.range, List.range.loop, List.lookup_cons, hk, h0]

/-- The bytes of a word just written (R84). -/
theorem byteAt_setWord_same {a k : Nat} (v : Word) (h : k < 8) :
    (m.setWord a v).byteAt (8 * a + k) = v.extractLsb' (8 * k) 8 := by
  have h1 : (m.filter fun c => c.1 < 8 * a).lookup (8 * a + k) = none := by
    apply lookup_eq_none_of
    intro c hc
    have := List.of_mem_filter hc
    simp at this
    omega
  simp [Memory.byteAt, setWord_eq, List.lookup_append, h1, lookup_wordCells v h]

/-- A write leaves every byte outside its word alone. -/
theorem byteAt_setWord_other {a b : Nat} (v : Word) (h : b < 8 * a ∨ 8 * a + 8 ≤ b) :
    (m.setWord a v).byteAt b = m.byteAt b := by
  have hc : (wordCells a v).lookup b = none := by
    apply lookup_eq_none_of
    intro c hc
    have := mem_wordCells hc
    omega
  simp only [Memory.byteAt, setWord_eq, List.lookup_append, hc, Option.or_none]
  rcases h with h | h
  · have h2 : (m.filter fun c => 8 * a + 8 ≤ c.1).lookup b = none := by
      apply lookup_eq_none_of
      intro c hc
      have := List.of_mem_filter hc
      simp at this
      omega
    simp [lookup_filter_lt m h, h2]
  · have h1 : (m.filter fun c => c.1 < 8 * a).lookup b = none := by
      apply lookup_eq_none_of
      intro c hc
      have := List.of_mem_filter hc
      simp at this
      omega
    simp [lookup_filter_ge m h, h1]

/-- A read after a write of the word gives the value written. -/
theorem wordAt_setWord_same (a : Nat) (v : Word) : (m.setWord a v).wordAt a = v := by
  conv_rhs => rw [← wordOfBytes_extract v]
  unfold Memory.wordAt
  congr 1
  apply List.map_congr_left
  intro k hk
  exact byteAt_setWord_same m v (by simpa using hk)

/-- A write leaves every other word alone. -/
theorem wordAt_setWord_ne {a b : Nat} (v : Word) (h : b ≠ a) : (m.setWord a v).wordAt b = m.wordAt b := by
  unfold Memory.wordAt
  congr 1
  apply List.map_congr_left
  intro k hk
  have : k < 8 := by simpa using hk
  exact byteAt_setWord_other m v (by omega)

/-- The bytes of a memory decide its words. -/
theorem wordAt_congr {m m' : Memory} {a : Nat} (h : ∀ k < 8, m.byteAt (8 * a + k) = m'.byteAt (8 * a + k)) :
    m.wordAt a = m'.wordAt a := by
  unfold Memory.wordAt
  congr 1
  apply List.map_congr_left
  intro k hk
  exact h k (by simpa using hk)

/-- A write keeps the form of a memory. -/
theorem setWord_wf {m : Memory} (h : m.wf) (a : Nat) (v : Word) : (m.setWord a v).wf := by
  have hw : (wordCells a v).Pairwise fun c d => c.1 < d.1 := by
    simp [wordCells, List.range, List.range.loop]
  rw [setWord_eq]
  simp only [Memory.wf, List.pairwise_append]
  refine ⟨⟨List.Pairwise.filter _ h, hw, ?_⟩, List.Pairwise.filter _ h, ?_⟩
  · intro c hc d hd
    have h1 := List.of_mem_filter hc
    have h2 := mem_wordCells hd
    simp at h1
    omega
  · intro c hc d hd
    have h2 := List.of_mem_filter hd
    simp at h2
    rcases List.mem_append.1 hc with hc | hc
    · have h1 := List.of_mem_filter hc
      simp at h1
      omega
    · have h1 := mem_wordCells hc
      omega

/-- The cells after a write are old cells or cells of the word written. -/
theorem mem_setWord {a : Nat} {v : Word} {c : Host.Cell} (h : c ∈ m.setWord a v) :
    c ∈ m ∨ 8 * a ≤ c.1 ∧ c.1 < 8 * a + 8 := by
  rw [setWord_eq, List.mem_append, List.mem_append] at h
  rcases h with (h | h) | h
  · exact .inl (List.mem_of_mem_filter h)
  · exact .inr (mem_wordCells h)
  · exact .inl (List.mem_of_mem_filter h)

/-! ## Several words -/

@[simp] theorem setWords_nil : m.setWords [] = m := rfl

@[simp] theorem setWords_cons (w : Nat × Word) (ws : List (Nat × Word)) :
    m.setWords (w :: ws) = (m.setWord w.1 w.2).setWords ws := rfl

/-- Several writes leave every byte outside their words alone. -/
theorem byteAt_setWords_other {ws : List (Nat × Word)} {b : Nat} (h : ∀ w ∈ ws, b < 8 * w.1 ∨ 8 * w.1 + 8 ≤ b) :
    (m.setWords ws).byteAt b = m.byteAt b := by
  induction ws generalizing m with
  | nil => rfl
  | cons w ws ih =>
    rw [setWords_cons, ih _ fun w' hw' => h w' (by simp [hw']), byteAt_setWord_other m w.2 (h w (by simp))]

/-- Several writes leave every other word alone. -/
theorem wordAt_setWords_other {ws : List (Nat × Word)} {a : Nat} (h : ∀ w ∈ ws, w.1 ≠ a) :
    (m.setWords ws).wordAt a = m.wordAt a := by
  induction ws generalizing m with
  | nil => rfl
  | cons w ws ih =>
    rw [setWords_cons, ih _ fun w' hw' => h w' (by simp [hw']), wordAt_setWord_ne m w.2 fun e => h w (by simp) e.symm]

/-- A word written once among several writes holds the value of that write. -/
theorem wordAt_setWords_mem {ws : List (Nat × Word)} (hn : (ws.map Prod.fst).Nodup) {a : Nat} {v : Word}
    (h : (a, v) ∈ ws) : (m.setWords ws).wordAt a = v := by
  induction ws generalizing m with
  | nil => simp at h
  | cons w ws ih =>
    simp only [List.map_cons, List.nodup_cons, List.mem_map, not_exists, not_and] at hn
    rw [setWords_cons]
    rcases List.mem_cons.1 h with rfl | h
    · rw [wordAt_setWords_other _ fun w' hw' e => hn.1 w' hw' e, wordAt_setWord_same]
    · exact ih _ hn.2 h

/-- What is written to a word that several writes write once. -/
theorem lookup_of_mem {ws : List (Nat × Word)} (hn : (ws.map Prod.fst).Nodup) {a : Nat} {v : Word} (h : (a, v) ∈ ws) :
    ws.lookup a = some v := by
  induction ws with
  | nil => simp at h
  | cons w ws ih =>
    simp only [List.map_cons, List.nodup_cons, List.mem_map, not_exists, not_and] at hn
    rcases List.mem_cons.1 h with rfl | h
    · rw [List.lookup_cons_self]
    · have hne : (a == w.1) = false := by
        rw [beq_eq_false_iff_ne]
        exact fun e => hn.1 _ h e
      rw [List.lookup_cons, hne]
      exact ih hn.2 h

/-- Nothing is written to a word that is not among several writes. -/
theorem lookup_of_not_mem {ws : List (Nat × Word)} {a : Nat} (h : ∀ w ∈ ws, w.1 ≠ a) : ws.lookup a = none := by
  rw [List.lookup_eq_none_iff]
  intro w hw
  simpa using (h w hw).symm

/-- What a lookup finds is there. -/
theorem mem_of_lookup {ws : List (Nat × Word)} {a : Nat} {v : Word} (h : ws.lookup a = some v) : (a, v) ∈ ws := by
  obtain ⟨l₁, l₂, rfl, -⟩ := List.lookup_eq_some_iff.1 h
  simp

/-- After several writes a word is as it was or holds one of the values written to it. -/
theorem wordAt_setWords (ws : List (Nat × Word)) (a : Nat) :
    (m.setWords ws).wordAt a = m.wordAt a ∨ (a, (m.setWords ws).wordAt a) ∈ ws := by
  induction ws generalizing m with
  | nil => exact .inl rfl
  | cons w ws ih =>
    rw [setWords_cons]
    rcases ih (m := m.setWord w.1 w.2) with h | h
    · by_cases hw : a = w.1
      · refine .inr (List.mem_cons.2 (.inl ?_))
        rw [h, hw, wordAt_setWord_same]
      · exact .inl (by rw [h, wordAt_setWord_ne _ _ hw])
    · exact .inr (List.mem_cons_of_mem _ h)

/-- Several writes keep the form of a memory. -/
theorem setWords_wf {m : Memory} (h : m.wf) (ws : List (Nat × Word)) : (m.setWords ws).wf := by
  induction ws generalizing m with
  | nil => exact h
  | cons w ws ih => exact ih (setWord_wf h w.1 w.2)

/-- The cells after several writes are old cells or cells of the words written. -/
theorem mem_setWords {ws : List (Nat × Word)} {c : Host.Cell} (h : c ∈ m.setWords ws) :
    c ∈ m ∨ ∃ w ∈ ws, 8 * w.1 ≤ c.1 ∧ c.1 < 8 * w.1 + 8 := by
  induction ws generalizing m with
  | nil => exact .inl h
  | cons w ws ih =>
    rcases ih _ h with h | ⟨w', hw', hc⟩
    · rcases mem_setWord m h with h | h
      · exact .inl h
      · exact .inr ⟨w, by simp, h⟩
    · exact .inr ⟨w', by simp [hw'], hc⟩

/-! ## Buffers -/

/-- The addresses of a buffer. -/
theorem mem_wordsAt {a : Nat} {vs : List Word} {w : Nat × Word} :
    w ∈ wordsAt a vs ↔ ∃ k < vs.length, w = (a + k, vs.getD k 0) := by
  simp only [wordsAt, List.mem_map, List.mem_range]
  exact ⟨fun ⟨k, hk, e⟩ => ⟨k, hk, e.symm⟩, fun ⟨k, hk, e⟩ => ⟨k, hk, e.symm⟩⟩

/-- No word of a buffer is written twice. -/
theorem wordsAt_nodup (a : Nat) (vs : List Word) : ((wordsAt a vs).map Prod.fst).Nodup := by
  simp only [wordsAt, List.map_map]
  exact (List.nodup_range).map fun x y h => by simpa using h

/-- What a buffer's writes give each word. -/
theorem lookup_wordsAt (a : Nat) (vs : List Word) (b : Nat) :
    (wordsAt a vs).lookup b = if a ≤ b ∧ b < a + vs.length then some (vs.getD (b - a) 0) else none := by
  split
  · rename_i h
    exact lookup_of_mem (wordsAt_nodup a vs) (mem_wordsAt.2 ⟨b - a, by omega, by rw [Nat.add_sub_cancel' h.1]⟩)
  · rename_i h
    apply lookup_of_not_mem
    intro w hw
    obtain ⟨k, hk, rfl⟩ := mem_wordsAt.1 hw
    dsimp only
    omega

end Sys2Proof.Machine
end

