-- ==== Sys2Proof/Laws/State.lean ====
section
/-! SUPPORT. One lemma per field for each shared update of the state: raising an error, writing a command's effect,
completing, acknowledging. Proofs cite these instead of unfolding the updates. -/

namespace Sys2Proof.Machine

variable (s : State)

/-! ## `raise` -/

@[simp] theorem State.raise_cfg (r : Raise) : (s.raise r).cfg = s.cfg := rfl
@[simp] theorem State.raise_turns (r : Raise) : (s.raise r).turns = s.turns := rfl
@[simp] theorem State.raise_resp (r : Raise) : (s.raise r).resp = s.resp := rfl
@[simp] theorem State.raise_free (r : Raise) : (s.raise r).free = s.free := rfl
@[simp] theorem State.raise_engine (r : Raise) : (s.raise r).engine = .halt := rfl
@[simp] theorem State.raise_queue (r : Raise) : (s.raise r).queue = [] := rfl
@[simp] theorem State.raise_hold (r : Raise) : (s.raise r).hold = s.hold := rfl
@[simp] theorem State.raise_ieDone (r : Raise) : (s.raise r).ieDone = s.ieDone := rfl
@[simp] theorem State.raise_ieErr (r : Raise) : (s.raise r).ieErr = s.ieErr := rfl
@[simp] theorem State.raise_ieMark (r : Raise) : (s.raise r).ieMark = s.ieMark := rfl
@[simp] theorem State.raise_done (r : Raise) : (s.raise r).done = s.done := rfl
@[simp] theorem State.raise_err (r : Raise) : (s.raise r).err = true := rfl
@[simp] theorem State.raise_mark (r : Raise) : (s.raise r).mark = s.mark := rfl
@[simp] theorem State.raise_drop (r : Raise) : (s.raise r).drop = s.drop := rfl
@[simp] theorem State.raise_cfgwerr (r : Raise) : (s.raise r).cfgwerr = s.cfgwerr := rfl
@[simp] theorem State.raise_errCode (r : Raise) : (s.raise r).errCode = r.code.code := rfl
@[simp] theorem State.raise_errInfo (r : Raise) : (s.raise r).errInfo = r.info := rfl
@[simp] theorem State.raise_errCmd0 (r : Raise) : (s.raise r).errCmd0 = s.cmd.w0 := rfl
@[simp] theorem State.raise_errCmd1 (r : Raise) : (s.raise r).errCmd1 = s.cmd.w1 := rfl
@[simp] theorem State.raise_completed (r : Raise) : (s.raise r).completed = s.completed := rfl
@[simp] theorem State.raise_csr (r : Raise) : (s.raise r).csr = s.csr := rfl
@[simp] theorem State.raise_mem (r : Raise) : (s.raise r).mem = s.mem := rfl

/-! ## `apply` -/

@[simp] theorem State.apply_cfg (e : Effect) : (s.apply e).cfg = s.cfg := rfl
@[simp] theorem State.apply_turns (e : Effect) : (s.apply e).turns = s.turns := rfl
@[simp] theorem State.apply_resp (e : Effect) : (s.apply e).resp = s.resp := rfl
@[simp] theorem State.apply_free (e : Effect) : (s.apply e).free = s.free := rfl
@[simp] theorem State.apply_engine (e : Effect) : (s.apply e).engine = s.engine := rfl
@[simp] theorem State.apply_queue (e : Effect) :
    (s.apply e).queue = s.queue.map (PendingCmd.overwritten (fun a => e.writes.lookup a) s.keptByHost) := rfl
@[simp] theorem State.apply_hold (e : Effect) : (s.apply e).hold = s.hold := rfl
@[simp] theorem State.apply_ieDone (e : Effect) : (s.apply e).ieDone = s.ieDone := rfl
@[simp] theorem State.apply_ieErr (e : Effect) : (s.apply e).ieErr = s.ieErr := rfl
@[simp] theorem State.apply_ieMark (e : Effect) : (s.apply e).ieMark = s.ieMark := rfl
@[simp] theorem State.apply_done (e : Effect) : (s.apply e).done = s.done := rfl
@[simp] theorem State.apply_err (e : Effect) : (s.apply e).err = s.err := rfl
@[simp] theorem State.apply_mark (e : Effect) : (s.apply e).mark = (s.mark || e.mark) := rfl
@[simp] theorem State.apply_drop (e : Effect) : (s.apply e).drop = s.drop := rfl
@[simp] theorem State.apply_cfgwerr (e : Effect) : (s.apply e).cfgwerr = s.cfgwerr := rfl
@[simp] theorem State.apply_errCode (e : Effect) : (s.apply e).errCode = s.errCode := rfl
@[simp] theorem State.apply_errInfo (e : Effect) : (s.apply e).errInfo = s.errInfo := rfl
@[simp] theorem State.apply_errCmd0 (e : Effect) : (s.apply e).errCmd0 = s.errCmd0 := rfl
@[simp] theorem State.apply_errCmd1 (e : Effect) : (s.apply e).errCmd1 = s.errCmd1 := rfl
@[simp] theorem State.apply_completed (e : Effect) : (s.apply e).completed = s.completed := rfl
@[simp] theorem State.apply_csr (e : Effect) : (s.apply e).csr = e.csr.getD s.csr := rfl
@[simp] theorem State.apply_mem (e : Effect) : (s.apply e).mem = s.mem.setWords (e.writes.map fun w => (w.1, s.settle w.1 w.2)) := rfl

/-! ## `applySome` -/

@[simp] theorem State.applySome_cfg (ws : List (Nat × Word)) : (s.applySome ws).cfg = s.cfg := rfl
@[simp] theorem State.applySome_turns (ws : List (Nat × Word)) : (s.applySome ws).turns = s.turns := rfl
@[simp] theorem State.applySome_resp (ws : List (Nat × Word)) : (s.applySome ws).resp = s.resp := rfl
@[simp] theorem State.applySome_free (ws : List (Nat × Word)) : (s.applySome ws).free = s.free + 1 := rfl
@[simp] theorem State.applySome_engine (ws : List (Nat × Word)) : (s.applySome ws).engine = s.engine := rfl
@[simp] theorem State.applySome_queue (ws : List (Nat × Word)) : (s.applySome ws).queue = s.queue := rfl
@[simp] theorem State.applySome_hold (ws : List (Nat × Word)) : (s.applySome ws).hold = s.hold := rfl
@[simp] theorem State.applySome_ieDone (ws : List (Nat × Word)) : (s.applySome ws).ieDone = s.ieDone := rfl
@[simp] theorem State.applySome_ieErr (ws : List (Nat × Word)) : (s.applySome ws).ieErr = s.ieErr := rfl
@[simp] theorem State.applySome_ieMark (ws : List (Nat × Word)) : (s.applySome ws).ieMark = s.ieMark := rfl
@[simp] theorem State.applySome_done (ws : List (Nat × Word)) : (s.applySome ws).done = s.done := rfl
@[simp] theorem State.applySome_err (ws : List (Nat × Word)) : (s.applySome ws).err = s.err := rfl
@[simp] theorem State.applySome_mark (ws : List (Nat × Word)) : (s.applySome ws).mark = s.mark := rfl
@[simp] theorem State.applySome_drop (ws : List (Nat × Word)) : (s.applySome ws).drop = s.drop := rfl
@[simp] theorem State.applySome_cfgwerr (ws : List (Nat × Word)) : (s.applySome ws).cfgwerr = s.cfgwerr := rfl
@[simp] theorem State.applySome_errCode (ws : List (Nat × Word)) : (s.applySome ws).errCode = s.errCode := rfl
@[simp] theorem State.applySome_errInfo (ws : List (Nat × Word)) : (s.applySome ws).errInfo = s.errInfo := rfl
@[simp] theorem State.applySome_errCmd0 (ws : List (Nat × Word)) : (s.applySome ws).errCmd0 = s.errCmd0 := rfl
@[simp] theorem State.applySome_errCmd1 (ws : List (Nat × Word)) : (s.applySome ws).errCmd1 = s.errCmd1 := rfl
@[simp] theorem State.applySome_completed (ws : List (Nat × Word)) : (s.applySome ws).completed = s.completed := rfl
@[simp] theorem State.applySome_csr (ws : List (Nat × Word)) : (s.applySome ws).csr = s.csr := rfl
@[simp] theorem State.applySome_mem (ws : List (Nat × Word)) :
    (s.applySome ws).mem = s.mem.setWords (ws.filterMap fun w => (s.leftWith w).map fun v => (w.1, v)) := rfl

/-! ## `complete` -/

@[simp] theorem State.complete_cfg : s.complete.cfg = s.cfg := by unfold State.complete; split <;> rfl
@[simp] theorem State.complete_turns : s.complete.turns = s.turns := by unfold State.complete; split <;> rfl
@[simp] theorem State.complete_resp : s.complete.resp = s.resp := by unfold State.complete; split <;> rfl
@[simp] theorem State.complete_free : s.complete.free = s.free := by unfold State.complete; split <;> rfl
@[simp] theorem State.complete_hold : s.complete.hold = s.hold := by unfold State.complete; split <;> rfl
@[simp] theorem State.complete_ieDone : s.complete.ieDone = s.ieDone := by unfold State.complete; split <;> rfl
@[simp] theorem State.complete_ieErr : s.complete.ieErr = s.ieErr := by unfold State.complete; split <;> rfl
@[simp] theorem State.complete_ieMark : s.complete.ieMark = s.ieMark := by unfold State.complete; split <;> rfl
@[simp] theorem State.complete_err : s.complete.err = s.err := by unfold State.complete; split <;> rfl
@[simp] theorem State.complete_mark : s.complete.mark = s.mark := by unfold State.complete; split <;> rfl
@[simp] theorem State.complete_drop : s.complete.drop = s.drop := by unfold State.complete; split <;> rfl
@[simp] theorem State.complete_cfgwerr : s.complete.cfgwerr = s.cfgwerr := by unfold State.complete; split <;> rfl
@[simp] theorem State.complete_errCode : s.complete.errCode = s.errCode := by unfold State.complete; split <;> rfl
@[simp] theorem State.complete_errInfo : s.complete.errInfo = s.errInfo := by unfold State.complete; split <;> rfl
@[simp] theorem State.complete_errCmd0 : s.complete.errCmd0 = s.errCmd0 := by unfold State.complete; split <;> rfl
@[simp] theorem State.complete_errCmd1 : s.complete.errCmd1 = s.errCmd1 := by unfold State.complete; split <;> rfl
@[simp] theorem State.complete_completed : s.complete.completed = s.completed + 1 := by unfold State.complete; split <;> rfl
@[simp] theorem State.complete_csr : s.complete.csr = s.csr := by unfold State.complete; split <;> rfl
@[simp] theorem State.complete_mem : s.complete.mem = s.mem := by unfold State.complete; split <;> rfl

/-- The queue after completion: one entry fewer (R273). -/
@[simp] theorem State.complete_queue : s.complete.queue = s.queue.tail := by
  unfold State.complete; split <;> simp_all

/-- DONE after completion: set when the queue was empty, else as it was (R291). -/
@[simp] theorem State.complete_done : s.complete.done = (s.done || s.queue.isEmpty) := by
  unfold State.complete; split <;> simp_all

theorem State.complete_engine_nil (h : s.queue = []) : s.complete.engine = .idle := by simp [State.complete, h]

theorem State.complete_engine_cons {c : PendingCmd} {q : List PendingCmd} (h : s.queue = c :: q) :
    s.complete.engine = .exec c := by simp [State.complete, h]

/-- A completed command leaves the engine in IDLE or executing the next one, never in HALT (R38). -/
theorem State.complete_engine_ne_halt : s.complete.engine ≠ .halt := by
  unfold State.complete; split <;> simp

/-! ## `ackErr` -/

theorem State.ackErr_of_err (h : s.err = true) :
    s.ackErr = { s with err := false, errCode := 0, errInfo := 0, errCmd0 := 0, errCmd1 := 0, engine := .idle } := by
  simp [State.ackErr, h]

theorem State.ackErr_of_not_err (h : s.err = false) : s.ackErr = s := by simp [State.ackErr, h]

@[simp] theorem State.ackErr_cfg : s.ackErr.cfg = s.cfg := by unfold State.ackErr; split <;> rfl
@[simp] theorem State.ackErr_turns : s.ackErr.turns = s.turns := by unfold State.ackErr; split <;> rfl
@[simp] theorem State.ackErr_resp : s.ackErr.resp = s.resp := by unfold State.ackErr; split <;> rfl
@[simp] theorem State.ackErr_free : s.ackErr.free = s.free := by unfold State.ackErr; split <;> rfl
@[simp] theorem State.ackErr_queue : s.ackErr.queue = s.queue := by unfold State.ackErr; split <;> rfl
@[simp] theorem State.ackErr_hold : s.ackErr.hold = s.hold := by unfold State.ackErr; split <;> rfl
@[simp] theorem State.ackErr_ieDone : s.ackErr.ieDone = s.ieDone := by unfold State.ackErr; split <;> rfl
@[simp] theorem State.ackErr_ieErr : s.ackErr.ieErr = s.ieErr := by unfold State.ackErr; split <;> rfl
@[simp] theorem State.ackErr_ieMark : s.ackErr.ieMark = s.ieMark := by unfold State.ackErr; split <;> rfl
@[simp] theorem State.ackErr_done : s.ackErr.done = s.done := by unfold State.ackErr; split <;> rfl
@[simp] theorem State.ackErr_mark : s.ackErr.mark = s.mark := by unfold State.ackErr; split <;> rfl
@[simp] theorem State.ackErr_drop : s.ackErr.drop = s.drop := by unfold State.ackErr; split <;> rfl
@[simp] theorem State.ackErr_cfgwerr : s.ackErr.cfgwerr = s.cfgwerr := by unfold State.ackErr; split <;> rfl
@[simp] theorem State.ackErr_completed : s.ackErr.completed = s.completed := by unfold State.ackErr; split <;> rfl
@[simp] theorem State.ackErr_csr : s.ackErr.csr = s.csr := by unfold State.ackErr; split <;> rfl
@[simp] theorem State.ackErr_mem : s.ackErr.mem = s.mem := by unfold State.ackErr; split <;> rfl

@[simp] theorem State.ackErr_err : s.ackErr.err = false := by
  unfold State.ackErr; split <;> simp_all

end Sys2Proof.Machine
end

