-- ==== Sys2Proof/Laws/Ops.lean ====
section
/-! SUPPORT. What each shared operation can do: checks and their order, the end of a command, the words it writes, and
reads that no host write races with. Proofs cite these instead of unfolding the operations. -/

namespace Sys2Proof.Machine

/-! ## Checks -/

/-- A sequence of two checks passes when both do. -/
theorem bind_eq_ok {α β : Type} {x : Check α} {f : α → Check β} {b : β} :
    (x >>= f) = .ok b ↔ ∃ a, x = .ok a ∧ f a = .ok b := by
  cases x <;> simp [bind, Except.bind]

/-- A sequence of two checks raises what the first raises, or what the second raises if the first passes. -/
theorem bind_eq_error {α β : Type} {x : Check α} {f : α → Check β} {r : Raise} :
    (x >>= f) = .error r ↔ x = .error r ∨ ∃ a, x = .ok a ∧ f a = .error r := by
  cases x <;> simp [bind, Except.bind]

theorem ok_bind {α β : Type} (a : α) (f : α → Check β) : ((.ok a : Check α) >>= f) = f a := rfl

theorem error_bind {α β : Type} (r : Raise) (f : α → Check β) : ((.error r : Check α) >>= f) = .error r := rfl

theorem require_true (c : ErrCode) (n : Nat) : require true c n = .ok () := rfl

theorem require_false (c : ErrCode) (n : Nat) : require false c n = .error ⟨c, BitVec.ofNat 64 n⟩ := rfl

theorem require_eq_ok {b : Bool} {c : ErrCode} {n : Nat} : require b c n = .ok () ↔ b = true := by
  cases b <;> simp [require]

theorem require_eq_error {b : Bool} {c : ErrCode} {n : Nat} {r : Raise} :
    require b c n = .error r ↔ b = false ∧ r = ⟨c, BitVec.ofNat 64 n⟩ := by
  cases b <;> simp [require, eq_comm]

/-- A check that passes is skipped. -/
theorem require_bind_of {α : Type} {b : Bool} {c : ErrCode} {n : Nat} {f : Unit → Check α} (h : b = true) :
    (require b c n >>= f) = f () := by subst h; rfl

/-- A check that fails ends the sequence. -/
theorem require_bind_not {α : Type} {b : Bool} {c : ErrCode} {n : Nat} {f : Unit → Check α} (h : b = false) :
    (require b c n >>= f) = .error ⟨c, BitVec.ofNat 64 n⟩ := by subst h; rfl

/-! ## Commands and their verdicts -/

/-- Every command ends as its verdict says, and the machine goes on. -/
theorem exec_eq (i : Instr) (s : State) : exec i s = .next (s.finish (planOf i s)) := by cases i <;> rfl

/-- A command's verdict is one of: it completes, it raises with nothing written, it raises in phase 2. -/
theorem finish_done (s : State) (e : Effect) : s.finish (.done e) = (s.apply e).complete := rfl

theorem finish_failed (s : State) (r : Raise) : s.finish (.failed r) = s.raise r := rfl

theorem finish_spoiled (s : State) (r : Raise) (ws : List (Nat × Word)) :
    s.finish (.spoiled r ws) = (s.applySome ws).raise r := rfl

theorem ofCheck_ok (e : Effect) : Verdict.ofCheck (.ok e) = .done e := rfl

theorem ofCheck_error (r : Raise) : Verdict.ofCheck (.error r) = .failed r := rfl

/-- The parameters of the machine outlive every command. -/
theorem finish_cfg (s : State) (v : Verdict) : (s.finish v).cfg = s.cfg := by
  cases v <;> simp [finish_done, finish_failed, finish_spoiled]

/-! ## Reads and writes without a race -/

/-- With no host write since the push, a read gives the word (R93, R328). -/
theorem cmdRead_of_no_races {s : State} (h : s.cmd.races = []) (tag a : Nat) : s.cmdRead tag a = s.mem.wordAt a := by
  simp [State.cmdRead, h]

/-- With no host write since the push, a written word holds the value computed (R330). -/
theorem settle_of_no_races {s : State} (h : s.cmd.races = []) (a : Nat) (v : Word) : s.settle a v = v := by
  simp [State.settle, State.keptByHost, PendingCmd.standing, h]

/-! ## The words a command writes -/

/-- The words of an effect, as they settle, keep their addresses. -/
theorem settled_fst (s : State) (ws : List (Nat × Word)) :
    (ws.map fun w => (w.1, s.settle w.1 w.2)).map Prod.fst = ws.map Prod.fst := by
  simp [List.map_map, Function.comp_def]

/-- A buffer's words are the values written, as they settle. -/
theorem buffer_word (s : State) (a : Nat) (vs : List Word) {k : Nat} (h : k < vs.length) :
    (s.apply (.buffer a vs)).mem.wordAt (a + k) = s.settle (a + k) (vs.getD k 0) := by
  rw [State.apply_mem]
  apply wordAt_setWords_mem
  · rw [settled_fst]
    exact wordsAt_nodup a vs
  · simp only [List.mem_map]
    exact ⟨(a + k, vs.getD k 0), mem_wordsAt.2 ⟨k, h, rfl⟩, rfl⟩

/-- A buffer write leaves every byte outside the buffer alone. -/
theorem buffer_other (s : State) (a : Nat) (vs : List Word) {b : Nat} (h : b < 8 * a ∨ 8 * (a + vs.length) ≤ b) :
    (s.apply (.buffer a vs)).mem.byteAt b = s.mem.byteAt b := by
  rw [State.apply_mem]
  apply byteAt_setWords_other
  intro w hw
  obtain ⟨x, hx, rfl⟩ := List.mem_map.1 hw
  obtain ⟨k, hk, rfl⟩ := mem_wordsAt.1 hx
  dsimp only
  omega

/-! ## A command that is stopped, and what the host sees of it -/

/-- What a word keeps of the host's stands in it. -/
theorem standing_of_keptByHost {s : State} {a : Nat} {h : Word} (hk : s.keptByHost a = some h) : s.cmd.standing a = some h := by
  unfold State.keptByHost at hk
  split at hk
  · rename_i x hx
    split at hk
    · rw [hx, hk]
    · cases hk
  · cases hk

/-- The words left by a stopped command are words it writes. -/
theorem mem_leftWords {s : State} {ws : List (Nat × Word)} {w : Nat × Word}
    (h : w ∈ ws.filterMap fun w => (s.leftWith w).map fun v => (w.1, v)) :
    ∃ v, (w.1, v) ∈ ws ∧ (w.2 = s.settle w.1 v ∨ s.cmd.landed.lookup w.1 = some w.2) := by
  obtain ⟨x, hx, hw⟩ := List.mem_filterMap.1 h
  obtain ⟨v, hv, rfl⟩ := Option.map_eq_some_iff.1 hw
  refine ⟨x.2, hx, ?_⟩
  unfold State.leftWith at hv
  cases hl : s.lands x.1 with
  | true => rw [hl] at hv; exact .inl (Option.some.inj hv).symm
  | false => rw [hl] at hv; exact .inr hv

/-- The words left by a stopped command keep their addresses. -/
theorem leftWords_fst (s : State) (ws : List (Nat × Word)) :
    (ws.filterMap fun w => (s.leftWith w).map fun v => (w.1, v)).map Prod.fst =
      (ws.filter fun w => (s.leftWith w).isSome).map Prod.fst := by
  induction ws with
  | nil => rfl
  | cons w ws ih =>
    rw [List.filterMap_cons, List.filter_cons]
    cases hl : s.leftWith w <;> simpa using ih

/-- After a stop a word holds its old value, the value the host has already seen the command write, or a value computed for
it (R188, R294, R322). -/
theorem wordAt_applySome (s : State) (ws : List (Nat × Word)) (a : Nat) :
    (s.applySome ws).mem.wordAt a = s.mem.wordAt a ∨ (s.applySome ws).mem.wordAt a = s.hostWord a ∨
      ∃ v, (a, v) ∈ ws ∧ (s.applySome ws).mem.wordAt a = s.settle a v := by
  rw [State.applySome_mem]
  rcases wordAt_setWords s.mem (ws.filterMap fun w => (s.leftWith w).map fun v => (w.1, v)) a with h | h
  · exact .inl h
  · obtain ⟨v, hv, h | h⟩ := mem_leftWords h
    · exact .inr (.inr ⟨v, hv, h⟩)
    · refine .inr (.inl ?_)
      rw [State.hostWord, h, Option.getD_some]

/-- The words in flight are those of the executing command's plan. -/
theorem inFlight_exec {s : State} {c : PendingCmd} {i : Instr} (he : s.engine = .exec c)
    (hd : decodeCmd c.w0 c.w1 = .ok i) : s.inFlight = (planOf i s).words := by
  simp only [State.inFlight, he, hd]

/-! Which turns are to come does not bear on what a command does. -/

theorem planOf_turns (i : Instr) (s : State) (ts : List Turn) : planOf i { s with turns := ts } = planOf i s := by
  cases i <;> rfl

theorem inFlight_turns (s : State) (ts : List Turn) : State.inFlight { s with turns := ts } = s.inFlight := by
  obtain ⟨e, he⟩ : ∃ e, s.engine = e := ⟨_, rfl⟩
  cases e with
  | exec c =>
    cases hd : decodeCmd c.w0 c.w1 with
    | ok i => rw [inFlight_exec he hd, inFlight_exec (s := { s with turns := ts }) he hd, planOf_turns]
    | error r => simp only [State.inFlight, he, hd]
  | idle => simp only [State.inFlight, he]
  | halt => simp only [State.inFlight, he]

/-- Going on inside a command changes only what the command is known to have written, and the counter. -/
theorem progress_exec {s : State} {c : PendingCmd} (h : s.engine = .exec c) :
    s.progress = { s with
      engine := .exec { c with
        landed := (s.landing.map fun w => (w.1, s.settle w.1 w.2)) ++ c.landed
        begun := (s.landing.flatMap fun w => s.readsBefore c w.1) ++ c.begun }
      free := s.free + 1 } := by
  unfold State.progress
  rw [h]

/-- Outside EXEC there is nothing to go on with. -/
theorem progress_not_exec {s : State} (h : ∀ c, s.engine ≠ .exec c) : s.progress = s := by
  unfold State.progress
  split
  · exact absurd ‹_› (h _)
  · rfl
  · rfl

/-- The same host read again gives the same answer (R101). -/
theorem hostRead_twice (s : State) (bits addr : Nat) :
    (s.hostRead bits addr).hostRead bits addr = s.hostRead bits addr := by
  have key : ∀ r, State.hostRead { s with resp := r } bits addr = s.hostRead bits addr := by
    intro r
    unfold State.hostRead
    rw [show State.place { s with resp := r } bits addr = s.place bits addr from rfl]
    cases s.place bits addr <;> rfl
  obtain ⟨r, h⟩ : ∃ r, s.hostRead bits addr = { s with resp := r } := by
    unfold State.hostRead
    split <;> exact ⟨_, rfl⟩
  conv_lhs => rw [h]
  exact key r

/-! What a pending command keeps when it learns of a host write. -/

section

variable (c : PendingCmd) (a : Nat) (old v : Word) (w k : Nat → Option Word)

@[simp] theorem PendingCmd.race_w0 : (c.race a old v).w0 = c.w0 := rfl
@[simp] theorem PendingCmd.race_w1 : (c.race a old v).w1 = c.w1 := rfl
@[simp] theorem PendingCmd.race_races : (c.race a old v).races = ⟨a, old, v, c.begun, true⟩ :: c.races := rfl
@[simp] theorem PendingCmd.race_seed : (c.race a old v).seed = c.seed := rfl
@[simp] theorem PendingCmd.race_landed : (c.race a old v).landed = c.landed.filter fun w => w.1 != a := rfl
@[simp] theorem PendingCmd.race_begun : (c.race a old v).begun = c.begun := rfl

/-! What a queued command keeps when it learns that an earlier command has completed. -/

@[simp] theorem PendingCmd.overwritten_w0 : (c.overwritten w k).w0 = c.w0 := rfl
@[simp] theorem PendingCmd.overwritten_w1 : (c.overwritten w k).w1 = c.w1 := rfl
@[simp] theorem PendingCmd.overwritten_seed : (c.overwritten w k).seed = c.seed := rfl
@[simp] theorem PendingCmd.overwritten_landed : (c.overwritten w k).landed = c.landed := rfl
@[simp] theorem PendingCmd.overwritten_begun : (c.overwritten w k).begun = c.begun := rfl
@[simp] theorem PendingCmd.overwritten_races :
    (c.overwritten w k).races = c.races.map fun r =>
      { r with old := (w r.addr).getD r.old, stands := r.stands && ((w r.addr).isNone || (k r.addr).isSome) } := rfl

theorem PendingCmd.standing_of_no_races {c : PendingCmd} (h : c.races = []) (a : Nat) : c.standing a = none := by
  simp [PendingCmd.standing, h]

/-- A host write stands in its word until a command overwrites it. -/
theorem PendingCmd.standing_race (b : Nat) : (c.race a old v).standing b = if b = a then some v else c.standing b := by
  unfold PendingCmd.standing
  rw [PendingCmd.race_races]
  by_cases h : b = a
  · subst h
    rw [List.find?_cons_of_pos (by simp), if_pos rfl]
    rfl
  · rw [List.find?_cons_of_neg (by simpa using Ne.symm h), if_neg h]

/-- What stands after a command has completed stood before it, in a word that it did not write or that kept the host's
value. -/
theorem PendingCmd.standing_overwritten (b : Nat) :
    (c.overwritten w k).standing b = if (w b).isNone || (k b).isSome then c.standing b else none := by
  unfold PendingCmd.standing
  rw [PendingCmd.overwritten_races, List.find?_map]
  simp only [Function.comp_def]
  cases hf : c.races.find? fun r => r.addr == b with
  | none => simp
  | some r =>
    have hb : r.addr = b := by simpa using List.find?_some hf
    subst hb
    cases hs : r.stands <;> cases hg : ((w r.addr).isNone || (k r.addr).isSome) <;> simp [hs, hg]

/-- A command that writes no word leaves the queued commands as they were. -/
@[simp] theorem PendingCmd.overwritten_none : c.overwritten (fun _ => none) k = c := by
  simp [PendingCmd.overwritten]

end

end Sys2Proof.Machine
end

