-- ==== Sys2Proof/Laws/Spec.lean ====
section
/-! SUPPORT. The formulas that `Safety.lean` writes out from the rules are those the machine computes. -/

namespace Sys2Proof.Machine

theorem twiddle_spec : Spec.twiddle = twiddle := rfl
theorem turned_spec : Spec.turned = cmul := rfl
theorem power_spec : Spec.power = powerOf := rfl
theorem frameCentre_spec : Spec.frameCentre = frameCentre := rfl
theorem halfLength_spec : Spec.halfLength = winHx := rfl
theorem winH_spec : Spec.winH = winH := rfl
theorem winLen_spec : Spec.winLen = winLen := rfl
theorem winFits_spec : Spec.winFits = winFits := rfl
theorem winAngle_spec : Spec.winAngle = winAngle := rfl
theorem winValue_spec : Spec.winValue = winValue := rfl
theorem origin_spec : Spec.origin = winOrigin := rfl
theorem effF0_spec : Spec.effF0 = effF0 := rfl
theorem bins_spec : Spec.bins = binsOf := rfl
theorem binFreq_spec : Spec.binFreq = binFreq := rfl
theorem binStep_spec : Spec.binStep = binStep := rfl
theorem smoothOrigin_spec : Spec.smoothOrigin = smoothOrigin := rfl
theorem smoothLo_spec : Spec.smoothLo = smoothLo := rfl
theorem sinc_spec : Spec.sinc = sincLift := rfl
theorem compensation_spec : Spec.compensation = q1Lift := rfl
theorem vuvBin_spec : Spec.vuvBin = vuvBin := rfl
theorem bandCount_spec : Spec.bandCount = bandCount := rfl
theorem bandHalf_spec : Spec.bandHalf = bandHalf := rfl
theorem bandLen_spec : Spec.bandLen = bandLen := rfl
theorem bandIdx_spec : Spec.bandIdx = bandIdx := rfl
theorem bandCentre_spec : Spec.bandCentre = bandCentre := rfl

theorem bandsLegal_spec : Spec.bandsLegal = bandsLegal := by
  funext fs l
  rw [Bool.eq_iff_iff]
  unfold Spec.bandsLegal bandsLegal
  rw [bandCount_spec, bandHalf_spec, bandLen_spec, bandIdx_spec, bandCentre_spec, decide_eq_true_eq, Bool.or_eq_true,
    Bool.and_eq_true, Bool.and_eq_true, beq_iff_eq, List.all_eq_true, decide_eq_true_eq, decide_eq_true_eq, and_assoc]
  simp only [List.mem_range, Bool.and_eq_true, decide_eq_true_eq]

theorem overlap_spec : Spec.overlap = overlaps := by
  funext a n b m
  rw [Bool.eq_iff_iff]
  simp only [Spec.overlap, overlaps, decide_eq_true_eq, Bool.and_eq_true, and_assoc]

theorem genWindow_one (m : FpMode) (win : Win) : genWindow m win 1 = [f1] := if_pos rfl

theorem genWindow_ne_one (m : FpMode) (win : Win) {n : Nat} (h : n ≠ 1) :
    genWindow m win n = (List.range n).map fun t => genValue m win (genX n t) := if_neg h

/-- The band window of R221 is WGEN's Nuttall window. -/
theorem nuttall_spec {m : FpMode} {n t : Nat} (h : t < n) : Spec.nuttall m n t = (genWindow m .nuttall n).getD t f0p0 := by
  by_cases h1 : n = 1
  · subst h1
    obtain rfl : t = 0 := by omega
    rw [genWindow_one, List.getD_cons_zero]
    unfold Spec.nuttall
    exact if_pos rfl
  · rw [genWindow_ne_one _ _ h1, getD_map_range _ _ _ _ h]
    exact if_neg h1

/-! ## Values of words (R11) -/

theorem sign_spec (x : Word) : Spec.sign x = fNeg x := (BitVec.msb_eq_getLsbD_last x).symm

theorem exponent_spec (x : Word) : Spec.exponent x = fMag x / 2 ^ 52 := by
  have h := x.isLt
  unfold Spec.exponent fMag
  omega

theorem fraction_spec (x : Word) : Spec.fraction x = fMag x % 2 ^ 52 := by
  unfold Spec.fraction fMag
  omega

theorem finite_spec (x : Word) : Spec.Finite x ↔ isFinite x = true := by
  have h : fMag x < 2 ^ 63 := Nat.mod_lt _ (by norm_num)
  rw [Spec.Finite, exponent_spec, isFinite, decide_eq_true_eq, infMag]
  omega

/-- The value of a word is the number of units of 2^-1074 that the arithmetic computes with. -/
theorem value_spec (x : Word) : Spec.value x * 2 ^ (1074 : ℤ) = fInt x := by
  have h2 : (2 : ℚ) ≠ 0 := by norm_num
  have hu : (if Spec.exponent x = 0 then (Spec.fraction x : ℚ) * 2 ^ (-1074 : ℤ)
      else (2 ^ 52 + (Spec.fraction x : ℚ)) * 2 ^ ((Spec.exponent x : ℤ) - 1075)) * 2 ^ (1074 : ℤ) = fUnits x := by
    unfold fUnits
    rw [exponent_spec, fraction_spec]
    split
    · rw [mul_assoc, ← zpow_add₀ h2]
      simp
    · obtain ⟨e, he⟩ : ∃ e, fMag x / 2 ^ 52 = e + 1 := Nat.exists_eq_succ_of_ne_zero ‹_›
      rw [he, mul_assoc, ← zpow_add₀ h2]
      push_cast
      rw [show (e : ℤ) + 1 - 1075 + 1074 = (e : ℤ) by ring, zpow_natCast]
      norm_num
  rw [Spec.value, mul_assoc, hu, sign_spec, fInt]
  cases fNeg x <;> simp

end Sys2Proof.Machine
end

