-- ==== Sys2Proof/Laws/Units.lean ====
section
/-! SUPPORT. The computations of the units, element by element: each list the model computes holds the values that the
loops of the rules give (index forms in `Safety.lean`), and has the length the rules give it. -/

namespace Sys2Proof.Machine

/-! ## Sums (R17) -/

theorem foldl_fadd_map {α : Type} (f : α → Word) (xs : List α) (a : Word) :
    (xs.map f).foldl fadd a = xs.foldl (fun acc i => fadd acc (f i)) a := by
  rw [List.foldl_map]

theorem list_eq_map_range {α : Type} (xs : List α) (d : α) : xs = (List.range xs.length).map fun i => xs.getD i d :=
  ext_getD d (by simp) fun k hk => (getD_map_range (fun i => xs.getD i d) _ _ _ hk).symm

/-- A sum in list order is the loop. -/
theorem fsum_eq (xs : List Word) : fsum xs = loopSum xs.length fun i => xs.getD i f0p0 := by
  conv_lhs => rw [list_eq_map_range xs f0p0]
  rw [fsum, foldl_fadd_map, loopSum]

theorem loopSum_congr {n : Nat} {f g : Nat → Word} (h : ∀ i < n, f i = g i) : loopSum n f = loopSum n g := by
  induction n with
  | zero => simp [loopSum]
  | succ n ih =>
    have := ih fun i hi => h i (by omega)
    simp only [loopSum, List.range_succ, List.foldl_append, List.foldl_cons, List.foldl_nil] at this ⊢
    rw [this, h n (by omega)]

theorem fsum_of {n : Nat} {xs : List Word} {f : Nat → Word} (hl : xs.length = n) (h : ∀ i < n, xs.getD i f0p0 = f i) :
    fsum xs = loopSum n f := by
  subst hl
  rw [fsum_eq]
  exact loopSum_congr h

/-! ## Words a command reads -/

theorem length_srcWords (s : State) (src : Half) (n : Nat) : (s.srcWords src n).length = n := by
  simp [State.srcWords]

theorem getD_srcWords {s : State} {src : Half} {n k : Nat} (h : k < n) (d : Word) :
    (s.srcWords src n).getD k d = s.cmdRead tagSrc (src.toNat + k) := getD_map_range _ _ _ _ h

theorem getD_cpxOfWords {b : Nat} {ws : List Word} {k : Nat} (h : k < b) :
    (cpxOfWords b ws).getD k cZero = ⟨ws.getD (2 * k) f0p0, ws.getD (2 * k + 1) f0p0⟩ := getD_map_range _ _ _ _ h

theorem length_cpxOfWords (b : Nat) (ws : List Word) : (cpxOfWords b ws).length = b := by simp [cpxOfWords]

theorem length_wordsOfCpx (zs : List Cpx) : (wordsOfCpx zs).length = 2 * zs.length := by
  induction zs with
  | nil => rfl
  | cons z zs ih =>
    rw [wordsOfCpx, List.flatMap_cons, ← wordsOfCpx, List.length_append, ih]
    simp
    omega

theorem getD_wordsOfCpx : ∀ (zs : List Cpx) (k : Nat), k < 2 * zs.length →
    (wordsOfCpx zs).getD k 0 = if k % 2 = 0 then (zs.getD (k / 2) cZero).re else (zs.getD (k / 2) cZero).im
  | [], k, h => by simp at h
  | z :: zs, 0, _ => rfl
  | z :: zs, 1, _ => rfl
  | z :: zs, k + 2, h => by
    have ih := getD_wordsOfCpx zs k (by simp at h; omega)
    have h1 : (k + 2) % 2 = k % 2 := by omega
    have h2 : (k + 2) / 2 = k / 2 + 1 := by omega
    rw [h1, h2]
    simpa [wordsOfCpx, List.flatMap_cons] using ih

/-! ## The window and the segment (R162 to R166) -/

theorem length_winValues (m : FpMode) (win : Win) (nrm : Bool) (fs r f0 : Word) :
    (winValues m win nrm fs r f0).length = winLen fs r f0 := by
  unfold winValues winNormalise divAll
  split <;> simp

theorem getD_winValues {m : FpMode} {win : Win} {nrm : Bool} {fs r f0 : Word} {i : Nat} (h : i < winLen fs r f0) :
    (winValues m win nrm fs r f0).getD i f0p0 = loopWindow m win nrm fs r f0 i := by
  unfold winValues loopWindow
  simp only [winLen_spec, winH_spec, winAngle_spec, winValue_spec]
  cases nrm with
  | false => simp only [Bool.false_eq_true, if_false]; exact getD_map_range _ _ _ _ h
  | true =>
    simp only [if_true, winNormalise, divAll]
    rw [getD_map _ _ _ f0p0 _ (by simpa using h), getD_map_range _ _ _ _ h]
    congr 2
    apply fsum_of (by simp)
    intro j hj
    rw [getD_map _ _ _ f0p0 _ (by simpa using hj), getD_map_range _ _ _ _ hj]

theorem length_winIndices (centre : Word) (h : Nat) : (winIndices centre h).length = 2 * h + 1 := by simp [winIndices]

theorem getD_winIndices {centre : Word} {h i : Nat} (hi : i < 2 * h + 1) (d : Int) :
    (winIndices centre h).getD i d = winOrigin centre + i - h :=
  getD_map_range (fun i : Nat => winOrigin centre + (i : Int) - (h : Int)) _ _ _ hi

theorem getD_winSegment {m : FpMode} {win : Win} {nrm dcr : Bool} {fs r f0 centre : Word} {x : Int → Word} {k : Nat}
    (hk : k < winLen fs r f0) :
    (winSegment x (winIndices centre (winH fs r f0)) (winValues m win nrm fs r f0) dcr).getD k f0p0 =
      loopSegment m win nrm dcr fs r f0 centre x k := by
  have hi := length_winIndices centre (winH fs r f0)
  have hv := length_winValues m win nrm fs r f0
  have hl : winLen fs r f0 = 2 * winH fs r f0 + 1 := rfl
  have hz : ∀ i < winLen fs r f0, (List.zipWith (fun j y => fmul (x j) y) (winIndices centre (winH fs r f0))
      (winValues m win nrm fs r f0)).getD i f0p0 =
      fmul (x (winOrigin centre + i - winH fs r f0)) (loopWindow m win nrm fs r f0 i) := fun i h => by
    rw [getD_zipWith _ _ _ i 0 f0p0 f0p0 (by omega) (by omega), getD_winIndices (by omega), getD_winValues h]
  have hzl : (List.zipWith (fun j y => fmul (x j) y) (winIndices centre (winH fs r f0))
      (winValues m win nrm fs r f0)).length = winLen fs r f0 := by
    rw [List.length_zipWith, hi, hv, hl, Nat.min_self]
  unfold winSegment loopSegment
  rw [winLen_spec, winH_spec, origin_spec]
  simp only [if_pos hk]
  cases dcr with
  | false => simp only [Bool.false_eq_true, if_false]; exact hz k hk
  | true =>
    simp only [if_true, winRemoveMean, subScaled]
    rw [getD_zipWith _ _ _ k f0p0 f0p0 f0p0 (by omega) (by omega), hz k hk, getD_winValues hk, fsum_of hzl hz,
      fsum_of hv fun i h => getD_winValues h]

theorem length_winSegment (m : FpMode) (win : Win) (nrm dcr : Bool) (fs r f0 centre : Word) (x : Int → Word) :
    (winSegment x (winIndices centre (winH fs r f0)) (winValues m win nrm fs r f0) dcr).length = winLen fs r f0 := by
  have hi := length_winIndices centre (winH fs r f0)
  have hv := length_winValues m win nrm fs r f0
  have hl : winLen fs r f0 = 2 * winH fs r f0 + 1 := rfl
  cases dcr <;>
    simp only [winSegment, Bool.false_eq_true, if_false, if_true, winRemoveMean, subScaled, List.length_zipWith, hi, hv, hl,
      Nat.min_self]

theorem length_padTo (n : Nat) (v : List Word) : (padTo n v).length = n := by simp [padTo]

theorem getD_padTo {n k : Nat} {v : List Word} (h : k < n) : (padTo n v).getD k f0p0 = v.getD k f0p0 :=
  getD_map_range _ _ _ _ h

theorem getD_of_length_le {α : Type} {xs : List α} {k : Nat} {d : α} (h : xs.length ≤ k) : xs.getD k d = d := by
  simp [List.getD_eq_getElem?_getD, List.getElem?_eq_none h]

/-- The samples pass the check when every one under the window is finite. -/
theorem samplesFinite_ok {x : Int → Word} {js : List Int} : samplesFinite x js = .ok () ↔ ∀ j ∈ js, isFinite (x j) = true := by
  unfold samplesFinite
  cases h : js.find? fun j => !isFinite (x j) with
  | none =>
    simp only [List.find?_eq_none, Bool.not_eq_true', Bool.not_eq_false] at h
    simpa using h
  | some j =>
    have h1 := List.find?_some h
    have h2 := List.mem_of_find?_eq_some h
    simp only [reduceCtorEq, false_iff]
    intro h'
    simp [h' j h2] at h1

/-- A segment that can be extracted is the loop of R165, padded. -/
theorem segment_ok {m : FpMode} {fs : Word} {l : Nat} {x : Int → Word} {centre f0 r : Word} {win : Win} {nrm dcr : Bool}
    (h : SegmentOk fs l x centre f0 r) :
    ∃ v, segment m fs l x centre f0 r win nrm dcr = .ok v ∧ v.length = 2 ^ l ∧
      ∀ k < 2 ^ l, v.getD k f0p0 = loopSegment m win nrm dcr fs r f0 centre x k := by
  unfold SegmentOk at h
  rw [winFits_spec, winLen_spec, origin_spec, winH_spec] at h
  have hs : samplesFinite x (winIndices centre (winH fs r f0)) = .ok () := samplesFinite_ok.2 fun j hj => by
    obtain ⟨k, hk, rfl⟩ := List.mem_map.1 hj
    exact h.2 k (by simpa [winLen] using hk)
  have he : segment m fs l x centre f0 r win nrm dcr = .ok (padTo (2 ^ l)
      (winSegment x (winIndices centre (winH fs r f0)) (winValues m win nrm fs r f0) dcr)) := by
    unfold segment
    rw [require_bind_of h.1, hs]
    rfl
  refine ⟨_, he, length_padTo _ _, fun k hk => ?_⟩
  rw [getD_padTo hk]
  by_cases hw : k < winLen fs r f0
  · exact getD_winSegment hw
  · rw [getD_of_length_le (by rw [length_winSegment]; omega), loopSegment]
    rw [winLen_spec]
    simp only [if_neg hw]

/-- Every segment that comes out has the size of the transform. -/
theorem length_segment {m : FpMode} {fs : Word} {l : Nat} {x : Int → Word} {centre f0 r : Word} {win : Win} {nrm dcr : Bool}
    {v : List Word} (h : segment m fs l x centre f0 r win nrm dcr = .ok v) : v.length = 2 ^ l := by
  unfold segment at h
  obtain ⟨_, -, h⟩ := bind_eq_ok.1 h
  obtain ⟨_, -, h⟩ := bind_eq_ok.1 h
  cases h
  exact length_padTo _ _

/-! ## WGEN (R167) -/

theorem length_genWindow (m : FpMode) (win : Win) (len : Nat) : (genWindow m win len).length = len := by
  unfold genWindow
  split
  · simp [*]
  · simp

/-! ## Interpolation (R181) -/

/-- A query on the grid gives the value of R181. -/
theorem interpAt_ok {x0 d : Word} {y : List Word} {y' : Nat → Word} {xi : Word} (h : InGrid x0 d y.length xi)
    (hy : ∀ k < y.length, y.getD k f0p0 = y' k) : interpAt x0 d y xi = .ok (gridValue x0 d y.length y' xi) := by
  obtain ⟨h1, h2, h3⟩ := h
  unfold gridPos at h1 h2 h3
  have hb : ((ftrunc (fdiv (fsub xi x0) d)).toNat : Int) = ftrunc (fdiv (fsub xi x0) d) := Int.toNat_of_nonneg h2
  have hlt : (ftrunc (fdiv (fsub xi x0) d)).toNat < y.length := by omega
  unfold interpAt gridValue gridPos
  dsimp only
  rw [if_pos (by simp only [h1, Bool.true_and, Bool.and_eq_true, decide_eq_true_eq]; omega), hb]
  by_cases hl : (ftrunc (fdiv (fsub xi x0) d)).toNat = y.length - 1
  · rw [if_neg (by omega), if_pos hl, hy _ hlt]
  · rw [if_pos (by omega), if_neg hl, hy _ hlt, hy _ (by omega)]

/-- A query off the grid raises E_RANGE. -/
theorem interpAt_error {x0 d : Word} {y : List Word} {xi : Word} {r : Raise} (h : interpAt x0 d y xi = .error r) :
    r = ⟨.range, 0⟩ := by
  unfold interpAt at h
  dsimp only at h
  split at h
  · cases h
  · cases h; rfl

theorem mapM_ok {α : Type} {f : Word → Check α} {g : Word → α} {xs : List Word} (h : ∀ x ∈ xs, f x = .ok (g x)) :
    xs.mapM f = .ok (xs.map g) := by
  induction xs with
  | nil => rfl
  | cons x xs ih =>
    rw [List.mapM_cons, h x (by simp), ih fun y hy => h y (by simp [hy])]
    rfl

theorem length_mapM {α : Type} {f : Word → Check α} : ∀ {xs : List Word} {ys : List α}, xs.mapM f = .ok ys → ys.length = xs.length
  | [], ys, h => by
    cases (show Except.ok [] = (Except.ok ys : Check (List α)) from h)
    rfl
  | x :: xs, ys, h => by
    rw [List.mapM_cons] at h
    obtain ⟨a, -, h⟩ := bind_eq_ok.1 h
    obtain ⟨as, ha, h⟩ := bind_eq_ok.1 h
    cases (show Except.ok (a :: as) = (Except.ok ys : Check (List α)) from h)
    simp [length_mapM ha]

/-- All queries on the grid: the list of the values. -/
theorem interp1Q_ok {x0 d : Word} {y : List Word} {y' : Nat → Word} {n : Nat} {xi : List Word} (hn : y.length = n)
    (hy : ∀ k < n, y.getD k f0p0 = y' k) (h : ∀ x ∈ xi, InGrid x0 d n x) :
    interp1Q x0 d y xi = .ok (xi.map (gridValue x0 d n y')) := by
  subst hn
  exact mapM_ok fun x hx => interpAt_ok (h x hx) hy

/-! ## DCCORR (R182) -/

/-- The bound on `U` that the check of f0 gives. -/
theorem dc_bound {n l : Nat} {f0 : Word} (hl : l ≤ 24) (hs : fNeg f0 = false)
    (h : flt (binsOf (fofNat n) l f0) (fofNat (2 ^ l / 2 - 1)) = true) :
    isFinite (binsOf (fofNat n) l f0) = true ∧ 0 ≤ ftrunc (binsOf (fofNat n) l f0) ∧
      (ftrunc (binsOf (fofNat n) l f0)).toNat < 2 ^ l / 2 - 1 := by
  refine ftrunc_of_flt ?_ (binsOf_sign n l hs) h
  have : 2 ^ l ≤ 2 ^ 24 := Nat.pow_le_pow_right (by decide) hl
  omega

theorem smooth_bound {n l : Nat} {w : Word} (hl : l ≤ 24) (hs : fNeg w = false)
    (h : flt (binsOf (fofNat n) l w) (fofNat (2 ^ l / 2)) = true) :
    isFinite (binsOf (fofNat n) l w) = true ∧ 0 ≤ ftrunc (binsOf (fofNat n) l w) ∧
      (ftrunc (binsOf (fofNat n) l w)).toNat < 2 ^ l / 2 := by
  refine ftrunc_of_flt ?_ (binsOf_sign n l hs) h
  have : 2 ^ l ≤ 2 ^ 24 := Nat.pow_le_pow_right (by decide) hl
  omega

theorem getD_addReplica {p rep : List Word} {k : Nat} (hl : rep.length ≤ p.length) (hk : k < p.length) :
    (addReplica p rep).getD k f0p0 =
      if k < rep.length then fadd (p.getD k f0p0) (rep.getD k f0p0) else p.getD k f0p0 := by
  unfold addReplica
  have hz : (List.zipWith fadd p rep).length = rep.length := by rw [List.length_zipWith]; omega
  split
  · rw [getD_append_left _ _ _ _ (by omega), getD_zipWith _ _ _ k f0p0 f0p0 f0p0 hk (by omega)]
  · rw [getD_append_right _ _ _ _ (by omega), hz, getD_drop, show rep.length + (k - rep.length) = k by omega]

theorem length_addReplica (p rep : List Word) : (addReplica p rep).length = max p.length (min p.length rep.length) := by
  simp only [addReplica, List.length_append, List.length_zipWith, List.length_drop]
  omega

/-- DCCORR's result has the length of its input. -/
theorem length_dcCorr {fs : Word} {l : Nat} {p : List Word} {f0 : Word} {v : List Word} (h : dcCorr fs l p f0 = .ok v) :
    v.length = p.length := by
  unfold dcCorr at h
  obtain ⟨_, -, h⟩ := bind_eq_ok.1 h
  obtain ⟨_, -, h⟩ := bind_eq_ok.1 h
  cases h
  rw [length_addReplica]
  omega

/-- A legal f0 whose queries are on the grid: DCCORR computes the loop of R182. -/
theorem dcCorr_ok {n l : Nat} {p : List Word} {p' : Nat → Word} {f0 : Word} (hl : l ≤ 24) (hs : fNeg f0 = false)
    (hp : p.length = 2 ^ l / 2 + 1) (hp' : ∀ k ≤ 2 ^ l / 2, p.getD k f0p0 = p' k)
    (h : DcFits (fofNat n) l f0) :
    ∃ v, dcCorr (fofNat n) l p f0 = .ok v ∧ v.length = 2 ^ l / 2 + 1 ∧
      ∀ k ≤ 2 ^ l / 2, v.getD k f0p0 = loopDc (fofNat n) l f0 p' k := by
  obtain ⟨b1, b2, b3⟩ := dc_bound hl hs h.1
  have hU : dcU (fofNat n) l f0 = (ftrunc (binsOf (fofNat n) l f0)).toNat + 2 := rfl
  have hpl : (p.take (dcU (fofNat n) l f0 + 1)).length = dcU (fofNat n) l f0 + 1 := by
    rw [List.length_take]; omega
  have hq : interp1Q f0 (fneg (binStep (fofNat n) l)) (p.take (dcU (fofNat n) l f0 + 1))
      ((List.range (dcU (fofNat n) l f0 - 1)).map (binFreq (fofNat n) l)) =
      .ok (((List.range (dcU (fofNat n) l f0 - 1)).map (binFreq (fofNat n) l)).map
        (gridValue f0 (fneg (binStep (fofNat n) l)) (dcU (fofNat n) l f0 + 1) p')) := by
    refine interp1Q_ok hpl (fun k hk => ?_) fun x hx => ?_
    · rw [getD_take _ _ _ _ hk, hp' k (by omega)]
    · obtain ⟨i, hi, rfl⟩ := List.mem_map.1 hx
      exact h.2 i (by have := List.mem_range.1 hi; omega)
  have hrep : (((List.range (dcU (fofNat n) l f0 - 1)).map (binFreq (fofNat n) l)).map
        (gridValue f0 (fneg (binStep (fofNat n) l)) (dcU (fofNat n) l f0 + 1) p')).length =
      dcU (fofNat n) l f0 - 1 := by simp
  have he : dcCorr (fofNat n) l p f0 = .ok (addReplica p
      (((List.range (dcU (fofNat n) l f0 - 1)).map (binFreq (fofNat n) l)).map
        (gridValue f0 (fneg (binStep (fofNat n) l)) (dcU (fofNat n) l f0 + 1) p'))) := by
    unfold dcCorr
    rw [require_bind_of (by simp only [b1, Bool.true_and, Bool.and_eq_true, decide_eq_true_eq, sizeH]; omega)]
    dsimp only
    rw [← hU, hq]
    rfl
  refine ⟨_, he, ?_, fun k hk => ?_⟩
  · rw [length_addReplica, hrep]; omega
  · rw [getD_addReplica (by omega) (by omega), hrep, hp' k hk, loopDc, binStep_spec, binFreq_spec]
    by_cases hku : k ≤ dcU (fofNat n) l f0 - 2
    · rw [if_pos (by omega), if_pos hku, getD_map _ _ _ f0p0 _ (by rw [List.length_map, List.length_range]; omega), getD_map_range _ _ _ _ (by omega)]
    · rw [if_neg (by omega), if_neg hku]

/-! ## LSMOOTH (R183) -/

theorem length_sumsFrom (a : Word) (xs : List Word) : (sumsFrom a xs).length = xs.length := by
  induction xs generalizing a with
  | nil => rfl
  | cons x xs ih => simp [sumsFrom, ih]

theorem length_cumSum (xs : List Word) : (cumSum xs).length = xs.length := by
  cases xs <;> simp [cumSum, length_sumsFrom]

/-- Running sums by index. -/
theorem getD_sumsFrom (acc : Word) (xs : List Word) {f : Nat → Word} (h0 : f 0 = acc)
    (hf : ∀ i < xs.length, f (i + 1) = fadd (xs.getD i f0p0) (f i)) {k : Nat} (hk : k < xs.length) :
    (sumsFrom acc xs).getD k f0p0 = f (k + 1) := by
  induction xs generalizing acc f k with
  | nil => simp at hk
  | cons x xs ih =>
    have h1 : f 1 = fadd x acc := by simpa [h0] using hf 0 (by simp)
    cases k with
    | zero => simpa [sumsFrom] using h1.symm
    | succ k =>
      rw [sumsFrom, List.getD_cons_succ]
      refine ih (fadd x acc) (f := fun i => f (i + 1)) h1 (fun i hi => ?_) (by simpa using hk)
      simpa using hf (i + 1) (by simpa using hi)

/-- The cumulative sum by index, for the recursion `f` of the rule. -/
theorem getD_cumSum {xs : List Word} {f : Nat → Word} (h0 : 0 < xs.length → f 0 = xs.getD 0 f0p0)
    (hf : ∀ i, i + 1 < xs.length → f (i + 1) = fadd (xs.getD (i + 1) f0p0) (f i)) {k : Nat} (hk : k < xs.length) :
    (cumSum xs).getD k f0p0 = f k := by
  cases xs with
  | nil => simp at hk
  | cons x xs =>
    have h0' : f 0 = x := by simpa using h0 (by simp)
    cases k with
    | zero => simpa [cumSum] using h0'.symm
    | succ k =>
      rw [cumSum, List.getD_cons_succ]
      refine getD_sumsFrom x xs h0' (fun i hi => ?_) (by simpa using hk)
      simpa using hf i (by simpa using hi)

theorem length_mirrored (h bd : Nat) (p : List Word) : (mirrored h bd p).length = h + 2 * bd + 1 := by simp [mirrored]

theorem getD_mirrored {h bd : Nat} {p : List Word} {p' : Nat → Word} (hb : bd ≤ h)
    (hp' : ∀ k ≤ h, p.getD k f0p0 = p' k) {i : Nat} (hi : i < h + 2 * bd + 1) :
    (mirrored h bd p).getD i f0p0 = loopMirror h bd p' i := by
  unfold mirrored loopMirror
  rw [getD_map_range _ _ _ _ hi]
  by_cases h1 : i < bd
  · rw [if_pos h1, if_pos h1, hp' _ (by omega)]
  · rw [if_neg h1, if_neg h1]
    by_cases h2 : i ≤ h + bd
    · rw [if_pos h2, if_pos h2, hp' _ (by omega)]
    · rw [if_neg h2, if_neg h2, hp' _ (by omega)]

theorem length_interp1Q {x0 d : Word} {y xi v : List Word} (h : interp1Q x0 d y xi = .ok v) : v.length = xi.length :=
  length_mapM h

theorem length_smooth {fs : Word} {l : Nat} {p : List Word} {w : Word} {v : List Word} (h : smooth fs l p w = .ok v) :
    v.length = 2 ^ l / 2 + 1 := by
  unfold smooth at h
  obtain ⟨_, -, h⟩ := bind_eq_ok.1 h
  obtain ⟨lo, h1, h⟩ := bind_eq_ok.1 h
  obtain ⟨up, h2, h⟩ := bind_eq_ok.1 h
  cases h
  have h1 := length_interp1Q h1
  have h2 := length_interp1Q h2
  simp only [List.length_map, List.length_range] at h1 h2
  rw [List.length_zipWith, h1, h2, Nat.min_self]

/-- A legal width whose queries are on the grid: LSMOOTH computes the loop of R183. -/
theorem smooth_ok {n l : Nat} {p : List Word} {p' : Nat → Word} {w : Word} (hl : l ≤ 24) (hs : fNeg w = false)
    (hp' : ∀ k ≤ 2 ^ l / 2, p.getD k f0p0 = p' k) (h : SmoothFits (fofNat n) l w) :
    ∃ v, smooth (fofNat n) l p w = .ok v ∧ v.length = 2 ^ l / 2 + 1 ∧
      ∀ k ≤ 2 ^ l / 2, v.getD k f0p0 = loopSmooth (fofNat n) l w p' k := by
  obtain ⟨b1, b2, b3⟩ := smooth_bound hl hs h.1
  have hbd : smoothBd (fofNat n) l w = (ftrunc (binsOf (fofNat n) l w)).toNat + 1 := rfl
  have hml : ((mirrored (2 ^ l / 2) (smoothBd (fofNat n) l w) p).map fun x =>
      fdiv (fmul x (fofNat n)) (fofNat (2 ^ l))).length = 2 ^ l / 2 + 2 * smoothBd (fofNat n) l w + 1 := by
    rw [List.length_map, length_mirrored]
  have hseg : ∀ k < 2 ^ l / 2 + 2 * smoothBd (fofNat n) l w + 1,
      (cumSum ((mirrored (2 ^ l / 2) (smoothBd (fofNat n) l w) p).map fun x =>
        fdiv (fmul x (fofNat n)) (fofNat (2 ^ l)))).getD k f0p0 =
        loopSeg (fofNat n) l (2 ^ l / 2) (smoothBd (fofNat n) l w) p' k := by
    intro k hk
    refine getD_cumSum (fun h0 => ?_) (fun i hi => ?_) (by rw [hml]; exact hk)
    · rw [getD_map _ _ _ f0p0 _ (by rw [length_mirrored]; omega), getD_mirrored (by omega) hp' (by omega)]
      rfl
    · rw [hml] at hi
      rw [getD_map _ _ _ f0p0 _ (by rw [length_mirrored]; omega), getD_mirrored (by omega) hp' (by omega)]
      rfl
  have hcl : (cumSum ((mirrored (2 ^ l / 2) (smoothBd (fofNat n) l w) p).map fun x =>
        fdiv (fmul x (fofNat n)) (fofNat (2 ^ l)))).length = 2 ^ l / 2 + 2 * smoothBd (fofNat n) l w + 1 := by
    rw [length_cumSum, hml]
  have hlo := interp1Q_ok (x0 := smoothOrigin (fofNat n) l (smoothBd (fofNat n) l w)) (d := binStep (fofNat n) l) hcl hseg
    (xi := (List.range (2 ^ l / 2 + 1)).map (smoothLo (fofNat n) l w)) (fun x hx => by
      obtain ⟨k, hk, rfl⟩ := List.mem_map.1 hx
      exact (h.2 k (by have := List.mem_range.1 hk; omega)).1)
  have hhi := interp1Q_ok (x0 := smoothOrigin (fofNat n) l (smoothBd (fofNat n) l w)) (d := binStep (fofNat n) l) hcl hseg
    (xi := ((List.range (2 ^ l / 2 + 1)).map (smoothLo (fofNat n) l w)).map fun x => fadd x w) (fun x hx => by
      obtain ⟨y, hy, rfl⟩ := List.mem_map.1 hx
      obtain ⟨k, hk, rfl⟩ := List.mem_map.1 hy
      exact (h.2 k (by have := List.mem_range.1 hk; omega)).2)
  have he : ∃ v, v = List.zipWith (fun a b => fdiv (fsub a b) w)
      ((((List.range (2 ^ l / 2 + 1)).map (smoothLo (fofNat n) l w)).map fun x => fadd x w).map
        (gridValue (smoothOrigin (fofNat n) l (smoothBd (fofNat n) l w)) (binStep (fofNat n) l)
          (2 ^ l / 2 + 2 * smoothBd (fofNat n) l w + 1) (loopSeg (fofNat n) l (2 ^ l / 2) (smoothBd (fofNat n) l w) p')))
      (((List.range (2 ^ l / 2 + 1)).map (smoothLo (fofNat n) l w)).map
        (gridValue (smoothOrigin (fofNat n) l (smoothBd (fofNat n) l w)) (binStep (fofNat n) l)
          (2 ^ l / 2 + 2 * smoothBd (fofNat n) l w + 1) (loopSeg (fofNat n) l (2 ^ l / 2) (smoothBd (fofNat n) l w) p')))
      ∧ smooth (fofNat n) l p w = .ok v := by
    refine ⟨_, rfl, ?_⟩
    unfold smooth
    rw [require_bind_of (by simp only [b1, Bool.true_and, Bool.and_eq_true, decide_eq_true_eq, sizeH]; omega)]
    dsimp only
    rw [← hbd, hlo, ok_bind, hhi]
    rfl
  obtain ⟨v, rfl, he⟩ := he
  refine ⟨_, he, ?_, fun k hk => ?_⟩
  · simp only [List.length_zipWith, List.length_map, List.length_range, Nat.min_self]
  · have hk' : k < 2 ^ l / 2 + 1 := by omega
    rw [getD_zipWith _ _ _ k f0p0 f0p0 f0p0 (by simpa only [List.length_map, List.length_range] using hk')
      (by simpa only [List.length_map, List.length_range] using hk'),
      getD_map _ _ _ f0p0 _ (by simpa only [List.length_map, List.length_range] using hk'),
      getD_map _ _ _ f0p0 _ (by simpa only [List.length_map, List.length_range] using hk'),
      getD_map _ _ _ f0p0 _ (by simpa only [List.length_map, List.length_range] using hk'),
      getD_map_range _ _ _ _ hk']
    rfl

end Sys2Proof.Machine
end

