-- ==== Sys2Proof/Laws/Bands.lean ====
section
/-! SUPPORT. The rest of the units element by element: LIFTER, CENTROID, GDELAY, VUV, BANDAP and APINTERP. -/

namespace Sys2Proof.Machine

theorem two_half_le {l : Nat} (hl : 1 ≤ l) : 2 * (2 ^ l / 2) = 2 ^ l := by
  obtain ⟨k, rfl⟩ : ∃ k, l = k + 1 := ⟨l - 1, by omega⟩
  rw [Nat.pow_succ]
  omega

/-! ## LIFTER (R184) -/

theorem length_lift {p : Params} {fs : Word} {l : Nat} {slift : Bool} {eps f0 q1 : Word} {spec : List Word} :
    (lift p fs l slift eps f0 q1 spec).length = 2 ^ l / 2 + 1 := by
  have := @half_lt l
  rw [lift, List.length_map, List.length_take, length_fftInverse, sizeB]
  omega

theorem length_evenExtend (l : Nat) (lg : List Word) : (evenExtend l lg).length = 2 ^ l := by
  rw [evenExtend, List.length_map, List.length_range]

/-- LIFTER computes the loop of R184. -/
theorem getD_lift {p : Params} {fs : Word} {l : Nat} {slift : Bool} {eps f0 q1 : Word} {spec : List Word}
    {spec' : Nat → Word} (hl : spec.length = 2 ^ l / 2 + 1) (h : ∀ k ≤ 2 ^ l / 2, spec.getD k f0p0 = spec' k) {k : Nat}
    (hk : k ≤ 2 ^ l / 2) :
    (lift p fs l slift eps f0 q1 spec).getD k f0p0 =
      loopLift p.fpMode p.log2nMax fs l slift eps f0 q1 spec' k := by
  have hh := @half_lt l
  have he : ∀ n < 2 ^ l, (evenExtend l (spec.map fun x => fpLog p.fpMode (fmax x eps))).getD n f0p0 =
      fpLog p.fpMode (fmax (spec' (if n ≤ 2 ^ l / 2 then n else 2 ^ l - n)) eps) := by
    intro n hn
    rw [evenExtend, getD_map_range _ _ _ _ hn]
    by_cases hc : n ≤ 2 ^ l / 2
    · rw [if_pos hc, if_pos hc, getD_map _ _ _ f0p0 _ (by omega), h n hc]
    · rw [if_neg hc, if_neg hc, getD_map _ _ _ f0p0 _ (by simp only [sizeN]; omega), h _ (by simp only [sizeN]; omega)]
  have hc : ∀ n ≤ 2 ^ l / 2, (liftCepstrum p.fpMode fs l slift f0 q1 (fftReal p.log2nMax l
      (evenExtend l (spec.map fun x => fpLog p.fpMode (fmax x eps))))).getD n cZero =
      ⟨fdiv (fmul (fmul (loopForward p.log2nMax l (fun n => fpLog p.fpMode
        (fmax (spec' (if n ≤ 2 ^ l / 2 then n else 2 ^ l - n)) eps)) n).re (sincLift p.fpMode fs slift f0 n))
        (q1Lift p.fpMode fs q1 f0 n)) (fofNat (2 ^ l)), f0p0⟩ := by
    intro n hn
    rw [liftCepstrum, getD_map_range _ _ _ _ (by simp only [sizeB]; omega),
      getD_fftReal (length_evenExtend _ _) he hn]
  rw [lift, getD_map _ _ _ f0p0 _ (by rw [List.length_take, length_fftInverse, sizeB]; omega),
    getD_take _ _ _ _ (by simp only [sizeB]; omega), getD_fftInverse hc (by omega)]
  rfl

/-! ## CENTROID (R210) -/

theorem length_unitEnergy (safeMin : Word) (x : List Word) : (unitEnergy safeMin x).length = x.length := by
  rw [unitEnergy, divAll, List.length_map]

theorem length_timeWeighted (u : List Word) : (timeWeighted u).length = u.length := by
  rw [timeWeighted, List.length_zipWith, List.length_range, Nat.min_self]

theorem length_centroid {lmax l : Nat} {safeMin : Word} {x : List Word} :
    (centroid lmax l safeMin x).length = 2 ^ l / 2 + 1 := by
  rw [centroid, List.length_zipWith, length_fftReal, length_fftReal, Nat.min_self]

/-- CENTROID computes the loop of R210. -/
theorem getD_centroid {lmax l : Nat} {safeMin : Word} {x : List Word} {x' : Nat → Word} (hl : x.length = 2 ^ l)
    (h : ∀ n < 2 ^ l, x.getD n f0p0 = x' n) {k : Nat} (hk : k ≤ 2 ^ l / 2) :
    (centroid lmax l safeMin x).getD k f0p0 = loopCentroid lmax l safeMin x' k := by
  have hs : fsum (x.map fun y => fmul y y) = loopSum (2 ^ l) fun n => fmul (x' n) (x' n) :=
    fsum_of (by rw [List.length_map, hl]) fun i hi => by rw [getD_map _ _ _ f0p0 _ (by omega), h i hi]
  have hu : ∀ n < 2 ^ l, (unitEnergy safeMin x).getD n f0p0 =
      fdiv (x' n) (fsqrt (fmax (loopSum (2 ^ l) fun n => fmul (x' n) (x' n)) safeMin)) := fun n hn => by
    rw [unitEnergy, divAll, getD_map _ _ _ f0p0 _ (by omega), h n hn, hs]
  have hul : (unitEnergy safeMin x).length = 2 ^ l := by rw [length_unitEnergy, hl]
  have hv : ∀ n < 2 ^ l, (timeWeighted (unitEnergy safeMin x)).getD n f0p0 =
      fmul (fdiv (x' n) (fsqrt (fmax (loopSum (2 ^ l) fun n => fmul (x' n) (x' n)) safeMin))) (fofNat (n + 1)) :=
    fun n hn => by
      rw [timeWeighted, getD_zipWith _ _ _ n f0p0 0 f0p0 (by omega) (by rw [List.length_range]; omega), hu n hn]
      congr 2
      simp [List.getD_eq_getElem?_getD, hul, hn]
  rw [centroid, getD_zipWith _ _ _ k cZero cZero f0p0 (by rw [length_fftReal]; omega) (by rw [length_fftReal]; omega),
    getD_fftReal hul hu hk, getD_fftReal (by rw [length_timeWeighted, hul]) hv hk]
  rfl

/-! ## GDELAY (R211) -/

theorem length_groupDelay {fs : Word} {l : Nat} {safeMin : Word} {sc sp : List Word} {f0 : Word} {v : List Word}
    (h : groupDelay fs l safeMin sc sp f0 = .ok v) : v.length = 2 ^ l / 2 + 1 := by
  unfold groupDelay at h
  obtain ⟨g, h1, h⟩ := bind_eq_ok.1 h
  obtain ⟨sm, h2, h⟩ := bind_eq_ok.1 h
  cases h
  rw [List.length_zipWith, length_smooth h1, length_smooth h2, Nat.min_self]

theorem loopSeg_congr {fs : Word} {l h bd : Nat} {p q : Nat → Word} (hb : bd ≤ h) (hpq : ∀ k ≤ h, p k = q k) :
    ∀ i ≤ h + 2 * bd, loopSeg fs l h bd p i = loopSeg fs l h bd q i := by
  have hm : ∀ i ≤ h + 2 * bd, loopMirror h bd p i = loopMirror h bd q i := by
    intro i hi
    unfold loopMirror
    by_cases h1 : i < bd
    · rw [if_pos h1, if_pos h1, hpq _ (by omega)]
    · rw [if_neg h1, if_neg h1]
      by_cases h2 : i ≤ h + bd
      · rw [if_pos h2, if_pos h2, hpq _ (by omega)]
      · rw [if_neg h2, if_neg h2, hpq _ (by omega)]
  intro i hi
  induction i with
  | zero => rw [loopSeg, loopSeg, hm 0 hi]
  | succ i ih => rw [loopSeg, loopSeg, hm _ hi, ih (by omega)]

/-- A legal f0 whose queries are on the grids: GDELAY computes the loop of R211. -/
theorem groupDelay_ok {n l : Nat} {safeMin : Word} {sc sp : List Word} {sc' sp' : Nat → Word} {f0 : Word} (hl : l ≤ 24)
    (hs : fNeg f0 = false) (hsc : sc.length = 2 ^ l / 2 + 1) (hsp : sp.length = 2 ^ l / 2 + 1)
    (hsc' : ∀ k ≤ 2 ^ l / 2, sc.getD k f0p0 = sc' k) (hsp' : ∀ k ≤ 2 ^ l / 2, sp.getD k f0p0 = sp' k)
    (h1 : SmoothFits (fofNat n) l f0) (h2 : SmoothFits (fofNat n) l (fdiv f0 f2)) :
    ∃ v, groupDelay (fofNat n) l safeMin sc sp f0 = .ok v ∧ v.length = 2 ^ l / 2 + 1 ∧
      ∀ k ≤ 2 ^ l / 2, v.getD k f0p0 = loopGdelay (fofNat n) l safeMin f0 sc' sp' k := by
  have hr : ∀ k ≤ 2 ^ l / 2, (delayRatio safeMin sc sp).getD k f0p0 = fdiv (sc' k) (fmax (sp' k) safeMin) :=
    fun k hk => by
      rw [delayRatio, getD_zipWith _ _ _ k f0p0 f0p0 f0p0 (by omega) (by omega), hsc' k hk, hsp' k hk]
  obtain ⟨g, hg, hgl, hgv⟩ := smooth_ok hl (fdiv_sign hs (by decide)) hr h2
  obtain ⟨sm, hsm, hsml, hsmv⟩ := smooth_ok hl hs hgv h1
  refine ⟨List.zipWith fsub g sm, ?_, ?_, fun k hk => ?_⟩
  · rw [groupDelay, hg, ok_bind, hsm]
    rfl
  · rw [List.length_zipWith, hgl, hsml, Nat.min_self]
  · rw [getD_zipWith _ _ _ k f0p0 f0p0 f0p0 (by omega) (by omega), hgv k hk, hsmv k hk]
    rfl

/-! ## VUV (R212) -/

theorem fsum_snoc (xs : List Word) (x : Word) : fsum (xs ++ [x]) = fadd (fsum xs) x := by
  rw [fsum, List.foldl_append]
  rfl

/-- The first `n` of the bins after `lo`. -/
theorem binSum_succ {p : List Word} {lo n : Nat} (h : lo + n + 1 < p.length) :
    binSum p lo (lo + (n + 1)) = fadd (binSum p lo (lo + n)) (p.getD (lo + n + 1) f0p0) := by
  unfold binSum
  rw [show lo + (n + 1) - lo = n + 1 by omega, show lo + n - lo = n by omega, List.take_add_one,
    List.getElem?_drop, show lo + 1 + n = lo + n + 1 by omega, List.getElem?_eq_getElem h, Option.toList_some, fsum_snoc]
  congr 1
  simp [List.getD_eq_getElem?_getD, h]

theorem binSum_self (p : List Word) (lo : Nat) : binSum p lo lo = f0p0 := by
  unfold binSum
  rw [Nat.sub_self, List.take_zero]
  rfl

theorem loopVuv_fst {p : List Word} {p' : Nat → Word} {lo hi : Nat} (hp : ∀ k < p.length, p.getD k f0p0 = p' k) :
    ∀ n, lo + n < p.length → (loopVuv p' lo hi n).1 = binSum p lo (lo + n)
  | 0, _ => by rw [Nat.add_zero, binSum_self]; rfl
  | n + 1, h => by
    rw [binSum_succ (by omega), ← loopVuv_fst hp n (by omega), hp _ (by omega)]
    rfl

theorem loopVuv_snd {p : List Word} {p' : Nat → Word} {lo hi : Nat} (hp : ∀ k < p.length, p.getD k f0p0 = p' k) :
    ∀ n, lo + n < p.length → (loopVuv p' lo hi n).2 = if hi ≤ lo + n then binSum p lo hi else f0p0
  | 0, _ => by
    by_cases h : hi ≤ lo
    · rw [if_pos (by omega)]
      unfold binSum
      rw [show hi - lo = 0 by omega, List.take_zero]
      rfl
    · rw [if_neg (by omega)]; rfl
  | n + 1, h => by
    have h1 := loopVuv_fst (hi := hi) hp (n + 1) h
    have h2 := loopVuv_snd (lo := lo) (hi := hi) hp n (by omega)
    by_cases he : lo + n + 1 = hi
    · have : (loopVuv p' lo hi (n + 1)).2 = (loopVuv p' lo hi (n + 1)).1 := by simp only [loopVuv, if_pos he]
      rw [this, h1, if_pos (by omega), ← he]
      rfl
    · have : (loopVuv p' lo hi (n + 1)).2 = (loopVuv p' lo hi n).2 := by simp only [loopVuv, if_neg he]
      rw [this, h2]
      by_cases hc : hi ≤ lo + n
      · rw [if_pos hc, if_pos (by omega)]
      · rw [if_neg hc, if_neg (by omega)]

/-- The sums of R212 are those of its loop, for any three bins. -/
theorem vuv_sums {p : List Word} {p' : Nat → Word} {b0 b1 b2 : Nat} (hp : ∀ k < p.length, p.getD k f0p0 = p' k)
    (h0 : b0 < p.length) (h2 : b2 < p.length) :
    vuvNum p b0 b1 b2 = (loopVuv p' b0 b1 (b2 - b0)).2 ∧
      binSum p b0 b2 = if b0 < b2 then (loopVuv p' b0 b1 (b2 - b0)).1 else f0p0 := by
  have hz : ∀ hi ≤ b0, binSum p b0 hi = f0p0 := fun hi h => by
    unfold binSum
    rw [show hi - b0 = 0 by omega, List.take_zero]
    rfl
  have e2 := loopVuv_snd (lo := b0) (hi := b1) hp (b2 - b0) (by omega)
  unfold vuvNum
  by_cases hc : b0 < b2
  · have e1 := loopVuv_fst (lo := b0) (hi := b1) hp (b2 - b0) (by omega)
    rw [show b0 + (b2 - b0) = b2 by omega] at e1 e2
    rw [e1, e2, if_pos hc]
    exact ⟨rfl, rfl⟩
  · rw [if_neg hc, hz b2 (by omega)]
    refine ⟨?_, rfl⟩
    rw [show b2 - b0 = 0 by omega]
    by_cases h12 : b1 ≤ b2
    · rw [if_pos h12, hz b1 (by omega)]
      rfl
    · rw [if_neg h12]
      rfl

/-- VUV computes the loop of R212. -/
theorem vuv_eq {fs : Word} {l : Nat} {safeMin : Word} {p : List Word} {p' : Nat → Word} (hl : p.length = 2 ^ l / 2 + 1)
    (hp : ∀ k ≤ 2 ^ l / 2, p.getD k f0p0 = p' k) : vuvIndicator fs l safeMin p = loopVuvValue fs l safeMin p' := by
  have hb : ∀ f, vuvBin fs l f < p.length := fun f => by
    have : vuvBin fs l f ≤ 2 ^ l / 2 := Nat.min_le_right _ _
    omega
  obtain ⟨e1, e2⟩ := vuv_sums (b1 := vuvBin fs l vuvF1) (fun k hk => hp k (by omega)) (hb vuvF0) (hb vuvF2)
  rw [vuvIndicator, e1, e2]
  rfl

/-! ## BANDAP (R223) -/

/-- The order of R223: a value may stand before another unless the other is smaller, and a NaN before a NaN only. -/
def SortedBefore (a b : Word) : Prop := (isNaN a = true → isNaN b = true) ∧ flt b a = false

theorem length_insertSorted (x : Word) (ys : List Word) : (insertSorted x ys).length = ys.length + 1 := by
  induction ys with
  | nil => rfl
  | cons y ys ih =>
    unfold insertSorted
    split
    · rw [List.length_cons, ih, List.length_cons]
    · rfl

theorem length_sortAscending (xs : List Word) : (sortAscending xs).length = xs.length := by
  induction xs with
  | nil => rfl
  | cons x xs ih =>
    have : sortAscending (x :: xs) = insertSorted x (sortAscending xs) := rfl
    rw [this, length_insertSorted, ih, List.length_cons]

theorem length_powerSpectrum (y : List Cpx) : (powerSpectrum y).length = y.length := List.length_map _

theorem getD_powerSpectrum {y : List Cpx} {k : Nat} (h : k < y.length) :
    (powerSpectrum y).getD k f0p0 = powerOf (y.getD k cZero) := getD_map _ _ _ _ _ h

theorem bandsLegal_bounds {fs : Word} {l j : Nat} (h : bandsLegal fs l = true) (hj : j < bandCount fs) :
    bandHalf fs l ≤ bandCentre fs l j ∧ bandCentre fs l j + bandHalf fs l ≤ 2 ^ l / 2 ∧ 0 ≤ bandIdx fs l := by
  unfold bandsLegal at h
  have h0 : (bandCount fs == 0) = false := by rw [beq_eq_false_iff_ne]; omega
  rw [h0, Bool.false_or] at h
  simp only [Bool.and_eq_true, decide_eq_true_eq, List.all_eq_true, List.mem_range] at h
  have := h.2 j hj
  exact ⟨this.1, this.2, h.1.2⟩

theorem length_bandSegment (m : FpMode) (fs : Word) (l : Nat) (g : List Word) (j : Nat) :
    (bandSegment m fs l g j).length = 2 ^ l := length_padTo _ _

theorem getD_bandSegment {m : FpMode} {fs : Word} {l : Nat} {g : List Word} {g' : Nat → Word} {j : Nat}
    (hl : g.length = 2 ^ l / 2 + 1) (hg : ∀ k ≤ 2 ^ l / 2, g.getD k f0p0 = g' k) (h : bandsLegal fs l = true)
    (hj : j < bandCount fs) {t : Nat} (ht : t < 2 ^ l) :
    (bandSegment m fs l g j).getD t f0p0 = if t < bandLen fs l then
      fmul (g' (bandCentre fs l j - bandHalf fs l + t)) (Spec.nuttall m (bandLen fs l) t) else f0p0 := by
  obtain ⟨b1, b2, -⟩ := bandsLegal_bounds h hj
  have hb : bandLen fs l = 2 * bandHalf fs l + 1 := rfl
  have hlen : ((g.drop (bandCentre fs l j - bandHalf fs l)).take (bandLen fs l)).length = bandLen fs l := by
    rw [List.length_take, List.length_drop]; omega
  rw [bandSegment, getD_padTo ht]
  by_cases hc : t < bandLen fs l
  · rw [if_pos hc, getD_zipWith _ _ _ t f0p0 f0p0 f0p0 (by omega) (by rw [length_genWindow]; exact hc),
      getD_take _ _ _ _ hc, getD_drop, hg _ (by omega), nuttall_spec hc]
  · have hz : (List.zipWith fmul ((g.drop (bandCentre fs l j - bandHalf fs l)).take (bandLen fs l))
        (genWindow m .nuttall (bandLen fs l))).length = bandLen fs l := by
      rw [List.length_zipWith, hlen, length_genWindow, Nat.min_self]
    rw [if_neg hc]
    exact getD_of_length_le (hz.trans_le (Nat.le_of_not_lt hc))

theorem bandBoundary_nonneg (fs : Word) (l : Nat) : 0 ≤ bandBoundary fs l := by
  have hs : fNeg (fdiv (fmul (fofNat (sizeN l)) bandK) (fofNat (bandLen fs l))) = false :=
    fdiv_sign (fmul_sign (fNeg_fofNat _) (by decide)) (fNeg_fofNat _)
  unfold bandBoundary frha
  rw [hs, if_neg Bool.false_ne_true]
  exact Int.natCast_nonneg _

theorem bandIdx_le (fs : Word) (l : Nat) : (bandIdx fs l).toNat ≤ 2 ^ l / 2 := by
  have key : ∀ (h : Nat) (b : Int), 0 ≤ b → ((h : Int) - b - 1).toNat ≤ h := by
    intro h b hb
    omega
  unfold bandIdx
  exact key _ _ (bandBoundary_nonneg fs l)

/-- A band's value is the loop of R223. -/
theorem bandCoarse_eq {p : Params} {fs : Word} {l : Nat} {safeMin f0 : Word} {g : List Word} {g' : Nat → Word} {j : Nat}
    (hl : g.length = 2 ^ l / 2 + 1) (hg : ∀ k ≤ 2 ^ l / 2, g.getD k f0p0 = g' k) (h : bandsLegal fs l = true)
    (hj : j < bandCount fs) :
    bandCoarse p fs l safeMin f0 g j = loopBand p.fpMode p.log2nMax fs l safeMin f0 g' j := by
  have hpow : powerSpectrum (fftReal p.log2nMax l (bandSegment p.fpMode fs l g j)) =
      (List.range (2 ^ l / 2 + 1)).map (loopBandPower p.fpMode p.log2nMax fs l g' j) := by
    refine ext_getD f0p0 (by rw [length_powerSpectrum, length_fftReal, List.length_map, List.length_range])
      fun k hk => ?_
    rw [length_powerSpectrum, length_fftReal] at hk
    rw [getD_powerSpectrum (by rw [length_fftReal]; exact hk), getD_map_range _ _ _ _ hk,
      getD_fftReal (length_bandSegment _ _ _ _ _) (fun n hn => getD_bandSegment hl hg h hj hn) (by omega)]
    rfl
  have hb := bandsLegal_bounds h hj
  have hlen : (loopSorted p.fpMode p.log2nMax fs l g' j).length = 2 ^ l / 2 + 1 := by
    rw [loopSorted, length_sortAscending, List.length_map, List.length_range]
  have hc : ∀ k ≤ 2 ^ l / 2, (cumSum (loopSorted p.fpMode p.log2nMax fs l g' j)).getD k f0p0 =
      loopCum (fun k => (loopSorted p.fpMode p.log2nMax fs l g' j).getD k f0p0) k := by
    intro k hk
    refine getD_cumSum (fun _ => ?_) (fun i hi => ?_) (by omega)
    · rw [loopCum]
    · rw [loopCum]
  have hi := bandIdx_le fs l
  have hs : cumSum (sortAscending (powerSpectrum (fftReal p.log2nMax l (bandSegment p.fpMode fs l g j)))) =
      cumSum (loopSorted p.fpMode p.log2nMax fs l g' j) := by rw [hpow, loopSorted]
  rw [bandCoarse, hs, bandValue, hc _ hi, hc _ (Nat.le_refl _)]
  rfl

theorem length_bandAperiodicity {p : Params} {fs : Word} {l : Nat} {safeMin : Word} {g : List Word} {f0 : Word}
    {v : List Word} (h : bandAperiodicity p fs l safeMin g f0 = .ok v) : v.length = bandCount fs := by
  unfold bandAperiodicity at h
  obtain ⟨_, -, h⟩ := bind_eq_ok.1 h
  cases h
  rw [List.length_map, List.length_range]

/-- A legal geometry: BANDAP computes the loop of R223. -/
theorem bandAperiodicity_ok {p : Params} {fs : Word} {l : Nat} {safeMin f0 : Word} {g : List Word} {g' : Nat → Word}
    (hl : g.length = 2 ^ l / 2 + 1) (hg : ∀ k ≤ 2 ^ l / 2, g.getD k f0p0 = g' k) (h : bandsLegal fs l = true) :
    ∃ v, bandAperiodicity p fs l safeMin g f0 = .ok v ∧ v.length = bandCount fs ∧
      ∀ j < bandCount fs, v.getD j f0p0 = loopBand p.fpMode p.log2nMax fs l safeMin f0 g' j := by
  refine ⟨(List.range (bandCount fs)).map (bandCoarse p fs l safeMin f0 g), ?_, ?_, fun j hj => ?_⟩
  · rw [bandAperiodicity, require_bind_of h]
    rfl
  · rw [List.length_map, List.length_range]
  · rw [getD_map_range _ _ _ _ hj, bandCoarse_eq hl hg h hj]

/-! ## APINTERP (R224) -/

theorem length_apInterp (m : FpMode) (c : Csr) (l : Nat) (coarse : List Word) :
    (apInterp m c l coarse).length = 2 ^ l / 2 + 1 := by rw [apInterp, List.length_map, List.length_range]

theorem getD_coarseX {fs : Word} {j : Nat} (h : j ≤ bandCount fs + 1) :
    (coarseX fs).getD j f0p0 = curveX fs (bandCount fs) j := by
  have hl : ((List.range (bandCount fs + 1)).map (fun j => if j = 0 then f0p0 else fmul bandInterval (fofNat j))).length =
      bandCount fs + 1 := by rw [List.length_map, List.length_range]
  unfold coarseX curveX
  by_cases hj : j = bandCount fs + 1
  · rw [getD_append_right _ _ _ _ (by omega), hl, hj, Nat.sub_self, if_neg (by omega), if_neg (by omega)]
    rfl
  · rw [getD_append_left _ _ _ _ (by omega), getD_map_range _ _ _ _ (by omega)]
    by_cases h0 : j = 0
    · rw [if_pos h0, if_pos h0]
    · rw [if_neg h0, if_neg h0, if_pos (by omega)]

theorem getD_coarseY {c : Csr} {coarse : List Word} {coarse' : Nat → Word} (hl : coarse.length = bandCount c.fsF)
    (hc : ∀ j < bandCount c.fsF, coarse.getD j f0p0 = coarse' j) {j : Nat} (h : j ≤ bandCount c.fsF + 1) :
    (coarseY c.apDcDb c.safeMin coarse).getD j f0p0 = curveY c (bandCount c.fsF) coarse' j := by
  unfold coarseY curveY
  cases j with
  | zero => rfl
  | succ j =>
    rw [if_neg (by omega), List.cons_append, List.getD_cons_succ]
    by_cases hj : j < bandCount c.fsF
    · rw [getD_append_left _ _ _ _ (by omega), if_pos (by omega), Nat.add_sub_cancel, hc j hj]
    · rw [getD_append_right _ _ _ _ (by omega), if_neg (by omega), show j - coarse.length = 0 by omega]
      rfl

theorem foldl_last_filter {q : Nat → Bool} (xs : List Nat) (d : Nat) :
    ((xs.filter q).getLast?).getD d = xs.foldl (fun best s => if q s then s else best) d := by
  induction xs using List.reverseRecOn with
  | nil => rfl
  | append_singleton xs x ih =>
    rw [List.foldl_append, List.filter_append]
    by_cases h : q x = true
    · simp [h]
    · have hx : [x].filter q = [] := by simp [h]
      rw [hx, List.append_nil, ih]
      simp [h]

theorem coarseSeg_eq {fs xi : Word} : coarseSeg (coarseX fs) (bandCount fs) xi = curveSeg fs (bandCount fs) xi := by
  have hf : (List.range (bandCount fs + 1)).filter (fun s => fle ((coarseX fs).getD s f0p0) xi) =
      (List.range (bandCount fs + 1)).filter fun s => fle (curveX fs (bandCount fs) s) xi := by
    apply List.filter_congr
    intro s hs
    rw [getD_coarseX (by have := List.mem_range.1 hs; omega)]
  rw [coarseSeg, hf, foldl_last_filter, curveSeg]

theorem foldl_pick_le {q : Nat → Bool} : ∀ n d, (List.range n).foldl (fun best s => if q s then s else best) d < n ∨
    (List.range n).foldl (fun best s => if q s then s else best) d = d
  | 0, d => .inr rfl
  | n + 1, d => by
    rw [List.range_succ, List.foldl_append]
    simp only [List.foldl_cons, List.foldl_nil]
    by_cases h : q n = true
    · rw [if_pos h]; omega
    · rw [if_neg h]
      rcases foldl_pick_le (q := q) n d with h | h
      · omega
      · exact .inr h

theorem curveSeg_le (fs : Word) (nb : Nat) (xi : Word) : curveSeg fs nb xi ≤ nb := by
  have := foldl_pick_le (q := fun s => fle (curveX fs nb s) xi) (nb + 1) 0
  unfold curveSeg
  omega

/-- APINTERP computes the loop of R224. -/
theorem getD_apInterp {m : FpMode} {c : Csr} {l : Nat} {coarse : List Word} {coarse' : Nat → Word}
    (hl : coarse.length = bandCount c.fsF) (hc : ∀ j < bandCount c.fsF, coarse.getD j f0p0 = coarse' j) {k : Nat}
    (hk : k ≤ 2 ^ l / 2) : (apInterp m c l coarse).getD k f0p0 = loopApInterp m c l coarse' k := by
  have hs := curveSeg_le c.fsF (bandCount c.fsF) (binFreq c.fsF l k)
  rw [apInterp, getD_map_range _ _ _ _ (by simp only [sizeB]; omega), coarseAt, coarseSeg_eq, getD_coarseX (by omega), getD_coarseX (by omega), getD_coarseY hl hc (by omega),
    getD_coarseY hl hc (by omega)]
  rfl

end Sys2Proof.Machine
end

