-- ==== Sys2Proof/Laws/Commands.lean ====
section
/-! SUPPORT. How a command ends, in the terms of `Safety.lean`: from the verdict of a command to `Completed`, `Raised`,
`CompletesWith` and `RaisesClean`. -/

namespace Sys2Proof.Machine

/-- A command that completes has completed in the sense of R273 and R291. -/
theorem completed_of_apply (s : State) (e : Effect) :
    Completed s (s.apply e).complete (fun a => e.writes.lookup a) where
  kept := by constructor <;> simp
  free := by simp
  count := by simp
  last h := by simp [State.complete, State.apply, h]
  next c q h := by simp [State.complete, State.apply, h]
  err := by simp
  errCode := by simp
  errInfo := by simp
  errCmd0 := by simp
  errCmd1 := by simp

/-- An error raised before anything was written. -/
theorem raised_of_raise (s : State) (r : Raise) : Raised s (s.raise r) r.code.code r.info := by
  constructor <;> first | rfl | (constructor <;> rfl)

/-- An error raised after some words were written. -/
theorem raised_of_applySome (s : State) (ws : List (Nat × Word)) (r : Raise) :
    Raised s ((s.applySome ws).raise r) r.code.code r.info := by
  constructor <;> first | rfl | (constructor <;> rfl)

theorem getD_default {xs : List Word} {k : Nat} (h : k < xs.length) (d e : Word) : xs.getD k d = xs.getD k e := by
  simp [List.getD_eq_getElem?_getD, h]

/-- A command whose verdict is to write a buffer completes with it. -/
theorem completesWith_of {i : Instr} {s : State} {dst n : Nat} {vs : List Word} {v : Nat → Word}
    (h : planOf i s = .done (.buffer dst vs)) (hl : vs.length = n) (hv : ∀ k < n, vs.getD k f0p0 = v k) :
    CompletesWith i s dst n v := by
  subst hl
  refine ⟨(s.apply (.buffer dst vs)).complete, ?_, ?_, ?_, ?_, fun k hk => ?_, fun b hb => ?_⟩
  · rw [exec_eq, h, finish_done]
  · have e : (fun a => if dst ≤ a ∧ a < dst + vs.length then some (v (a - dst)) else none) =
        fun a => (Effect.buffer dst vs).writes.lookup a := by
      funext a
      rw [show (Effect.buffer dst vs).writes = wordsAt dst vs from rfl, lookup_wordsAt]
      split
      · rw [← hv _ (by omega), getD_default (by omega) f0p0 0]
      · rfl
    rw [e]
    exact completed_of_apply s _
  · rw [State.complete_csr, State.apply_csr]
    rfl
  · rw [State.complete_mark, State.apply_mark]
    exact Bool.or_false _
  · rw [State.complete_mem, buffer_word s dst vs hk, getD_default hk 0 f0p0, hv k hk]
  · rw [State.complete_mem, buffer_other s dst vs hb]

/-- A command whose verdict is an error before any write raises it. -/
theorem raisesClean_of {i : Instr} {s : State} {c : ErrCode} {info : Word} (h : planOf i s = .failed ⟨c, info⟩) :
    RaisesClean i s c info :=
  ⟨s.raise ⟨c, info⟩, by rw [exec_eq, h, finish_failed], raised_of_raise s _, rfl, rfl⟩

/-! ## Checks in the words of the rules -/

theorem needFs_ok {s : State} (h : FsOk s) : s.needFs = .ok () := by
  unfold State.needFs
  rw [require_eq_ok]
  unfold Csr.fsLegal
  rw [Bool.and_eq_true]
  exact ⟨decide_eq_true h.1, decide_eq_true h.2⟩

theorem needFs_error {s : State} (h : ¬ FsOk s) : s.needFs = .error ⟨.config, 0x080⟩ := by
  unfold State.needFs
  rw [require_eq_error]
  refine ⟨?_, rfl⟩
  rw [← Bool.not_eq_true]
  unfold Csr.fsLegal
  rw [Bool.and_eq_true]
  exact fun hc => h ⟨of_decide_eq_true hc.1, of_decide_eq_true hc.2⟩

theorem needSize_ok {s : State} {sz : SizeSel} (h : SizeOk s sz) : s.needSize sz = .ok () := by
  unfold State.needSize
  rw [require_eq_ok]
  simpa [State.expLegal, SizeOk, State.sizeExp] using h

theorem needSize_error {s : State} {sz : SizeSel} (h : ¬ SizeOk s sz) :
    s.needSize sz = .error ⟨.config, BitVec.ofNat 64 (sizeOffset sz)⟩ := by
  unfold State.needSize
  rw [require_eq_error]
  refine ⟨?_, rfl⟩
  rw [← Bool.not_eq_true]
  simpa [State.expLegal, SizeOk, State.sizeExp] using h

theorem needRegion_ok {s : State} {info a n : Nat} (h : a + n ≤ s.cfg.dmemWords) : s.needRegion info a n = .ok () := by
  unfold State.needRegion
  rw [require_eq_ok]
  simpa [State.regionOk] using h

theorem needRegion_error {s : State} {info a n : Nat} (h : s.cfg.dmemWords < a + n) :
    s.needRegion info a n = .error ⟨.addr, BitVec.ofNat 64 info⟩ := by
  unfold State.needRegion
  rw [require_eq_error]
  refine ⟨?_, rfl⟩
  rw [← Bool.not_eq_true]
  simp only [State.regionOk, decide_eq_true_eq]
  omega

theorem needFinite_ok {x : Word} {k : Nat} (h : isFinite x = true) : needFinite x k = .ok () := by
  unfold needFinite
  rw [h]
  rfl

theorem needFinite_error {x : Word} {k : Nat} (h : isFinite x = false) :
    needFinite x k = .error ⟨.nonfinite, BitVec.ofNat 64 k⟩ := by
  unfold needFinite
  rw [h]
  rfl

theorem needPositive_ok {x : Word} {k : Nat} (h : flt f0p0 x = true) : needPositive x k = .ok () := by
  unfold needPositive
  rw [h]
  rfl

theorem needPositive_error {x : Word} {k : Nat} (h : flt f0p0 x = false) :
    needPositive x k = .error ⟨.param, BitVec.ofNat 64 k⟩ := by
  unfold needPositive
  rw [h]
  rfl

theorem posFinite_of {x : Word} (h : Positive x) : posFinite x = true := by
  rw [posFinite, h.1, h.2]
  rfl

theorem needSafeMin_ok {s : State} (h : Positive s.csr.safeMin) : s.needSafeMin = .ok () := by
  unfold State.needSafeMin
  rw [posFinite_of h]
  rfl

theorem needEnvEps_ok {s : State} (h : Positive s.csr.envEps) : s.needEnvEps = .ok () := by
  unfold State.needEnvEps
  rw [posFinite_of h]
  rfl

theorem needApFloor_ok {s : State} (h : Positive s.csr.apFloor) (h1 : fle s.csr.apFloor f1 = true) :
    s.needApFloor = .ok () := by
  unfold State.needApFloor Csr.apFloorLegal
  rw [posFinite_of h, h1]
  rfl

theorem needApDcDb_ok {s : State} (h : isFinite s.csr.apDcDb = true) : s.needApDcDb = .ok () := by
  unfold State.needApDcDb
  rw [h]
  rfl

end Sys2Proof.Machine
end

