-- ==== Sys2Proof/Laws/Frames.lean ====
section
/-! SUPPORT. What the operations that ENVRUN and APRUN share can do: the two phases, the rows they write, and the frames
they check. -/

namespace Sys2Proof.Machine

/-! ## The two phases (R185, R225) -/

theorem phases_ok {one : Check Unit} {two : Verdict} (h : one = .ok ()) : phases one two = two := by
  subst h
  rfl

theorem phases_error {one : Check Unit} {two : Verdict} {r : Raise} (h : one = .error r) : phases one two = .failed r := by
  subst h
  rfl

/-- A frame engine that does not end in HALT passed phase 1. -/
theorem phases_cases (one : Check Unit) (two : Verdict) :
    (one = .ok () ∧ phases one two = two) ∨ ∃ r, one = .error r ∧ phases one two = .failed r := by
  cases one with
  | ok u => exact .inl ⟨rfl, rfl⟩
  | error r => exact .inr ⟨r, rfl, rfl⟩

/-! ## Frames of a range -/

theorem mem_frameRange {first count i : Nat} : i ∈ frameRange first count ↔ first ≤ i ∧ i < first + count := by
  simp only [frameRange, List.mem_map, List.mem_range]
  exact ⟨fun ⟨k, hk, e⟩ => by omega, fun ⟨h1, h2⟩ => ⟨i - first, by omega, by omega⟩⟩

theorem length_frameRange (first count : Nat) : (frameRange first count).length = count := by simp [frameRange]

theorem getD_frameRange {first count k : Nat} (h : k < count) (d : Nat) : (frameRange first count).getD k d = first + k :=
  getD_map_range _ _ _ _ h

/-- The check of all frames passes when every frame does. -/
theorem allFrames_ok {ok : Nat → Bool} {c : ErrCode} {frames : List Nat} (h : ∀ i ∈ frames, ok i = true) :
    allFrames ok c frames = .ok () := by
  have e : (frames.find? fun i => !ok i) = none := by
    rw [List.find?_eq_none]
    intro i hi
    rw [h i hi]
    decide
  rw [allFrames, e]

/-- The lowest frame that fails is the one reported. -/
theorem allFrames_error {ok : Nat → Bool} {c : ErrCode} {first count i : Nat} (h1 : first ≤ i) (h2 : i < first + count)
    (hi : ok i = false) (hlt : ∀ j, first ≤ j → j < i → ok j = true) :
    allFrames ok c (frameRange first count) = .error ⟨c, BitVec.ofNat 64 i⟩ := by
  have e : ((frameRange first count).find? fun i => !ok i) = some i := by
    have hs : frameRange first count = frameRange first (i - first) ++ i :: frameRange (i + 1) (first + count - i - 1) := by
      apply ext_getD 0
      · simp only [List.length_append, List.length_cons, length_frameRange]; omega
      · intro k hk
        rw [length_frameRange] at hk
        rw [getD_frameRange hk]
        by_cases hki : k < i - first
        · rw [getD_append_left _ _ _ _ (by rw [length_frameRange]; exact hki), getD_frameRange hki]
        · rw [getD_append_right _ _ _ _ (by rw [length_frameRange]; omega), length_frameRange]
          cases hj : k - (i - first) with
          | zero => rw [List.getD_cons_zero]; omega
          | succ j => rw [List.getD_cons_succ, getD_frameRange (by omega)]; omega
    rw [hs, List.find?_append]
    have hn : ((frameRange first (i - first)).find? fun i => !ok i) = none := by
      rw [List.find?_eq_none]
      intro j hj
      rw [mem_frameRange] at hj
      rw [hlt j hj.1 (by omega)]
      decide
    rw [hn, List.find?_cons_of_pos (by rw [hi]; rfl)]
    rfl
  rw [allFrames, e]

/-- A check of all frames that passes holds of each. -/
theorem of_allFrames_ok {ok : Nat → Bool} {c : ErrCode} {frames : List Nat} (h : allFrames ok c frames = .ok ()) :
    ∀ i ∈ frames, ok i = true := by
  unfold allFrames at h
  cases e : frames.find? fun i => !ok i with
  | none =>
    intro i hi
    have := List.find?_eq_none.1 e i hi
    simpa using this
  | some j => rw [e] at h; cases h

/-! ## The rows of phase 2 -/

theorem mem_rowWords {base cols first : Nat} {outs : List FrameOut} {w : Nat × Word} :
    w ∈ rowWords base cols first outs ↔
      ∃ k < outs.length, ∃ j < (outs.getD k ⟨[], none⟩).row.length,
        w = (base + (first + k) * cols + j, (outs.getD k ⟨[], none⟩).row.getD j 0) := by
  simp only [rowWords, List.mem_flatMap, List.mem_range, mem_wordsAt]

/-- A row's words lie in the row. -/
theorem rowWords_range {base cols first : Nat} {outs : List FrameOut} (h : ∀ o ∈ outs, o.row.length ≤ cols)
    {w : Nat × Word} (hw : w ∈ rowWords base cols first outs) :
    base + first * cols ≤ w.1 ∧ w.1 < base + (first + outs.length) * cols := by
  obtain ⟨k, hk, j, hj, rfl⟩ := mem_rowWords.1 hw
  have hl : (outs.getD k ⟨[], none⟩).row.length ≤ cols := by
    apply h
    rw [List.getD_eq_getElem _ _ hk]
    exact List.getElem_mem hk
  have h1 : (first + k) * cols = first * cols + k * cols := by ring
  have h2 : (first + outs.length) * cols = first * cols + outs.length * cols := by ring
  have h3 : (k + 1) * cols ≤ outs.length * cols := Nat.mul_le_mul_right _ hk
  have h4 : (k + 1) * cols = k * cols + cols := by ring
  dsimp only
  omega

/-- No word is written twice. -/
theorem rowWords_nodup {base cols first : Nat} {outs : List FrameOut} (h : ∀ o ∈ outs, o.row.length ≤ cols) :
    ((rowWords base cols first outs).map Prod.fst).Nodup := by
  rw [rowWords, List.map_flatMap]
  rw [List.nodup_flatMap]
  refine ⟨fun k _ => wordsAt_nodup _ _, ?_⟩
  apply List.Pairwise.imp_of_mem (R := fun a b => a < b) _ List.pairwise_lt_range
  intro a b _ hb hab
  have hla : (outs.getD a ⟨[], none⟩).row.length ≤ cols := by
    apply h
    rw [List.mem_range] at hb
    rw [List.getD_eq_getElem _ _ (by omega)]
    exact List.getElem_mem _
  intro x hx hy
  obtain ⟨w, hw, rfl⟩ := List.mem_map.1 hx
  obtain ⟨v, hv, e⟩ := List.mem_map.1 hy
  obtain ⟨i, hi, rfl⟩ := mem_wordsAt.1 hw
  obtain ⟨j, hj, rfl⟩ := mem_wordsAt.1 hv
  dsimp only at e
  have h3 : (a + 1) * cols ≤ b * cols := Nat.mul_le_mul_right _ hab
  have h4 : (a + 1) * cols = a * cols + cols := by ring
  have h1 : (first + a) * cols = first * cols + a * cols := by ring
  have h2 : (first + b) * cols = first * cols + b * cols := by ring
  omega

/-- What the rows' writes give each word, when every row has its full length. -/
theorem lookup_rowWords {base cols first : Nat} {outs : List FrameOut} (h : ∀ o ∈ outs, o.row.length = cols) (a : Nat) :
    (rowWords base cols first outs).lookup a =
      if base + first * cols ≤ a ∧ a < base + (first + outs.length) * cols then
        some ((outs.getD ((a - base) / cols - first) ⟨[], none⟩).row.getD ((a - base) % cols) 0)
      else none := by
  have hle : ∀ o ∈ outs, o.row.length ≤ cols := fun o ho => Nat.le_of_eq (h o ho)
  split
  · rename_i ha
    have hc : 0 < cols := by
      rcases Nat.eq_zero_or_pos cols with rfl | hc
      · rw [Nat.mul_zero, Nat.mul_zero] at ha; omega
      · exact hc
    have h1 : first ≤ (a - base) / cols := (Nat.le_div_iff_mul_le hc).2 (by omega)
    have h2 : (a - base) / cols < first + outs.length := (Nat.div_lt_iff_lt_mul hc).2 (by omega)
    have hk : (a - base) / cols - first < outs.length := by omega
    have hl : (outs.getD ((a - base) / cols - first) ⟨[], none⟩).row.length = cols := by
      apply h
      rw [List.getD_eq_getElem _ _ hk]
      exact List.getElem_mem _
    refine lookup_of_mem (rowWords_nodup hle) (mem_rowWords.2 ⟨_, hk, (a - base) % cols, ?_, ?_⟩)
    · rw [hl]
      exact Nat.mod_lt _ hc
    · have := Nat.div_add_mod' (a - base) cols
      rw [Nat.add_sub_cancel' h1, show base + (a - base) / cols * cols + (a - base) % cols = a by omega]
  · rename_i ha
    apply lookup_of_not_mem
    intro w hw e
    have := rowWords_range hle hw
    omega

/-- A word of a row, after the rows are written. -/
theorem rows_word (s : State) {base cols first : Nat} {outs : List FrameOut} (h : ∀ o ∈ outs, o.row.length ≤ cols) {k j : Nat}
    (hk : k < outs.length) (hj : j < (outs.getD k ⟨[], none⟩).row.length) :
    (s.apply { writes := rowWords base cols first outs }).mem.wordAt (base + (first + k) * cols + j) =
      s.settle (base + (first + k) * cols + j) ((outs.getD k ⟨[], none⟩).row.getD j 0) := by
  rw [State.apply_mem]
  apply wordAt_setWords_mem
  · rw [settled_fst]
    exact rowWords_nodup h
  · rw [List.mem_map]
    exact ⟨_, mem_rowWords.2 ⟨k, hk, j, hj, rfl⟩, rfl⟩

/-- A byte outside the rows of the range, after any of the rows' words are written. -/
theorem rows_other {m : Memory} {s : State} {base cols first : Nat} {outs : List FrameOut}
    (h : ∀ o ∈ outs, o.row.length ≤ cols) {ws : List (Nat × Word)} (hs : ∀ w ∈ ws, w ∈ rowWords base cols first outs) {b : Nat}
    (hb : b < 8 * (base + first * cols) ∨ 8 * (base + (first + outs.length) * cols) ≤ b) :
    (m.setWords (ws.map fun w => (w.1, s.settle w.1 w.2))).byteAt b = m.byteAt b := by
  apply byteAt_setWords_other
  intro w hw
  obtain ⟨x, hx, rfl⟩ := List.mem_map.1 hw
  have := rowWords_range h (hs x hx)
  dsimp only
  omega

/-! ## The end of phase 2 (R188) -/

/-- Every frame of the range got its row. -/
theorem phase2_done {base cols first : Nat} {outs : List FrameOut} (h : ∀ o ∈ outs, o.err = none) :
    phase2 base cols first outs = .done { writes := rowWords base cols first outs } := by
  have e : (outs.findIdx? fun o => o.err.isSome) = none := by
    rw [List.findIdx?_eq_none_iff]
    intro o ho
    rw [h o ho]
    rfl
  rw [phase2, e]

/-- Phase 2 completes, with every row there, or raises an error with the rows spoiled. -/
theorem phase2_cases (base cols first : Nat) (outs : List FrameOut) :
    ((∀ o ∈ outs, o.err = none) ∧ phase2 base cols first outs = .done { writes := rowWords base cols first outs }) ∨
      ∃ r, phase2 base cols first outs = .spoiled r (rowWords base cols first outs) := by
  cases e : outs.findIdx? fun o => o.err.isSome with
  | none =>
    rw [List.findIdx?_eq_none_iff] at e
    exact .inl ⟨fun o ho => Option.not_isSome_iff_eq_none.1 (by rw [e o ho]; decide), phase2_done fun o ho => Option.not_isSome_iff_eq_none.1 (by rw [e o ho]; decide)⟩
  | some k => exact .inr ⟨_, by rw [phase2, e]⟩

/-- A frame without an error has a row of finite values. -/
theorem ofCheck_none {x : Check (List Word)} (h : (FrameOut.ofCheck x).err = none) :
    ∃ v, x = .ok v ∧ (FrameOut.ofCheck x).row = v ∧ ∀ w ∈ v, isFinite w = true := by
  cases x with
  | error r => cases h
  | ok v =>
    refine ⟨v, rfl, rfl, ?_⟩
    cases hf : v.all isFinite with
    | true => exact List.all_eq_true.1 hf
    | false =>
      simp only [FrameOut.ofCheck, hf] at h
      cases h

theorem ofCheck_of_finite {v : List Word} (h : ∀ w ∈ v, isFinite w = true) : FrameOut.ofCheck (.ok v) = ⟨v, none⟩ := by
  rw [FrameOut.ofCheck, if_pos (List.all_eq_true.2 h)]

theorem row_ofCheck_length {x : Check (List Word)} {n : Nat} (h : ∀ v, x = .ok v → v.length = n) :
    (FrameOut.ofCheck x).row.length ≤ n := by
  cases x with
  | error r => exact Nat.zero_le _
  | ok v => exact Nat.le_of_eq (h v rfl)

/-- A frame engine whose frames all get their rows completes with them. -/
theorem completesWithRows_of {i : Instr} {s : State} {base : Word} {first count : Nat} {row : Nat → Check (List Word)}
    {v : Nat → Nat → Word}
    (h : planOf i s = phase2 base.toNat s.csr.outCols.toNat first ((frameRange first count).map fun f => .ofCheck (row f)))
    (hr : ∀ f, first ≤ f → f < first + count → ∃ r, row f = .ok r ∧ r.length = s.csr.outCols.toNat ∧
      ∀ k < s.csr.outCols.toNat, r.getD k f0p0 = v f k ∧ isFinite (v f k) = true) :
    CompletesWithRows i s base first count v := by
  have hout : ∀ f, first ≤ f → f < first + count → ∃ r, FrameOut.ofCheck (row f) = ⟨r, none⟩ ∧
      r.length = s.csr.outCols.toNat ∧ ∀ k < s.csr.outCols.toNat, r.getD k f0p0 = v f k := by
    intro f h1 h2
    obtain ⟨r, e, hl, hv⟩ := hr f h1 h2
    refine ⟨r, ?_, hl, fun k hk => (hv k hk).1⟩
    rw [e]
    apply ofCheck_of_finite
    intro w hw
    obtain ⟨k, hk, rfl⟩ := List.mem_iff_getElem.1 hw
    have := hv k (by omega)
    rw [List.getD_eq_getElem _ _ hk] at this
    rw [this.1]
    exact this.2
  have hlen : ((frameRange first count).map fun f => FrameOut.ofCheck (row f)).length = count := by
    rw [List.length_map, length_frameRange]
  have hrow : ∀ o ∈ (frameRange first count).map (fun f => FrameOut.ofCheck (row f)), o.row.length ≤ s.csr.outCols.toNat := by
    intro o ho
    obtain ⟨f, hf, rfl⟩ := List.mem_map.1 ho
    rw [mem_frameRange] at hf
    obtain ⟨r, e, hl, -⟩ := hout f hf.1 hf.2
    rw [e]
    exact Nat.le_of_eq hl
  rw [phase2_done (fun o ho => by
    obtain ⟨f, hf, rfl⟩ := List.mem_map.1 ho
    rw [mem_frameRange] at hf
    obtain ⟨r, e, -⟩ := hout f hf.1 hf.2
    rw [e])] at h
  refine ⟨(s.apply (.mk (rowWords base.toNat s.csr.outCols.toNat first
    ((frameRange first count).map fun f => FrameOut.ofCheck (row f))) none false)).complete, ?_, ?_, ?_, ?_, ?_, ?_⟩
  · rw [exec_eq, h, finish_done]
  · have e : (fun a => if base.toNat + first * s.csr.outCols.toNat ≤ a ∧ a < base.toNat + (first + count) * s.csr.outCols.toNat then
          some (v ((a - base.toNat) / s.csr.outCols.toNat) ((a - base.toNat) % s.csr.outCols.toNat)) else none) =
        fun a => (rowWords base.toNat s.csr.outCols.toNat first
          ((frameRange first count).map fun f => FrameOut.ofCheck (row f))).lookup a := by
      funext a
      rw [lookup_rowWords fun o ho => ?_, hlen]
      · split
        · rename_i ha
          have hc : 0 < s.csr.outCols.toNat := by
            rcases Nat.eq_zero_or_pos s.csr.outCols.toNat with e | hc
            · rw [e, Nat.mul_zero, Nat.mul_zero] at ha; omega
            · exact hc
          have h1 : first ≤ (a - base.toNat) / s.csr.outCols.toNat := (Nat.le_div_iff_mul_le hc).2 (by omega)
          have h2 : (a - base.toNat) / s.csr.outCols.toNat < first + count := (Nat.div_lt_iff_lt_mul hc).2 (by omega)
          obtain ⟨r, e, hl, hv⟩ := hout _ h1 h2
          have hm := Nat.mod_lt (a - base.toNat) hc
          rw [getD_map _ _ _ 0 _ (by rw [length_frameRange]; omega), getD_frameRange (by omega), Nat.add_sub_cancel' h1, e,
            ← hv _ hm, getD_default (by omega) f0p0 0]
        · rfl
      · obtain ⟨f, hf, rfl⟩ := List.mem_map.1 ho
        rw [mem_frameRange] at hf
        obtain ⟨r, e, hl, -⟩ := hout f hf.1 hf.2
        rw [e]
        exact hl
    dsimp only
    rw [e]
    exact completed_of_apply s _
  · rw [State.complete_csr, State.apply_csr]
    rfl
  · rw [State.complete_mark, State.apply_mark]
    exact Bool.or_false _
  · intro f k h1 h2 hk
    obtain ⟨r, e, hl, hv⟩ := hout f h1 h2
    have hg : ((frameRange first count).map fun f => FrameOut.ofCheck (row f)).getD (f - first) ⟨[], none⟩ = ⟨r, none⟩ := by
      rw [getD_map _ _ _ 0 _ (by rw [length_frameRange]; omega), getD_frameRange (by omega), show first + (f - first) = f by omega, e]
    have := rows_word s (base := base.toNat) (first := first) hrow (k := f - first) (j := k) (by rw [hlen]; omega) (by rw [hg]; dsimp only; omega)
    rw [hg, show first + (f - first) = f by omega] at this
    rw [State.complete_mem, this, getD_default (by dsimp only; omega) 0 f0p0, hv k hk]
  · intro b hb
    rw [State.complete_mem, State.apply_mem]
    exact rows_other hrow (fun w hw => hw) (by rw [hlen]; exact hb)

/-- After a frame engine that completed, with no host write meanwhile, the rows of the range hold what was computed. -/
theorem frame_rows {i : Instr} {s t : State} {one : Check Unit} {base : Nat} {first count : Half} {row : Nat → Check (List Word)}
    (hp : planOf i s = phases one (phase2 base s.csr.outCols.toNat first.toNat ((frameRange first.toNat count.toNat).map fun i => .ofCheck (row i))))
    (hl : one = .ok () → ∀ f v, row f = .ok v → v.length = s.csr.outCols.toNat)
    (he : exec i s = .next t) (hh : t.engine ≠ .halt) (hr : s.cmd.races = []) :
    ∀ f k, first.toNat ≤ f → f < first.toNat + count.toNat → k < s.csr.outCols.toNat →
      ∃ v, row f = .ok v ∧ t.mem.wordAt (base + f * s.csr.outCols.toNat + k) = v.getD k 0 := by
  rw [exec_eq, hp] at he
  have ht := (Host.Outcome.next.inj he).symm
  rcases phases_cases one (phase2 base s.csr.outCols.toNat first.toNat ((frameRange first.toNat count.toNat).map fun i => .ofCheck (row i))) with ⟨h1, h2⟩ | ⟨r, h1, h2⟩
  · intro f k hf hf' hk
    rw [h2] at ht
    have hrow : ∀ o ∈ (frameRange first.toNat count.toNat).map (fun f => FrameOut.ofCheck (row f)), o.row.length ≤ s.csr.outCols.toNat := by
      intro o ho
      obtain ⟨f, hf, rfl⟩ := List.mem_map.1 ho
      exact row_ofCheck_length fun v hv => (hl h1 f v hv)
    have hlen : ((frameRange first.toNat count.toNat).map fun f => FrameOut.ofCheck (row f)).length = count.toNat := by
      rw [List.length_map, length_frameRange]
    rcases phase2_cases base s.csr.outCols.toNat first.toNat ((frameRange first.toNat count.toNat).map fun i => .ofCheck (row i)) with ⟨hn, e⟩ | ⟨r, e⟩
    · rw [e, finish_done] at ht
      subst ht
      obtain ⟨v, e1, e2, e3⟩ := ofCheck_none (hn _ (List.mem_map.2 ⟨f, mem_frameRange.2 ⟨hf, hf'⟩, rfl⟩))
      have l1 := hl h1 f v e1
      have hg : ((frameRange first.toNat count.toNat).map fun f => FrameOut.ofCheck (row f)).getD (f - first.toNat) ⟨[], none⟩ = FrameOut.ofCheck (row f) := by
        rw [getD_map _ _ _ 0 _ (by rw [length_frameRange]; omega), getD_frameRange (by omega), show first.toNat + (f - first.toNat) = f by omega]
      have := rows_word s (base := base) (first := first.toNat) hrow (k := f - first.toNat) (j := k) (by rw [hlen]; omega) (by rw [hg, e2]; omega)
      rw [hg, e2, show first.toNat + (f - first.toNat) = f by omega, settle_of_no_races hr] at this
      exact ⟨v, e1, by rw [State.complete_mem, this]⟩
    · rw [e, finish_spoiled] at ht
      subst ht
      exact absurd rfl hh
  · rw [h2, finish_failed] at ht
    subst ht
    exact absurd rfl hh

end Sys2Proof.Machine
end

