-- ==== Sys2Proof/Laws/Rows.lean ====
section
/-! SUPPORT. What the rows of ENVRUN and APRUN come to: the bodies of a frame by the loops of the rules. -/

namespace Sys2Proof.Machine

/-! ## F0 values -/

theorem flt_trans {x y z : Word} (h : flt x y = true) (h' : flt y z = true) : flt x z = true := by
  simp only [flt, Bool.and_eq_true, Bool.not_eq_true', decide_eq_true_eq] at h h' ⊢
  exact ⟨⟨h.1.1, h'.1.2⟩, by omega⟩

/-- An effective F0 is above 0 when F0_FLOOR and DEFAULT_F0 are (R180). -/
theorem effF0_pos {c : Csr} (h1 : flt f0p0 c.f0Floor = true) (h2 : flt f0p0 c.defaultF0 = true) (x : Word) :
    flt f0p0 (effF0 c x) = true := by
  unfold effF0
  cases h : flt c.f0Floor x with
  | true => exact flt_trans h1 h
  | false => exact h2

/-! ## ENVRUN (R187) -/

/-- The row of a frame whose segment, correction and smoothing meet no error is the loop of R187. -/
theorem envRow_ok {s : State} {i : Nat} (hl : s.csr.log2nEnv.toNat ≤ 24) (hs : fNeg (frameF0 s i) = false)
    (hr : fNeg s.csr.envLsmRatio = false)
    (hseg : SegmentOk s.csr.fsF s.csr.log2nEnv.toNat (s.sample (tagWave 0 i)) (frameCentre s.csr i) (frameF0 s i) envRatio)
    (hdc : DcFits s.csr.fsF s.csr.log2nEnv.toNat (frameF0 s i))
    (hsm : SmoothFits s.csr.fsF s.csr.log2nEnv.toNat (fmul s.csr.envLsmRatio (frameF0 s i))) :
    ∃ v, s.envRow i = .ok v ∧ v.length = 2 ^ s.csr.log2nEnv.toNat / 2 + 1 ∧
      ∀ k ≤ 2 ^ s.csr.log2nEnv.toNat / 2, v.getD k f0p0 = loopEnvRow s i k := by
  obtain ⟨seg, e1, n1, v1⟩ := segment_ok (m := s.cfg.fpMode) (win := .hann) (nrm := true) (dcr := true) hseg
  obtain ⟨p1, e2, n2, v2⟩ := dcCorr_ok (n := s.csr.fs.toNat)
    (p := powerSpectrum (fftReal s.cfg.log2nMax s.csr.log2nEnv.toNat seg))
    (p' := fun k => powerOf (loopForward s.cfg.log2nMax s.csr.log2nEnv.toNat
      (loopSegment s.cfg.fpMode .hann true true s.csr.fsF envRatio (frameF0 s i) (frameCentre s.csr i) (s.sample (tagWave 0 i))) k))
    hl hs (by rw [length_powerSpectrum, length_fftReal])
    (fun k hk => by
      rw [getD_powerSpectrum (by rw [length_fftReal]; exact Nat.lt_succ_of_le hk), getD_fftReal n1 v1 hk]) hdc
  obtain ⟨p2, e3, n3, v3⟩ := smooth_ok (n := s.csr.fs.toNat) (p := p1) hl (fmul_sign hr hs) v2 hsm
  refine ⟨_, ?_, length_lift, fun k hk => getD_lift n3 v3 hk⟩
  have e1' : segment s.cfg.fpMode s.csr.fsF (s.sizeExp .env) (s.sample (tagWave 0 i)) (frameCentre s.csr i)
      (effF0 s.csr (s.f0Word (tagF0 i) i)) envRatio .hann true true = .ok seg := e1
  have e2' : dcCorr s.csr.fsF (s.sizeExp .env) (powerSpectrum (fftReal s.cfg.log2nMax (s.sizeExp .env) seg))
      (effF0 s.csr (s.f0Word (tagF0 i) i)) = .ok p1 := e2
  have e3' : smooth s.csr.fsF (s.sizeExp .env) p1 (fmul s.csr.envLsmRatio (effF0 s.csr (s.f0Word (tagF0 i) i))) = .ok p2 := e3
  simp only [State.envRow, e1', e2', e3', ok_bind]
  rfl

/-- A row that ENVRUN computes has the length of the spectrum. -/
theorem length_envRow {s : State} {i : Nat} {v : List Word} (h : s.envRow i = .ok v) :
    v.length = 2 ^ s.csr.log2nEnv.toNat / 2 + 1 := by
  unfold State.envRow at h
  obtain ⟨_, -, h⟩ := bind_eq_ok.1 h
  obtain ⟨_, -, h⟩ := bind_eq_ok.1 h
  obtain ⟨_, -, h⟩ := bind_eq_ok.1 h
  cases h
  exact length_lift

/-! ## APRUN (R227) -/

/-- The band values of one window ratio are the loop of R227. -/
theorem apBands_ok {s : State} {i seg : Nat} {r : Word} (hl : s.csr.log2nAp.toNat ≤ 24) (hs : fNeg (frameF0 s i) = false)
    (hb : bandsLegal s.csr.fsF s.csr.log2nAp.toNat = true) (h : ApBandOk s i seg r)
    (hd : DcFits s.csr.fsF s.csr.log2nAp.toNat (frameF0 s i)) (h1 : SmoothFits s.csr.fsF s.csr.log2nAp.toNat (frameF0 s i))
    (h2 : SmoothFits s.csr.fsF s.csr.log2nAp.toNat (fdiv (frameF0 s i) f2)) :
    ∃ v, s.apBands i seg (frameCentre s.csr i) (frameF0 s i) r = .ok v ∧ v.length = bandCount s.csr.fsF ∧
      ∀ j < bandCount s.csr.fsF, v.getD j f0p0 = loopApBand s i seg r j := by
  obtain ⟨s1, a1, n1, v1⟩ := segment_ok (m := s.cfg.fpMode) (win := .blackman) (nrm := false) (dcr := true) h.before
  obtain ⟨s2, a2, n2, v2⟩ := segment_ok (m := s.cfg.fpMode) (win := .blackman) (nrm := false) (dcr := true) h.after
  obtain ⟨sh, a3, n3, v3⟩ := segment_ok (m := s.cfg.fpMode) (win := .hann) (nrm := false) (dcr := true) h.centred
  have w1 : ∀ k < 2 ^ s.csr.log2nAp.toNat, s1.getD k f0p0 =
    loopApSegment s i seg (fsub (frameCentre s.csr i) (quarterPeriod s i)) r .blackman k := v1
  have w2 : ∀ k < 2 ^ s.csr.log2nAp.toNat, s2.getD k f0p0 =
    loopApSegment s i (seg + 1) (fadd (frameCentre s.csr i) (quarterPeriod s i)) r .blackman k := v2
  have w3 : ∀ k < 2 ^ s.csr.log2nAp.toNat, sh.getD k f0p0 = loopApSegment s i (seg + 2) (frameCentre s.csr i) r .hann k := v3
  obtain ⟨sc, a4, n4, v4⟩ := dcCorr_ok (n := s.csr.fs.toNat)
    (p := List.zipWith fadd (centroid s.cfg.log2nMax s.csr.log2nAp.toNat s.csr.safeMin s1)
      (centroid s.cfg.log2nMax s.csr.log2nAp.toNat s.csr.safeMin s2))
    (p' := fun k => fadd
      (loopCentroid s.cfg.log2nMax s.csr.log2nAp.toNat s.csr.safeMin
        (loopApSegment s i seg (fsub (frameCentre s.csr i) (quarterPeriod s i)) r .blackman) k)
      (loopCentroid s.cfg.log2nMax s.csr.log2nAp.toNat s.csr.safeMin
        (loopApSegment s i (seg + 1) (fadd (frameCentre s.csr i) (quarterPeriod s i)) r .blackman) k))
    hl hs (by rw [List.length_zipWith, length_centroid, length_centroid, Nat.min_self])
    (fun k hk => by
      rw [getD_zipWith _ _ _ _ f0p0 f0p0 _ (by rw [length_centroid]; exact Nat.lt_succ_of_le hk)
        (by rw [length_centroid]; exact Nat.lt_succ_of_le hk), getD_centroid n1 w1 hk, getD_centroid n2 w2 hk]) hd
  obtain ⟨q1, a5, n5, v5⟩ := dcCorr_ok (n := s.csr.fs.toNat)
    (p := powerSpectrum (fftReal s.cfg.log2nMax s.csr.log2nAp.toNat sh))
    (p' := fun k => powerOf (loopForward s.cfg.log2nMax s.csr.log2nAp.toNat
      (loopApSegment s i (seg + 2) (frameCentre s.csr i) r .hann) k))
    hl hs (by rw [length_powerSpectrum, length_fftReal])
    (fun k hk => by
      rw [getD_powerSpectrum (by rw [length_fftReal]; exact Nat.lt_succ_of_le hk), getD_fftReal n3 w3 hk]) hd
  obtain ⟨sp, a6, n6, v6⟩ := smooth_ok (n := s.csr.fs.toNat) (p := q1) hl hs v5 h1
  obtain ⟨g, a7, n7, v7⟩ := groupDelay_ok (n := s.csr.fs.toNat) (safeMin := s.csr.safeMin) hl hs n4 n6 v4 v6 h1 h2
  obtain ⟨v, a8, n8, v8⟩ := bandAperiodicity_ok (p := s.cfg) (safeMin := s.csr.safeMin) (f0 := frameF0 s i) n7 v7 hb
  refine ⟨v, ?_, n8, v8⟩
  have b1 : s.apSegment i seg (fsub (frameCentre s.csr i) (fdiv (fmul apShift s.csr.fsF) (frameF0 s i))) (frameF0 s i) r
    .blackman = .ok s1 := a1
  have b2 : s.apSegment i (seg + 1) (fadd (frameCentre s.csr i) (fdiv (fmul apShift s.csr.fsF) (frameF0 s i))) (frameF0 s i) r
    .blackman = .ok s2 := a2
  have b3 : s.apSegment i (seg + 2) (frameCentre s.csr i) (frameF0 s i) r .hann = .ok sh := a3
  have b4 : dcCorr s.csr.fsF (s.sizeExp .ap) (List.zipWith fadd (centroid s.cfg.log2nMax (s.sizeExp .ap) s.csr.safeMin s1)
    (centroid s.cfg.log2nMax (s.sizeExp .ap) s.csr.safeMin s2)) (frameF0 s i) = .ok sc := a4
  have b5 : dcCorr s.csr.fsF (s.sizeExp .ap) (powerSpectrum (fftReal s.cfg.log2nMax (s.sizeExp .ap) sh)) (frameF0 s i) =
    .ok q1 := a5
  have b6 : smooth s.csr.fsF (s.sizeExp .ap) q1 (frameF0 s i) = .ok sp := a6
  have b7 : groupDelay s.csr.fsF (s.sizeExp .ap) s.csr.safeMin sc sp (frameF0 s i) = .ok g := a7
  have b8 : bandAperiodicity s.cfg s.csr.fsF (s.sizeExp .ap) s.csr.safeMin g (frameF0 s i) = .ok v := a8
  unfold State.apBands
  dsimp only
  rw [b1, ok_bind, b2, ok_bind, b4, ok_bind, b3, ok_bind, b5, ok_bind, b6, ok_bind, b7, ok_bind, b8]

/-- The selection of R227 by index. -/
theorem getD_selectBands {nb : Nat} {short mid long : List Word} {j : Nat} (h : j < nb) :
    (selectBands nb short mid long).getD j f0p0 =
      if flt (bandFreq j) apSelLo then long.getD j f0p0
      else if flt (bandFreq j) apSelHi then mid.getD j f0p0 else short.getD j f0p0 := getD_map_range _ _ _ _ h

theorem length_selectBands (nb : Nat) (short mid long : List Word) : (selectBands nb short mid long).length = nb := by
  rw [selectBands, List.length_map, List.length_range]

/-- The gate of a frame is the value of R212 on its segment (R227). -/
theorem loopGate_eq {s : State} {i : Nat}
    (h : SegmentOk s.csr.fsF s.csr.log2nAp.toNat (s.sample (tagWave 0 i)) (frameCentre s.csr i) (frameF0 s i) apVuvRatio) :
    ∃ s0, s.apSegment i 0 (frameCentre s.csr i) (frameF0 s i) apVuvRatio .blackman = .ok s0 ∧
      vuvIndicator s.csr.fsF (s.sizeExp .ap) s.csr.safeMin (powerSpectrum (fftReal s.cfg.log2nMax (s.sizeExp .ap) s0)) =
        loopGate s i := by
  obtain ⟨s0, a0, n0, v0⟩ := segment_ok (m := s.cfg.fpMode) (win := .blackman) (nrm := false) (dcr := true) h
  have w0 : ∀ k < 2 ^ s.csr.log2nAp.toNat, s0.getD k f0p0 =
    loopApSegment s i 0 (frameCentre s.csr i) apVuvRatio .blackman k := v0
  refine ⟨s0, a0, ?_⟩
  exact
    vuv_eq (fs := s.csr.fsF) (l := s.csr.log2nAp.toNat) (safeMin := s.csr.safeMin)
      (p := powerSpectrum (fftReal s.cfg.log2nMax s.csr.log2nAp.toNat s0))
      (p' := fun k => powerOf (loopForward s.cfg.log2nMax s.csr.log2nAp.toNat
        (loopApSegment s i 0 (frameCentre s.csr i) apVuvRatio .blackman) k))
      (by rw [length_powerSpectrum, length_fftReal])
      (fun k hk => by
        rw [getD_powerSpectrum (by rw [length_fftReal]; exact Nat.lt_succ_of_le hk), getD_fftReal n0 w0 hk])

/-- The row of a frame whose segments and smoothings meet no error is the loop of R227. -/
theorem apRow_ok {s : State} {i : Nat} (hl : s.csr.log2nAp.toNat ≤ 24) (hs : fNeg (frameF0 s i) = false)
    (hb : bandsLegal s.csr.fsF s.csr.log2nAp.toNat = true)
    (hgate : SegmentOk s.csr.fsF s.csr.log2nAp.toNat (s.sample (tagWave 0 i)) (frameCentre s.csr i) (frameF0 s i) apVuvRatio)
    (hv : flt s.csr.apThreshold (loopGate s i) = true →
      ApBandOk s i 1 apGdRatioS ∧ ApBandOk s i 4 apGdRatioM ∧ ApBandOk s i 7 apGdRatioL ∧
      DcFits s.csr.fsF s.csr.log2nAp.toNat (frameF0 s i) ∧ SmoothFits s.csr.fsF s.csr.log2nAp.toNat (frameF0 s i) ∧
      SmoothFits s.csr.fsF s.csr.log2nAp.toNat (fdiv (frameF0 s i) f2)) :
    ∃ v, s.apRow i = .ok v ∧ v.length = 2 ^ s.csr.log2nEnv.toNat / 2 + 1 ∧
      ∀ k ≤ 2 ^ s.csr.log2nEnv.toNat / 2, v.getD k f0p0 = loopApRow s i k := by
  obtain ⟨s0, b0, hg⟩ := loopGate_eq hgate
  have hf0 : effF0 s.csr (s.f0Word (tagF0 i) i) = frameF0 s i := rfl
  cases ht : flt s.csr.apThreshold (loopGate s i) with
  | false =>
    refine ⟨List.replicate (sizeB (s.sizeExp .env)) (unvoicedValue s.csr), ?_, List.length_replicate, fun k hk => ?_⟩
    · simp only [State.apRow, hf0, b0, ok_bind, hg, ht]
      rfl
    · have hk' : k < sizeB (s.sizeExp .env) := Nat.lt_succ_of_le hk
      rw [loopApRow, ht, if_neg Bool.false_ne_true, List.getD_eq_getElem?_getD, List.getElem?_replicate_of_lt hk']
      rfl
  | true =>
    obtain ⟨h1, h2, h3, hd, hw1, hw2⟩ := hv ht
    obtain ⟨w1, c1, m1, u1⟩ := apBands_ok hl hs hb h1 hd hw1 hw2
    obtain ⟨w2, c2, m2, u2⟩ := apBands_ok hl hs hb h2 hd hw1 hw2
    obtain ⟨w3, c3, m3, u3⟩ := apBands_ok hl hs hb h3 hd hw1 hw2
    refine ⟨apInterp s.cfg.fpMode s.csr (s.sizeExp .env) (selectBands (bandCount s.csr.fsF) w1 w2 w3), ?_,
      length_apInterp _ _ _ _, fun k hk => ?_⟩
    · simp only [State.apRow, hf0, b0, ok_bind, hg, ht, if_true, c1, c2, c3]
      rfl
    · rw [loopApRow, ht, if_pos rfl]
      refine getD_apInterp (length_selectBands _ _ _ _) (fun j hj => ?_) hk
      rw [getD_selectBands hj, u1 j hj, u2 j hj, u3 j hj]
      rfl

/-- A row that APRUN computes has the length of the spectrum. -/
theorem length_apRow {s : State} {i : Nat} {v : List Word} (h : s.apRow i = .ok v) :
    v.length = 2 ^ s.csr.log2nEnv.toNat / 2 + 1 := by
  unfold State.apRow at h
  obtain ⟨s0, -, h⟩ := bind_eq_ok.1 h
  split at h
  · obtain ⟨_, -, h⟩ := bind_eq_ok.1 h
    obtain ⟨_, -, h⟩ := bind_eq_ok.1 h
    obtain ⟨_, -, h⟩ := bind_eq_ok.1 h
    cases h
    exact length_apInterp _ _ _ _
  · cases h
    exact List.length_replicate

end Sys2Proof.Machine
end

