-- ==== Sys2Proof/Laws/Phase1.lean ====
section
/-! SUPPORT. Phase 1 of ENVRUN and APRUN: the checks as the rows of their tables, and when all of them pass. -/

namespace Sys2Proof.Machine

/-- The checks of a table, in its order: the first row that fails is the error. -/
def checkRows (c : ErrCode) (rows : List (Bool × Nat)) : Check Unit :=
  match rows.find? fun row => !row.1 with
  | none => .ok ()
  | some row => .error ⟨c, BitVec.ofNat 64 row.2⟩

theorem checkRows_nil (c : ErrCode) : checkRows c [] = .ok () := rfl

theorem checkRows_cons (c : ErrCode) (b : Bool) (n : Nat) (rows : List (Bool × Nat)) :
    checkRows c ((b, n) :: rows) = require b c n >>= fun _ => checkRows c rows := by
  cases b <;> rfl

theorem checkRows_last (c : ErrCode) (b : Bool) (n : Nat) : checkRows c [(b, n)] = require b c n := by
  cases b <;> rfl

theorem checkRows_ok {c : ErrCode} {rows : List (Bool × Nat)} : checkRows c rows = .ok () ↔ ∀ row ∈ rows, row.1 = true := by
  unfold checkRows
  cases h : rows.find? fun row => !row.1 with
  | none =>
    refine ⟨fun _ row hr => ?_, fun _ => rfl⟩
    have := List.find?_eq_none.1 h row hr
    simpa using this
  | some row =>
    have h1 := List.find?_some h
    have h2 := List.mem_of_find?_eq_some h
    constructor
    · intro hc
      cases hc
    · intro hc
      rw [hc row h2] at h1
      cases h1

theorem checkRows_error {c : ErrCode} {rows : List (Bool × Nat)} {n : Nat}
    (h : rows.find? (fun row => !row.1) = some (false, n)) : checkRows c rows = .error ⟨c, BitVec.ofNat 64 n⟩ := by
  rw [checkRows, h]

/-! ## Register checks of the primitive commands, as rows (R282) -/

theorem needFs_row (s : State) : s.needFs = require (fsRow s).1 .config (fsRow s).2 := by
  unfold fsRow
  rw [Bool.decide_and]
  rfl

theorem needSize_row (s : State) (sz : SizeSel) : s.needSize sz = require (sizeRow s sz).1 .config (sizeRow s sz).2 := by
  cases sz <;>
    · unfold sizeRow
      rw [Bool.decide_and, Bool.decide_and]
      rfl

theorem needSafeMin_row (s : State) : s.needSafeMin = require (safeMinRow s).1 .config (safeMinRow s).2 := rfl
theorem needEnvEps_row (s : State) : s.needEnvEps = require (envEpsRow s).1 .config (envEpsRow s).2 := rfl
theorem needApFloor_row (s : State) : s.needApFloor = require (apFloorRow s).1 .config (apFloorRow s).2 := rfl
theorem needApDcDb_row (s : State) : s.needApDcDb = require (apDcDbRow s).1 .config (apDcDbRow s).2 := rfl

/-- The configuration checks of ENVRUN are the rows of its table (R282). -/
theorem needEnvConfig_eq (s : State) : s.needEnvConfig = checkRows .config (envConfigRows s) := by
  unfold envConfigRows
  rw [checkRows_cons, checkRows_cons, checkRows_cons, checkRows_cons, checkRows_cons, checkRows_cons, checkRows_cons,
    checkRows_cons, checkRows_cons, checkRows_last, Bool.decide_and, Bool.decide_and]
  rfl

/-- The configuration checks of APRUN are the rows of its table (R282). -/
theorem needApConfig_eq (s : State) : s.needApConfig = checkRows .config (apConfigRows s) := by
  unfold apConfigRows
  rw [checkRows_cons, checkRows_cons, checkRows_cons, checkRows_cons, checkRows_cons, checkRows_cons, checkRows_cons,
    checkRows_cons, checkRows_cons, checkRows_cons, checkRows_cons, checkRows_cons, checkRows_last, Bool.decide_and,
    Bool.decide_and, Bool.decide_and, bandsLegal_spec]
  rfl

/-- The address checks of a frame engine are the rows of R284. -/
theorem needArrays_eq (s : State) (base : Word) : s.needArrays base = checkRows .addr
    [(decide (s.csr.xBase.toNat + s.csr.xLen.toNat ≤ s.cfg.dmemWords), 3),
      (decide (s.csr.f0Base.toNat + s.csr.f0Len.toNat ≤ s.cfg.dmemWords), 4),
      (decide (base.toNat + s.csr.outRows.toNat * s.csr.outCols.toNat ≤ s.cfg.dmemWords), 5),
      (!Spec.overlap base.toNat (s.csr.outRows.toNat * s.csr.outCols.toNat) s.csr.xBase.toNat s.csr.xLen.toNat, 6),
      (!Spec.overlap base.toNat (s.csr.outRows.toNat * s.csr.outCols.toNat) s.csr.f0Base.toNat s.csr.f0Len.toNat, 7)] := by
  rw [overlap_spec, checkRows_cons, checkRows_cons, checkRows_cons, checkRows_cons, checkRows_last]
  rfl

/-- The shape checks pass exactly on the shape of R283. -/
theorem needShape_ok {s : State} :
    s.needShape = .ok () ↔ s.csr.outRows = s.csr.f0Len ∧ s.csr.outCols.toNat = 2 ^ s.csr.log2nEnv.toNat / 2 + 1 := by
  unfold State.needShape
  constructor
  · intro h
    obtain ⟨_, h1, h2⟩ := bind_eq_ok.1 h
    exact ⟨eq_of_beq (require_eq_ok.1 h1), eq_of_beq (require_eq_ok.1 h2)⟩
  · intro ⟨h1, h2⟩
    rw [require_bind_of (beq_iff_eq.2 h1)]
    exact require_eq_ok.2 (beq_iff_eq.2 h2)

/-- The frame checks pass exactly when the range and every F0 value of it do. -/
theorem needFrames_ok {s : State} {first count : Nat} {f0Ok : Word → Bool} :
    s.needFrames first count f0Ok = .ok () ↔
      first + count ≤ s.csr.f0Len.toNat ∧
      (∀ i, first ≤ i → i < first + count → isFinite (s.f0Word tagF0Finite i) = true) ∧
      ∀ i, first ≤ i → i < first + count → f0Ok (effF0 s.csr (s.f0Word tagF0Limit i)) = true := by
  unfold State.needFrames
  constructor
  · intro h
    obtain ⟨_, h1, h⟩ := bind_eq_ok.1 h
    obtain ⟨_, h2, h3⟩ := bind_eq_ok.1 h
    exact ⟨of_decide_eq_true (require_eq_ok.1 h1), fun i a b => of_allFrames_ok h2 i (mem_frameRange.2 ⟨a, b⟩),
      fun i a b => of_allFrames_ok h3 i (mem_frameRange.2 ⟨a, b⟩)⟩
  · intro ⟨h1, h2, h3⟩
    rw [require_bind_of (decide_eq_true h1), allFrames_ok (fun i hi => h2 i (mem_frameRange.1 hi).1 (mem_frameRange.1 hi).2),
      ok_bind]
    exact allFrames_ok fun i hi => h3 i (mem_frameRange.1 hi).1 (mem_frameRange.1 hi).2

/-- The address checks pass exactly when the regions are valid and apart (R284). -/
theorem needArrays_ok {s : State} {base : Word} : s.needArrays base = .ok () ↔
    s.csr.xBase.toNat + s.csr.xLen.toNat ≤ s.cfg.dmemWords ∧ s.csr.f0Base.toNat + s.csr.f0Len.toNat ≤ s.cfg.dmemWords ∧
    base.toNat + s.csr.outRows.toNat * s.csr.outCols.toNat ≤ s.cfg.dmemWords ∧
    Spec.overlap base.toNat (s.csr.outRows.toNat * s.csr.outCols.toNat) s.csr.xBase.toNat s.csr.xLen.toNat = false ∧
    Spec.overlap base.toNat (s.csr.outRows.toNat * s.csr.outCols.toNat) s.csr.f0Base.toNat s.csr.f0Len.toNat = false := by
  rw [needArrays_eq, checkRows_ok]
  simp only [List.forall_mem_cons, List.not_mem_nil, false_imp_iff, implies_true, decide_eq_true_eq,
    Bool.not_eq_true', and_true]

/-- Phase 1 of ENVRUN passes exactly in the states of `EnvReady` (R186). -/
theorem envPhase1_ok {s : State} {first count : Nat} : s.envPhase1 first count = .ok () ↔ EnvReady s first count := by
  have hf0 : ∀ f0, envF0Ok s.csr f0 = true ↔
      flt (binsOf s.csr.fsF s.csr.log2nEnv.toNat f0) (fofNat (2 ^ s.csr.log2nEnv.toNat / 2 - 1)) = true ∧
      flt (binsOf s.csr.fsF s.csr.log2nEnv.toNat (fmul s.csr.envLsmRatio f0)) (fofNat (2 ^ s.csr.log2nEnv.toNat / 2)) = true :=
    fun f0 => Bool.and_eq_true_iff
  unfold State.envPhase1
  constructor
  · intro h
    obtain ⟨_, h1, h⟩ := bind_eq_ok.1 h
    obtain ⟨_, h2, h⟩ := bind_eq_ok.1 h
    obtain ⟨_, h3, h4⟩ := bind_eq_ok.1 h
    rw [needEnvConfig_eq] at h1
    obtain ⟨a1, a2⟩ := needShape_ok.1 h2
    obtain ⟨b1, b2, b3, b4, b5⟩ := needArrays_ok.1 h3
    obtain ⟨c1, c2, c3⟩ := needFrames_ok.1 h4
    exact ⟨checkRows_ok.1 h1, ⟨a1, a2, b1, b2, b3, b4, b5, c1, c2⟩, fun i x y => (hf0 _).1 (c3 i x y)⟩
  · intro ⟨h1, ⟨a1, a2, b1, b2, b3, b4, b5, c1, c2⟩, c3⟩
    rw [needEnvConfig_eq, checkRows_ok.2 h1, ok_bind, needShape_ok.2 ⟨a1, a2⟩, ok_bind,
      needArrays_ok.2 ⟨b1, b2, b3, b4, b5⟩, ok_bind]
    exact needFrames_ok.2 ⟨c1, c2, fun i x y => (hf0 _).2 (c3 i x y)⟩

/-- Phase 1 of APRUN passes exactly in the states of `ApReady` (R226). -/
theorem apPhase1_ok {s : State} {first count : Nat} : s.apPhase1 first count = .ok () ↔ ApReady s first count := by
  unfold State.apPhase1
  constructor
  · intro h
    obtain ⟨_, h1, h⟩ := bind_eq_ok.1 h
    obtain ⟨_, h2, h⟩ := bind_eq_ok.1 h
    obtain ⟨_, h3, h4⟩ := bind_eq_ok.1 h
    rw [needApConfig_eq] at h1
    obtain ⟨a1, a2⟩ := needShape_ok.1 h2
    obtain ⟨b1, b2, b3, b4, b5⟩ := needArrays_ok.1 h3
    obtain ⟨c1, c2, c3⟩ := needFrames_ok.1 h4
    exact ⟨checkRows_ok.1 h1, ⟨a1, a2, b1, b2, b3, b4, b5, c1, c2⟩, c3⟩
  · intro ⟨h1, ⟨a1, a2, b1, b2, b3, b4, b5, c1, c2⟩, c3⟩
    rw [needApConfig_eq, checkRows_ok.2 h1, ok_bind, needShape_ok.2 ⟨a1, a2⟩, ok_bind,
      needArrays_ok.2 ⟨b1, b2, b3, b4, b5⟩, ok_bind]
    exact needFrames_ok.2 ⟨c1, c2, c3⟩

end Sys2Proof.Machine
end

