-- ==== Sys2Proof/Laws/Bounds.lean ====
section
/-! SUPPORT. Where commands write: every word of a command's effect lies in DMEM (R87, R118, R284). -/

namespace Sys2Proof.Machine

theorem region_of_ok {s : State} {info a n : Nat} (h : s.needRegion info a n = .ok ()) : a + n ≤ s.cfg.dmemWords :=
  of_decide_eq_true (require_eq_ok.1 h)

theorem size_of_ok {s : State} {sz : SizeSel} (h : s.needSize sz = .ok ()) : SizeOk s sz := by
  have h := require_eq_ok.1 h
  unfold State.expLegal at h
  rw [Bool.and_eq_true] at h
  exact ⟨of_decide_eq_true h.1, of_decide_eq_true h.2⟩

/-- A buffer's words lie in its region. -/
theorem buffer_lt {d a n : Nat} {vs : List Word} (h : a + n ≤ d) (hl : vs.length ≤ n) :
    ∀ w ∈ (Effect.buffer a vs).writes, w.1 < d := by
  intro w hw
  obtain ⟨k, hk, rfl⟩ := mem_wordsAt.1 hw
  dsimp only
  omega

theorem ofCheck_words_lt {d : Nat} {x : Check Effect} (h : ∀ e, x = .ok e → ∀ w ∈ e.writes, w.1 < d) :
    ∀ w ∈ (Verdict.ofCheck x).words, w.1 < d := by
  cases x with
  | ok e => exact h e rfl
  | error r =>
    intro w hw
    cases hw

/-- The rows of a frame engine lie in its output matrix. -/
theorem frames_words_lt {d base cols first count rows : Nat} {row : Nat → Check (List Word)} {one : Check Unit}
    (h : one = .ok () → base + rows * cols ≤ d ∧ first + count ≤ rows ∧ ∀ f v, row f = .ok v → v.length = cols) :
    ∀ w ∈ (phases one (phase2 base cols first ((frameRange first count).map fun i => .ofCheck (row i)))).words, w.1 < d := by
  intro w hw
  rcases phases_cases one (phase2 base cols first ((frameRange first count).map fun i => .ofCheck (row i))) with
    ⟨h1, h2⟩ | ⟨r, h1, h2⟩
  · obtain ⟨hb, hr, hl⟩ := h h1
    rw [h2] at hw
    have hrow : ∀ o ∈ (frameRange first count).map (fun f => FrameOut.ofCheck (row f)), o.row.length ≤ cols := by
      intro o ho
      obtain ⟨f, -, rfl⟩ := List.mem_map.1 ho
      exact row_ofCheck_length (hl f)
    have hm : w ∈ rowWords base cols first ((frameRange first count).map fun i => .ofCheck (row i)) := by
      rcases phase2_cases base cols first ((frameRange first count).map fun i => .ofCheck (row i)) with ⟨-, e⟩ | ⟨r, e⟩ <;>
        · rw [e] at hw
          exact hw
    have hlt := (rowWords_range hrow hm).2
    rw [List.length_map, length_frameRange] at hlt
    have : (first + count) * cols ≤ rows * cols := Nat.mul_le_mul_right _ hr
    omega
  · rw [h2] at hw
    cases hw

/-- Every word a command writes, or may have written when it stops, is a word of DMEM. -/
theorem plan_words_lt {s : State} (i : Instr) : ∀ w ∈ (planOf i s).words, w.1 < s.cfg.dmemWords := by
  cases i
  case envrun first count =>
    refine frames_words_lt (rows := s.csr.outRows.toNat) fun h => ?_
    have hf := (envPhase1_ok.1 h).frames
    exact ⟨hf.out, by rw [hf.rows]; exact hf.range, fun f v hv => by rw [length_envRow hv, hf.cols]⟩
  case aprun first count =>
    refine frames_words_lt (rows := s.csr.outRows.toNat) fun h => ?_
    have hf := (apPhase1_ok.1 h).frames
    exact ⟨hf.out, by rw [hf.rows]; exact hf.range, fun f v hv => by rw [length_apRow hv, hf.cols]⟩
  case nop => intro w hw; cases hw
  case signal => intro w hw; cases hw
  all_goals
    refine ofCheck_words_lt fun e h => ?_
  case defaults =>
    unfold planDefaults at h
    iterate 3 obtain ⟨_, -, h⟩ := bind_eq_ok.1 h
    cases h; intro w hw; cases hw
  case dfftsz =>
    unfold planDfftsz at h
    iterate 2 obtain ⟨_, -, h⟩ := bind_eq_ok.1 h
    obtain ⟨_, hd, h⟩ := bind_eq_ok.1 h
    iterate 5 obtain ⟨_, -, h⟩ := bind_eq_ok.1 h
    cases h
    exact buffer_lt (region_of_ok hd) (Nat.le_refl _)
  case df0flr =>
    unfold planDf0flr at h
    iterate 2 obtain ⟨_, -, h⟩ := bind_eq_ok.1 h
    obtain ⟨_, hd, h⟩ := bind_eq_ok.1 h
    iterate 3 obtain ⟨_, -, h⟩ := bind_eq_ok.1 h
    cases h
    exact buffer_lt (region_of_ok hd) (Nat.le_refl _)
  case fftr sz src dst =>
    unfold planFftr at h
    iterate 2 obtain ⟨_, -, h⟩ := bind_eq_ok.1 h
    obtain ⟨_, hd, h⟩ := bind_eq_ok.1 h
    cases h
    exact buffer_lt (region_of_ok hd) (by rw [length_wordsOfCpx, length_fftReal]; unfold sizeN; omega)
  case ffti sz src dst =>
    unfold planFfti at h
    iterate 2 obtain ⟨_, -, h⟩ := bind_eq_ok.1 h
    obtain ⟨_, hd, h⟩ := bind_eq_ok.1 h
    cases h
    exact buffer_lt (region_of_ok hd) (Nat.le_of_eq length_fftInverse)
  case pow sz src dst =>
    unfold planPow at h
    iterate 2 obtain ⟨_, -, h⟩ := bind_eq_ok.1 h
    obtain ⟨_, hd, h⟩ := bind_eq_ok.1 h
    cases h
    exact buffer_lt (region_of_ok hd) (by rw [length_powerSpectrum, length_cpxOfWords])
  case wseg sz win nrm dcr prm dst =>
    unfold planWseg at h
    iterate 5 obtain ⟨_, -, h⟩ := bind_eq_ok.1 h
    obtain ⟨_, hd, h⟩ := bind_eq_ok.1 h
    iterate 5 obtain ⟨_, -, h⟩ := bind_eq_ok.1 h
    obtain ⟨v, hv, h⟩ := bind_eq_ok.1 h
    cases h
    exact buffer_lt (region_of_ok hd) (Nat.le_of_eq (length_segment hv))
  case wgen win prm dst =>
    unfold planWgen at h
    iterate 2 obtain ⟨_, -, h⟩ := bind_eq_ok.1 h
    obtain ⟨_, hd, h⟩ := bind_eq_ok.1 h
    cases h
    exact buffer_lt (region_of_ok hd) (Nat.le_of_eq (length_genWindow _ _ _))
  case dccorr sz prm src dst =>
    unfold planDccorr at h
    iterate 4 obtain ⟨_, -, h⟩ := bind_eq_ok.1 h
    obtain ⟨_, hd, h⟩ := bind_eq_ok.1 h
    iterate 3 obtain ⟨_, -, h⟩ := bind_eq_ok.1 h
    obtain ⟨v, hv, h⟩ := bind_eq_ok.1 h
    cases h
    exact buffer_lt (region_of_ok hd) (by rw [length_dcCorr hv, length_srcWords])
  case lsmooth sz prm src dst =>
    unfold planLsmooth at h
    iterate 4 obtain ⟨_, -, h⟩ := bind_eq_ok.1 h
    obtain ⟨_, hd, h⟩ := bind_eq_ok.1 h
    iterate 3 obtain ⟨_, -, h⟩ := bind_eq_ok.1 h
    obtain ⟨v, hv, h⟩ := bind_eq_ok.1 h
    cases h
    exact buffer_lt (region_of_ok hd) (Nat.le_of_eq (length_smooth hv))
  case lifter sz slift prm src dst =>
    unfold planLifter at h
    iterate 5 obtain ⟨_, -, h⟩ := bind_eq_ok.1 h
    obtain ⟨_, hd, h⟩ := bind_eq_ok.1 h
    iterate 3 obtain ⟨_, -, h⟩ := bind_eq_ok.1 h
    cases h
    exact buffer_lt (region_of_ok hd) (Nat.le_of_eq length_lift)
  case centroid sz src dst =>
    unfold planCentroid at h
    iterate 3 obtain ⟨_, -, h⟩ := bind_eq_ok.1 h
    obtain ⟨_, hd, h⟩ := bind_eq_ok.1 h
    cases h
    exact buffer_lt (region_of_ok hd) (Nat.le_of_eq length_centroid)
  case gdelay sz prm src dst =>
    unfold planGdelay at h
    iterate 5 obtain ⟨_, -, h⟩ := bind_eq_ok.1 h
    obtain ⟨_, hd, h⟩ := bind_eq_ok.1 h
    iterate 3 obtain ⟨_, -, h⟩ := bind_eq_ok.1 h
    obtain ⟨v, hv, h⟩ := bind_eq_ok.1 h
    cases h
    exact buffer_lt (region_of_ok hd) (Nat.le_of_eq (length_groupDelay hv))
  case vuv sz src dst =>
    unfold planVuv at h
    iterate 4 obtain ⟨_, -, h⟩ := bind_eq_ok.1 h
    obtain ⟨_, hd, h⟩ := bind_eq_ok.1 h
    cases h
    exact buffer_lt (region_of_ok hd) (Nat.le_refl _)
  case bandap sz prm src dst =>
    unfold planBandap at h
    iterate 5 obtain ⟨_, -, h⟩ := bind_eq_ok.1 h
    obtain ⟨_, hd, h⟩ := bind_eq_ok.1 h
    iterate 2 obtain ⟨_, -, h⟩ := bind_eq_ok.1 h
    obtain ⟨v, hv, h⟩ := bind_eq_ok.1 h
    cases h
    exact buffer_lt (region_of_ok hd) (Nat.le_of_eq (length_bandAperiodicity hv))
  case apinterp sz src dst =>
    unfold planApinterp at h
    iterate 6 obtain ⟨_, -, h⟩ := bind_eq_ok.1 h
    obtain ⟨_, hd, h⟩ := bind_eq_ok.1 h
    cases h
    exact buffer_lt (region_of_ok hd) (Nat.le_of_eq (length_apInterp _ _ _ _))

/-! ## No word twice -/

theorem ofCheck_words_nodup {x : Check Effect} (h : ∀ e, x = .ok e → ∃ a vs, e.writes = wordsAt a vs) :
    ((Verdict.ofCheck x).words.map Prod.fst).Nodup := by
  cases x with
  | ok e =>
    obtain ⟨a, vs, he⟩ := h e rfl
    change (e.writes.map Prod.fst).Nodup
    rw [he]
    exact wordsAt_nodup a vs
  | error r => exact List.nodup_nil

/-- No frame engine writes a word twice. -/
theorem frames_words_nodup {base cols first count : Nat} {row : Nat → Check (List Word)} {one : Check Unit}
    (h : one = .ok () → ∀ f v, row f = .ok v → v.length = cols) :
    ((phases one (phase2 base cols first ((frameRange first count).map fun i => .ofCheck (row i)))).words.map
      Prod.fst).Nodup := by
  rcases phases_cases one (phase2 base cols first ((frameRange first count).map fun i => .ofCheck (row i))) with
    ⟨h1, h2⟩ | ⟨r, h1, h2⟩
  · have hrow : ∀ o ∈ (frameRange first count).map (fun f => FrameOut.ofCheck (row f)), o.row.length ≤ cols := by
      intro o ho
      obtain ⟨f, -, rfl⟩ := List.mem_map.1 ho
      exact row_ofCheck_length (h h1 f)
    rw [h2]
    rcases phase2_cases base cols first ((frameRange first count).map fun i => .ofCheck (row i)) with ⟨-, e⟩ | ⟨r, e⟩ <;>
      · rw [e]
        exact rowWords_nodup hrow
  · rw [h2]
    exact List.nodup_nil

/-- No command writes a word twice, so each word it writes ends with the one value computed for it. -/
theorem plan_words_nodup {s : State} (i : Instr) : ((planOf i s).words.map Prod.fst).Nodup := by
  cases i
  case envrun first count =>
    exact frames_words_nodup fun h f v hv => by rw [length_envRow hv, (envPhase1_ok.1 h).frames.cols]
  case aprun first count =>
    exact frames_words_nodup fun h f v hv => by rw [length_apRow hv, (apPhase1_ok.1 h).frames.cols]
  case nop => exact List.nodup_nil
  case signal => exact List.nodup_nil
  all_goals
    refine ofCheck_words_nodup fun e h => ?_
    repeat obtain ⟨_, -, h⟩ := bind_eq_ok.1 h
    cases h
  case defaults => exact ⟨0, [], rfl⟩
  all_goals exact ⟨_, _, rfl⟩

/-- A command that completes leaves each word it writes with the value it has for it, and every other word alone. -/
theorem wordAt_finish_done {i : Instr} {s : State} {e : Effect} (h : planOf i s = .done e) (a : Nat) :
    (∀ v, (a, v) ∈ (planOf i s).words → (s.finish (planOf i s)).mem.wordAt a = s.settle a v) ∧
      ((∀ v, (a, v) ∉ (planOf i s).words) → (s.finish (planOf i s)).mem.wordAt a = s.mem.wordAt a) := by
  have hn := plan_words_nodup (s := s) i
  rw [h] at hn ⊢
  rw [finish_done, State.complete_mem, State.apply_mem]
  refine ⟨fun v hv => ?_, fun hv => ?_⟩
  · apply wordAt_setWords_mem
    · rw [settled_fst]
      exact hn
    · exact List.mem_map.2 ⟨(a, v), hv, rfl⟩
  · apply wordAt_setWords_other
    intro w hw
    obtain ⟨x, hx, rfl⟩ := List.mem_map.1 hw
    rintro rfl
    exact hv x.2 hx

end Sys2Proof.Machine
end

