-- ==== Sys2Proof/Laws/Checks.lean ====
section
/-! SUPPORT. Which error a computation with several checks raises: that of the first check that fails (R188, R228). -/

namespace Sys2Proof.Machine

/-! ## The first of some checks that fails -/

theorem firstFails_nil (e : ErrCode) : ¬ FirstFails [] e := by
  rintro ⟨_, _, _, h, -⟩
  cases (List.nil_eq_append_iff.1 h).2

theorem firstFails_cons {p : Prop} {c e : ErrCode} {t : List (Prop × ErrCode)} :
    FirstFails ((p, c) :: t) e ↔ (¬ p ∧ c = e) ∨ (p ∧ FirstFails t e) := by
  constructor
  · rintro ⟨passed, failed, later, h, hp, hf⟩
    cases passed with
    | nil =>
      rw [List.nil_append, List.cons.injEq, Prod.mk.injEq] at h
      exact .inl ⟨by rw [h.1.1]; exact hf, h.1.2⟩
    | cons q qs =>
      rw [List.cons_append, List.cons.injEq] at h
      refine .inr ⟨by have := hp q (by simp); rw [← h.1] at this; exact this, qs, failed, later, h.2,
        fun x hx => hp x (by simp [hx]), hf⟩
  · rintro (⟨hp, rfl⟩ | ⟨hp, passed, failed, later, rfl, h, hf⟩)
    · exact ⟨[], p, t, rfl, fun _ h => absurd h List.not_mem_nil, hp⟩
    · refine ⟨(p, c) :: passed, failed, later, rfl, fun x hx => ?_, hf⟩
      rcases List.mem_cons.1 hx with rfl | hx
      · exact hp
      · exact h x hx

theorem firstFails_append {a b : List (Prop × ErrCode)} {e : ErrCode} (h : FirstFails (a ++ b) e) :
    FirstFails a e ∨ (∀ c ∈ a, c.1) ∧ FirstFails b e := by
  induction a with
  | nil => exact .inr ⟨fun _ h => absurd h List.not_mem_nil, h⟩
  | cons x t ih =>
    obtain ⟨p, c⟩ := x
    rw [List.cons_append, firstFails_cons] at h
    rcases h with h | ⟨hp, h⟩
    · exact .inl (firstFails_cons.2 (.inl h))
    · rcases ih h with h | ⟨h1, h2⟩
      · exact .inl (firstFails_cons.2 (.inr ⟨hp, h⟩))
      · refine .inr ⟨fun x hx => ?_, h2⟩
        rcases List.mem_cons.1 hx with rfl | hx
        · exact hp
        · exact h1 x hx

/-- What a computation makes of its checks: it comes out when all pass, and else raises the code of the first that fails. -/
structure Meets {α : Type} (x : Check α) (checks : List (Prop × ErrCode)) : Prop where
  passes : (∀ c ∈ checks, c.1) → ∃ v, x = .ok v
  fails : ∀ e, FirstFails checks e → ∃ info, x = .error ⟨e, info⟩

theorem Meets.of_ok {α : Type} {x : Check α} {v : α} (h : x = .ok v) : Meets x [] where
  passes _ := ⟨v, h⟩
  fails e h := absurd h (firstFails_nil e)

/-- One check. -/
theorem Meets.single {α : Type} {x : Check α} {p : Prop} {e : ErrCode} (h1 : p → ∃ v, x = .ok v)
    (h2 : ¬ p → ∃ info, x = .error ⟨e, info⟩) : Meets x [(p, e)] where
  passes h := h1 (h (p, e) (List.mem_singleton.2 rfl))
  fails e' h := by
    rcases firstFails_cons.1 h with ⟨hp, rfl⟩ | ⟨-, ht⟩
    · exact h2 hp
    · exact absurd ht (firstFails_nil _)

/-- One computation after another makes the checks of the first and then those of the second. -/
theorem Meets.bind {α β : Type} {x : Check α} {f : α → Check β} {a b : List (Prop × ErrCode)} (hx : Meets x a)
    (hf : ∀ v, x = .ok v → Meets (f v) b) : Meets (x >>= f) (a ++ b) where
  passes h := by
    obtain ⟨v, rfl⟩ := hx.passes fun c hc => h c (List.mem_append_left _ hc)
    exact (hf v rfl).passes fun c hc => h c (List.mem_append_right _ hc)
  fails e h := by
    rcases firstFails_append h with h | ⟨h1, h2⟩
    · obtain ⟨info, rfl⟩ := hx.fails e h
      exact ⟨info, rfl⟩
    · obtain ⟨v, rfl⟩ := hx.passes h1
      exact (hf v rfl).fails e h2

/-- A computation that comes out passed all its checks. -/
theorem Meets.passed {α : Type} {x : Check α} {v : α} : ∀ {checks : List (Prop × ErrCode)}, Meets x checks → x = .ok v →
    ∀ c ∈ checks, c.1
  | checks, h, hx => by
    by_contra hn
    suffices ∃ e, FirstFails checks e by
      obtain ⟨e, he⟩ := this
      obtain ⟨info, hi⟩ := h.fails e he
      rw [hx] at hi
      cases hi
    clear h
    induction checks with
    | nil => exact absurd (fun _ hc => absurd hc List.not_mem_nil) hn
    | cons x t ih =>
      obtain ⟨p, c⟩ := x
      by_cases hp : p
      · obtain ⟨e, he⟩ := ih fun ht => hn fun y hy => by
          rcases List.mem_cons.1 hy with rfl | hy
          · exact hp
          · exact ht y hy
        exact ⟨e, firstFails_cons.2 (.inr ⟨hp, he⟩)⟩
      · exact ⟨c, firstFails_cons.2 (.inl ⟨hp, rfl⟩)⟩

/-! ## The units -/

/-- A segment (R162, R161). -/
theorem segment_meets (m : FpMode) (fs : Word) (l : Nat) (x : Int → Word) (centre f0 r : Word) (win : Win) (nrm dcr : Bool) :
    Meets (segment m fs l x centre f0 r win nrm dcr) (segmentChecks fs l x centre f0 r) := by
  unfold segmentChecks segment
  rw [winFits_spec, winLen_spec, origin_spec, winH_spec]
  refine Meets.bind (a := [_]) (b := [_]) (Meets.single (fun h => ⟨(), require_eq_ok.2 h⟩) fun h => ⟨_, require_eq_error.2
    ⟨Bool.eq_false_iff.2 h, rfl⟩⟩) fun _ _ => ?_
  have hj : (∀ j ∈ winIndices centre (winH fs r f0), isFinite (x j) = true) ↔
      ∀ k < winLen fs r f0, isFinite (x (winOrigin centre + (k : Int) - (winH fs r f0 : Int))) = true := by
    constructor
    · exact fun h k hk => h _ (List.mem_map.2 ⟨k, List.mem_range.2 hk, rfl⟩)
    · intro h j hj
      obtain ⟨k, hk, rfl⟩ := List.mem_map.1 hj
      exact h k (List.mem_range.1 hk)
  refine Meets.single (fun h => ?_) fun h => ?_
  · rw [samplesFinite_ok.2 (hj.2 h)]
    exact ⟨_, rfl⟩
  · cases hs : samplesFinite x (winIndices centre (winH fs r f0)) with
    | ok u => exact absurd (hj.1 (samplesFinite_ok.1 hs)) h
    | error e =>
      unfold samplesFinite at hs
      split at hs
      · cases hs
      · cases hs
        exact ⟨_, rfl⟩

/-- A list of queries whose first error is E_RANGE. -/
theorem interp1Q_error {x0 d : Word} {y xi : List Word} {e : Raise} (h : interp1Q x0 d y xi = .error e) : e = ⟨.range, 0⟩ := by
  unfold interp1Q at h
  induction xi with
  | nil => cases (show (Except.ok [] : Check (List Word)) = .error e from h)
  | cons x xs ih =>
    rw [List.mapM_cons] at h
    rcases bind_eq_error.1 h with h | ⟨a, -, h⟩
    · exact interpAt_error h
    · rcases bind_eq_error.1 h with h | ⟨b, -, h⟩
      · exact ih h
      · cases (show (Except.ok _ : Check (List Word)) = .error e from h)

/-- Queries that are answered fall on the grid. -/
theorem interp1Q_inGrid {x0 d : Word} {y xi v : List Word} {n : Nat} (hn : y.length = n) (h : interp1Q x0 d y xi = .ok v) :
    ∀ x ∈ xi, InGrid x0 d n x := by
  unfold interp1Q at h
  induction xi generalizing v with
  | nil => exact fun x hx => absurd hx List.not_mem_nil
  | cons x xs ih =>
    rw [List.mapM_cons] at h
    obtain ⟨a, ha, h⟩ := bind_eq_ok.1 h
    obtain ⟨as, has, -⟩ := bind_eq_ok.1 h
    intro z hz
    rcases List.mem_cons.1 hz with rfl | hz
    · unfold interpAt at ha
      dsimp only at ha
      split at ha
      · rename_i hc
        simp only [Bool.and_eq_true, decide_eq_true_eq] at hc
        refine ⟨hc.1.1, hc.1.2, ?_⟩
        show ftrunc (fdiv (fsub z x0) d) ≤ (n : Int) - 1
        omega
      · cases ha
    · exact ih has z hz

/-- A value that is not negative and truncates below `n` is below `n` (R12, R14). -/
theorem flt_of_ftrunc {x : Word} {n : Nat} (hn : n < 2 ^ 53) (hx : fNeg x = false) (hf : isFinite x = true)
    (h : (ftrunc x).toNat < n) : flt x (fofNat n) = true := by
  have ht : ftrunc x = ((fUnits x / unitsPerOne : Nat) : Int) := by
    simp only [ftrunc, hx, Bool.false_eq_true, if_false]
  rw [ht, Int.toNat_natCast] at h
  have hu : fUnits x < fUnits (fofNat n) := by
    rw [fUnits_fofNat hn]
    exact (Nat.div_lt_iff_lt_mul unitsPerOne_pos).1 h
  have hm : fMag x < fMag (fofNat n) := by
    by_contra hc
    rcases Nat.lt_or_eq_of_le (Nat.le_of_not_lt hc) with hc | hc
    · exact absurd (fUnits_mono hc) (by omega)
    · unfold fUnits at hu
      rw [hc] at hu
      exact absurd hu (Nat.lt_irrefl _)
  have hle : fMag (fofNat n) ≤ infMag := by
    unfold fofNat
    rw [fMag_fPack (roundNearest_lt _ _)]
    exact roundNearest_le _ _
  simp only [isFinite, decide_eq_true_eq] at hf
  simp only [flt, isNaN, fKey, hx, fNeg_fofNat, Bool.false_eq_true, if_false, Bool.and_eq_true, Bool.not_eq_true',
    decide_eq_true_eq, decide_eq_false_iff_not]
  omega

/-- A correction: f0 low enough, and every query on the grid (R182). -/
theorem dcCorr_meets {n l : Nat} {p : List Word} {f0 : Word} (hl : l ≤ 24) (hs : fNeg f0 = false)
    (hp : p.length = 2 ^ l / 2 + 1) : Meets (dcCorr (fofNat n) l p f0) [(DcFits (fofNat n) l f0, .range)] := by
  have h24 : 2 ^ l ≤ 2 ^ 24 := Nat.pow_le_pow_right (by decide) hl
  refine Meets.single (fun h => ?_) fun h => ?_
  · obtain ⟨v, hv, -⟩ := dcCorr_ok hl hs hp (fun _ _ => rfl) h
    exact ⟨v, hv⟩
  · cases hd : dcCorr (fofNat n) l p f0 with
    | error e =>
      unfold dcCorr at hd
      rcases bind_eq_error.1 hd with hd | ⟨_, -, hd⟩
      · exact ⟨_, by rw [(require_eq_error.1 hd).2]⟩
      · rcases bind_eq_error.1 hd with hd | ⟨_, -, hd⟩
        · exact ⟨_, by rw [interp1Q_error hd]⟩
        · cases (show (Except.ok _ : Check (List Word)) = .error e from hd)
    | ok v =>
      refine absurd ?_ h
      unfold dcCorr at hd
      obtain ⟨_, hr, hd⟩ := bind_eq_ok.1 hd
      obtain ⟨rep, hq, -⟩ := bind_eq_ok.1 hd
      have hr := require_eq_ok.1 hr
      simp only [Bool.and_eq_true, decide_eq_true_eq] at hr
      have hH : sizeH l = 2 ^ l / 2 := rfl
      refine ⟨flt_of_ftrunc (by omega) (binsOf_sign n l hs) hr.1.1 ?_, fun i hi => ?_⟩
      · show (ftrunc (binsOf (fofNat n) l f0)).toNat < _
        omega
      · have hU : dcU (fofNat n) l f0 = (ftrunc (binsOf (fofNat n) l f0)).toNat + 2 := rfl
        refine interp1Q_inGrid (n := dcU (fofNat n) l f0 + 1) ?_ hq _ (List.mem_map.2 ⟨i, List.mem_range.2 ?_, rfl⟩)
        · rw [List.length_take]
          omega
        · omega

/-- A smoothing: the width low enough, and every query on the grid (R183). -/
theorem smooth_meets {n l : Nat} {p : List Word} {w : Word} (hl : l ≤ 24) (hs : fNeg w = false) :
    Meets (smooth (fofNat n) l p w) [(SmoothFits (fofNat n) l w, .range)] := by
  have h24 : 2 ^ l ≤ 2 ^ 24 := Nat.pow_le_pow_right (by decide) hl
  refine Meets.single (fun h => ?_) fun h => ?_
  · obtain ⟨v, hv, -⟩ := smooth_ok (p := p) hl hs (fun _ _ => rfl) h
    exact ⟨v, hv⟩
  · cases hd : smooth (fofNat n) l p w with
    | error e =>
      unfold smooth at hd
      rcases bind_eq_error.1 hd with hd | ⟨_, -, hd⟩
      · exact ⟨_, by rw [(require_eq_error.1 hd).2]⟩
      · rcases bind_eq_error.1 hd with hd | ⟨_, -, hd⟩
        · exact ⟨_, by rw [interp1Q_error hd]⟩
        · rcases bind_eq_error.1 hd with hd | ⟨_, -, hd⟩
          · exact ⟨_, by rw [interp1Q_error hd]⟩
          · cases (show (Except.ok _ : Check (List Word)) = .error e from hd)
    | ok v =>
      refine absurd ?_ h
      unfold smooth at hd
      obtain ⟨_, hr, hd⟩ := bind_eq_ok.1 hd
      obtain ⟨lo, h1, hd⟩ := bind_eq_ok.1 hd
      obtain ⟨up, h2, -⟩ := bind_eq_ok.1 hd
      have hr := require_eq_ok.1 hr
      simp only [Bool.and_eq_true, decide_eq_true_eq] at hr
      have hH : sizeH l = 2 ^ l / 2 := rfl
      have hbd : smoothBd (fofNat n) l w = (ftrunc (binsOf (fofNat n) l w)).toNat + 1 := rfl
      have hlen : (cumSum ((mirrored (sizeH l) ((ftrunc (binsOf (fofNat n) l w)).toNat + 1) p).map fun x =>
          fdiv (fmul x (fofNat n)) (fofNat (sizeN l)))).length = 2 ^ l / 2 + 2 * smoothBd (fofNat n) l w + 1 := by
        rw [length_cumSum, List.length_map, length_mirrored, hbd]
      refine ⟨flt_of_ftrunc (by omega) (binsOf_sign n l hs) hr.1.1 ?_, fun k hk => ⟨?_, ?_⟩⟩
      · show (ftrunc (binsOf (fofNat n) l w)).toNat < _
        omega
      · exact interp1Q_inGrid hlen h1 _ (List.mem_map.2 ⟨k, List.mem_range.2 (Nat.lt_succ_of_le hk), rfl⟩)
      · exact interp1Q_inGrid hlen h2 _
          (List.mem_map.2 ⟨_, List.mem_map.2 ⟨k, List.mem_range.2 (Nat.lt_succ_of_le hk), rfl⟩, rfl⟩)

/-! ## Frames -/

/-- The row of frame `i` of ENVRUN: the checks of R187 but for the last, that the values are finite. -/
theorem envRow_meets {s : State} {i : Nat} (hl : s.csr.log2nEnv.toNat ≤ 24) (hs : fNeg (frameF0 s i) = false)
    (hr : fNeg s.csr.envLsmRatio = false) : Meets (s.envRow i)
      (segmentChecks s.csr.fsF s.csr.log2nEnv.toNat (s.sample (tagWave 0 i)) (Spec.frameCentre s.csr i) (frameF0 s i) envRatio ++
        [(DcFits s.csr.fsF s.csr.log2nEnv.toNat (frameF0 s i), .range)] ++
        [(SmoothFits s.csr.fsF s.csr.log2nEnv.toNat (fmul s.csr.envLsmRatio (frameF0 s i)), .range)] ++ []) := by
  rw [List.append_assoc, List.append_assoc]
  unfold State.envRow
  refine Meets.bind (segment_meets _ _ _ _ _ _ _ _ _ _) fun seg _ => ?_
  refine Meets.bind (dcCorr_meets hl hs (by rw [length_powerSpectrum, length_fftReal])) fun p _ => ?_
  exact Meets.bind (smooth_meets hl (fmul_sign hr hs)) fun _ _ => Meets.of_ok rfl

/-- A group delay whose second smoothing fits checks the first (R211). -/
theorem groupDelay_meets {n l : Nat} {safeMin f0 : Word} {sc sp : List Word} (hl : l ≤ 24) (hs : fNeg f0 = false)
    (h : SmoothFits (fofNat n) l f0) :
    Meets (groupDelay (fofNat n) l safeMin sc sp f0) [(SmoothFits (fofNat n) l (fdiv f0 f2), .range)] := by
  unfold groupDelay
  refine Meets.bind (a := [_]) (b := []) (smooth_meets hl (fdiv_sign hs (by decide))) fun g _ => ?_
  obtain ⟨v, hv, -⟩ := smooth_ok (p := g) hl hs (fun _ _ => rfl) h
  rw [hv]
  exact Meets.of_ok rfl

/-- The band values at one window length: the checks of R227. -/
theorem apBands_meets {s : State} {i seg : Nat} {r : Word} (hl : s.csr.log2nAp.toNat ≤ 24) (hs : fNeg (frameF0 s i) = false)
    (hb : bandsLegal s.csr.fsF s.csr.log2nAp.toNat = true) :
    Meets (s.apBands i seg (Spec.frameCentre s.csr i) (frameF0 s i) r) (apRatioChecks s i seg r) := by
  unfold State.apBands apRatioChecks
  dsimp only
  rw [List.append_assoc, List.append_assoc, List.append_assoc]
  refine Meets.bind (segment_meets _ _ _ _ _ _ _ _ _ _) fun s1 _ => ?_
  refine Meets.bind (segment_meets _ _ _ _ _ _ _ _ _ _) fun s2 _ => ?_
  refine Meets.bind (dcCorr_meets hl hs (by rw [List.length_zipWith, length_centroid, length_centroid, Nat.min_self]))
    fun sc hsc => ?_
  have hd := (dcCorr_meets hl hs (by rw [List.length_zipWith, length_centroid, length_centroid, Nat.min_self]; rfl)).passed hsc _
    (List.mem_singleton.2 rfl)
  refine Meets.bind (segment_meets _ _ _ _ _ _ _ _ _ _) fun sh _ => ?_
  obtain ⟨q, hq, -⟩ := dcCorr_ok (p := powerSpectrum (fftReal s.cfg.log2nMax s.csr.log2nAp.toNat sh)) hl hs
    (by rw [length_powerSpectrum, length_fftReal]) (fun _ _ => rfl) hd
  have hq' : dcCorr s.csr.fsF (s.sizeExp .ap) (powerSpectrum (fftReal s.cfg.log2nMax (s.sizeExp .ap) sh)) (frameF0 s i) =
    .ok q := hq
  rw [hq', ok_bind]
  refine Meets.bind (a := [_]) (b := [_]) (smooth_meets hl hs) fun sp hsp => ?_
  have h1 := (smooth_meets hl hs).passed hsp _ (List.mem_singleton.2 rfl)
  refine Meets.bind (a := [_]) (b := []) (groupDelay_meets hl hs h1) fun g _ => ?_
  exact Meets.of_ok (require_bind_of hb)

/-- The row of frame `i` of APRUN: the checks of R227 but for the last, that the values are finite. -/
theorem apRow_meets {s : State} {i : Nat} (hl : s.csr.log2nAp.toNat ≤ 24) (hs : fNeg (frameF0 s i) = false)
    (hb : bandsLegal s.csr.fsF s.csr.log2nAp.toNat = true) : Meets (s.apRow i)
      (segmentChecks s.csr.fsF s.csr.log2nAp.toNat (s.sample (tagWave 0 i)) (Spec.frameCentre s.csr i) (frameF0 s i)
          apVuvRatio ++
        if flt s.csr.apThreshold (loopGate s i) then
          apRatioChecks s i 1 apGdRatioS ++ apRatioChecks s i 4 apGdRatioM ++ apRatioChecks s i 7 apGdRatioL
        else []) := by
  unfold State.apRow
  refine Meets.bind (segment_meets _ _ _ _ _ _ _ _ _ _) fun s0 h0 => ?_
  obtain ⟨s0', h0', hg⟩ := loopGate_eq (s := s) (i := i) (by
    have h := (segment_meets _ _ _ _ _ _ _ _ _ _).passed h0
    refine ⟨h _ (List.mem_cons_self ..), h _ (List.mem_cons_of_mem _ (List.mem_singleton.2 rfl))⟩)
  obtain rfl : s0 = s0' := Except.ok.inj (h0.symm.trans h0')
  rw [hg]
  cases ht : flt s.csr.apThreshold (loopGate s i) with
  | false => exact Meets.of_ok rfl
  | true =>
    rw [if_pos rfl, if_pos rfl, List.append_assoc]
    refine Meets.bind (apBands_meets hl hs hb) fun _ _ => ?_
    refine Meets.bind (apBands_meets hl hs hb) fun _ _ => ?_
    rw [← List.append_nil (apRatioChecks s i 7 apGdRatioL)]
    exact Meets.bind (apBands_meets hl hs hb) fun _ _ => Meets.of_ok rfl

/-! ## A failing frame (R188) -/

/-- A frame raises the code of its first failing check, E_NUMERIC being the last check; without one it has its row. -/
theorem ofCheck_err {x : Check (List Word)} {a : List (Prop × ErrCode)} {p : Prop} (hx : Meets x a)
    (hp : ∀ v, x = .ok v → (v.all isFinite = true ↔ p)) :
    ((∀ c ∈ a ++ [(p, ErrCode.numeric)], c.1) → (FrameOut.ofCheck x).err = none) ∧
      ∀ e, FirstFails (a ++ [(p, ErrCode.numeric)]) e → (FrameOut.ofCheck x).err = some e := by
  refine ⟨fun h => ?_, fun e h => ?_⟩
  · obtain ⟨v, rfl⟩ := hx.passes fun c hc => h c (List.mem_append_left _ hc)
    have hv := (hp v rfl).2 (h (p, .numeric) (List.mem_append_right _ (List.mem_singleton.2 rfl)))
    rw [ofCheck_of_finite (List.all_eq_true.1 hv)]
  · rcases firstFails_append h with h | ⟨h1, h2⟩
    · obtain ⟨info, rfl⟩ := hx.fails e h
      rfl
    · obtain ⟨v, rfl⟩ := hx.passes h1
      rcases firstFails_cons.1 h2 with ⟨hn, rfl⟩ | ⟨-, h2⟩
      · rw [FrameOut.ofCheck, if_neg fun hv => hn ((hp v rfl).1 hv)]
      · exact absurd h2 (firstFails_nil _)

/-- Phase 2 raises the error of the lowest failing frame, with its index (R188). -/
theorem phase2_first {base cols first count f : Nat} {out : Nat → FrameOut} {e : ErrCode} (h1 : first ≤ f)
    (h2 : f < first + count) (hf : (out f).err = some e) (hg : ∀ g, first ≤ g → g < f → (out g).err = none) :
    phase2 base cols first ((frameRange first count).map out) =
      .spoiled ⟨e, BitVec.ofNat 64 f⟩ (rowWords base cols first ((frameRange first count).map out)) := by
  have hget : ∀ k, k < count → ((frameRange first count).map out).getD k ⟨[], none⟩ = out (first + k) := fun k hk => by
    rw [getD_map _ _ _ 0 _ (by rw [length_frameRange]; exact hk), getD_frameRange hk]
  have hlen : ((frameRange first count).map out).length = count := by rw [List.length_map, length_frameRange]
  have hi : ((frameRange first count).map out).findIdx? (fun o => o.err.isSome) = some (f - first) := by
    rw [List.findIdx?_eq_some_iff_getElem]
    refine ⟨by omega, ?_, fun j hj => ?_⟩
    · rw [← List.getD_eq_getElem _ ⟨[], none⟩, hget _ (by omega), show first + (f - first) = f by omega, hf]
      rfl
    · rw [← List.getD_eq_getElem _ ⟨[], none⟩, hget _ (by omega), hg _ (by omega) (by omega)]
      decide
  rw [phase2, hi]
  dsimp only
  rw [hget _ (by omega), show first + (f - first) = f by omega, hf]
  rfl

/-- The words that an error of phase 2 may leave: for each row of the range, the values computed for it. -/
theorem mem_rowWords_value {base cols first count : Nat} {row : Nat → Check (List Word)} {v : Nat → Nat → Word} {a : Nat} {w : Word}
    (hv : ∀ f r, row f = .ok r → r.length = cols ∧ ∀ k < cols, r.getD k f0p0 = v f k)
    (h : (a, w) ∈ rowWords base cols first ((frameRange first count).map fun i => .ofCheck (row i))) :
    ∃ f k, first ≤ f ∧ f < first + count ∧ k < cols ∧ a = base + f * cols + k ∧ w = v f k := by
  obtain ⟨n, hn, j, hj, he⟩ := mem_rowWords.1 h
  rw [List.length_map, length_frameRange] at hn
  have hg : ((frameRange first count).map fun f => FrameOut.ofCheck (row f)).getD n ⟨[], none⟩ =
      FrameOut.ofCheck (row (first + n)) := by
    rw [getD_map _ _ _ 0 _ (by rw [length_frameRange]; exact hn), getD_frameRange hn]
  rw [hg] at hj he
  cases hr : row (first + n) with
  | error e =>
    rw [hr] at hj
    exact absurd hj (Nat.not_lt_zero _)
  | ok r =>
    rw [hr] at hj he
    have hj' : j < r.length := hj
    obtain ⟨hlen, hval⟩ := hv _ _ hr
    refine ⟨first + n, j, Nat.le_add_right _ _, by omega, by omega, (Prod.mk.inj he).1, ?_⟩
    rw [(Prod.mk.inj he).2, ← hval j (by omega)]
    exact getD_default hj' 0 f0p0

end Sys2Proof.Machine
end

