-- ==== Sys2Proof/Laws/Landed.lean ====
section
/-! SUPPORT. What a command does is decided by the parameters, the configuration registers and its reads, group by group
(`readGroup`), and reads that are done no longer change: so a word that the host has seen written keeps its value until the
command ends (R92, R93, R101, R103). -/

namespace Sys2Proof.Machine

/-! ## Reads -/

/-- A choice is one of the values. -/
theorem choose_mem (n : Nat) {vs : List Word} (h : vs ≠ []) : choose n vs ∈ vs := by
  unfold choose
  split
  · exact List.mem_singleton.2 rfl
  · rw [List.getD_eq_getElem _ _ (Nat.mod_lt _ (List.length_pos_of_ne_nil h))]
    exact List.getElem_mem _

/-- A read makes its choice, also when there is nothing to choose. -/
theorem cmdRead_eq (s : State) (tag a : Nat) :
    s.cmdRead tag a = choose (Config.raceRead s.cmd.seed tag a) (readChoices s.cmd s.mem (readGroup tag) a) := by
  unfold State.cmdRead
  split
  · rename_i h
    have hr : s.cmd.races = [] := List.isEmpty_iff.1 h
    have hc : readChoices s.cmd s.mem (readGroup tag) a = [s.mem.wordAt a] := by
      simp [readChoices, PendingCmd.before, PendingCmd.racesAt, hr]
    rw [hc]
    rfl
  · rfl

/-- A read returns the word as it is, or the value before or after a host write of it since the push (R93, R330). -/
theorem cmdRead_cases (s : State) (tag a : Nat) :
    s.cmdRead tag a = s.mem.wordAt a ∨
      ∃ r ∈ s.cmd.races, r.addr = a ∧ (s.cmdRead tag a = r.old ∨ s.cmdRead tag a = r.new) := by
  have hm : s.cmdRead tag a ∈ readChoices s.cmd s.mem (readGroup tag) a := by
    rw [cmdRead_eq]
    exact choose_mem _ (List.cons_ne_nil _ _)
  have hat : ∀ {r}, r ∈ s.cmd.racesAt a → r ∈ s.cmd.races ∧ r.addr = a := fun hr =>
    ⟨List.mem_of_mem_filter hr, by simpa using List.of_mem_filter hr⟩
  rcases List.mem_cons.1 hm with h | h
  · unfold PendingCmd.before at h
    split at h
    · rename_i r hr
      obtain ⟨h1, h2⟩ := hat (List.mem_of_mem_filter (List.mem_of_getLast? hr))
      exact .inr ⟨r, h1, h2, .inl h⟩
    · exact .inl h
  · obtain ⟨r, hr, hv⟩ := List.mem_flatMap.1 h
    obtain ⟨h1, h2⟩ := hat (List.mem_of_mem_filter hr)
    refine .inr ⟨r, h1, h2, ?_⟩
    simpa using hv

/-! ## What a command does is decided by its reads -/

/-- Two states in which a command sees the same parameters and registers, and reads the same in the groups of `g`. -/
structure SameReads (s' s : State) (g : Nat → Prop) : Prop where
  cfg : s'.cfg = s.cfg
  csr : s'.csr = s.csr
  reads : ∀ tag a, g (readGroup tag) → s'.cmdRead tag a = s.cmdRead tag a

section

variable {s' s : State} {g : Nat → Prop}

theorem SameReads.mono {g' : Nat → Prop} (h : SameReads s' s g) (hg : ∀ n, g' n → g n) : SameReads s' s g' :=
  ⟨h.cfg, h.csr, fun tag a ht => h.reads tag a (hg _ ht)⟩

theorem SameReads.needFs (h : SameReads s' s g) : s'.needFs = s.needFs := by
  unfold State.needFs; rw [h.csr]

theorem SameReads.needSafeMin (h : SameReads s' s g) : s'.needSafeMin = s.needSafeMin := by
  unfold State.needSafeMin; rw [h.csr]

theorem SameReads.needEnvEps (h : SameReads s' s g) : s'.needEnvEps = s.needEnvEps := by
  unfold State.needEnvEps; rw [h.csr]

theorem SameReads.needApFloor (h : SameReads s' s g) : s'.needApFloor = s.needApFloor := by
  unfold State.needApFloor; rw [h.csr]

theorem SameReads.needApDcDb (h : SameReads s' s g) : s'.needApDcDb = s.needApDcDb := by
  unfold State.needApDcDb; rw [h.csr]

theorem SameReads.sizeExp (h : SameReads s' s g) (sz : SizeSel) : s'.sizeExp sz = s.sizeExp sz := by
  unfold State.sizeExp; rw [h.csr]

theorem SameReads.needSize (h : SameReads s' s g) (sz : SizeSel) : s'.needSize sz = s.needSize sz := by
  unfold State.needSize State.expLegal; rw [h.csr, h.cfg]

theorem SameReads.needRegion (h : SameReads s' s g) (info a n : Nat) : s'.needRegion info a n = s.needRegion info a n := by
  unfold State.needRegion State.regionOk; rw [h.cfg]

theorem SameReads.needShape (h : SameReads s' s g) : s'.needShape = s.needShape := by
  unfold State.needShape; rw [h.csr, h.sizeExp]

theorem SameReads.needArrays (h : SameReads s' s g) (base : Word) : s'.needArrays base = s.needArrays base := by
  unfold State.needArrays; simp only [h.csr, h.needRegion]

theorem SameReads.prmWord (h : SameReads s' s g) (h0 : g 0) (prm : Half) (k : Nat) : s'.prmWord prm k = s.prmWord prm k :=
  h.reads _ _ h0

theorem SameReads.srcWords (h : SameReads s' s g) (h0 : g 0) (src : Half) (n : Nat) : s'.srcWords src n = s.srcWords src n := by
  unfold State.srcWords
  exact List.map_congr_left fun k _ => h.reads _ _ h0

theorem SameReads.sample (h : SameReads s' s g) {tag : Nat} (ht : g (readGroup tag)) : s'.sample tag = s.sample tag := by
  funext j
  unfold State.sample
  rw [h.csr, h.reads _ _ ht]

theorem SameReads.fftSizeExp (h : SameReads s' s g) (f r : Word) : s'.fftSizeExp f r = s.fftSizeExp f r := by
  unfold State.fftSizeExp; rw [h.csr, h.cfg]

theorem SameReads.sizeOf? (h : SameReads s' s g) (n : Nat) : s'.sizeOf? n = s.sizeOf? n := by
  unfold State.sizeOf?; rw [h.cfg]

theorem SameReads.needFrames (h : SameReads s' s g) (h0 : g 0) (first count : Nat) (ok : Word → Bool) :
    s'.needFrames first count ok = s.needFrames first count ok := by
  have e : ∀ tag i, readGroup tag = 0 → s'.f0Word tag i = s.f0Word tag i := by
    intro tag i ht
    unfold State.f0Word
    rw [h.csr, h.reads _ _ (by rw [ht]; exact h0)]
  unfold State.needFrames
  rw [h.csr, funext fun i => congrArg isFinite (e tagF0Finite i rfl),
    funext fun i => congrArg (fun x => ok (effF0 s.csr x)) (e tagF0Limit i rfl)]

theorem readGroup_tagF0 (i : Nat) : readGroup (tagF0 i) = i + 1 := by
  unfold readGroup tagF0; omega

theorem readGroup_tagWave {seg : Nat} (hs : seg < 15) (i : Nat) : readGroup (tagWave seg i) = i + 1 := by
  unfold readGroup tagWave; omega

/-- A row is decided by its own group. -/
theorem SameReads.envRow (h : SameReads s' s g) {i : Nat} (hi : g (i + 1)) : s'.envRow i = s.envRow i := by
  unfold State.envRow State.f0Word
  simp only [h.csr, h.cfg, h.sizeExp]
  rw [h.reads _ _ (by rw [readGroup_tagF0]; exact hi), h.sample (by rw [readGroup_tagWave (by decide)]; exact hi)]

theorem SameReads.apSegment (h : SameReads s' s g) {i seg : Nat} (hs : seg < 15) (hi : g (i + 1)) (centre f0 r : Word)
    (win : Win) : s'.apSegment i seg centre f0 r win = s.apSegment i seg centre f0 r win := by
  unfold State.apSegment
  rw [h.csr, h.cfg, h.sizeExp, h.sample (by rw [readGroup_tagWave hs]; exact hi)]

theorem SameReads.apBands (h : SameReads s' s g) {i seg : Nat} (hs : seg < 13) (hi : g (i + 1)) (centre f0 r : Word) :
    s'.apBands i seg centre f0 r = s.apBands i seg centre f0 r := by
  unfold State.apBands
  simp only [h.csr, h.cfg, h.sizeExp, h.apSegment (show seg < 15 by omega) hi,
    h.apSegment (show seg + 1 < 15 by omega) hi, h.apSegment (show seg + 2 < 15 by omega) hi]

theorem SameReads.apRow (h : SameReads s' s g) {i : Nat} (hi : g (i + 1)) : s'.apRow i = s.apRow i := by
  unfold State.apRow State.f0Word
  simp only [h.csr, h.cfg, h.sizeExp, h.apSegment (show 0 < 15 by decide) hi, h.apBands (show 1 < 13 by decide) hi,
    h.apBands (show 4 < 13 by decide) hi, h.apBands (show 7 < 13 by decide) hi]
  rw [h.reads _ _ (by rw [readGroup_tagF0]; exact hi)]

theorem SameReads.envPhase1 (h : SameReads s' s g) (h0 : g 0) (first count : Nat) :
    s'.envPhase1 first count = s.envPhase1 first count := by
  unfold State.envPhase1 State.needEnvConfig
  simp only [h.csr, h.sizeExp, h.needFs, h.needSize, h.needShape, h.needArrays, h.needFrames h0]

theorem SameReads.apPhase1 (h : SameReads s' s g) (h0 : g 0) (first count : Nat) :
    s'.apPhase1 first count = s.apPhase1 first count := by
  unfold State.apPhase1 State.needApConfig
  simp only [h.csr, h.sizeExp, h.needFs, h.needSize, h.needSafeMin, h.needApFloor, h.needApDcDb, h.needShape, h.needArrays,
    h.needFrames h0]

/-- A primitive command is decided by group 0. -/
theorem SameReads.plan_eq (h : SameReads s' s g) (h0 : g 0) {i : Instr} (h1 : ∀ first count, i ≠ .envrun first count)
    (h2 : ∀ first count, i ≠ .aprun first count) : planOf i s' = planOf i s := by
  cases i
  case envrun first count => exact absurd rfl (h1 first count)
  case aprun first count => exact absurd rfl (h2 first count)
  case nop => rfl
  case signal => rfl
  all_goals
    unfold planOf
    refine congrArg Verdict.ofCheck ?_
  case defaults => unfold planDefaults; simp only [h.csr, h.needFs, h.fftSizeExp]
  case dfftsz => unfold planDfftsz; simp only [h.needFs, h.needRegion, h.prmWord h0, h.fftSizeExp]
  case df0flr => unfold planDf0flr; simp only [h.csr, h.needFs, h.needRegion, h.prmWord h0, h.sizeOf?]
  case fftr => unfold planFftr; simp only [h.cfg, h.needSize, h.needRegion, h.sizeExp, h.srcWords h0]
  case ffti => unfold planFfti; simp only [h.cfg, h.needSize, h.needRegion, h.sizeExp, h.srcWords h0]
  case pow => unfold planPow; simp only [h.needSize, h.needRegion, h.sizeExp, h.srcWords h0]
  case wseg =>
    unfold planWseg
    simp only [h.csr, h.cfg, h.needFs, h.needSize, h.needRegion, h.sizeExp, h.prmWord h0, h.sample (show g (readGroup tagX) from h0)]
  case wgen =>
    unfold planWgen wgenLen
    rw [h.prmWord h0, h.cfg]
    simp only [h.needRegion]
  case dccorr =>
    unfold planDccorr
    simp only [h.csr, h.needFs, h.needSize, h.needRegion, h.sizeExp, h.prmWord h0, h.srcWords h0]
  case lsmooth =>
    unfold planLsmooth
    simp only [h.csr, h.needFs, h.needSize, h.needRegion, h.sizeExp, h.prmWord h0, h.srcWords h0]
  case lifter =>
    unfold planLifter
    simp only [h.csr, h.cfg, h.needFs, h.needEnvEps, h.needSize, h.needRegion, h.sizeExp, h.prmWord h0, h.srcWords h0]
  case centroid =>
    unfold planCentroid
    simp only [h.csr, h.cfg, h.needSafeMin, h.needSize, h.needRegion, h.sizeExp, h.srcWords h0]
  case gdelay =>
    unfold planGdelay
    simp only [h.csr, h.needFs, h.needSafeMin, h.needSize, h.needRegion, h.sizeExp, h.prmWord h0, h.srcWords h0]
  case vuv =>
    unfold planVuv
    simp only [h.csr, h.needFs, h.needSafeMin, h.needSize, h.needRegion, h.sizeExp, h.srcWords h0]
  case bandap =>
    unfold planBandap
    simp only [h.csr, h.cfg, h.needFs, h.needSafeMin, h.needSize, h.needRegion, h.sizeExp, h.prmWord h0, h.srcWords h0]
  case apinterp =>
    unfold planApinterp
    simp only [h.csr, h.cfg, h.needFs, h.needSafeMin, h.needApFloor, h.needApDcDb, h.needSize, h.needRegion, h.sizeExp,
      h.srcWords h0]

end

/-! ## Which reads a word is computed from -/

/-- Phase 2 writes the rows it computed, whether it completes or raises. -/
theorem phase2_words (base cols first : Nat) (outs : List FrameOut) :
    (phase2 base cols first outs).words = rowWords base cols first outs := by
  unfold phase2
  split <;> rfl

/-- A word of a row is decided by phase 1 and the row. -/
theorem frames_word_stays {base cols first count : Nat} {one one' : Check Unit} {row row' : Nat → Check (List Word)}
    {w : Nat × Word} (ho : one' = one) (hl : one = .ok () → ∀ f v, row f = .ok v → v.length = cols)
    (hr : row' ((w.1 - base) / cols) = row ((w.1 - base) / cols))
    (hw : w ∈ (phases one (phase2 base cols first ((frameRange first count).map fun i => .ofCheck (row i)))).words) :
    w ∈ (phases one' (phase2 base cols first ((frameRange first count).map fun i => .ofCheck (row' i)))).words := by
  subst ho
  rcases phases_cases one' (phase2 base cols first ((frameRange first count).map fun i => .ofCheck (row i))) with
    ⟨h1, h2⟩ | ⟨r, h1, h2⟩
  · rw [h2, phase2_words] at hw
    rw [phases_ok h1, phase2_words]
    obtain ⟨k, hk, j, hj, rfl⟩ := mem_rowWords.1 hw
    rw [List.length_map, length_frameRange] at hk
    have hget : ∀ r : Nat → Check (List Word),
        ((frameRange first count).map fun i => FrameOut.ofCheck (r i)).getD k ⟨[], none⟩ = .ofCheck (r (first + k)) := by
      intro r
      rw [getD_map _ _ _ 0 _ (by rw [length_frameRange]; exact hk), getD_frameRange hk]
    rw [hget] at hj hw ⊢
    have hc := row_ofCheck_length fun v hv => hl h1 (first + k) v hv
    have hq : (base + (first + k) * cols + j - base) / cols = first + k := by
      rw [Nat.add_assoc, Nat.add_sub_cancel_left, Nat.add_comm, Nat.add_mul_div_right _ _ (by omega),
        Nat.div_eq_of_lt (by omega), Nat.zero_add]
    dsimp only at hr
    rw [hq] at hr
    refine mem_rowWords.2 ⟨k, by rw [List.length_map, length_frameRange]; exact hk, j, ?_, ?_⟩
    · rw [hget, hr]
      exact hj
    · rw [hget, hr]
  · rw [h2] at hw
    cases hw

/-- A word that a command writes is decided by the groups of reads that come before it. -/
theorem SameReads.word_stays {s' s : State} {g : Nat → Prop} (h : SameReads s' s g) {i : Instr} {w : Nat × Word}
    (hg : ∀ n ∈ readsBefore i s.csr w.1, g n) (hw : w ∈ (planOf i s).words) : w ∈ (planOf i s').words := by
  by_cases h1 : ∃ first count, i = .envrun first count
  · obtain ⟨first, count, rfl⟩ := h1
    have h0 : g 0 := hg 0 (by simp [readsBefore])
    have hi := hg _ (show (w.1 - s.csr.envBase.toNat) / s.csr.outCols.toNat + 1 ∈ _ by simp [readsBefore])
    unfold planOf planEnvrun at hw ⊢
    dsimp only at hw ⊢
    rw [h.csr]
    exact frames_word_stays (h.envPhase1 h0 _ _)
      (fun h f v hv => by rw [length_envRow hv, (envPhase1_ok.1 h).frames.cols]) (h.envRow hi) hw
  · by_cases h2 : ∃ first count, i = .aprun first count
    · obtain ⟨first, count, rfl⟩ := h2
      have h0 : g 0 := hg 0 (by simp [readsBefore])
      have hi := hg _ (show (w.1 - s.csr.apBase.toNat) / s.csr.outCols.toNat + 1 ∈ _ by simp [readsBefore])
      unfold planOf planAprun at hw ⊢
      dsimp only at hw ⊢
      rw [h.csr]
      exact frames_word_stays (h.apPhase1 h0 _ _)
        (fun h f v hv => by rw [length_apRow hv, (apPhase1_ok.1 h).frames.cols]) (h.apRow hi) hw
    · rw [h.plan_eq (hg 0 ?_) (fun f c e => h1 ⟨f, c, e⟩) (fun f c e => h2 ⟨f, c, e⟩)]
      · exact hw
      · cases i <;> simp_all [readsBefore]

/-! ## Turns that leave the executing command's reads alone -/

theorem cmd_exec {s : State} {c : PendingCmd} (he : s.engine = .exec c) : s.cmd = c := by rw [State.cmd, he]

/-- The words in flight are decided by the executing command's words and reads. -/
theorem mem_inFlight_of_sameReads {s' s : State} {c c' : PendingCmd} {g : Nat → Prop} (h : SameReads s' s g)
    (he : s.engine = .exec c) (he' : s'.engine = .exec c') (h0 : c'.w0 = c.w0) (h1 : c'.w1 = c.w1) {w : Nat × Word}
    (hg : ∀ n ∈ s.readsBefore c w.1, g n) (hw : w ∈ s.inFlight) : w ∈ s'.inFlight := by
  cases hd : decodeCmd c.w0 c.w1 with
  | ok i =>
    rw [inFlight_exec he hd] at hw
    rw [inFlight_exec he' (by rw [h0, h1]; exact hd)]
    refine h.word_stays (fun n hn => hg n ?_) hw
    rw [State.readsBefore, hd]
    exact hn
  | error r => simp only [State.inFlight, he, hd, List.not_mem_nil] at hw

theorem readsBefore_congr {s' s : State} {c c' : PendingCmd} (hc : s'.csr = s.csr) (h0 : c'.w0 = c.w0) (h1 : c'.w1 = c.w1)
    (a : Nat) : s'.readsBefore c' a = s.readsBefore c a := by
  simp only [State.readsBefore, hc, h0, h1]

/-- A host write of word `a` is one more write of `a`, and of no other word. -/
theorem PendingCmd.racesAt_race (c : PendingCmd) (a b : Nat) (old v : Word) :
    (c.race a old v).racesAt b = if b = a then ⟨a, old, v, c.begun, true⟩ :: c.racesAt b else c.racesAt b := by
  unfold PendingCmd.racesAt
  rw [PendingCmd.race_races, List.filter_cons]
  by_cases hb : b = a
  · simp [hb]
  · simp [hb, Ne.symm hb]

/-- A word that the host does not write settles as before. -/
theorem settle_race {s' s : State} {c : PendingCmd} {a b : Nat} {old v : Word} (he : s.engine = .exec c)
    (he' : s'.engine = .exec (c.race a old v)) (hb : b ≠ a) (x : Word) : s'.settle b x = s.settle b x := by
  unfold State.settle State.keptByHost
  rw [cmd_exec he, cmd_exec he', PendingCmd.standing_race, if_neg hb, PendingCmd.race_seed, PendingCmd.racesAt_race, if_neg hb]

/-- A host write does not change what the reads return that are done (R103). -/
theorem sameReads_hostSetWord {s : State} {c : PendingCmd} (he : s.engine = .exec c) (a : Nat) (v : Word) :
    SameReads (s.hostSetWord a v) s (· ∈ c.begun) := by
  refine ⟨rfl, rfl, fun tag b hg => ?_⟩
  have he' : (s.hostSetWord a v).cmd = c.race a (s.mem.wordAt a) v := by
    apply cmd_exec
    simp only [State.hostSetWord, he, Engine.race]
  have hm : (s.hostSetWord a v).mem = s.mem.setWord a v := rfl
  have hdone : c.begun.contains (readGroup tag) = true := by simpa using hg
  have hat := c.racesAt_race a b (s.mem.wordAt a) v
  have hbefore : (c.race a (s.mem.wordAt a) v).before (s.mem.setWord a v) (readGroup tag) b =
      c.before s.mem (readGroup tag) b := by
    unfold PendingCmd.before
    rw [hat]
    by_cases hb : b = a
    · subst hb
      rw [if_pos rfl, List.filter_cons, if_pos hdone]
      cases hl : (c.racesAt b).filter fun r => r.done.contains (readGroup tag) with
      | nil => rfl
      | cons r rs => rw [List.getLast?_cons_cons]; rfl
    · rw [if_neg hb]
      split
      · rfl
      · rw [wordAt_setWord_ne _ _ hb]
  have hchoices : readChoices (c.race a (s.mem.wordAt a) v) (s.mem.setWord a v) (readGroup tag) b =
      readChoices c s.mem (readGroup tag) b := by
    unfold readChoices
    rw [hbefore, hat]
    split
    · rw [List.filter_cons, if_neg (by simpa using hg)]
    · rfl
  rw [cmdRead_eq, cmdRead_eq, he', hm, cmd_exec he, hchoices, PendingCmd.race_seed]

/-- A host write of another word leaves what has been written as it was computed (R93, R101, R103). -/
theorem landed_hostSetWord {s : State} {c : PendingCmd} (he : s.engine = .exec c) (h : c.Landed s) (a : Nat) (v : Word) :
    (c.race a (s.mem.wordAt a) v).Landed (s.hostSetWord a v) := by
  have he' : (s.hostSetWord a v).engine = .exec (c.race a (s.mem.wordAt a) v) := by
    simp only [State.hostSetWord, he, Engine.race]
  intro w hw
  have hne : w.1 ≠ a := by simpa using List.of_mem_filter hw
  obtain ⟨⟨x, hx, hv⟩, hg⟩ := h w (List.mem_of_mem_filter hw)
  refine ⟨⟨x, ?_, by rw [hv, settle_race he he' hne]⟩, ?_⟩
  · exact mem_inFlight_of_sameReads (sameReads_hostSetWord he a v) he he' rfl rfl hg hx
  · intro g hg'
    exact hg g (by
      rwa [readsBefore_congr (s' := s.hostSetWord a v) (c' := c.race a (s.mem.wordAt a) v) (s := s) (c := c) rfl rfl rfl] at hg')

/-- What else happens while a command executes leaves its reads and its writes alone. -/
theorem landed_of_same {s' s : State} {c c' : PendingCmd} (he : s.engine = .exec c) (he' : s'.engine = .exec c')
    (hcfg : s'.cfg = s.cfg) (hcsr : s'.csr = s.csr) (hmem : s'.mem = s.mem) (h0 : c'.w0 = c.w0) (h1 : c'.w1 = c.w1)
    (hr : c'.races = c.races) (hs : c'.seed = c.seed) (w : Nat × Word) :
    (w ∈ s.inFlight → w ∈ s'.inFlight) ∧ s'.settle w.1 w.2 = s.settle w.1 w.2 ∧
      s'.readsBefore c' w.1 = s.readsBefore c w.1 := by
  have hreads : SameReads s' s fun _ => True := by
    refine ⟨hcfg, hcsr, fun tag a _ => ?_⟩
    simp only [State.cmdRead, cmd_exec he, cmd_exec he', hr, hs, hmem, readChoices, PendingCmd.before, PendingCmd.racesAt]
  refine ⟨fun hw => mem_inFlight_of_sameReads hreads he he' h0 h1 (fun _ _ => trivial) hw, ?_,
    readsBefore_congr hcsr h0 h1 _⟩
  unfold State.settle State.keptByHost PendingCmd.standing PendingCmd.racesAt
  rw [cmd_exec he, cmd_exec he', hr, hs]

/-- Going on inside a command writes what the command computes, and the reads before it are done (R332). -/
theorem landed_progress {s : State} {c : PendingCmd} (he : s.engine = .exec c) (h : c.Landed s) :
    ∃ c', s.progress.engine = .exec c' ∧ c'.Landed s.progress := by
  rw [progress_exec he]
  refine ⟨_, rfl, fun w hw => ?_⟩
  have same := landed_of_same (s' := { s with
      engine := .exec { c with
        landed := (s.landing.map fun w => (w.1, s.settle w.1 w.2)) ++ c.landed
        begun := (s.landing.flatMap fun w => s.readsBefore c w.1) ++ c.begun }
      free := s.free + 1 }) he rfl rfl rfl rfl rfl rfl rfl rfl
  rcases List.mem_append.1 hw with hw | hw
  · obtain ⟨x, hx, rfl⟩ := List.mem_map.1 hw
    obtain ⟨s1, s2, s3⟩ := same x
    refine ⟨⟨x.2, s1 (List.mem_of_mem_filter hx), s2.symm⟩, fun g hg => ?_⟩
    rw [s3] at hg
    exact List.mem_append.2 (.inl (List.mem_flatMap.2 ⟨x, hx, hg⟩))
  · obtain ⟨⟨v, hv, e⟩, hg⟩ := h w hw
    obtain ⟨s1, s2, s3⟩ := same (w.1, v)
    refine ⟨⟨v, s1 hv, by rw [e]; exact s2.symm⟩, fun g hg' => ?_⟩
    rw [s3] at hg'
    exact List.mem_append.2 (.inr (hg g hg'))

/-! ## What the host has seen written stays -/

/-- Under the invariant of what has been written, the end of the command leaves in a word that it has written the value
that the host has seen there (R92, R94, R101). -/
theorem wordAt_finish_landed {s : State} {c : PendingCmd} {i : Instr} (he : s.engine = .exec c)
    (hd : decodeCmd c.w0 c.w1 = .ok i) (h : c.Landed s) {a : Nat} {v : Word} (hv : c.landed.lookup a = some v) :
    (s.finish (planOf i s)).mem.wordAt a = v := by
  obtain ⟨⟨x, hx, hxv⟩, -⟩ := h _ (mem_of_lookup hv)
  dsimp only at hx hxv
  rw [inFlight_exec he hd] at hx
  have hn := plan_words_nodup (s := s) i
  cases hp : planOf i s with
  | done e =>
    have := (wordAt_finish_done hp a).1 x hx
    rw [hp] at this
    rw [this, hxv]
  | failed r =>
    rw [hp] at hx
    cases hx
  | spoiled r ws =>
    rw [hp] at hx hn
    rw [finish_spoiled, State.raise_mem, State.applySome_mem]
    have hleft : s.leftWith (a, x) = some v := by
      unfold State.leftWith
      split
      · rw [hxv]
      · rw [cmd_exec he]
        exact hv
    have hmem : (a, v) ∈ ws.filterMap fun w => (s.leftWith w).map fun v => (w.1, v) :=
      List.mem_filterMap.2 ⟨(a, x), hx, by rw [hleft]; rfl⟩
    refine wordAt_setWords_mem _ ?_ hmem
    rw [leftWords_fst]
    exact hn.sublist (List.Sublist.map _ List.filter_sublist)

/-- While the command goes on, a word that it has written keeps the value (R92, R101). -/
theorem hostWord_progress {s : State} {c : PendingCmd} (he : s.engine = .exec c) (h : c.Landed s) {a : Nat} {v : Word}
    (hv : c.landed.lookup a = some v) : s.progress.hostWord a = v := by
  have hn : (s.inFlight.map Prod.fst).Nodup := by
    cases hd : decodeCmd c.w0 c.w1 with
    | ok i => rw [inFlight_exec he hd]; exact plan_words_nodup i
    | error r => simp only [State.inFlight, he, hd, List.map_nil, List.nodup_nil]
  obtain ⟨⟨x, hx, hxv⟩, -⟩ := h _ (mem_of_lookup hv)
  dsimp only at hx hxv
  rw [State.hostWord, progress_exec he]
  dsimp only [State.cmd]
  rw [List.lookup_append]
  cases hl : (s.landing.map fun w => (w.1, s.settle w.1 w.2)).lookup a with
  | none =>
    rw [Option.none_or, hv]
    rfl
  | some y =>
    obtain ⟨w, hw, e⟩ := List.mem_map.1 (mem_of_lookup hl)
    obtain ⟨rfl, rfl⟩ := Prod.mk.inj e
    have hw' : s.inFlight.lookup w.1 = some w.2 := lookup_of_mem hn (List.mem_of_mem_filter hw)
    rw [lookup_of_mem hn hx] at hw'
    rw [Option.some_or, Option.getD_some, hxv, Option.some.inj hw']

/-- A command that has not begun. -/
def PendingCmd.Fresh (c : PendingCmd) : Prop := c.landed = [] ∧ c.begun = []

/-- What the invariant says of words written so far (`State.Inv`). -/
structure State.WrittenSound (s : State) : Prop where
  fresh : ∀ c ∈ s.queue, c.Fresh
  landed : ∀ c, s.engine = .exec c → c.Landed s
  standing : ∀ c, c ∈ s.queue ∨ s.engine = .exec c → ∀ a h, c.standing a = some h → s.mem.wordAt a = h

theorem State.Inv.writtenSound {s : State} (h : s.Inv) : s.WrittenSound := ⟨h.fresh, h.landed, h.standing⟩

/-- With no command pending there is nothing to say. -/
theorem writtenSound_none {s : State} (hq : s.queue = []) (he : ∀ c, s.engine ≠ .exec c) : s.WrittenSound where
  fresh c hc := by rw [hq] at hc; cases hc
  landed c hc := absurd hc (he c)
  standing c hc := by
    rw [hq] at hc
    exact absurd hc (by simp [he c])

/-- What a word keeps of the host's is what it holds. -/
theorem keptByHost_mem {s : State} (h : s.WrittenSound) {a : Nat} {x : Word} (hk : s.keptByHost a = some x) :
    s.mem.wordAt a = x := by
  have hk := standing_of_keptByHost hk
  obtain ⟨e, he⟩ : ∃ e, s.engine = e := ⟨_, rfl⟩
  cases e with
  | exec c =>
    rw [cmd_exec he] at hk
    exact h.standing c (.inr he) a x hk
  | idle => rw [PendingCmd.standing_of_no_races (by rw [State.cmd, he])] at hk; cases hk
  | halt => rw [PendingCmd.standing_of_no_races (by rw [State.cmd, he])] at hk; cases hk

/-- What a command leaves in a word is what it computes or what the word holds (R92, R93). -/
theorem settle_cases {s : State} (h : s.WrittenSound) (a : Nat) (v : Word) :
    s.settle a v = v ∨ s.settle a v = s.mem.wordAt a := by
  unfold State.settle
  cases hk : s.keptByHost a with
  | none => exact .inl rfl
  | some x => exact .inr (keptByHost_mem h hk).symm

/-- What stands after a command has completed is what the word then holds (R92). -/
theorem standing_finish {i : Instr} {s : State} {e : Effect} (hp : planOf i s = .done e) (h : s.WrittenSound) {c : PendingCmd}
    (hc : c ∈ (s.apply e).queue) {a : Nat} {x : Word} (hx : c.standing a = some x) :
    (s.apply e).complete.mem.wordAt a = x := by
  rw [State.apply_queue] at hc
  obtain ⟨d, hd, rfl⟩ := List.mem_map.1 hc
  rw [PendingCmd.standing_overwritten] at hx
  split at hx
  case isFalse => cases hx
  rename_i hg
  have hold := h.standing d (.inl hd) a x hx
  have hw := wordAt_finish_done hp a
  rw [hp, finish_done] at hw
  cases hl : e.writes.lookup a with
  | none =>
    rw [hw.2 fun v hv => by simpa using List.lookup_eq_none_iff.1 hl _ hv]
    exact hold
  | some v =>
    rw [hw.1 v (mem_of_lookup hl), ← hold]
    rw [hl] at hg
    cases hk : s.keptByHost a with
    | none => rw [hk] at hg; cases hg
    | some y => rw [State.settle, hk, Option.getD_some, keptByHost_mem h hk]

theorem landed_nil {c : PendingCmd} (h : c.landed = []) (s : State) : c.Landed s := by
  intro w hw; rw [h] at hw; cases hw

/-! ### Every step keeps it -/

theorem writtenSound_finish {s : State} (h : s.WrittenSound) (i : Instr) : (s.finish (planOf i s)).WrittenSound := by
  cases hp : planOf i s with
  | failed r => exact writtenSound_none rfl fun _ => Engine.noConfusion
  | spoiled r ws => exact writtenSound_none rfl fun _ => Engine.noConfusion
  | done e =>
    rw [finish_done]
    have hq : ∀ c ∈ (s.apply e).queue, c.Fresh := by
      intro c hc
      rw [State.apply_queue] at hc
      obtain ⟨d, hd, rfl⟩ := List.mem_map.1 hc
      exact h.fresh d hd
    have hs : ∀ c ∈ (s.apply e).queue, ∀ a x, c.standing a = some x → (s.apply e).complete.mem.wordAt a = x :=
      fun c hc a x hx => standing_finish hp h hc hx
    unfold State.complete at hs ⊢
    split
    · rename_i hn
      exact writtenSound_none hn fun _ => Engine.noConfusion
    · rename_i c q hn
      rw [hn] at hq hs
      refine ⟨fun d hd => hq d (List.mem_cons_of_mem _ hd), fun d hd => ?_, fun d hd => ?_⟩
      · cases hd
        exact landed_nil (hq c List.mem_cons_self).1 _
      · rcases hd with hd | hd
        · exact hs d (List.mem_cons_of_mem _ hd)
        · cases hd
          exact hs c List.mem_cons_self

/-- It is about the commands, the parameters, the registers and memory only. -/
theorem writtenSound_same {s s' : State} (h : s.WrittenSound) (hq : s'.queue = s.queue) (he : s'.engine = s.engine)
    (h1 : s'.cfg = s.cfg) (h2 : s'.csr = s.csr) (h3 : s'.mem = s.mem) : s'.WrittenSound := by
  refine ⟨by rw [hq]; exact h.fresh, fun c hc => ?_, by rw [hq, he, h3]; exact h.standing⟩
  rw [he] at hc
  intro w hw
  obtain ⟨⟨v, hv, e⟩, hg⟩ := h.landed c hc w hw
  have := landed_of_same (s' := s') (c' := c) hc (by rw [he, hc]) h1 h2 h3 rfl rfl rfl rfl (w.1, v)
  refine ⟨⟨v, this.1 hv, by rw [e]; exact this.2.1.symm⟩, ?_⟩
  rw [this.2.2]
  exact hg

/-- A host write of a word. -/
theorem writtenSound_hostSetWord {s : State} (h : s.WrittenSound) (a : Nat) (v : Word) : (s.hostSetWord a v).WrittenSound := by
  have hexec : ∀ c, (s.hostSetWord a v).engine = .exec c → ∃ d, s.engine = .exec d ∧ c = d.race a (s.mem.wordAt a) v := by
    intro c hc
    cases he : s.engine with
    | idle => simp [State.hostSetWord, Engine.race, he] at hc
    | halt => simp [State.hostSetWord, Engine.race, he] at hc
    | exec d =>
      simp only [State.hostSetWord, Engine.race, he] at hc
      exact ⟨d, rfl, (Engine.exec.inj hc).symm⟩
  have hstand : ∀ d old, d ∈ s.queue ∨ s.engine = .exec d → ∀ b x, (d.race a old v).standing b = some x →
      (s.mem.setWord a v).wordAt b = x := by
    intro d old hd b x hx
    rw [PendingCmd.standing_race] at hx
    split at hx
    · rename_i hb
      rw [hb, wordAt_setWord_same]
      exact Option.some.inj hx
    · rename_i hb
      rw [wordAt_setWord_ne _ _ hb]
      exact h.standing d hd b x hx
  refine ⟨fun c hc => ?_, fun c hc => ?_, fun c hc => ?_⟩
  · obtain ⟨d, hd, rfl⟩ := List.mem_map.1 hc
    obtain ⟨h1, h2⟩ := h.fresh d hd
    exact ⟨by rw [PendingCmd.race_landed, h1]; rfl, h2⟩
  · obtain ⟨d, he, rfl⟩ := hexec c hc
    exact landed_hostSetWord he (h.landed d he) a v
  · rcases hc with hc | hc
    · obtain ⟨d, hd, rfl⟩ := List.mem_map.1 hc
      exact hstand d _ (.inl hd)
    · obtain ⟨d, he, rfl⟩ := hexec c hc
      exact hstand d _ (.inr he)

/-- A push. -/
theorem writtenSound_push {s : State} (h : s.WrittenSound) (v : Word) : (s.push v).WrittenSound := by
  unfold State.push
  split
  · exact writtenSound_same h rfl rfl rfl rfl rfl
  · refine ⟨fun c hc => ?_, fun c hc w hw => ?_, fun c hc a x hx => ?_⟩
    · rcases List.mem_append.1 hc with hc | hc
      · exact h.fresh c hc
      · rw [List.mem_singleton.1 hc]
        exact ⟨rfl, rfl⟩
    · obtain ⟨⟨y, hy, e⟩, hg⟩ := h.landed c hc w hw
      have := landed_of_same (s' := { s with queue := s.queue ++ [⟨s.hold, v, [], s.free, [], []⟩], free := s.free + 1 })
        (c' := c) hc hc rfl rfl rfl rfl rfl rfl rfl (w.1, y)
      exact ⟨⟨y, this.1 hy, by rw [e]; exact this.2.1.symm⟩, hg⟩
    · rcases hc with hc | hc
      · rcases List.mem_append.1 hc with hc | hc
        · exact h.standing c (.inl hc) a x hx
        · rw [List.mem_singleton.1 hc, PendingCmd.standing_of_no_races rfl] at hx
          cases hx
      · exact h.standing c (.inr hc) a x hx

/-- A host write of a register. -/
theorem writtenSound_regWrite {s : State} (h : s.WrittenSound) (off : Nat) (v : Word) : (s.regWrite off v).WrittenSound := by
  unfold State.regWrite
  split
  · unfold State.writeCtrl
    dsimp only
    split
    · exact writtenSound_none rfl fun _ => Engine.noConfusion
    · split
      · unfold State.abort
        split
        · exact writtenSound_none rfl fun _ => Engine.noConfusion
        · exact writtenSound_same h rfl rfl rfl rfl rfl
      · exact writtenSound_same h rfl rfl rfl rfl rfl
  · split
    · unfold State.writeStatus
      split
      · unfold State.ackErr
        split
        · exact ⟨h.fresh, (fun _ hc => by cases hc), fun c hc => h.standing c (.inl (hc.resolve_right Engine.noConfusion))⟩
        · exact writtenSound_same h rfl rfl rfl rfl rfl
      · exact writtenSound_same h rfl rfl rfl rfl rfl
    · split
      · exact writtenSound_same h rfl rfl rfl rfl rfl
      · split
        · exact writtenSound_push h v
        · split
          · unfold State.writeCsr
            split
            · exact writtenSound_same h rfl rfl rfl rfl rfl
            · rename_i hb
              refine ⟨h.fresh, fun c hc => absurd ?_ hb, h.standing⟩
              simp [State.busy, State.executing, show s.engine = .exec c from hc]
          · exact h

/-- Any access of the host. -/
theorem writtenSound_host {s : State} (h : s.WrittenSound) (a : HostAccess) : (s.host a).WrittenSound := by
  cases a with
  | read bits addr =>
    unfold State.host State.hostRead
    dsimp only
    split <;> exact writtenSound_same h rfl rfl rfl rfl rfl
  | write bits addr v =>
    unfold State.host State.hostWrite
    dsimp only
    split
    · exact writtenSound_same h rfl rfl rfl rfl rfl
    · exact writtenSound_same h rfl rfl rfl rfl rfl
    · exact writtenSound_same (writtenSound_regWrite h _ v) rfl rfl rfl rfl rfl
    · exact writtenSound_same (writtenSound_hostSetWord h _ v) rfl rfl rfl rfl rfl

/-- A step of the engine. -/
theorem writtenSound_engineStep {s t : State} (h : s.WrittenSound) (hs : s.engineStep = .next t) : t.WrittenSound := by
  unfold State.engineStep at hs
  split at hs
  · split at hs
    · cases hs
      exact h
    · rename_i c q hq
      cases hs
      refine ⟨fun d hd => h.fresh d (by rw [hq]; exact List.mem_cons_of_mem _ hd), fun d hd => ?_, fun d hd => ?_⟩
      · cases hd
        exact landed_nil (h.fresh c (by rw [hq]; exact List.mem_cons_self)).1 _
      · rcases hd with hd | hd
        · exact h.standing d (.inl (by rw [hq]; exact List.mem_cons_of_mem _ hd))
        · cases hd
          exact h.standing c (.inl (by rw [hq]; exact List.mem_cons_self))
  · split at hs
    · rw [exec_eq] at hs
      cases hs
      exact writtenSound_finish h _
    · cases hs
      exact writtenSound_none rfl fun _ => Engine.noConfusion
  · cases hs
    exact h

/-- Progress inside the executing command. -/
theorem writtenSound_progress {s : State} (h : s.WrittenSound) : s.progress.WrittenSound := by
  obtain ⟨e, he⟩ : ∃ e, s.engine = e := ⟨_, rfl⟩
  cases e with
  | exec c =>
    obtain ⟨c', h1, h2⟩ := landed_progress he (h.landed c he)
    refine ⟨?_, fun d hd => ?_, ?_⟩
    · rw [progress_exec he]
      exact h.fresh
    · rw [h1] at hd
      cases hd
      exact h2
    · rw [progress_exec he]
      intro d hd
      rcases hd with hd | hd
      · exact h.standing d (.inl hd)
      · cases hd
        exact h.standing c (.inr he)
  | idle => rw [progress_not_exec fun c hc => nomatch he.symm.trans hc]; exact h
  | halt => rw [progress_not_exec fun c hc => nomatch he.symm.trans hc]; exact h

/-- What the executing command has written stays what it computes, and what stands of the host's stays what the word holds,
whatever step is taken. -/
theorem writtenSound_step {s t : State} (h : s.WrittenSound) (hs : step s = .next t) : t.WrittenSound := by
  have hts : ∀ ts, State.WrittenSound { s with turns := ts } := fun ts => writtenSound_same h rfl rfl rfl rfl rfl
  unfold step at hs
  split at hs
  · exact writtenSound_engineStep h hs
  · exact writtenSound_engineStep (hts _) hs
  · cases hs
    exact writtenSound_progress (hts _)
  · cases hs
    exact writtenSound_host (hts _) _

end Sys2Proof.Machine
end

