-- ==== Sys2Proof/Laws/PerInstr.lean ====
section
/-! SUPPORT. One lemma per command: the fields that R121 reads out of the words that R124 writes. -/

namespace Sys2Proof.Laws

/-- The fields of W0 (R111). -/
theorem extract_w0 (p : BitVec 32) (r : BitVec 16) (f o : BitVec 8) :
    (p ++ r ++ f ++ o).extractLsb' 0 8 = o ∧ (p ++ r ++ f ++ o).extractLsb' 8 8 = f ∧
      (p ++ r ++ f ++ o).extractLsb' 16 16 = r ∧ (p ++ r ++ f ++ o).extractLsb' 32 32 = p := by
  refine ⟨?_, ?_, ?_, ?_⟩ <;>
    (apply BitVec.eq_of_getLsbD_eq
     intro k hk
     simp only [BitVec.getLsbD_extractLsb', BitVec.getLsbD_append, hk, decide_true, Bool.true_and, Nat.zero_add])
  · rw [if_pos trivial]
  · rw [if_neg (by omega), if_pos (by omega)]; congr 1; omega
  · rw [if_neg (by omega), if_neg (by omega), if_pos (by omega)]; congr 1; omega
  · rw [if_neg (by omega), if_neg (by omega), if_neg (by omega)]; congr 1; omega

/-- The fields of W1 (R112). -/
theorem extract_w1 (d s : BitVec 32) : (d ++ s).extractLsb' 0 32 = s ∧ (d ++ s).extractLsb' 32 32 = d := by
  refine ⟨?_, ?_⟩ <;>
    (apply BitVec.eq_of_getLsbD_eq
     intro k hk
     simp only [BitVec.getLsbD_extractLsb', BitVec.getLsbD_append, hk, decide_true, Bool.true_and, Nat.zero_add])
  · rw [if_pos trivial]
  · rw [if_neg (by omega)]; congr 1; omega

/-- The words of a command carry its opcode, its flags, RSV = 0 and its operands, each in its own field. -/
def EncodedFields.Statement (i : Instr) : Prop :=
  fieldsOf (encode i).1 (encode i).2 = ⟨i.opc, i.flags, 0#16, i.prm, i.src, i.dst⟩

theorem EncodedFields.all (i : Instr) : EncodedFields.Statement i := by
  obtain ⟨h1, h2, h3, h4⟩ := extract_w0 i.prm 0#16 i.flags i.opc
  obtain ⟨h5, h6⟩ := extract_w1 i.dst i.src
  unfold EncodedFields.Statement fieldsOf encode
  rw [h1, h2, h3, h4, h5, h6]

theorem EncodedFields.nop : EncodedFields.Statement .nop := EncodedFields.all _
theorem EncodedFields.signal : EncodedFields.Statement .signal := EncodedFields.all _
theorem EncodedFields.defaults : EncodedFields.Statement .defaults := EncodedFields.all _
theorem EncodedFields.dfftsz (prm dst : Half) : EncodedFields.Statement (.dfftsz prm dst) :=
  EncodedFields.all _
theorem EncodedFields.df0flr (prm dst : Half) : EncodedFields.Statement (.df0flr prm dst) :=
  EncodedFields.all _
theorem EncodedFields.fftr (sz : SizeSel) (src dst : Half) : EncodedFields.Statement (.fftr sz src dst) :=
  EncodedFields.all _
theorem EncodedFields.ffti (sz : SizeSel) (src dst : Half) : EncodedFields.Statement (.ffti sz src dst) :=
  EncodedFields.all _
theorem EncodedFields.pow (sz : SizeSel) (src dst : Half) : EncodedFields.Statement (.pow sz src dst) :=
  EncodedFields.all _
theorem EncodedFields.wseg (sz : SizeSel) (win : Win) (nrm dcr : Bool) (prm dst : Half) : EncodedFields.Statement (.wseg sz win nrm dcr prm dst) :=
  EncodedFields.all _
theorem EncodedFields.wgen (win : Win) (prm dst : Half) : EncodedFields.Statement (.wgen win prm dst) :=
  EncodedFields.all _
theorem EncodedFields.dccorr (sz : SizeSel) (prm src dst : Half) : EncodedFields.Statement (.dccorr sz prm src dst) :=
  EncodedFields.all _
theorem EncodedFields.lsmooth (sz : SizeSel) (prm src dst : Half) : EncodedFields.Statement (.lsmooth sz prm src dst) :=
  EncodedFields.all _
theorem EncodedFields.lifter (sz : SizeSel) (slift : Bool) (prm src dst : Half) : EncodedFields.Statement (.lifter sz slift prm src dst) :=
  EncodedFields.all _
theorem EncodedFields.envrun (first count : Half) : EncodedFields.Statement (.envrun first count) :=
  EncodedFields.all _
theorem EncodedFields.centroid (sz : SizeSel) (src dst : Half) : EncodedFields.Statement (.centroid sz src dst) :=
  EncodedFields.all _
theorem EncodedFields.gdelay (sz : SizeSel) (prm src dst : Half) : EncodedFields.Statement (.gdelay sz prm src dst) :=
  EncodedFields.all _
theorem EncodedFields.vuv (sz : SizeSel) (src dst : Half) : EncodedFields.Statement (.vuv sz src dst) :=
  EncodedFields.all _
theorem EncodedFields.bandap (sz : SizeSel) (prm src dst : Half) : EncodedFields.Statement (.bandap sz prm src dst) :=
  EncodedFields.all _
theorem EncodedFields.apinterp (sz : SizeSel) (src dst : Half) : EncodedFields.Statement (.apinterp sz src dst) :=
  EncodedFields.all _
theorem EncodedFields.aprun (first count : Half) : EncodedFields.Statement (.aprun first count) :=
  EncodedFields.all _

end Sys2Proof.Laws
end

