-- ==== Sys2Proof/Tests/Slice0.lean ====
section
/-! SUPPORT. Tests of the model, each on fixed values, and for every obligation with hypotheses a state that meets them.
Expected values are those of 95_test_vectors.md, computed there from the rules with FP_MODE = CR, or are read off a rule. -/

namespace Sys2Proof.Tests

set_option Elab.async false

open Sys2Proof.Machine

/-! ## Helpers -/

/-- Power-on with the default parameters and FP_MODE = CR, as the test vectors of the spec have it. -/
def machine : State := State.powerOn { Params.default with fpMode := .cr }

/-- `s` with blocks of words in DMEM, the lowest address first. -/
def load (blocks : List (Nat × List Word)) (s : State) : State :=
  { s with mem := blocks.flatMap fun b => (wordsAt b.1 b.2).flatMap fun w =>
      (List.range 8).map fun k => (8 * w.1 + k, w.2.extractLsb' (8 * k) 8) }

/-- `s` executing a command. -/
def running (i : Instr) (s : State) : State := { s with engine := .exec ⟨(encode i).1, (encode i).2, [], 0, [], []⟩ }

/-- The state after one step. -/
def after (s : State) : State :=
  match step s with
  | .next t => t
  | .fault _ => s
  | .refused _ => s

/-- The words from `a` on after the command completed; nothing if it did not. -/
def result (i : Instr) (s : State) (a n : Nat) : Option (List Word) :=
  let t := after (running i s)
  if t.engine = .idle ∧ t.done = true ∧ t.err = false ∧ t.completed = 1 then
    some ((List.range n).map fun k => t.mem.wordAt (a + k))
  else none

/-- ERRCODE and ERRINFO after the command raised an error; nothing if it did not. -/
def failure (i : Instr) (s : State) : Option (Nat × Nat) :=
  let t := after (running i s)
  if t.engine = .halt ∧ t.err = true ∧ t.completed = 0 then some (t.errCode.toNat, t.errInfo.toNat) else none

/-- FS = 16000 and N = 16. -/
def small : State := { machine with csr := { machine.csr with fs := 16000, log2nEnv := 4 } }

/-- `1.0, 2.0, ..` -/
def ramp (n : Nat) : List Word := (List.range n).map fun k => fofNat (k + 1)

/-- `n` ones. -/
def ones (n : Nat) : List Word := List.replicate n f1

/-! ## Legality (WellFormed) and decoding -/

/-- The one ill-formed command: WIN = `10` is for WGEN only (R115). -/
theorem test_wf_refuses_nuttall_wseg : (Instr.wseg .env .nuttall false false 0x10#32 0x100#32).wf = false := by decide

theorem test_wf_accepts_nuttall_wgen : (Instr.wgen .nuttall 0x10#32 0x100#32).wf = true := by decide

/-! Every constructor, from words written out by the fields of R111 to R117. -/

theorem test_decode_nop : decodeCmd 0x0#64 0x0#64 = .ok (.nop) := by decide

theorem test_decode_signal : decodeCmd 0x1#64 0x0#64 = .ok (.signal) := by decide

theorem test_decode_defaults : decodeCmd 0x2#64 0x0#64 = .ok (.defaults) := by decide

theorem test_decode_dfftsz : decodeCmd 0x0000001000000003#64 0x0000002000000000#64 = .ok (.dfftsz 0x10#32 0x20#32) := by decide

theorem test_decode_df0flr : decodeCmd 0xFFFFFFFF00000004#64 0x0000000100000000#64 = .ok (.df0flr 0xFFFFFFFF#32 1#32) := by decide

theorem test_decode_fftr : decodeCmd 0x0000000000000110#64 0x0000200000001000#64 = .ok (.fftr .ap 0x1000#32 0x2000#32) := by decide

theorem test_decode_ffti : decodeCmd 0x0000000000000011#64 0x0000400000002000#64 = .ok (.ffti .env 0x2000#32 0x4000#32) := by decide

theorem test_decode_pow : decodeCmd 0x0000000000000112#64 0x0000300000002000#64 = .ok (.pow .ap 0x2000#32 0x3000#32) := by decide

theorem test_decode_wseg : decodeCmd 0x0000001000001B20#64 0x0000300000000000#64 = .ok (.wseg .ap .blackman true true 0x10#32 0x3000#32) := by decide

theorem test_decode_wgen : decodeCmd 0x0000001000000421#64 0x0000300000000000#64 = .ok (.wgen .nuttall 0x10#32 0x3000#32) := by decide

theorem test_decode_dccorr : decodeCmd 0x0000001000000030#64 0x0000400000003000#64 = .ok (.dccorr .env 0x10#32 0x3000#32 0x4000#32) := by decide

theorem test_decode_lsmooth : decodeCmd 0x0000001000000131#64 0x0000400000003000#64 = .ok (.lsmooth .ap 0x10#32 0x3000#32 0x4000#32) := by decide

theorem test_decode_lifter : decodeCmd 0x0000001800002032#64 0x0000400000003000#64 = .ok (.lifter .env true 0x18#32 0x3000#32 0x4000#32) := by decide

theorem test_decode_envrun : decodeCmd 0x0000000000000038#64 0x000000C800000001#64 = .ok (.envrun 1#32 200#32) := by decide

theorem test_decode_centroid : decodeCmd 0x0000000000000140#64 0x0000400000003000#64 = .ok (.centroid .ap 0x3000#32 0x4000#32) := by decide

theorem test_decode_gdelay : decodeCmd 0x0000001000000141#64 0x0000400000003000#64 = .ok (.gdelay .ap 0x10#32 0x3000#32 0x4000#32) := by decide

theorem test_decode_vuv : decodeCmd 0x0000000000000042#64 0x0000400000003000#64 = .ok (.vuv .env 0x3000#32 0x4000#32) := by decide

theorem test_decode_bandap : decodeCmd 0x0000001000000143#64 0x0000400000003000#64 = .ok (.bandap .ap 0x10#32 0x3000#32 0x4000#32) := by decide

theorem test_decode_apinterp : decodeCmd 0x0000000000000044#64 0x0000400000003000#64 = .ok (.apinterp .env 0x3000#32 0x4000#32) := by decide

theorem test_decode_aprun : decodeCmd 0x0000000000000048#64 0x000000C800000001#64 = .ok (.aprun 1#32 200#32) := by decide

/-- As bytes, W0 first, each word little-endian (R84, R110). -/
theorem test_decode_bytes : decode ([0x10, 0x01, 0, 0, 0, 0, 0, 0, 0x00, 0x10, 0, 0, 0x00, 0x20, 0, 0].map (BitVec.ofNat 8)) =
    .ok (.fftr .ap 0x1000#32 0x2000#32, []) := by decide

theorem test_decode_table_word :
    decodeTableWord 128 (0x0000200000001000 * 2 ^ 64 + 0x110) = some (.fftr .ap 0x1000#32 0x2000#32) := by decide

/-- V26: one word for each test of R119. -/
theorem test_reject_in_order :
    [decodeCmd 5 0, decodeCmd 0xFF 0, decodeCmd 0x10000 0, decodeCmd 0x210 0x0000200000001000,
      decodeCmd 0x4032 0x0000400000003000, decodeCmd 0x100000000 0, decodeCmd 0x1000000020 1, decodeCmd 2 0x100000000] =
    [.error .opcode, .error .opcode, .error .reserved, .error .flags, .error .flags, .error .prm, .error .src,
      .error .dst] := by decide

/-! ## One step of each command -/

/-- R270: NOP completes and sets DONE; MARK stays. -/
theorem test_nop : (after (running .nop machine)).status = 0x100#64 := by decide +kernel

/-- V25, R271: SIGNAL sets MARK. -/
theorem test_signal : (after (running .signal machine)).status = 0x500#64 := by decide +kernel

/-- V23 at FS = 16000: both exponents are 10. -/
theorem test_defaults : let t := after (running .defaults { machine with csr := { machine.csr with fs := 16000 } })
    (t.csr.log2nEnv, t.csr.log2nAp, t.done, t.csr.fs) = (10, 10, true, 16000) := by decide +kernel

/-- V23: without FS. -/
theorem test_defaults_error : failure (.defaults) (machine) = some (2, 0x80) := by decide +kernel

/-- V22: the floor 71.0 with margin 3.0 gives 1024. -/
theorem test_dfftsz : result (.dfftsz 0x10#32 0x20#32) (load [(0x10, [0x4051C00000000000, 0x4008000000000000])] small) 0x20 1 =
    some [1024] := by decide +kernel

/-- V22: no legal size reaches 0.5 Hz. -/
theorem test_dfftsz_error : failure (.dfftsz 0x10#32 0x20#32) (load [(0x10, [0x3FE0000000000000, 0x4008000000000000])] small) = some (6, 0) := by decide +kernel

/-- V21: 46.96673189823875. -/
theorem test_df0flr : result (.df0flr 0x10#32 0x20#32) (load [(0x10, [1024, 0x4008000000000000])] small) 0x20 1 =
    some [0x40477BBDDEEF77BC] := by decide +kernel

/-- V21: 1000 is no size. -/
theorem test_df0flr_error : failure (.df0flr 0x10#32 0x20#32) (load [(0x10, [1000, 0x4008000000000000])] small) = some (6, 0) := by decide +kernel

/-- The spectrum of the ramp `0.0 .. 15.0` (V3). -/
def rampSpectrum : List Word := [0x405E000000000000, 0, 0xC020000000000000, 0x40441BFEE2424770, 0xC020000000000000, 0x4033504F333F9DE6, 0xC020000000000000, 0x4027F218E25A7462, 0xC020000000000000, 0x4020000000000000, 0xC020000000000000, 0x401561B82AB7F990, 0xC020000000000000, 0x400A827999FCEF34, 0xC020000000000000, 0x3FF975F5E0553150, 0xC020000000000000, 0]

/-- V3, R142. -/
theorem test_fftr : result (.fftr .env 0x100#32 0x200#32) (load [(0x100, (List.range 16).map fofNat)] small) 0x202 2 =
    some [0xC020000000000000, 0x40441BFEE2424770] := by decide +kernel

/-- V7, R284: the source region passes the end of DMEM. -/
theorem test_fftr_error : failure (.fftr .env 0x3FFFF1#32 0x200#32) (small) = some (4, 1) := by decide +kernel

/-- V4, R143: the ramp times 16, not divided by N. -/
theorem test_ffti : result (.ffti .env 0x200#32 0x400#32) (load [(0x200, rampSpectrum)] small) 0x403 1 =
    some [0x4048000000000004] := by decide +kernel

/-- R116: LOG2N_AP is 0 at reset. -/
theorem test_ffti_error : failure (.ffti .ap 0x200#32 0x400#32) (small) = some (2, 0x98) := by decide +kernel

/-- V5, R144. -/
theorem test_pow : result (.pow .env 0x200#32 0x300#32) (load [(0x200, rampSpectrum)] small) 0x301 1 =
    some [0x409A462E31BDAE81] := by decide +kernel

/-- V7, R284: the destination region. -/
theorem test_pow_error : failure (.pow .env 0x200#32 0x3FFFF8#32) (small) = some (4, 2) := by decide +kernel

/-- Ones as waveform, and a parameter block for WSEG. -/
def waved (centre f0 r : Word) : State :=
  load [(0x10, [centre, f0, r]), (0x1000, ones 27)] { small with csr := { small.csr with xBase := 0x1000, xLen := 27 } }

/-- V10, R163: Hann around sample 20. -/
theorem test_wseg : result (.wseg .env .hann false false 0x10#32 0x2000#32) (waved 0x4034000000000000 0x40AF400000000000 0x4008000000000000) 0x2001 1 =
    some [0x3FB126145E9ECD54] := by decide +kernel

/-- V11, R162: a window of 25 points does not fit 16. -/
theorem test_wseg_error : failure (.wseg .env .hann false false 0x10#32 0x2000#32) (waved 0x4034000000000000 0x409F400000000000 0x4008000000000000) = some (7, 25) := by decide +kernel

/-- V12, R167. -/
theorem test_wgen : result (.wgen .nuttall 0x10#32 0x2000#32) (load [(0x10, [5])] machine) 0x2001 1 =
    some [0x3FCB139C94F69CA7] := by decide +kernel

/-- V9, R167: no points. -/
theorem test_wgen_error : failure (.wgen .hann 0x10#32 0x100#32) (load [(0x10, [0])] machine) = some (6, 0) := by decide +kernel

/-- One parameter word at `0x10` and a spectrum at `0x1000`. -/
def spectrum (f0 : Word) (p : List Word) : State := load [(0x10, [f0]), (0x1000, p)] small

/-- V13, R182. -/
theorem test_dccorr : result (.dccorr .env 0x10#32 0x1000#32 0x2000#32) (spectrum 0x4097700000000000 (ramp 9)) 0x2000 3 =
    some [0x400C000000000000, 0x400C000000000000, 0x4008000000000000] := by decide +kernel

/-- V13: `t` is 7.0. -/
theorem test_dccorr_error : failure (.dccorr .env 0x10#32 0x1000#32 0x2000#32) (spectrum 0x40BB580000000000 (ramp 9)) = some (6, 0) := by decide +kernel

/-- V14, R183. -/
theorem test_lsmooth : result (.lsmooth .env 0x10#32 0x1000#32 0x2000#32) (spectrum 0x409F400000000000 ((List.range 9).map fofNat)) 0x2000 2 =
    some [0x3FE0000000000000, 0x3FF0000000000000] := by decide +kernel

/-- V14: `t` is 8.0. -/
theorem test_lsmooth_error : failure (.lsmooth .env 0x10#32 0x1000#32 0x2000#32) (spectrum 0x40BF400000000000 (ones 9)) = some (6, 0) := by decide +kernel

/-- V15, R184: a flat spectrum of zeros comes back 11 ulps above ENV_EPS. -/
theorem test_lifter : result (.lifter .env true 0x10#32 0x1000#32 0x2000#32) (load [(0x10, [0x407F400000000000, 0xBFC3333333333333]), (0x1000, List.replicate 9 0)] small) 0x2004 1 =
    some [0x3CB000000000000B] := by decide +kernel

/-- V15: ENV_EPS is checked before the size. -/
theorem test_lifter_error : failure (.lifter .env false 0x10#32 0x1000#32 0x2000#32) ({ small with csr := { small.csr with envEps := 0, log2nEnv := 0 } }) = some (2, 0xD8) := by decide +kernel

/-- V16, R210: the impulse at 1. -/
theorem test_centroid : result (.centroid .env 0x1000#32 0x2000#32) (load [(0x1000, 0 :: f1 :: List.replicate 14 0)] small) 0x2002 1 =
    some [0x4000000000000001] := by decide +kernel

/-- R55: SAFE_MIN must be above 0. -/
theorem test_centroid_error : failure (.centroid .env 0x1000#32 0x2000#32) ({ small with csr := { small.csr with safeMin := 0 } }) = some (2, 0xD0) := by decide +kernel

/-- V17, R211: two flat spectra. -/
theorem test_gdelay : result (.gdelay .env 0x10#32 0x1000#32 0x2000#32) (spectrum 0x408F400000000000 (ones 18)) 0x2003 1 =
    some [0] := by decide +kernel

/-- R211: f0 must be above 0. -/
theorem test_gdelay_error : failure (.gdelay .env 0x10#32 0x1000#32 0x2000#32) (spectrum 0 (ones 18)) = some (6, 0) := by decide +kernel

/-- V18, R212. -/
theorem test_vuv : result (.vuv .env 0x1000#32 0x2000#32) (load [(0x1000, ones 9)] small) 0x2000 1 =
    some [0x3FDB6DB6DB6DB6DB] := by decide +kernel

/-- R47: FS. -/
theorem test_vuv_error : failure (.vuv .env 0x1000#32 0x2000#32) (machine) = some (2, 0x80) := by decide +kernel

/-- N = 64, one band at FS = 16000 (R220). -/
def banded (g : List Word) : State := load [(0x10, [0x4069000000000000]), (0x1000, g)] { small with csr := { small.csr with log2nEnv := 6 } }

/-- R220, R223: below 12000 Hz there is no band, so BANDAP completes and writes nothing. -/
theorem test_bandap : result (.bandap .env 0x10#32 0x1000#32 0x2000#32)
    { banded (ones 33) with csr := { (banded (ones 33)).csr with fs := 8000 } } 0x2000 0 = some [] := by decide +kernel

/-- V19: powers of 0 give -118.0 dB at an f0 of 200 Hz (R223). -/
theorem test_bandap_value : bandValue .cr Csr.reset.safeMin 0x4069000000000000 11 32 (List.replicate 33 0) =
    0xC05D800000000000 := by decide +kernel

/-- R222: 16 points have no room for a band of 3000 Hz. -/
theorem test_bandap_error : failure (.bandap .env 0x10#32 0x1000#32 0x2000#32) ({ banded (ones 33) with csr := small.csr }) = some (8, 0) := by decide +kernel

/-- V20, R224. -/
theorem test_apinterp : result (.apinterp .env 0x1000#32 0x2000#32) (load [(0x1000, [0xC034000000000000])] small) 0x2001 1 =
    some [0x3F73030F03DE998F] := by decide +kernel

/-- V20: AP_FLOOR must be above 0. -/
theorem test_apinterp_error : failure (.apinterp .env 0x1000#32 0x2000#32) ({ small with csr := { small.csr with apFloor := 0 } }) = some (2, 0xE0) := by decide +kernel

/-- The smallest frame engine run: N = 16, one frame, no waveform, its F0 word 0; FS is `fs`, F0_FLOOR is `floor`. -/
def framed (fs floor : Word) : State :=
  load [(0x5000, [0])] { small with csr := { small.csr with
    fs := fs, log2nAp := 4, f0Floor := floor, defaultF0 := floor, f0Base := 0x5000, f0Len := 1, envBase := 0x6000,
    apBase := 0x7000, outRows := 1, outCols := 9 } }

/-- R283: the shape. -/
theorem test_envrun_error : failure (.envrun 0#32 1#32) ({ framed 16000 0x40BAF40000000000 with csr := { (framed 16000 0x40BAF40000000000).csr with outCols := 8 } }) = some (3, 1) := by decide +kernel

/-- R226: the range ends after F0_LEN. -/
theorem test_aprun_error : failure (.aprun 1#32 1#32) (framed 8000 0x40AA900000000000) = some (6, 2) := by decide +kernel

/-! ## Host, queue and reset -/

/-- V29 and R73: ID, CAP0 (FP_MODE = CR), CAP1, CTRL, STATUS as the host reads them after power-on. -/
theorem test_identification : [0x000, 0x008, 0x010, 0x018, 0x020].map machine.regRead =
    [0x574F524C01000000, 0x0000000101101004, 0x400000, 0, 0] := by decide +kernel

/-- R66: a write of CMD_LO and one of CMD_HI queue a command; the host's turns come before the engine's. -/
theorem test_push : (after (after { machine with turns := [.host (.write 64 0x48 1), .host (.write 64 0x50 0)] })).queue =
    [⟨1, 0, [], 0, [], []⟩] := by decide +kernel

/-- R38: the engine pops the head. -/
theorem test_pop : (after { machine with queue := [⟨1, 0, [], 0, [], []⟩] }).engine = .exec ⟨1, 0, [], 0, [], []⟩ := by decide +kernel

/-- The host's probe: the bits of SIGNAL are the next command. -/
theorem test_withFetchWord : (after (State.reset.withFetchWord 128 1)).mark = true := by decide +kernel

/-- R285: raising records the command. -/
theorem test_raise_records :
    let t := after { machine with engine := .exec ⟨0x10, 0x0000200000001000, [], 0, [], []⟩, queue := [⟨1, 0, [], 0, [], []⟩] }
    (t.errCmd0, t.errCmd1, t.queue, t.engine) = (0x10, 0x0000200000001000, [], .halt) := by decide +kernel

/-- R15: 10^23 lies midway between two binary64 values and takes the even one; 10^-1 is the value nearest 0.1. -/
theorem test_pow10_tie : fpPow10 .cr 0x4037000000000000 = 0x44B52D02C7E14AF6 ∧
    fpPow10 .cr 0xBFF0000000000000 = 0x3FB999999999999A := by decide +kernel

theorem test_reset_memory_wf : State.reset.mem.wf := by decide

/-! ## A state for every statement that has hypotheses

`wit_X` meets the hypotheses of `Obligations.X`, clause by clause, at boundary values where the clause has a range. -/

/-- `small` at another sample rate. -/
def atFs (fs : Word) : State := { small with csr := { small.csr with fs := fs } }

theorem wit_DecodesWhatItEncodes :
    (Instr.wseg .ap .blackman true true 0xFFFFFFFF#32 0xFFFFFFFF#32).wf = true ∧ (Instr.wgen .nuttall 0 0).wf = true := by
  decide

theorem wit_EncodesWhatItDecodes :
    decodeCmd 0xFFFFFFFF00001B20#64 0xFFFFFFFF00000000#64 =
      .ok (.wseg .ap .blackman true true 0xFFFFFFFF#32 0xFFFFFFFF#32) := by decide

/-- A command of illegal opcode 5, with the error interrupt enabled and a command behind it. -/
def illegal : State := { machine with engine := .exec ⟨5, 0, [], 0, [], []⟩, queue := [⟨1, 0, [], 0, [], []⟩], ieErr := true }

/-- V26 once more: a word for each test of R119 that fails it and no test before it, and a state that executes one. -/
theorem wit_IllegalCommandsRaiseInOrder :
    (illegal.turns = [] ∧ illegal.engine = .exec ⟨5, 0, [], 0, [], []⟩) ∧ (failsTest 1 0x05 0 ∧ failsTest 1 0xFF 0) ∧ (failsTest 2 0x10000 0 ∧ ¬ failsTest 1 0x10000 0) ∧
    (failsTest 3 0x621 0 ∧ ∀ m, 1 ≤ m → m < 3 → ¬ failsTest m 0x621 0) ∧
    (failsTest 4 (2 ^ 63) 0 ∧ ∀ m, 1 ≤ m → m < 4 → ¬ failsTest m (2 ^ 63) 0) ∧
    (failsTest 5 0x20 1 ∧ ∀ m, 1 ≤ m → m < 5 → ¬ failsTest m 0x20 1) ∧
    (failsTest 6 2 (2 ^ 63) ∧ ∀ m, 1 ≤ m → m < 6 → ¬ failsTest m 2 (2 ^ 63)) ∧
    (∀ n, 1 ≤ n → n ≤ 6 → ¬ failsTest n 0x3B20 0 ∨ n = 3) ∧ (∀ n, 1 ≤ n → n ≤ 6 → ¬ failsTest n 0 0) := by
  refine ⟨⟨rfl, rfl⟩, ?_, ?_, ⟨?_, ?_⟩, ⟨?_, ?_⟩, ⟨?_, ?_⟩, ⟨?_, ?_⟩, ?_, ?_⟩ <;>
    first
    | (simp [failsTest, opcodesWith]; done)
    | (intro m h1 h2
       interval_cases m <;> simp [failsTest, opcodesWith])

theorem wit_StepRunsTheDecodedCommand :
    (running .signal machine).engine = .exec ⟨1, 0, [], 0, [], []⟩ ∧ decodeCmd 1 0 = .ok .signal ∧
      (running .signal machine).turns = [] ∧
      { running .signal machine with turns := [.engine, .engine] }.turns = .engine :: [.engine] := by decide

theorem wit_SequencerOutsideExec :
    ((let s := { machine with queue := [⟨1, 0, [], 0, [], []⟩] };
      s.turns = [] ∧ s.engine = .idle ∧ s.queue = ⟨1, 0, [], 0, [], []⟩ :: []) ∧
    (machine.turns = [] ∧ machine.engine = .idle ∧ machine.queue = []) ∧
    (let s := { machine with engine := .halt, err := true }; s.turns = [] ∧ s.engine = .halt) ∧
    ({ machine with turns := [.engine] }.turns = .engine :: [] ∧ { machine with turns := [.engine, .engine] }.turns = .engine :: [.engine]) ∧
    { machine with turns := [.host (.read 64 0)] }.turns = .host (.read 64 0) :: [] ∧
    { running .signal machine with turns := [.progress, .progress] }.turns = .progress :: [.progress] ∧
    (running .signal machine).engine = .exec ⟨1, 0, [], 0, [], []⟩) ∧
    ∀ c, { machine with turns := [.progress] }.engine ≠ .exec c :=
  ⟨by decide, fun _ => Engine.noConfusion⟩

theorem wit_RaisingRecordsTheCommand :
    illegal.turns = [] ∧ illegal.engine = .exec ⟨5, 0, [], 0, [], []⟩ ∧ illegal.ieErr = true ∧
      ∃ t, step illegal = .next t ∧ t.engine = .halt := ⟨rfl, rfl, rfl, illegal.raise ⟨.illegal, 1⟩, rfl, rfl⟩

theorem wit_PrimitiveErrorsChangeNoData :
    ∃ t, exec (.fftr .ap 0 0) small = .next t ∧ t.engine = .halt := ⟨_, exec_eq _ _, by decide +kernel⟩

theorem wit_OnlyDefaultsConfiguresOnlySignalMarks :
    (∃ t, exec .nop { machine with done := true, err := true } = .next t) ∧ Instr.nop ≠ .defaults ∧ Instr.nop ≠ .signal :=
  ⟨⟨_, exec_eq _ _⟩, by decide, by decide⟩

theorem wit_ParametersNeverChange : ∃ t, step machine = .next t := ⟨_, rfl⟩

/-- FS at the lower end of its range, and FS = 192000, where the two sizes differ (V23). -/
theorem wit_DefaultsCompletes :
    (FsOk (atFs 1) ∧ IsSizeExp (atFs 1) 0x4051C00000000000#64 marginEnv 4 ∧
      IsSizeExp (atFs 1) 0x4051C00000000000#64 marginAp 4) ∧
    FsOk (atFs 192000) ∧ IsSizeExp (atFs 192000) 0x4051C00000000000#64 marginEnv 13 ∧
      IsSizeExp (atFs 192000) 0x4051C00000000000#64 marginAp 14 := by
  unfold FsOk IsSizeExp
  decide +kernel

/-- The last words of DMEM as parameter block and destination. -/
theorem wit_DfftszCompletes :
    let s := load [(0x3FFFFE, [0x4051C00000000000, 0x4008000000000000])] small
    FsOk s ∧ 0x3FFFFE + 2 ≤ s.cfg.dmemWords ∧ 0x3FFFFF + 1 ≤ s.cfg.dmemWords ∧ Positive (s.cmdRead tagPrm 0x3FFFFE) ∧
      Positive (s.cmdRead tagPrm 0x3FFFFF) ∧
      IsSizeExp s (s.cmdRead tagPrm 0x3FFFFE) (s.cmdRead tagPrm 0x3FFFFF) 10 := by
  unfold FsOk Positive IsSizeExp
  decide +kernel

theorem wit_DfZeroFlrCompletes : ∀ k ∈ [4, 16],
    let s := load [(0x3FFFFE, [BitVec.ofNat 64 (2 ^ k), 0x4008000000000000])] small
    FsOk s ∧ 0x3FFFFE + 2 ≤ s.cfg.dmemWords ∧ 0x3FFFFF + 1 ≤ s.cfg.dmemWords ∧
      (s.cmdRead tagPrm 0x3FFFFE).toNat = 2 ^ k ∧ s.cfg.log2nMin ≤ k ∧ k ≤ s.cfg.log2nMax ∧
      Positive (s.cmdRead tagPrm 0x3FFFFF) := by
  unfold FsOk Positive
  decide +kernel

/-- `small` with size exponent `l`. -/
def sized (l : Word) : State := { small with csr := { small.csr with log2nEnv := l, log2nAp := l } }

theorem wit_FftrCompletes : ∀ q ∈ [(4#64, 0x3FFFF0, 0x3FFFEE), (16, 0x3F0000, 0x3EFFFE)],
    let s := sized q.1
    s.cfg.Legal ∧ SizeOk s .ap ∧ q.2.1 + 2 ^ s.sizeExp .ap ≤ s.cfg.dmemWords ∧
      q.2.2 + (2 ^ s.sizeExp .ap + 2) ≤ s.cfg.dmemWords := by
  unfold SizeOk
  decide +kernel

theorem wit_FftiCompletes : small.cfg.Legal ∧ SizeOk small .env ∧
    0x3FFFEE + (2 ^ small.sizeExp .env + 2) ≤ small.cfg.dmemWords ∧
    0x3FFFF0 + 2 ^ small.sizeExp .env ≤ small.cfg.dmemWords := by
  unfold SizeOk
  decide +kernel

theorem wit_PowCompletes : small.cfg.Legal ∧ SizeOk small .env ∧
    0x3FFFEE + (2 ^ small.sizeExp .env + 2) ≤ small.cfg.dmemWords ∧
    0x3FFFF7 + (2 ^ small.sizeExp .env / 2 + 1) ≤ small.cfg.dmemWords := by
  unfold SizeOk
  decide +kernel

/-- A window of 15 points in 16. -/
theorem wit_WsegCompletes :
    let s := waved 0x4034000000000000 0x40AAC923D70A3D71 0x4008000000000000
    Win.hann ≠ .nuttall ∧ FsOk s ∧ SizeOk s .env ∧ 0x10 + 3 ≤ s.cfg.dmemWords ∧
      s.csr.xBase.toNat + s.csr.xLen.toNat ≤ s.cfg.dmemWords ∧ 0x3FFFF0 + 2 ^ s.sizeExp .env ≤ s.cfg.dmemWords ∧
      isFinite (s.cmdRead tagPrm 0x10) = true ∧ Positive (s.cmdRead tagPrm 0x11) ∧ Positive (s.cmdRead tagPrm 0x12) ∧
      Spec.winLen s.csr.fsF (s.cmdRead tagPrm 0x12) (s.cmdRead tagPrm 0x11) = 15 ∧
      SegmentOk s.csr.fsF (s.sizeExp .env) (s.sample tagX) (s.cmdRead tagPrm 0x10) (s.cmdRead tagPrm 0x11)
        (s.cmdRead tagPrm 0x12) := by
  unfold FsOk SizeOk Positive SegmentOk
  decide +kernel

theorem wit_WgenCompletes : ∀ len ∈ [1, 2 ^ 16],
    let s := load [(0x3FFFFF, [BitVec.ofNat 64 len])] machine
    0x3FFFFF + 1 ≤ s.cfg.dmemWords ∧ (s.cmdRead tagPrm 0x3FFFFF).toNat = len ∧ 1 ≤ len ∧ len ≤ 2 ^ s.cfg.log2nMax ∧
      0x3F0000 + len ≤ s.cfg.dmemWords := by decide +kernel

/-- A parameter word in the last word of DMEM. -/
def withF0 (f0 : Word) : State := load [(0x3FFFFF, [f0])] small

/-- The hypotheses of the statement on DCCORR for parameter word `p`. -/
def DccorrCase (p : Word) : Prop :=
  let s := withF0 p
  s.cfg.Legal ∧ FsOk s ∧ SizeOk s .env ∧ 0x3FFFFF + 1 ≤ s.cfg.dmemWords ∧
    0x3FFFF7 + (2 ^ s.sizeExp .env / 2 + 1) ≤ s.cfg.dmemWords ∧ Positive (s.cmdRead tagPrm 0x3FFFFF) ∧
    DcFits s.csr.fsF (s.sizeExp .env) (s.cmdRead tagPrm 0x3FFFFF)

/-- An f0 just below the limit of 7000 Hz, and the smallest positive one. -/
theorem wit_DccorrCompletes : DccorrCase 0x40BB570000000000#64 ∧ DccorrCase 1#64 := by
  unfold DccorrCase FsOk SizeOk Positive DcFits DcInGrid InGrid
  decide +kernel

/-- The hypotheses of the statement on LSMOOTH for parameter word `p`. -/
def LsmoothCase (p : Word) : Prop :=
  let s := withF0 p
  s.cfg.Legal ∧ FsOk s ∧ SizeOk s .env ∧ 0x3FFFFF + 1 ≤ s.cfg.dmemWords ∧
    0x3FFFF7 + (2 ^ s.sizeExp .env / 2 + 1) ≤ s.cfg.dmemWords ∧ Positive (s.cmdRead tagPrm 0x3FFFFF) ∧
    SmoothFits s.csr.fsF (s.sizeExp .env) (s.cmdRead tagPrm 0x3FFFFF)

/-- A width just below the limit of 8000 Hz, and a narrow one. -/
theorem wit_LsmoothCompletes : LsmoothCase 0x40BF3F0000000000#64 ∧ LsmoothCase f1 := by
  unfold LsmoothCase FsOk SizeOk Positive SmoothFits SmoothInGrid InGrid
  decide +kernel

theorem wit_LifterCompletes :
    let s := load [(0x3FFFFE, [1, 0xBFC3333333333333])] small
    s.cfg.Legal ∧ FsOk s ∧ Positive s.csr.envEps ∧ SizeOk s .env ∧ 0x3FFFFE + 2 ≤ s.cfg.dmemWords ∧
      0x3FFFF7 + (2 ^ s.sizeExp .env / 2 + 1) ≤ s.cfg.dmemWords ∧ Positive (s.cmdRead tagPrm 0x3FFFFE) ∧
      isFinite (s.cmdRead tagPrm 0x3FFFFF) = true := by
  unfold FsOk SizeOk Positive
  decide +kernel

theorem wit_CentroidCompletes : small.cfg.Legal ∧ Positive small.csr.safeMin ∧ SizeOk small .env ∧
    0x3FFFF0 + 2 ^ small.sizeExp .env ≤ small.cfg.dmemWords ∧
    0x3FFFF7 + (2 ^ small.sizeExp .env / 2 + 1) ≤ small.cfg.dmemWords := by
  unfold SizeOk Positive
  decide +kernel

theorem wit_GdelayCompletes :
    let s := withF0 0x40BF3F0000000000
    s.cfg.Legal ∧ FsOk s ∧ Positive s.csr.safeMin ∧ SizeOk s .env ∧ 0x3FFFFF + 1 ≤ s.cfg.dmemWords ∧
      0x3FFFEE + 2 * (2 ^ s.sizeExp .env / 2 + 1) ≤ s.cfg.dmemWords ∧
      0x3FFFF7 + (2 ^ s.sizeExp .env / 2 + 1) ≤ s.cfg.dmemWords ∧ Positive (s.cmdRead tagPrm 0x3FFFFF) ∧
      SmoothFits s.csr.fsF (s.sizeExp .env) (s.cmdRead tagPrm 0x3FFFFF) ∧
      SmoothFits s.csr.fsF (s.sizeExp .env) (fdiv (s.cmdRead tagPrm 0x3FFFFF) f2) := by
  unfold FsOk SizeOk Positive SmoothFits SmoothInGrid InGrid
  decide +kernel

theorem wit_VuvCompletes : small.cfg.Legal ∧ FsOk small ∧ Positive small.csr.safeMin ∧ SizeOk small .env ∧
    0x3FFFF7 + (2 ^ small.sizeExp .env / 2 + 1) ≤ small.cfg.dmemWords ∧ 0x3FFFFF + 1 ≤ small.cfg.dmemWords := by
  unfold FsOk SizeOk Positive
  decide +kernel

/-- One band in 64 points at 16000 Hz, and no band at 11999 Hz. -/
theorem wit_BandapCompletes : ∀ q ∈ [(16000#64, 6#64, 1), (11999, 4, 0)],
    let s := { withF0 1 with csr := { small.csr with fs := q.1, log2nEnv := q.2.1 } }
    s.cfg.Legal ∧ FsOk s ∧ Positive s.csr.safeMin ∧ SizeOk s .env ∧ 0x3FFFFF + 1 ≤ s.cfg.dmemWords ∧
      0x3FFFDF + (2 ^ s.sizeExp .env / 2 + 1) ≤ s.cfg.dmemWords ∧ Spec.bandCount s.csr.fsF = q.2.2 ∧
      0x3FFFFF + Spec.bandCount s.csr.fsF ≤ s.cfg.dmemWords ∧ Positive (s.cmdRead tagPrm 0x3FFFFF) ∧
      Spec.bandsLegal s.csr.fsF (s.sizeExp .env) = true := by
  unfold FsOk SizeOk Positive
  decide +kernel

theorem wit_ApinterpCompletes : small.cfg.Legal ∧ FsOk small ∧ isFinite small.csr.apDcDb = true ∧
    Positive small.csr.safeMin ∧ Positive small.csr.apFloor ∧ fle small.csr.apFloor f1 = true ∧ SizeOk small .env ∧
    0x3FFFFF + Spec.bandCount small.csr.fsF ≤ small.cfg.dmemWords ∧
    0x3FFFF7 + (2 ^ small.sizeExp .env / 2 + 1) ≤ small.cfg.dmemWords := by
  unfold FsOk SizeOk Positive
  decide +kernel

/-! ### Frame engines -/

/-- Phase 1 of ENVRUN passes on the one frame, and on the empty range after it. -/
theorem envReady : ∀ q ∈ [(0, 1), (1, 0)], EnvReady (framed 16000 0x40BAF40000000000) q.1 q.2 := by
  have hc : ∀ row ∈ envConfigRows (framed 16000 0x40BAF40000000000), row.1 = true := by decide +kernel
  have hl : ∀ i, 0 ≤ i → i < 0 + 1 →
      flt (Spec.bins (framed 16000 0x40BAF40000000000).csr.fsF 4 (frameF0 (framed 16000 0x40BAF40000000000) i))
        (fofNat (2 ^ 4 / 2 - 1)) = true ∧
      flt (Spec.bins (framed 16000 0x40BAF40000000000).csr.fsF 4
        (fmul (framed 16000 0x40BAF40000000000).csr.envLsmRatio (frameF0 (framed 16000 0x40BAF40000000000) i)))
        (fofNat (2 ^ 4 / 2)) = true := by decide +kernel
  intro q hq
  simp only [List.mem_cons, List.not_mem_nil, or_false] at hq
  rcases hq with rfl | rfl
  · exact ⟨hc, by constructor <;> decide +kernel, hl⟩
  · exact ⟨hc, by constructor <;> decide +kernel, fun i h1 h2 => by omega⟩

/-- The frame's segment, correction and smoothing. -/
theorem envFrame :
    SegmentOk (framed 16000 0x40BAF40000000000).csr.fsF 4 ((framed 16000 0x40BAF40000000000).sample (tagWave 0 0))
      (Spec.frameCentre (framed 16000 0x40BAF40000000000).csr 0) (frameF0 (framed 16000 0x40BAF40000000000) 0) envRatio ∧
    DcFits (framed 16000 0x40BAF40000000000).csr.fsF 4 (frameF0 (framed 16000 0x40BAF40000000000) 0) ∧
    SmoothFits (framed 16000 0x40BAF40000000000).csr.fsF 4
      (fmul (framed 16000 0x40BAF40000000000).csr.envLsmRatio (frameF0 (framed 16000 0x40BAF40000000000) 0)) := by
  unfold SegmentOk DcFits DcInGrid SmoothFits SmoothInGrid InGrid
  decide +kernel

/-- The row that a frame engine computed, all finite. -/
def finiteRow (x : Check (List Word)) : Bool :=
  match x with
  | .ok v => v.all isFinite
  | .error _ => false

/-- Its first value. -/
def firstOf (x : Check (List Word)) : Word :=
  match x with
  | .ok v => v.getD 0 f0p0
  | .error _ => f0p0

theorem finite_of_row {x : Check (List Word)} {v : List Word} {n k : Nat} {y : Word} (h : finiteRow x = true)
    (e : x = .ok v) (hn : v.length = n + 1) (hk : k ≤ n) (hv : v.getD k f0p0 = y) : isFinite y = true := by
  subst e
  rw [← hv, List.getD_eq_getElem _ _ (by omega)]
  exact List.all_eq_true.1 h _ (List.getElem_mem _)

theorem wit_EnvrunCompletes :
    (framed 16000 0x40BAF40000000000).cfg.Legal ∧ EnvReady (framed 16000 0x40BAF40000000000) 0 1 ∧
      EnvReady (framed 16000 0x40BAF40000000000) 1 0 ∧
      ∀ i, 0 ≤ i → i < 0 + 1 → EnvFrameOk (framed 16000 0x40BAF40000000000) i := by
  refine ⟨by decide +kernel, envReady (0, 1) (by simp), envReady (1, 0) (by simp), fun i h1 h2 => ?_⟩
  obtain rfl : i = 0 := by omega
  obtain ⟨a, b, c⟩ := envFrame
  refine ⟨a, b, c, fun k hk => ?_⟩
  rw [frameCentre_spec] at a
  obtain ⟨v, e, n, hv⟩ := envRow_ok (s := framed 16000 0x40BAF40000000000) (i := 0) (by decide +kernel) (by decide +kernel)
    (by decide +kernel) a b c
  have hf : finiteRow ((framed 16000 0x40BAF40000000000).envRow 0) = true := by decide +kernel
  exact finite_of_row hf e n hk (hv k hk)

/-- `framed` at 8000 Hz with samples 1.0, 2.0, .. under the window, which the gate calls voiced. -/
def voiced : State :=
  load [(0x4000, ramp 12), (0x5000, [0])]
    { framed 8000 0x40AA900000000000 with
      csr := { (framed 8000 0x40AA900000000000).csr with xBase := 0x4000, xLen := 12 } }

theorem apReady : (∀ q ∈ [(0, 1), (1, 0)], ApReady (framed 8000 0x40AA900000000000) q.1 q.2) ∧ ApReady voiced 0 1 := by
  have hc : (∀ row ∈ apConfigRows (framed 8000 0x40AA900000000000), row.1 = true) ∧
    ∀ row ∈ apConfigRows voiced, row.1 = true := by decide +kernel
  have hl : ∀ i, 0 ≤ i → i < 0 + 1 →
      flt (Spec.bins (framed 8000 0x40AA900000000000).csr.fsF 4 (frameF0 (framed 8000 0x40AA900000000000) i))
        (fofNat (2 ^ 4 / 2 - 1)) = true ∧
      flt (Spec.bins voiced.csr.fsF 4 (frameF0 voiced i)) (fofNat (2 ^ 4 / 2 - 1)) = true := by decide +kernel
  refine ⟨fun q hq => ?_, ⟨hc.2, by constructor <;> decide +kernel, fun i h1 h2 => (hl i h1 h2).2⟩⟩
  simp only [List.mem_cons, List.not_mem_nil, or_false] at hq
  rcases hq with rfl | rfl
  · exact ⟨hc.1, by constructor <;> decide +kernel, fun i h1 h2 => (hl i h1 h2).1⟩
  · exact ⟨hc.1, by constructor <;> decide +kernel, fun i h1 h2 => by omega⟩

theorem apBand (seg : Nat) (r : Word) (h : (seg, r) ∈ [(1, apGdRatioS), (4, apGdRatioM), (7, apGdRatioL)]) :
    ApBandOk voiced 0 seg r := by
  have key : ∀ q ∈ [(1, apGdRatioS), (4, apGdRatioM), (7, apGdRatioL)],
      SegmentOk voiced.csr.fsF 4 (voiced.sample (tagWave q.1 0)) (fsub (Spec.frameCentre voiced.csr 0) (quarterPeriod voiced 0))
        (frameF0 voiced 0) q.2 ∧
      SegmentOk voiced.csr.fsF 4 (voiced.sample (tagWave (q.1 + 1) 0))
        (fadd (Spec.frameCentre voiced.csr 0) (quarterPeriod voiced 0)) (frameF0 voiced 0) q.2 ∧
      SegmentOk voiced.csr.fsF 4 (voiced.sample (tagWave (q.1 + 2) 0)) (Spec.frameCentre voiced.csr 0) (frameF0 voiced 0) q.2 := by
    unfold SegmentOk
    decide +kernel
  obtain ⟨a, b, c⟩ := key _ h
  exact ⟨a, b, c⟩

theorem apFrame :
    SegmentOk voiced.csr.fsF 4 (voiced.sample (tagWave 0 0)) (Spec.frameCentre voiced.csr 0) (frameF0 voiced 0) apVuvRatio ∧
    DcFits voiced.csr.fsF 4 (frameF0 voiced 0) ∧ SmoothFits voiced.csr.fsF 4 (frameF0 voiced 0) ∧
    SmoothFits voiced.csr.fsF 4 (fdiv (frameF0 voiced 0) f2) := by
  unfold SegmentOk DcFits DcInGrid SmoothFits SmoothInGrid InGrid
  decide +kernel

/-- A voiced frame that meets no error: both its clauses are met, the gate being above AP_THRESHOLD (else bin 0 would be
the unvoiced one). -/
theorem wit_AprunCompletes :
    voiced.cfg.Legal ∧ ApReady voiced 0 1 ∧ ApReady (framed 8000 0x40AA900000000000) 1 0 ∧
      (∀ i, 0 ≤ i → i < 0 + 1 → ApFrameOk voiced i) ∧ flt voiced.csr.apThreshold (loopGate voiced 0) = true := by
  obtain ⟨a, b, c, d⟩ := apFrame
  have hv : ApBandOk voiced 0 1 apGdRatioS ∧ ApBandOk voiced 0 4 apGdRatioM ∧ ApBandOk voiced 0 7 apGdRatioL ∧
      DcFits voiced.csr.fsF voiced.csr.log2nAp.toNat (frameF0 voiced 0) ∧
      SmoothFits voiced.csr.fsF voiced.csr.log2nAp.toNat (frameF0 voiced 0) ∧
      SmoothFits voiced.csr.fsF voiced.csr.log2nAp.toNat (fdiv (frameF0 voiced 0) f2) :=
    ⟨apBand 1 _ (by simp), apBand 4 _ (by simp), apBand 7 _ (by simp), b, c, d⟩
  have a' := a
  rw [frameCentre_spec] at a'
  obtain ⟨v, e, n, hr⟩ := apRow_ok (s := voiced) (i := 0) (by decide +kernel) (by decide +kernel) (by decide +kernel) a'
    fun _ => hv
  have hf : finiteRow (voiced.apRow 0) ∧
      firstOf (voiced.apRow 0) ≠ fmin (fmax (fsub f1 voiced.csr.safeMin) voiced.csr.apFloor) f1 := by decide +kernel
  refine ⟨by decide +kernel, apReady.2, apReady.1 (1, 0) (by simp), fun i h1 h2 => ?_, ?_⟩
  · obtain rfl : i = 0 := by omega
    exact ⟨a, fun _ => hv, fun k hk => finite_of_row hf.1 e n hk (hr k hk)⟩
  · by_contra h
    have h0 := hr 0 (Nat.zero_le _)
    unfold loopApRow at h0
    rw [if_neg h] at h0
    refine hf.2 ?_
    rw [e]
    exact h0


/-! ### Errors -/

/-- `framed` with a waveform of one NaN: phase 1 passes and phase 2 fails. -/
def framedNaN (fs floor : Word) : State :=
  load [(0x4000, [fNaN]), (0x5000, [0])]
    { framed fs floor with csr := { (framed fs floor).csr with xBase := 0x4000, xLen := 1 } }

theorem envReadyNaN : EnvReady (framedNaN 16000 0x40BAF40000000000) 0 1 := by
  have hc : ∀ row ∈ envConfigRows (framedNaN 16000 0x40BAF40000000000), row.1 = true := by decide +kernel
  have hl : ∀ i, 0 ≤ i → i < 0 + 1 →
      flt (Spec.bins (framedNaN 16000 0x40BAF40000000000).csr.fsF 4 (frameF0 (framedNaN 16000 0x40BAF40000000000) i))
        (fofNat (2 ^ 4 / 2 - 1)) = true ∧
      flt (Spec.bins (framedNaN 16000 0x40BAF40000000000).csr.fsF 4
        (fmul (framedNaN 16000 0x40BAF40000000000).csr.envLsmRatio (frameF0 (framedNaN 16000 0x40BAF40000000000) i)))
        (fofNat (2 ^ 4 / 2)) = true := by decide +kernel
  exact ⟨hc, by constructor <;> decide +kernel, hl⟩

theorem apReadyNaN : ApReady (framedNaN 8000 0x40AA900000000000) 0 1 := by
  have hc : ∀ row ∈ apConfigRows (framedNaN 8000 0x40AA900000000000), row.1 = true := by decide +kernel
  have hl : ∀ i, 0 ≤ i → i < 0 + 1 →
      flt (Spec.bins (framedNaN 8000 0x40AA900000000000).csr.fsF 4 (frameF0 (framedNaN 8000 0x40AA900000000000) i))
        (fofNat (2 ^ 4 / 2 - 1)) = true := by decide +kernel
  exact ⟨hc, by constructor <;> decide +kernel, hl⟩

/-- The segment of ENVRUN on `framedNaN` fits and holds the NaN. -/
theorem segmentNaN : Spec.winFits (framedNaN 16000 0x40BAF40000000000).csr.fsF envRatio
      (frameF0 (framedNaN 16000 0x40BAF40000000000) 0) (2 ^ 4) = true ∧
    ¬ SegmentOk (framedNaN 16000 0x40BAF40000000000).csr.fsF 4 ((framedNaN 16000 0x40BAF40000000000).sample (tagWave 0 0))
      (Spec.frameCentre (framedNaN 16000 0x40BAF40000000000).csr 0) (frameF0 (framedNaN 16000 0x40BAF40000000000) 0)
      envRatio := by
  unfold SegmentOk
  decide +kernel

/-- So does the first of APRUN. -/
theorem gateNaN : Spec.winFits (framedNaN 8000 0x40AA900000000000).csr.fsF apVuvRatio
      (frameF0 (framedNaN 8000 0x40AA900000000000) 0) (2 ^ 4) = true ∧
    ¬ SegmentOk (framedNaN 8000 0x40AA900000000000).csr.fsF 4 ((framedNaN 8000 0x40AA900000000000).sample (tagWave 0 0))
      (Spec.frameCentre (framedNaN 8000 0x40AA900000000000).csr 0) (frameF0 (framedNaN 8000 0x40AA900000000000) 0)
      apVuvRatio := by
  unfold SegmentOk
  decide +kernel

/-- Frame 0 of either engine fails its second check, and the range holds no frame below it. -/
theorem wit_FrameErrorsSpoilOnlyTheirRows :
    ((framedNaN 16000 0x40BAF40000000000).cfg.Legal ∧ EnvReady (framedNaN 16000 0x40BAF40000000000) 0 1 ∧
      FirstFails (envFrameChecks (framedNaN 16000 0x40BAF40000000000) 0) .nonfinite) ∧
    ((framedNaN 8000 0x40AA900000000000).cfg.Legal ∧ ApReady (framedNaN 8000 0x40AA900000000000) 0 1 ∧
      FirstFails (apFrameChecks (framedNaN 8000 0x40AA900000000000) 0) .nonfinite) ∧
    (∃ t, exec (.envrun 0 1) (framedNaN 16000 0x40BAF40000000000) = .next t ∧ t.engine = .halt) ∧
    (∃ t, exec (.aprun 0 1) (framedNaN 8000 0x40AA900000000000) = .next t ∧ t.engine = .halt) ∧
    8 * 0x6000 - 1 < 8 * (0x6000 + 0 * 9) ∧ 8 * (0x6000 + (0 + 1) * 9) ≤ 8 * 0x6009 := by
  refine ⟨⟨by decide +kernel, envReadyNaN, [_], _, _, rfl, fun c hc => ?_, fun h => segmentNaN.2 ⟨segmentNaN.1, h⟩⟩,
    ⟨by decide +kernel, apReadyNaN, [_], _, _, rfl, fun c hc => ?_, fun h => gateNaN.2 ⟨gateNaN.1, h⟩⟩,
    ⟨_, exec_eq _ _, by decide +kernel⟩, ⟨_, exec_eq _ _, by decide +kernel⟩, by decide, by decide⟩
  · rw [List.mem_singleton] at hc
    subst hc
    exact segmentNaN.1
  · rw [List.mem_singleton] at hc
    subst hc
    exact gateNaN.1

/-- An exponent below the range and one above it; the last word of a region outside DMEM. -/
theorem wit_TransformErrors : ¬ SizeOk (sized 3) .env ∧ ¬ SizeOk (sized 17) .ap ∧ SizeOk (sized 4) .env ∧
    (let s := sized 4; let n := 2 ^ s.sizeExp .env
      s.cfg.dmemWords < 0x3FFFF1 + n ∧ 0x3FFFF0 + n ≤ s.cfg.dmemWords ∧ s.cfg.dmemWords < 0x3FFFEF + (n + 2) ∧
        0x3FFFEE + (n + 2) ≤ s.cfg.dmemWords ∧ s.cfg.dmemWords < 0x3FFFF8 + (n / 2 + 1)) := by
  unfold SizeOk
  decide +kernel

theorem wit_SampleRateErrors : ¬ FsOk (atFs 0) ∧ ¬ FsOk (atFs 0x80000000) ∧ Win.hann ≠ .nuttall := by
  unfold FsOk
  decide +kernel

/-- `waved` with another first sample. -/
def wavedFrom (x centre f0 r : Word) : State :=
  load [(0x10, [centre, f0, r]), (0x1000, x :: ones 26)]
    { small with csr := { small.csr with xBase := 0x1000, xLen := 27 } }

theorem wit_WsegErrors :
    ([fsRow machine, sizeRow machine .env].find? (fun row => !row.1) = some (false, 0x080) ∧
      [fsRow (sized 3), sizeRow (sized 3) .env].find? (fun row => !row.1) = some (false, 0x090) ∧
      [fsRow (sized 17), sizeRow (sized 17) .ap].find? (fun row => !row.1) = some (false, 0x098)) ∧
    (Win.hann ≠ .nuttall ∧ FsOk small ∧ SizeOk small .env ∧ small.cfg.dmemWords < 0x3FFFFE + 3) ∧
    (let s := { small with csr := { small.csr with xBase := 0x3FFFFF, xLen := 2 } };
      FsOk s ∧ SizeOk s .env ∧ 0x3FFFFD + 3 ≤ s.cfg.dmemWords ∧
        s.cfg.dmemWords < s.csr.xBase.toNat + s.csr.xLen.toNat) ∧
    (let s := wavedFrom f1 fNaN f1 f1;
      FsOk s ∧ SizeOk s .env ∧ 0x10 + 3 ≤ s.cfg.dmemWords ∧ s.csr.xBase.toNat + s.csr.xLen.toNat ≤ s.cfg.dmemWords ∧
        s.cfg.dmemWords < 0x3FFFF1 + 2 ^ s.sizeExp .env ∧ 0x3FFFF0 + 2 ^ s.sizeExp .env ≤ s.cfg.dmemWords ∧
        isFinite (s.cmdRead tagPrm 0x10) = false) ∧
    (let s := wavedFrom f1 f1 fNaN f1;
      isFinite (s.cmdRead tagPrm 0x10) = true ∧ isFinite (s.cmdRead tagPrm 0x11) = false) ∧
    (let s := wavedFrom f1 f1 f1 0x7FF0000000000000;
      isFinite (s.cmdRead tagPrm 0x11) = true ∧ isFinite (s.cmdRead tagPrm 0x12) = false) ∧
    (let s := wavedFrom f1 f1 0 f1;
      isFinite (s.cmdRead tagPrm 0x11) = true ∧ isFinite (s.cmdRead tagPrm 0x12) = true ∧
        flt f0p0 (s.cmdRead tagPrm 0x11) = false) ∧
    (let s := wavedFrom f1 f1 1 0x8000000000000000;
      flt f0p0 (s.cmdRead tagPrm 0x11) = true ∧ isFinite (s.cmdRead tagPrm 0x12) = true ∧
        flt f0p0 (s.cmdRead tagPrm 0x12) = false) ∧
    (let s := wavedFrom f1 f1 1 f1;
      flt f0p0 (s.cmdRead tagPrm 0x12) = true ∧
        isFinite (Spec.halfLength s.csr.fsF (s.cmdRead tagPrm 0x12) (s.cmdRead tagPrm 0x11)) = false) ∧
    (let s := wavedFrom f1 f1 0x40A7700000000000 0x4008000000000000;
      isFinite (Spec.halfLength s.csr.fsF (s.cmdRead tagPrm 0x12) (s.cmdRead tagPrm 0x11)) = true ∧
        2 ^ s.sizeExp .env < Spec.winLen s.csr.fsF (s.cmdRead tagPrm 0x12) (s.cmdRead tagPrm 0x11)) := by
  unfold FsOk SizeOk
  decide +kernel

/-- Sample 0, the eighth under a window of 15 points, is a NaN; those before the waveform are 0. -/
theorem wit_WsegErrors_sample :
    let s := wavedFrom fNaN f0p0 0x40AAC923D70A3D71 0x4008000000000000;
    FsOk s ∧ SizeOk s .env ∧ 0x10 + 3 ≤ s.cfg.dmemWords ∧ s.csr.xBase.toNat + s.csr.xLen.toNat ≤ s.cfg.dmemWords ∧
      isFinite (s.cmdRead tagPrm 0x10) = true ∧ isFinite (s.cmdRead tagPrm 0x11) = true ∧
      isFinite (s.cmdRead tagPrm 0x12) = true ∧ flt f0p0 (s.cmdRead tagPrm 0x11) = true ∧
      flt f0p0 (s.cmdRead tagPrm 0x12) = true ∧
      isFinite (Spec.halfLength s.csr.fsF (s.cmdRead tagPrm 0x12) (s.cmdRead tagPrm 0x11)) = true ∧
      Spec.winLen s.csr.fsF (s.cmdRead tagPrm 0x12) (s.cmdRead tagPrm 0x11) = 15 ∧
      Spec.winH s.csr.fsF (s.cmdRead tagPrm 0x12) (s.cmdRead tagPrm 0x11) = 7 ∧ Spec.origin (s.cmdRead tagPrm 0x10) = 0 ∧
      (∀ j : Nat, j < 7 → isFinite (s.sample tagX (0 + (j : Int) - (7 : Nat))) = true) ∧
      isFinite (s.sample tagX (0 + ((7 : Nat) : Int) - (7 : Nat))) = false := by
  unfold FsOk SizeOk
  decide +kernel

theorem wit_WgenErrors : machine.cfg.dmemWords < 0x400000 + 1 ∧
    (∀ len ∈ [0, 2 ^ 16 + 1], let s := load [(0x3FFFFF, [BitVec.ofNat 64 len])] machine
      0x3FFFFF + 1 ≤ s.cfg.dmemWords ∧
        ((s.cmdRead tagPrm 0x3FFFFF).toNat < 1 ∨ 2 ^ s.cfg.log2nMax < (s.cmdRead tagPrm 0x3FFFFF).toNat)) ∧
    ∀ len ∈ [1, 2 ^ 16], let s := load [(0x3FFFFF, [BitVec.ofNat 64 len])] machine
      1 ≤ (s.cmdRead tagPrm 0x3FFFFF).toNat ∧ (s.cmdRead tagPrm 0x3FFFFF).toNat ≤ 2 ^ s.cfg.log2nMax ∧
        s.cfg.dmemWords < 0x400000 + (s.cmdRead tagPrm 0x3FFFFF).toNat := by decide +kernel

/-- No size reaches the floor: the quotient at the largest exponent is still above it, and so at every other. -/
theorem noSize {s : State} {f r : Word} (h : ∀ k ∈ List.range (s.cfg.log2nMax + 1), s.cfg.log2nMin ≤ k →
    fle (fdiv (fmul r s.csr.fsF) (fsub (fofNat (2 ^ k)) f2)) f = false) (k : Nat) : ¬ IsSizeExp s f r k := by
  rintro ⟨h1, h2, h3, -⟩
  rw [h k (List.mem_range.2 (by omega)) h1] at h3
  cases h3

/-- The parameter pair of the two helper commands. -/
def paired (a r : Word) : State := load [(0x10, [a, r])] small

theorem wit_HelperErrors_sizes :
    (∀ k, ¬ IsSizeExp (atFs 0x7FFFFFFF) 0x4051C00000000000#64 marginEnv k) ∧
    (∀ k, ¬ IsSizeExp (paired 0x3FE0000000000000 0x4008000000000000)
      ((paired 0x3FE0000000000000 0x4008000000000000).cmdRead tagPrm 0x10)
      ((paired 0x3FE0000000000000 0x4008000000000000).cmdRead tagPrm 0x11) k) :=
  ⟨noSize (by decide +kernel), noSize (by decide +kernel)⟩

theorem wit_HelperErrors :
    (FsOk (atFs 0x7FFFFFFF) ∧ FsOk small ∧ small.cfg.dmemWords < 0x3FFFFF + 2 ∧ 0x3FFFFE + 2 ≤ small.cfg.dmemWords ∧
      small.cfg.dmemWords < 0x400000 + 1 ∧ 0x3FFFFF + 1 ≤ small.cfg.dmemWords) ∧
    (let s := paired fNaN 0x7FF0000000000000;
      isFinite (s.cmdRead tagPrm 0x11) = false ∧ isFinite (s.cmdRead tagPrm 0x10) = false) ∧
    (∀ a ∈ [8, 0x20000, 24], let s := paired (BitVec.ofNat 64 a) f1
      isFinite (s.cmdRead tagPrm 0x11) = true ∧
        ∀ k ∈ List.range 17, s.cfg.log2nMin ≤ k → (s.cmdRead tagPrm 0x10).toNat ≠ 2 ^ k) ∧
    (let s := paired 16 0;
      isFinite (s.cmdRead tagPrm 0x11) = true ∧ s.cfg.log2nMin ≤ 4 ∧ 4 ≤ s.cfg.log2nMax ∧
        (s.cmdRead tagPrm 0x10).toNat = 2 ^ 4 ∧ flt f0p0 (s.cmdRead tagPrm 0x11) = false) ∧
    (let s := paired f1 fNaN;
      isFinite (s.cmdRead tagPrm 0x10) = true ∧ isFinite (s.cmdRead tagPrm 0x11) = false) ∧
    (let s := paired 0 f1;
      isFinite (s.cmdRead tagPrm 0x10) = true ∧ isFinite (s.cmdRead tagPrm 0x11) = true ∧
        flt f0p0 (s.cmdRead tagPrm 0x10) = false) ∧
    (let s := paired f1 0;
      flt f0p0 (s.cmdRead tagPrm 0x10) = true ∧ flt f0p0 (s.cmdRead tagPrm 0x11) = false) ∧
    (let s := paired 0x3FE0000000000000 0x4008000000000000;
      flt f0p0 (s.cmdRead tagPrm 0x10) = true ∧ flt f0p0 (s.cmdRead tagPrm 0x11) = true) := by
  unfold FsOk
  decide +kernel

/-- `small` with other thresholds. -/
def eps (safeMin envEps apFloor apDcDb : Word) : State :=
  { sized 3 with csr := { (sized 3).csr with safeMin := safeMin, envEps := envEps, apFloor := apFloor, apDcDb := apDcDb } }

/-- The ERRINFO of the first illegal register of each of the eight commands, in the order of `spectrumCommands`. -/
def badRegisters (s : State) (sz : SizeSel) : List Nat :=
  (spectrumCommands s sz false 0 0 0).map fun q => ((q.2.1.find? fun row => !row.1).map Prod.snd).getD 0

theorem wit_SpectrumCommandErrors_registers :
    badRegisters machine .ap = [0x080, 0x080, 0x080, 0x098, 0x080, 0x080, 0x080, 0x080] ∧
    badRegisters (sized 17) .env = List.replicate 8 0x090 ∧ badRegisters (sized 3) .ap = List.replicate 8 0x098 ∧
    badRegisters (eps 0 0 0 fNaN) .env = [0x090, 0x090, 0x0D8, 0x0D0, 0x0D0, 0x0D0, 0x0D0, 0x0E8] ∧
    badRegisters (eps 0 f1 0 0) .env = [0x090, 0x090, 0x090, 0x0D0, 0x0D0, 0x0D0, 0x0D0, 0x0D0] ∧
    badRegisters (eps f1 f1 0x3FF0000000000001 0) .env = [0x090, 0x090, 0x090, 0x090, 0x090, 0x090, 0x090, 0x0E0] := by
  decide +kernel

/-- At `small` every register is legal; a region ends with DMEM or one word after it. -/
theorem wit_SpectrumCommandErrors_regions :
    (∀ q ∈ spectrumCommands small .env false 0x400000 0x400000 0x400000,
      (∀ row ∈ q.2.1, row.1 = true) ∧ (1 ≤ q.2.2.1 → small.cfg.dmemWords < 0x3FFFFF + 1 + q.2.2.1) ∧
        small.cfg.dmemWords < 0x400000 + q.2.2.2.1 ∧ small.cfg.dmemWords < 0x400000 + q.2.2.2.2) ∧
    ∀ q ∈ spectrumCommands small .env false 0x3FFFFE 0x3FFFEE 0x3FFFF7,
      (1 ≤ q.2.2.1 → 0x3FFFFE + q.2.2.1 ≤ small.cfg.dmemWords) ∧ 0x3FFFEE + q.2.2.2.1 ≤ small.cfg.dmemWords ∧
        0x3FFFF7 + q.2.2.2.2 ≤ small.cfg.dmemWords := by decide +kernel

theorem wit_SpectrumCommandErrors :
    (isFinite ((paired fNaN 0).cmdRead tagPrm 0x10) = false) ∧
    (isFinite ((paired f1 fNaN).cmdRead tagPrm 0x10) = true ∧ isFinite ((paired f1 fNaN).cmdRead tagPrm 0x11) = false) ∧
    (isFinite ((paired 0 0).cmdRead tagPrm 0x10) = true ∧ isFinite ((paired 0 0).cmdRead tagPrm 0x11) = true ∧
      flt f0p0 ((paired 0 0).cmdRead tagPrm 0x10) = false) ∧
    (let s := paired 0x40BB580000000000 0;
      Positive (s.cmdRead tagPrm 0x10) ∧
        flt (Spec.bins s.csr.fsF (s.sizeExp .env) (s.cmdRead tagPrm 0x10)) (fofNat (2 ^ s.sizeExp .env / 2 - 1)) = false) ∧
    (let s := paired 0x40BF400000000000 0;
      Positive (s.cmdRead tagPrm 0x10) ∧
        flt (Spec.bins s.csr.fsF (s.sizeExp .env) (s.cmdRead tagPrm 0x10)) (fofNat (2 ^ s.sizeExp .env / 2)) = false) ∧
    Spec.bandsLegal small.csr.fsF (small.sizeExp .env) = false := by
  unfold Positive
  decide +kernel

/-- The first row of the table fails, then the last alone, for either frame engine. -/
theorem wit_FrameConfigurationOrder :
    let bad := fun (s : State) (rows : State → List (Bool × Nat)) (n : Nat) =>
      (rows s).find? (fun row => !row.1) = some (false, n)
    (bad machine envConfigRows 0x080 ∧ bad machine apConfigRows 0x080) ∧
    (let s := framed 16000 0x40BAF40000000000;
      bad { s with csr := { s.csr with envEps := 0 } } envConfigRows 0x0D8) ∧
    let s := framed 8000 0x40AA900000000000;
    bad { s with csr := { s.csr with apDcDb := fNaN } } apConfigRows 0x0E8 := by decide +kernel

/-- `framed` with other array registers. -/
def shaped (rows cols xBase xLen f0Base out : Word) : State :=
  let s := framed 16000 0x40BAF40000000000;
  { s with csr := { s.csr with outRows := rows, outCols := cols, xBase := xBase, xLen := xLen, f0Base := f0Base,
                               envBase := out, apBase := out } }

theorem wit_FrameShapeErrors :
    (∀ row ∈ envConfigRows (shaped 2 9 0 0 0x5000 0x6000), row.1 = true) ∧
    (shaped 2 9 0 0 0x5000 0x6000).csr.outRows ≠ (shaped 2 9 0 0 0x5000 0x6000).csr.f0Len ∧
    (∀ row ∈ envConfigRows (shaped 1 8 0 0 0x5000 0x6000), row.1 = true) ∧
    (shaped 1 8 0 0 0x5000 0x6000).csr.outRows = (shaped 1 8 0 0 0x5000 0x6000).csr.f0Len ∧
    (shaped 1 8 0 0 0x5000 0x6000).csr.outCols.toNat ≠ 2 ^ (shaped 1 8 0 0 0x5000 0x6000).csr.log2nEnv.toNat / 2 + 1 ∧
    ∀ row ∈ apConfigRows (framed 8000 0x40AA900000000000), row.1 = true := by decide +kernel

/-- The five address checks of ENVRUN. -/
def addressChecks (s : State) : List (Bool × Nat) :=
  let size := s.csr.outRows.toNat * s.csr.outCols.toNat
  [(decide (s.csr.xBase.toNat + s.csr.xLen.toNat ≤ s.cfg.dmemWords), 3),
    (decide (s.csr.f0Base.toNat + s.csr.f0Len.toNat ≤ s.cfg.dmemWords), 4),
    (decide (s.csr.envBase.toNat + size ≤ s.cfg.dmemWords), 5),
    (!Spec.overlap s.csr.envBase.toNat size s.csr.xBase.toNat s.csr.xLen.toNat, 6),
    (!Spec.overlap s.csr.envBase.toNat size s.csr.f0Base.toNat s.csr.f0Len.toNat, 7)]

/-- Each address check fails first in some state whose configuration and shape pass. -/
theorem wit_FrameRangeErrors_addresses :
    ∀ q ∈ [(shaped 1 9 0x3FFFFF 2 0x5000 0x6000, 3), (shaped 1 9 0x3FFFFF 1 0x400000 0x6000, 4),
      (shaped 1 9 0x400000 0 0x5000 0x3FFFF8, 5), (shaped 1 9 0x6008 1 0x5000 0x6000, 6),
      (shaped 1 9 0 0 0x6008 0x6000, 7)],
      (∀ row ∈ envConfigRows q.1, row.1 = true) ∧ q.1.csr.outRows = q.1.csr.f0Len ∧
        q.1.csr.outCols.toNat = 2 ^ q.1.csr.log2nEnv.toNat / 2 + 1 ∧
        (addressChecks q.1).find? (fun row => !row.1) = some (false, q.2) := by decide +kernel

/-- Then the range, an F0 that is not finite, and an effective F0 that is too high. -/
theorem wit_FrameRangeErrors :
    (let s := framed 16000 0x40BAF40000000000;
      (∀ row ∈ addressChecks s, row.1 = true) ∧ s.csr.f0Len.toNat < 2 + 0 ∧ 1 + 0 ≤ s.csr.f0Len.toNat) ∧
    (let s := load [(0x5000, [fNaN])] (framed 16000 0x40BAF40000000000);
      (∀ row ∈ envConfigRows s, row.1 = true) ∧ (∀ row ∈ addressChecks s, row.1 = true) ∧
        isFinite (s.cmdRead tagF0Finite (s.csr.f0Base.toNat + 0)) = false) ∧
    (let s := load [(0x5000, [0x40BB580000000000])] (framed 16000 0x40BAF40000000000);
      (∀ row ∈ envConfigRows s, row.1 = true) ∧ (∀ row ∈ addressChecks s, row.1 = true) ∧
        isFinite (s.cmdRead tagF0Finite (s.csr.f0Base.toNat + 0)) = true ∧
        flt (Spec.bins s.csr.fsF s.csr.log2nEnv.toNat (Spec.effF0 s.csr (s.cmdRead tagF0Limit (s.csr.f0Base.toNat + 0))))
          (fofNat (2 ^ s.csr.log2nEnv.toNat / 2 - 1)) = false) ∧
    (let s := load [(0x5000, [0x40AB580000000000])] (framed 8000 0x40AA900000000000);
      (∀ row ∈ apConfigRows s, row.1 = true) ∧ (∀ row ∈ addressChecks s, row.1 = true) ∧
        flt (Spec.bins s.csr.fsF s.csr.log2nAp.toNat (Spec.effF0 s.csr (s.cmdRead tagF0Limit (s.csr.f0Base.toNat + 0))))
          (fofNat (2 ^ s.csr.log2nAp.toNat / 2 - 1)) = false) := by decide +kernel

theorem wit_ResetNeedsConfiguration : Params.default.Legal ∧ (∀ i ∈ [Instr.nop, .signal, .wgen .hann 0 0, .fftr .env 0 0],
    i.wf = true) ∧ (Instr.fftr .env 0 0).opc ≠ 0x00#8 ∧ (Instr.fftr .env 0 0).opc ≠ 0x01#8 ∧
    (Instr.fftr .env 0 0).opc ≠ 0x21#8 ∧ (Instr.wgen .hann 0 0).opc = 0x21#8 := by decide

/-! ### The host -/

theorem wit_BusErrorsHaveNoEffect :
    ∀ q ∈ [(32, 0), (64, 1), (64, 0x1000), (64, 0xFFFF8)],
      q.2 < 0x100000 + 8 * machine.cfg.dmemWords ∧ (q.1 ≠ 64 ∨ q.2 % 8 ≠ 0 ∨ (0x1000 ≤ q.2 ∧ q.2 < 0x100000)) := by
  decide +kernel

theorem wit_ConfigurationWriteWhileIdle :
    (0 < 22 ∧ 9 < 22 ∧ 21 < 22) ∧ (∀ c, machine.engine ≠ .exec c) ∧ machine.queue = [] ∧
    (∀ c, (illegal.raise ⟨.illegal, 1⟩).engine ≠ .exec c) ∧ (illegal.raise ⟨.illegal, 1⟩).queue = [] :=
  ⟨by decide, fun _ => Engine.noConfusion, rfl, fun _ => Engine.noConfusion, rfl⟩

theorem wit_ConfigurationWriteWhileBusy :
    (0 < 22 ∧ 21 < 22) ∧ (∃ c, illegal.engine = .exec c) ∧
      (let s := { machine with queue := [⟨0, 0, [], 0, [], []⟩] }; s.engine = .idle ∧ s.queue ≠ []) :=
  ⟨by decide, ⟨_, rfl⟩, rfl, List.cons_ne_nil _ _⟩

theorem wit_PushOrDrop :
    (illegal.raise ⟨.illegal, 1⟩).engine = .halt ∧
    (let s := { machine with queue := List.replicate machine.cfg.cmdqDepth ⟨0, 0, [], 0, [], []⟩ };
      s.queue.length = s.cfg.cmdqDepth ∧ s.engine ≠ .halt) ∧
    machine.engine ≠ .halt ∧ machine.queue.length ≠ machine.cfg.cmdqDepth := by decide

theorem wit_StatusWriteClears :
    (0x200#64).getLsbD 9 = true ∧ (illegal.raise ⟨.illegal, 1⟩).err = true ∧ (0x100#64).getLsbD 9 = false ∧
      machine.err = false := by decide

theorem wit_ControlWrite :
    ((0x300#64).getLsbD 9 = true ∧ (7#64).getLsbD 9 = false ∧ (7#64).getLsbD 8 = false ∧
      (0x100#64).getLsbD 9 = false ∧ (0x100#64).getLsbD 8 = true) ∧
    ((∀ c, machine.engine ≠ .exec c) ∧ machine.queue = []) ∧ (∃ c, illegal.engine = .exec c) ∧
    (let s := { machine with queue := [⟨0, 0, [], 0, [], []⟩] }; s.engine = .idle ∧ s.queue ≠ []) :=
  ⟨by decide, ⟨fun _ => Engine.noConfusion, rfl⟩, ⟨_, rfl⟩, rfl, List.cons_ne_nil _ _⟩

theorem wit_ReadOnlyAndReservedRegisters :
    (∀ off ∈ [0x000, 0x028, 0x080, 0x128], off % 8 = 0 ∧ off < 0x1000) ∧
    ∀ off ∈ [0x000, 0x048, 0x058, 0x060, 0x078, 0x130, 0xFF8], off % 8 = 0 ∧ off < 0x1000 ∧
      (off ∈ [0x000, 0x008, 0x010, 0x028, 0x030, 0x038, 0x040, 0x058] ∨ (0x060 ≤ off ∧ off ≤ 0x07F) ∨ 0x130 ≤ off ∨
        off ∈ [0x048, 0x050]) := by decide

/-- R92: a host read of a register answers what was last written to it. -/
theorem test_register_read_back :
    let s := machine.host (.write 64 (machine.cfg.mmioBase + 0x120) 7)
    (s.host (.read 64 (s.cfg.mmioBase + 0x120))).resp = .data 7 := by decide +kernel

/-- WGEN of one point at word 0x20, before the word has landed and after. -/
def writing (landed : List (Nat × Word)) (begun : List Nat) : State :=
  { load [(0x10, [1])] machine with engine := .exec ⟨0x1000000021, 0x2000000000, [], 0, landed, begun⟩ }

theorem wit_HostReadsAndWritesOfMemory :
    (0 < machine.cfg.dmemWords ∧ 0x3FFFFF < machine.cfg.dmemWords) ∧ (∀ c, machine.engine ≠ .exec c) ∧
    ((writing [] []).engine = .exec ⟨0x1000000021, 0x2000000000, [], 0, [], []⟩ ∧
      (writing [] []).cmd.races = [] ∧ decodeCmd 0x1000000021 0x2000000000 = .ok (.wgen .hann 0x10#32 0x20#32) ∧
      (writing [] []).inFlight = [(0x20, f1)] ∧
      (writing [(0x20, f1)] [0]).cmd.landed.lookup 0x20 = some f1 ∧
      (writing [(0x20, f1)] [0]).cmd.landed.lookup 0x21 = none ∧
      readGroup tagPrm ∈ (writing [(0x20, f1)] [0]).cmd.begun) ∧
    (∃ t, exec (.wgen .hann 0x10#32 0x20#32) (writing [] []) = .next t ∧ t.engine ≠ .halt) ∧
    (∃ t, exec (.wgen .hann 0x10#32 0x20#32) (writing [(0x20, f1)] [0]) = .next t) ∧
    (writing [(0x20, f1)] [0]).Inv := by
  have hr : (writing [(0x20, f1)] [0]).inFlight = [(0x20, f1)] ∧ (writing [(0x20, f1)] [0]).settle 0x20 f1 = f1 ∧
      (writing [(0x20, f1)] [0]).readsBefore ⟨0x1000000021, 0x2000000000, [], 0, [(0x20, f1)], [0]⟩ 0x20 = [0] := by
    decide +kernel
  refine ⟨by decide, fun _ => Engine.noConfusion, by decide +kernel, ⟨_, exec_eq _ _, by decide +kernel⟩, ⟨_, exec_eq _ _⟩,
    by decide, by decide, by decide, by decide, by decide, by decide, by decide, by decide, by decide, by decide, ?_, ?_⟩
  rotate_left
  · rintro c (hc | hc) a h hs
    · cases hc
    · cases hc
      rw [PendingCmd.standing_of_no_races rfl] at hs
      cases hs
  rintro _ ⟨⟩ _ hw
  cases List.mem_singleton.1 hw
  exact ⟨⟨f1, by rw [hr.1]; exact List.mem_singleton.2 rfl, hr.2.1.symm⟩, by rw [hr.2.2]; exact fun g h => h⟩

/-- R103 and R101: the host makes the length that WGEN has read illegal after the word has landed, and the word stays. -/
theorem test_reads_that_are_done :
    let s := (writing [(0x20, f1)] [0]).hostSetWord 0x10 0
    let t := after s
    (s.hostWord 0x20, t.mem.wordAt 0x20, t.mem.wordAt 0x10, t.engine) = (f1, f1, 0, .idle) := by decide +kernel

/-- R95: what a queued command may read where the host wrote is the earlier command's value, landed or not yet, or the
host's. -/
theorem test_queue_reads_no_older_value :
    let s := fun l g => ({ writing l g with queue := [⟨0, 0, [], 7, [], []⟩] }).hostSetWord 0x20 5
    (s [(0x20, f1)] [0]).queue = [⟨0, 0, [⟨0x20, f1, 5, [], true⟩], 7, [], []⟩] ∧
      (after (s [] [])).cmd.races.map Race.old = [f1] := by decide +kernel

/-- R92: a value of the host's that a command before has overwritten no longer stands; one that the word kept does, and so
does one in a word that the command did not write. -/
theorem test_overwritten_value_is_gone :
    let c : PendingCmd := ⟨0, 0, [⟨0x20, 1, 5, [], true⟩, ⟨0x21, 2, 6, [], true⟩], 7, [], []⟩
    let w := fun a => if a = 0x20 then some f1 else none
    (c.standing 0x20, (c.overwritten w fun _ => none).standing 0x20, (c.overwritten w fun _ => some 5).standing 0x20,
      (c.overwritten w fun _ => none).standing 0x21) = (some 5, none, some 5, some 6) := by decide +kernel

/-- R330: the host's second write of a word makes its own choice, and a write of another word changes neither. -/
theorem test_choice_per_host_write :
    let s := (writing [] []).hostSetWord 0x20 5
    s.settle 0x20 f1 = (if Config.raceKeepsHost 0 0x20 1 then 5 else f1) ∧
      (s.hostSetWord 0x21 9).settle 0x20 f1 = s.settle 0x20 f1 ∧
      (s.hostSetWord 0x20 6).settle 0x20 f1 = (if Config.raceKeepsHost 0 0x20 2 then 6 else f1) := by
  refine ⟨?_, rfl, ?_⟩
  · show (if Config.raceKeepsHost 0 0x20 1 then some 5 else none).getD f1 = _
    cases Config.raceKeepsHost 0 0x20 1 <;> rfl
  · show (if Config.raceKeepsHost 0 0x20 2 then some 6 else none).getD f1 = _
    cases Config.raceKeepsHost 0 0x20 2 <;> rfl

theorem wit_ResetValues : Params.default.Legal ∧ machine.cfg.Legal ∧ Params.default.fpMode ≠ machine.cfg.fpMode := by decide

/-! ### Arithmetic -/

/-- A tie between 0 and the smallest subnormal, and the least quotient that rounds to an infinity. -/
theorem wit_RoundingIsToNearestEven : (4 ≤ 4 ∧ 24 ≤ 24 ∧ 0 < 1 ∧ 7 < 2 ^ 4 / 2 ∧ 7 ≠ 2 ^ 4 / 4 ∧ 22 ≤ 22 ∧ 400 ≤ 400) ∧ 0 < 2 ∧ roundNearest 1 2 < infMag ∧ 0 < infMag ∧
    roundNearest ((2 ^ 54 - 1) * 2 ^ 2044) 1 = infMag ∧ roundNearest ((2 ^ 54 - 1) * 2 ^ 2044 - 1) 1 < infMag := by
  decide +kernel

/-- A word for each case of an operand: zeros of both signs, finite values of both signs, infinities, a NaN. -/
theorem wit_RoundingIsToNearestEven_operands :
    (Spec.Finite 0 ∧ Spec.Finite 0x8000000000000000 ∧ Spec.Finite f1 ∧ Spec.Finite (fneg f1) ∧
      Spec.Infinite (Spec.infinity false) ∧ Spec.Infinite (Spec.infinity true) ∧ Spec.NotANumber fNaN) ∧
    Spec.value 0 = 0 ∧ Spec.value 0x8000000000000000 = 0 ∧ Spec.value f1 = 1 ∧ Spec.value (fneg f1) = -1 ∧
      Spec.Finite 0x409F400000000000 ∧ Spec.value 0x409F400000000000 = 2000 := by
  have hv : ∀ (x : Word) (n : Bool) (e f : Nat), Spec.sign x = n → Spec.exponent x = e → Spec.fraction x = f →
      Spec.value x = (if n then -1 else 1) *
        if e = 0 then (f : ℚ) * 2 ^ (-1074 : ℤ) else (2 ^ 52 + (f : ℚ)) * 2 ^ ((e : ℤ) - 1075) := by
    rintro x _ _ _ rfl rfl rfl
    rfl
  refine ⟨by unfold Spec.Finite Spec.Infinite Spec.NotANumber; decide, ?_, ?_, ?_, ?_, by unfold Spec.Finite; decide, ?_⟩
  · rw [hv 0 false 0 0 (by decide) (by decide) (by decide)]; norm_num
  · rw [hv 0x8000000000000000 true 0 0 (by decide) (by decide) (by decide)]; norm_num
  · rw [hv f1 false 1023 0 (by decide) (by decide) (by decide)]; norm_num
  · rw [hv (fneg f1) true 1023 0 (by decide) (by decide) (by decide)]; norm_num
  · rw [hv 0x409F400000000000 false 1033 0xF400000000000 (by decide) (by decide) (by decide)]; norm_num

/-- R67: the entries at an eighth of a turn of the smallest and the largest table are nearest the root of one half. -/
theorem test_twiddle_eighth : [4, 24].map (fun l => (tableCos l (2 ^ l / 8), tableSin l (2 ^ l / 8))) =
    [(0x3FE6A09E667F3BCD, 0x3FE6A09E667F3BCD), (0x3FE6A09E667F3BCD, 0x3FE6A09E667F3BCD)] := by decide +kernel

theorem wit_MaxAndMin : isNaN fNaN = true ∧ isNaN 0#64 = false ∧ isNaN 0x8000000000000000#64 = false := by decide +kernel

/-- The largest finite value; 0, which is in two clauses; the smallest value of either sign. -/
theorem wit_ConversionsToInteger : isFinite 0x7FEFFFFFFFFFFFFF = true ∧
    (isFinite 0#64 = true ∧ 0 ≤ fInt 0 ∧ fInt 0 ≤ 0) ∧ (isFinite 1#64 = true ∧ 0 ≤ fInt 1) ∧
    isFinite 0x8000000000000001#64 = true ∧ fInt 0x8000000000000001 ≤ 0 := by decide +kernel

/-! ### Whole-machine rules -/

theorem wit_InvariantKeptByEveryStep : State.reset.Inv ∧ ∃ t, step State.reset = .next t :=
  ⟨⟨by decide, by decide, by decide, by decide, by decide, by decide, by decide, by decide, by decide,
    by decide, fun _ => Engine.noConfusion, by rintro c (hc | hc) <;> cases hc⟩, _, rfl⟩

/-- S4, P2 as a test of ENVRUN: silence gives 11 ulps above ENV_EPS in every bin. -/
theorem wit_EnvelopeValuesArePositive :
    ∃ t, exec (.envrun 0 1) (framed 16000 0x40BAF40000000000) = .next t ∧
      (t.engine ≠ .halt ∧ (framed 16000 0x40BAF40000000000).cmd.races = [] ∧
        (List.range 9).map (fun k => t.mem.wordAt (0x6000 + k)) = List.replicate 9 0x3CB000000000000B) :=
  ⟨_, exec_eq _ _, by decide +kernel⟩

/-- S4, P3 as a test of APRUN: an unvoiced frame is 1.0 - SAFE_MIN in every bin. -/
theorem wit_AperiodicityValuesAreRatios :
    ∃ t, exec (.aprun 0 1) (framed 8000 0x40AA900000000000) = .next t ∧
      (t.engine ≠ .halt ∧ (framed 8000 0x40AA900000000000).cmd.races = [] ∧
        (List.range 9).map (fun k => t.mem.wordAt (0x7000 + k)) = List.replicate 9 0x3FEFFFFFFFFFDCD1) :=
  ⟨_, exec_eq _ _, by decide +kernel⟩

/-- `framed` again, with COMPLETED, DONE, words of DMEM that no frame reads, NLANES, CMDQ_DEPTH, DMEM_WORDS and MMIO_BASE
different. -/
def framedToo : State :=
  { load [(0x4000, [f1]), (0x5000, [0])] (framed 8000 0x40AA900000000000) with
    completed := 7, done := true,
    cfg := { machine.cfg with nlanes := 16, cmdqDepth := 2, dmemWords := 0x10000, mmioBase := 0x40000000 } }

theorem wit_RowsDependOnTheirInputsOnly :
    ((framed 8000 0x40AA900000000000).cfg.log2nMax = framedToo.cfg.log2nMax ∧
      (framed 8000 0x40AA900000000000).cfg.fpMode = framedToo.cfg.fpMode ∧
      (framed 8000 0x40AA900000000000).cfg.nlanes ≠ framedToo.cfg.nlanes ∧ framedToo.cfg.Legal) ∧
    (framed 8000 0x40AA900000000000).csr = framedToo.csr ∧
      framedToo.cmd.races = [] ∧ framedToo.csr.xLen.toNat = 0 ∧
      (framed 8000 0x40AA900000000000).mem.wordAt ((framed 8000 0x40AA900000000000).csr.f0Base.toNat + 0) =
        framedToo.mem.wordAt ((framed 8000 0x40AA900000000000).csr.f0Base.toNat + 0) ∧
      (∃ t, exec (.aprun 0 1) (framed 8000 0x40AA900000000000) = .next t ∧ t.engine ≠ .halt) ∧
      (∃ t, exec (.aprun 0 1) framedToo = .next t ∧ t.engine ≠ .halt) ∧
      ∃ t, exec (.envrun 0 1) (framed 16000 0x40BAF40000000000) = .next t ∧ t.engine ≠ .halt :=
  ⟨by decide +kernel, by decide +kernel, by decide +kernel, by decide +kernel, by decide +kernel,
    wit_AperiodicityValuesAreRatios.imp fun _ h => ⟨h.1, h.2.1⟩, ⟨_, exec_eq _ _, by decide +kernel⟩,
    wit_EnvelopeValuesArePositive.imp fun _ h => ⟨h.1, h.2.1⟩⟩
end Sys2Proof.Tests
end

/-! SUPPORT. The parameters of R8, MAX, MIN, ABS and isfinite (R13), and the conversions to integer (R14). -/

namespace Sys2Proof.Machine

/-! ## No step changes a parameter (R8) -/

section

variable (s : State)

@[simp] theorem State.writeCsr_cfg (off : Nat) (v : Word) : (s.writeCsr off v).cfg = s.cfg := by
  unfold State.writeCsr
  split <;> rfl

@[simp] theorem State.writeStatus_cfg (v : Word) : (s.writeStatus v).cfg = s.cfg := by
  unfold State.writeStatus
  split <;> simp

@[simp] theorem State.abort_cfg : s.abort.cfg = s.cfg := by
  unfold State.abort
  split
  · simp [State.stop]
  · rfl

@[simp] theorem State.softReset_cfg : s.softReset.cfg = s.cfg := rfl

@[simp] theorem State.writeCtrl_cfg (v : Word) : (s.writeCtrl v).cfg = s.cfg := by
  unfold State.writeCtrl
  split
  · simp
  · split <;> simp

@[simp] theorem State.push_cfg (v : Word) : (s.push v).cfg = s.cfg := by
  unfold State.push
  split <;> rfl

@[simp] theorem State.regWrite_cfg (off : Nat) (v : Word) : (s.regWrite off v).cfg = s.cfg := by
  unfold State.regWrite
  repeat' split
  all_goals simp

theorem State.host_cfg (a : HostAccess) : (s.host a).cfg = s.cfg := by
  cases a with
  | read bits addr =>
    simp only [State.host, State.hostRead]
    split <;> rfl
  | write bits addr v =>
    simp only [State.host, State.hostWrite]
    split
    · rfl
    · rfl
    · exact s.regWrite_cfg _ v
    · rfl

theorem State.progress_cfg : s.progress.cfg = s.cfg := by
  unfold State.progress
  split <;> rfl

theorem State.engineStep_cfg {s t : State} (h : s.engineStep = .next t) : t.cfg = s.cfg := by
  unfold State.engineStep at h
  split at h
  · split at h <;> cases h <;> rfl
  · split at h
    · rw [exec_eq] at h
      cases h
      exact finish_cfg _ _
    · cases h
      rfl
  · cases h
    rfl

end

/-- Settles O12: each of the three kinds of turn keeps the parameters. -/
theorem parametersNeverChange : Obligations.ParametersNeverChange := by
  intro s t h
  unfold step at h
  split at h
  · exact State.engineStep_cfg h
  · have hcfg := State.engineStep_cfg h
    exact hcfg
  · cases h
    exact State.progress_cfg _
  · cases h
    exact State.host_cfg _ _

/-! ## MAX, MIN, ABS and isfinite (R13) -/

/-- `ABS` clears bit 63. -/
theorem fabs_eq_and (a : Word) : fabs a = a &&& 0x7FFFFFFFFFFFFFFF#64 := by
  apply BitVec.eq_of_toNat_eq
  have hm : a.toNat &&& 2 ^ 63 - 1 = a.toNat % 2 ^ 63 := Nat.and_two_pow_sub_one_eq_mod a.toNat 63
  rw [BitVec.toNat_and, show (0x7FFFFFFFFFFFFFFF#64).toNat = 2 ^ 63 - 1 from rfl, hm]
  simp only [fabs, fPack, fMag, BitVec.toNat_ofNat, Bool.false_eq_true, if_false, Nat.zero_add]
  exact Nat.mod_eq_of_lt (by omega)

/-- The three classes of R13 by magnitude: a value is finite when it is neither a NaN nor an infinity. -/
theorem isFinite_iff (a : Word) : isFinite a = true ↔ isNaN a = false ∧ isInf a = false := by
  simp only [isFinite, isNaN, isInf, decide_eq_true_eq, decide_eq_false_iff_not, beq_eq_false_iff_ne]
  omega

/-- Settles O53: the definitions, case by case on the NaN operands. -/
theorem maxAndMin : Obligations.MaxAndMin := by
  intro a b
  refine ⟨fun hn => ?_, fun ha hb => ?_, fabs_eq_and a, isFinite_iff a⟩
  · have hor : (isNaN a || isNaN b) = true := by simpa using hn
    exact ⟨if_pos hor, by unfold fmin; rw [if_pos hor]; rfl⟩
  · simp [fmax, fmin, ha, hb]

/-! ## Conversions to integer (R14) -/

/-- The bounds of a quotient rounded down, for a divisor as large as `unitsPerOne`. -/
theorem ediv_mul_bounds (a : Int) {u : Int} (hu : 0 < u) : a / u * u ≤ a ∧ a < (a / u + 1) * u :=
  ⟨Int.ediv_mul_le a hu.ne', Int.lt_ediv_add_one_mul_self a hu⟩

/-- RHA of a magnitude is the quotient by two of twice as many units, half a one more. -/
theorem half_up_bounds (n : Int) {u : Int} (hu : 0 < u) :
    2 * ((2 * n + u) / (2 * u) * u) ≤ 2 * n + u ∧ 2 * n + u < 2 * (((2 * n + u) / (2 * u) + 1) * u) := by
  obtain ⟨h1, h2⟩ := ediv_mul_bounds (2 * n + u) (show 0 < 2 * u by omega)
  constructor
  · calc 2 * ((2 * n + u) / (2 * u) * u) = (2 * n + u) / (2 * u) * (2 * u) := by ring
      _ ≤ 2 * n + u := h1
  · calc 2 * n + u < ((2 * n + u) / (2 * u) + 1) * (2 * u) := h2
      _ = 2 * (((2 * n + u) / (2 * u) + 1) * u) := by ring

theorem ftrunc_eq (x : Word) : ftrunc x = if fNeg x then -((fUnits x : Int) / (unitsPerOne : Int)) else (fUnits x : Int) / (unitsPerOne : Int) := by
  unfold ftrunc
  simp only [Int.natCast_ediv]

theorem frha_eq (x : Word) : frha x =
    if fNeg x then -((2 * (fUnits x : Int) + (unitsPerOne : Int)) / (2 * (unitsPerOne : Int)))
    else (2 * (fUnits x : Int) + (unitsPerOne : Int)) / (2 * (unitsPerOne : Int)) := by
  unfold frha
  simp only [Int.natCast_ediv, Int.natCast_add, Int.natCast_mul, Nat.cast_ofNat]

/-- TRUNC lies between zero and the value, less than one from it. -/
theorem ftrunc_bounds (x : Word) :
    (0 ≤ fInt x → ftrunc x * unitsPerOne ≤ fInt x ∧ fInt x < (ftrunc x + 1) * unitsPerOne) ∧
      (fInt x ≤ 0 → fInt x ≤ ftrunc x * unitsPerOne ∧ (ftrunc x - 1) * unitsPerOne < fInt x) := by
  have hu : (0 : Int) < unitsPerOne := Int.natCast_pos.2 unitsPerOne_pos
  obtain ⟨hlo, hhi⟩ := ediv_mul_bounds (fUnits x : Int) hu
  have hn : (0 : Int) ≤ fUnits x := Int.natCast_nonneg _
  have hzero : (fUnits x : Int) = 0 → (fUnits x : Int) / (unitsPerOne : Int) = 0 := fun h => by rw [h, Int.zero_ediv]
  rw [ftrunc_eq, fInt]
  generalize (unitsPerOne : Int) = u at *
  generalize (fUnits x : Int) = n at *
  generalize n / u = q at *
  cases fNeg x with
  | false =>
    refine ⟨fun _ => ⟨hlo, hhi⟩, fun hv => ?_⟩
    obtain rfl : n = 0 := le_antisymm hv hn
    simp [hzero rfl, hu]
  | true =>
    simp only [if_true]
    refine ⟨fun hv => ?_, fun _ => ⟨by linarith, by linarith⟩⟩
    obtain rfl : n = 0 := by omega
    simp [hzero rfl, hu]

theorem ffloor_bounds (x : Word) :
    ffloor x * unitsPerOne ≤ fInt x ∧ fInt x < (ffloor x + 1) * unitsPerOne := by
  unfold ffloor
  exact ediv_mul_bounds _ (Int.natCast_pos.2 unitsPerOne_pos)

/-- CEIL is the floor of the negated value, negated. -/
theorem fceil_bounds (x : Word) :
    fInt x ≤ fceil x * unitsPerOne ∧ (fceil x - 1) * unitsPerOne < fInt x := by
  obtain ⟨hlo, hhi⟩ := ediv_mul_bounds (-fInt x) (Int.natCast_pos.2 unitsPerOne_pos)
  unfold fceil
  exact ⟨by linarith, by linarith⟩

/-- RHA is TRUNC of the value moved by a half away from zero. -/
theorem frha_bounds (x : Word) :
    (0 ≤ fInt x → 2 * (frha x * unitsPerOne) ≤ 2 * fInt x + unitsPerOne ∧
        2 * fInt x + unitsPerOne < 2 * ((frha x + 1) * unitsPerOne)) ∧
      (fInt x ≤ 0 → 2 * fInt x - unitsPerOne ≤ 2 * (frha x * unitsPerOne) ∧
        2 * ((frha x - 1) * unitsPerOne) < 2 * fInt x - unitsPerOne) := by
  have hu : (0 : Int) < unitsPerOne := Int.natCast_pos.2 unitsPerOne_pos
  obtain ⟨hlo, hhi⟩ := half_up_bounds (fUnits x : Int) hu
  have hn : (0 : Int) ≤ fUnits x := Int.natCast_nonneg _
  have hzero : (fUnits x : Int) = 0 → (2 * (fUnits x : Int) + unitsPerOne) / (2 * (unitsPerOne : Int)) = 0 := fun h => by
    rw [h]
    exact Int.ediv_eq_zero_of_lt (by omega) (by omega)
  rw [frha_eq, fInt]
  generalize (unitsPerOne : Int) = u at *
  generalize (fUnits x : Int) = n at *
  generalize (2 * n + u) / (2 * u) = q at *
  cases fNeg x with
  | false =>
    refine ⟨fun _ => ⟨hlo, hhi⟩, fun hv => ?_⟩
    obtain rfl : n = 0 := le_antisymm hv hn
    simp only [hzero rfl, Bool.false_eq_true, if_false]
    omega
  | true =>
    simp only [if_true]
    refine ⟨fun hv => ?_, fun _ => ⟨by linarith, by linarith⟩⟩
    obtain rfl : n = 0 := by omega
    simp only [hzero rfl]
    omega

/-- Settles O54: the four conversions bound the value from both sides. -/
theorem conversionsToInteger : Obligations.ConversionsToInteger := by
  intro x _
  have hu : (2 ^ 1074 : Int) = (unitsPerOne : Int) := by rw [unitsPerOne, Nat.cast_pow, Nat.cast_ofNat]
  simp only [hu]
  exact ⟨(ftrunc_bounds x).1, (ftrunc_bounds x).2, ffloor_bounds x, fceil_bounds x, (frha_bounds x).1, (frha_bounds x).2⟩

end Sys2Proof.Machine

/-! SUPPORT. The fields and the value of a word in the terms of the spec (R11), from the model's sign, magnitude and units. -/

namespace Sys2Proof.Machine

/-! ## The fields of the spec and those of the model (R11) -/

theorem sign_eq (x : Word) : Spec.sign x = fNeg x := by
  simp [Spec.sign, fNeg, BitVec.msb_eq_getLsbD_last]

theorem exponent_eq (x : Word) : Spec.exponent x = fMag x / 2 ^ 52 := by
  unfold Spec.exponent fMag
  omega

theorem fraction_eq (x : Word) : Spec.fraction x = fMag x % 2 ^ 52 := by
  unfold Spec.fraction fMag
  omega

theorem finite_iff {x : Word} : Spec.Finite x ↔ fMag x < infMag := by
  have := fMag_lt x
  rw [Spec.Finite, exponent_eq, infMag]
  omega

theorem infinite_iff {x : Word} : Spec.Infinite x ↔ fMag x = infMag := by
  rw [Spec.Infinite, exponent_eq, fraction_eq, infMag]
  omega

theorem notANumber_iff {x : Word} : Spec.NotANumber x ↔ infMag < fMag x := by
  have := fMag_lt x
  rw [Spec.NotANumber, exponent_eq, fraction_eq, infMag]
  omega

theorem isFinite_iff_finite (x : Word) : isFinite x = true ↔ Spec.Finite x := by
  rw [finite_iff, isFinite, decide_eq_true_eq]

theorem isNaN_iff_notANumber (x : Word) : isNaN x = true ↔ Spec.NotANumber x := by
  rw [notANumber_iff, isNaN, decide_eq_true_eq]

theorem isInf_iff_infinite (x : Word) : isInf x = true ↔ Spec.Infinite x := by
  rw [infinite_iff, isInf, beq_iff_eq]

/-- A finite word is neither a NaN nor an infinity for the model. -/
theorem class_of_finite {x : Word} (h : Spec.Finite x) : isNaN x = false ∧ isInf x = false := by
  rw [finite_iff] at h
  exact ⟨decide_eq_false (by omega), beq_false_of_ne (by omega)⟩

/-- An infinity is no NaN and no zero. -/
theorem class_of_infinite {x : Word} (h : Spec.Infinite x) : isNaN x = false ∧ isInf x = true ∧ isZero x = false := by
  rw [infinite_iff] at h
  exact ⟨decide_eq_false (by omega), beq_iff_eq.2 h, beq_false_of_ne (by rw [h]; decide)⟩

/-! ## A word is its sign and its magnitude -/

theorem fPack_toNat {neg : Bool} {m : Nat} (h : m < 2 ^ 63) : (fPack neg m).toNat = (if neg then 2 ^ 63 else 0) + m := by
  rw [fPack, BitVec.toNat_ofNat]
  cases neg <;> simp only [Bool.false_eq_true, if_false, if_true] <;> omega

theorem fPack_fields (x : Word) : fPack (fNeg x) (fMag x) = x := by
  apply BitVec.eq_of_toNat_eq
  rw [fPack_toNat (fMag_lt x), fMag, fNeg, BitVec.msb_eq_decide]
  have := x.isLt
  by_cases h : 2 ^ (64 - 1) ≤ x.toNat
  · simp only [h, decide_true, if_true]; omega
  · simp only [h, decide_false, Bool.false_eq_true, if_false]; omega

theorem fneg_fPack {neg : Bool} {m : Nat} (h : m < 2 ^ 63) : fneg (fPack neg m) = fPack (!neg) m := by
  rw [fneg, fNeg_fPack h, fMag_fPack h]

@[simp] theorem fNeg_fneg (x : Word) : fNeg (fneg x) = !fNeg x := fNeg_fPack (fMag_lt x)

@[simp] theorem fMag_fneg (x : Word) : fMag (fneg x) = fMag x := fMag_fPack (fMag_lt x)

/-- A power of two above a number is added to it as a bit. -/
theorem two_pow_add_eq_xor {k m : Nat} (h : m < 2 ^ k) : 2 ^ k + m = 2 ^ k ^^^ m := by
  apply Nat.eq_of_testBit_eq
  intro i
  rw [Nat.testBit_xor, Nat.testBit_two_pow]
  rcases Nat.lt_trichotomy i k with hi | rfl | hi
  · rw [Nat.testBit_two_pow_add_gt hi, decide_eq_false hi.ne', Bool.false_xor]
  · rw [Nat.testBit_two_pow_add_eq, Nat.testBit_lt_two_pow h, decide_eq_true rfl, Bool.xor_false, Bool.not_false]
  · have hle : 2 ^ (k + 1) ≤ 2 ^ i := Nat.pow_le_pow_right (by decide) hi
    have hsum : 2 ^ k + m < 2 ^ i := by omega
    rw [Nat.testBit_lt_two_pow hsum, Nat.testBit_lt_two_pow (show m < 2 ^ i by omega), decide_eq_false hi.ne, Bool.xor_false]

/-- Negation flips bit 63. -/
theorem fneg_eq_xor (x : Word) : fneg x = x ^^^ 0x8000000000000000#64 := by
  have hpack : ∀ b : Bool, ∀ m < 2 ^ 63, fPack (!b) m = fPack b m ^^^ 0x8000000000000000#64 := by
    intro b m hm
    apply BitVec.eq_of_toNat_eq
    have hlow : 2 ^ 63 + m = 2 ^ 63 ^^^ m := two_pow_add_eq_xor hm
    rw [BitVec.toNat_xor, fPack_toNat hm, fPack_toNat hm, show (0x8000000000000000#64).toNat = 2 ^ 63 from rfl]
    cases b
    · simp only [Bool.not_false, if_true, Bool.false_eq_true, if_false, Nat.zero_add, hlow, Nat.xor_comm m]
    · simp only [Bool.not_true, if_true, Bool.false_eq_true, if_false, Nat.zero_add, hlow, Nat.xor_comm _ m,
        Nat.xor_assoc, Nat.xor_self, Nat.xor_zero]
  conv_rhs => rw [← fPack_fields x]
  exact hpack (fNeg x) (fMag x) (fMag_lt x)

theorem infinity_eq (neg : Bool) : Spec.infinity neg = fInf neg := by cases neg <;> decide

theorem zero_eq (neg : Bool) : Spec.zero neg = fZero neg := by cases neg <;> decide

theorem nan_eq : Spec.nan = fNaN := rfl

/-! ## The value of a word, in units of 2^-1074 -/

/-- The sign as a factor. -/
def signFactor (neg : Bool) : ℝ := if neg then -1 else 1

@[simp] theorem abs_signFactor (neg : Bool) : |signFactor neg| = 1 := by cases neg <;> simp [signFactor]

theorem signFactor_not (neg : Bool) : signFactor (!neg) = -signFactor neg := by cases neg <;> simp [signFactor]

theorem unitsPerOne_real : (unitsPerOne : ℝ) = 2 ^ 1074 := by rw [unitsPerOne, Nat.cast_pow, Nat.cast_ofNat]

theorem unitsPerOne_real_pos : (0 : ℝ) < unitsPerOne := Nat.cast_pos.2 unitsPerOne_pos

theorem fInt_real (x : Word) : (fInt x : ℝ) = signFactor (fNeg x) * fUnits x := by
  unfold fInt signFactor
  cases fNeg x <;> simp

/-- The value of `n * 2^e` units, for the exponent form in which the spec writes it. -/
theorem cast_units (n e p : Nat) : (((n : ℚ) * 2 ^ ((e : ℤ) - (p : ℤ)) : ℚ) : ℝ) = (n * 2 ^ e : ℕ) / (2 : ℝ) ^ p := by
  rw [Rat.cast_mul, Rat.cast_zpow, Rat.cast_natCast, Rat.cast_ofNat, zpow_sub₀ two_ne_zero, zpow_natCast, zpow_natCast,
    Nat.cast_mul, Nat.cast_pow, Nat.cast_ofNat, mul_div_assoc]

theorem value_eq_units (x : Word) : (Spec.value x : ℝ) = signFactor (fNeg x) * (fUnits x / unitsPerOne) := by
  have hsign : (((if Spec.sign x then -1 else 1 : ℚ)) : ℝ) = signFactor (fNeg x) := by
    rw [sign_eq, signFactor]
    cases fNeg x <;> simp
  rw [Spec.value, Rat.cast_mul, hsign, exponent_eq, fraction_eq, fUnits, unitsPerOne_real]
  congr 1
  split
  · have hexp : ((0 : ℕ) : ℤ) - (1074 : ℕ) = -1074 := rfl
    have hcast := cast_units (fMag x % 2 ^ 52) 0 1074
    rwa [hexp, Nat.pow_zero, Nat.mul_one] at hcast
  · next h =>
    have he : ((fMag x / 2 ^ 52 : ℕ) : ℤ) - 1075 = ((fMag x / 2 ^ 52 - 1 : ℕ) : ℤ) - (1074 : ℕ) := by omega
    rw [he, ← cast_units, Nat.cast_add, Nat.cast_pow, Nat.cast_ofNat (R := ℚ)]

theorem value_eq (x : Word) : (Spec.value x : ℝ) = fInt x / unitsPerOne := by
  rw [value_eq_units, fInt_real, mul_div_assoc]

theorem value_eq_zero_iff {x : Word} : (Spec.value x : ℝ) = 0 ↔ fUnits x = 0 := by
  have hs : signFactor (fNeg x) ≠ 0 := abs_ne_zero.1 (by simp)
  rw [value_eq_units, mul_eq_zero, or_iff_right hs, div_eq_zero_iff, or_iff_left unitsPerOne_real_pos.ne', Nat.cast_eq_zero]

/-- Only the zeros have no units. -/
theorem fUnits_eq_zero_iff {x : Word} : fUnits x = 0 ↔ fMag x = 0 := by
  constructor
  · intro h
    by_contra hm
    have hlt : fUnits (fZero false) < fUnits x := fUnits_mono (by rw [show fMag (fZero false) = 0 by decide]; omega)
    omega
  · intro h
    simp [fUnits, h]

/-- The value of a finite word is positive, zero or negative by its sign and magnitude. -/
theorem value_neg_iff {x : Word} : (Spec.value x : ℝ) < 0 ↔ fNeg x = true ∧ fMag x ≠ 0 := by
  have hU := unitsPerOne_real_pos
  rw [ne_eq, ← fUnits_eq_zero_iff, value_eq_units, signFactor]
  generalize (unitsPerOne : ℝ) = U at *
  rcases Nat.eq_zero_or_pos (fUnits x) with h | h
  · simp [h]
  · have hpos : (0 : ℝ) < fUnits x / U := div_pos (Nat.cast_pos.2 h) hU
    cases fNeg x with
    | false => simpa using hpos.le
    | true =>
      simp only [if_true, neg_one_mul, neg_lt_zero, true_and]
      exact iff_of_true hpos h.ne'

theorem value_pos_iff {x : Word} : 0 < (Spec.value x : ℝ) ↔ fNeg x = false ∧ fMag x ≠ 0 := by
  have hneg : fNeg (fneg x) = true ↔ fNeg x = false := by simp
  have hval : (Spec.value (fneg x) : ℝ) = -Spec.value x := by
    simp only [value_eq_units, fNeg_fneg, signFactor_not, fUnits, fMag_fneg, neg_mul]
  rw [← hneg, ← fMag_fneg, ← value_neg_iff, hval, neg_lt_zero]

end Sys2Proof.Machine

/-! SUPPORT. Rounding (R11): which magnitude is nearest a number of units, that `roundNearest` gives it for a quotient, and
that a sign with the nearest magnitude is the rounded result. -/

namespace Sys2Proof.Machine

/-! ## Magnitudes in units -/

/-- The value of a magnitude, in units. -/
def magUnits (m : Nat) : Nat := fUnits (fPack false m)

theorem fUnits_eq_magUnits (x : Word) : fUnits x = magUnits (fMag x) := by
  simp only [magUnits, fUnits, fMag_fPack (fMag_lt x)]

theorem fUnits_fPack {neg : Bool} {m : Nat} (h : m < 2 ^ 63) : fUnits (fPack neg m) = magUnits m := by
  rw [fUnits_eq_magUnits, fMag_fPack h]

theorem magUnits_zero : magUnits 0 = 0 := by decide

theorem magUnits_lt {j k : Nat} (hk : k < 2 ^ 63) (h : j < k) : magUnits j < magUnits k :=
  fUnits_mono (by rw [fMag_fPack (by omega), fMag_fPack hk]; exact h)

theorem magUnits_le {j k : Nat} (hk : k < 2 ^ 63) (h : j ≤ k) : magUnits j ≤ magUnits k := by
  rcases Nat.eq_or_lt_of_le h with rfl | hlt
  · exact le_rfl
  · exact (magUnits_lt hk hlt).le

theorem magUnits_injective {j k : Nat} (hj : j < 2 ^ 63) (hk : k < 2 ^ 63) (h : magUnits j = magUnits k) : j = k := by
  rcases Nat.lt_trichotomy j k with hlt | heq | hgt
  · exact absurd h (magUnits_lt hk hlt).ne
  · exact heq
  · exact absurd h (magUnits_lt hj hgt).ne'

/-- The magnitude whose last place is `2^e` and whose significand is `q` stands for `q * 2^e` units; with `q = 2^53` it is
the first of the next binade. -/
theorem magUnits_eq {e q : Nat} (hq : q ≤ 2 ^ 53) (hn : e = 0 ∨ 2 ^ 52 ≤ q) (hb : 2 ^ 52 * e + q < 2 ^ 63) :
    magUnits (2 ^ 52 * e + q) = q * 2 ^ e := by
  rw [magUnits, fUnits, fMag_fPack hb]
  rcases Nat.lt_or_ge q (2 ^ 52) with hsub | hnorm
  · obtain rfl : e = 0 := by omega
    rw [if_pos (by omega), Nat.pow_zero]
    omega
  rcases Nat.eq_or_lt_of_le hq with rfl | hlt
  · rw [if_neg (by omega), show (2 ^ 52 * e + 2 ^ 53) / 2 ^ 52 - 1 = e + 1 by omega,
      show (2 ^ 52 * e + 2 ^ 53) % 2 ^ 52 = 0 by omega, Nat.pow_succ]
    ring
  · rw [if_neg (by omega), show (2 ^ 52 * e + q) / 2 ^ 52 - 1 = e by omega,
      show (2 ^ 52 * e + q) % 2 ^ 52 = q - 2 ^ 52 by omega, Nat.add_sub_cancel' hnorm]

/-! ## Nearest magnitudes -/

/-- `m` is the magnitude nearest `ρ` units, of two equally near the even one, and the infinity from half a last place
beyond the largest finite value on. -/
structure NearestMag (ρ : ℝ) (m : Nat) : Prop where
  le : m ≤ infMag
  nearest : m < infMag → ∀ k < infMag, |(magUnits m : ℝ) - ρ| ≤ |(magUnits k : ℝ) - ρ| ∧
    (|(magUnits m : ℝ) - ρ| = |(magUnits k : ℝ) - ρ| → k ≠ m → m % 2 = 0)
  inf_iff : m = infMag ↔ (2 ^ 54 - 1) * 2 ^ 2044 ≤ ρ

/-- The lower and upper neighbour of `ρ` and the choice between them, `c = 1` for the upper. -/
structure Bracket (ρ : ℝ) (e q c : Nat) : Prop where
  choice : c = 0 ∨ c = 1
  sig_lt : q < 2 ^ 53
  normal : e = 0 ∨ 2 ^ 52 ≤ q
  lower : (q : ℝ) * 2 ^ e ≤ ρ
  upper : ρ < ((q : ℝ) + 1) * 2 ^ e
  up : c = 1 → (2 * (q : ℝ) + 1) * 2 ^ e ≤ 2 * ρ
  down : c = 0 → 2 * ρ ≤ (2 * (q : ℝ) + 1) * 2 ^ e
  tie : 2 * ρ = (2 * (q : ℝ) + 1) * 2 ^ e → (q + c) % 2 = 0

theorem infMag_eq : infMag = 2047 * 2 ^ 52 := by decide

/-- Of two neighbours the chosen one is nearest. -/
theorem Bracket.nearest {ρ : ℝ} {e q c : Nat} (h : Bracket ρ e q c) (hm : 2 ^ 52 * e + q + c < infMag) {k : Nat} (hk : k < infMag) :
    |(magUnits (2 ^ 52 * e + q + c) : ℝ) - ρ| ≤ |(magUnits k : ℝ) - ρ| ∧
      (|(magUnits (2 ^ 52 * e + q + c) : ℝ) - ρ| = |(magUnits k : ℝ) - ρ| → k ≠ 2 ^ 52 * e + q + c →
        (2 ^ 52 * e + q + c) % 2 = 0) := by
  have hinf := infMag_eq
  have hsig := h.sig_lt
  have hlo : (magUnits (2 ^ 52 * e + q) : ℝ) = q * 2 ^ e := by
    rw [magUnits_eq h.sig_lt.le h.normal (by omega)]
    push_cast; rfl
  have hhi : (magUnits (2 ^ 52 * e + q + 1) : ℝ) = (q + 1) * 2 ^ e := by
    rw [Nat.add_assoc, magUnits_eq h.sig_lt (h.normal.imp_right (by omega)) (by omega)]
    push_cast; rfl
  have hlower := h.lower
  have hupper := h.upper
  have htie : 2 * ρ = (2 * (q : ℝ) + 1) * 2 ^ e → (2 ^ 52 * e + q + c) % 2 = 0 := by
    intro ht
    have := h.tie ht
    omega
  have hbelow : k ≤ 2 ^ 52 * e + q → (magUnits k : ℝ) ≤ q * 2 ^ e := fun hle => by
    rw [← hlo]
    exact_mod_cast magUnits_le (by omega) hle
  have habove : 2 ^ 52 * e + q + 1 ≤ k → ((q : ℝ) + 1) * 2 ^ e ≤ magUnits k := fun hle => by
    rw [← hhi]
    exact_mod_cast magUnits_le (by omega) hle
  have hinj : ∀ {m : Nat}, m < infMag → (magUnits k : ℝ) = magUnits m → k = m := fun hm heq =>
    magUnits_injective (by omega) (by omega) (by exact_mod_cast heq)
  rcases h.choice with rfl | rfl
  · have hdown := h.down rfl
    simp only [Nat.add_zero] at *
    rw [hlo, abs_of_nonpos (by linarith)]
    rcases Nat.lt_or_ge (2 ^ 52 * e + q) k with hgt | hle
    · have := habove hgt
      rw [abs_of_nonneg (by linarith)]
      exact ⟨by linarith, fun heq _ => htie (by linarith)⟩
    · have := hbelow hle
      rw [abs_of_nonpos (by linarith)]
      exact ⟨by linarith, fun heq hne => absurd (hinj hm (by rw [hlo]; linarith)) hne⟩
  · have hup := h.up rfl
    rw [hhi, abs_of_nonneg (by linarith)]
    rcases Nat.lt_or_ge (2 ^ 52 * e + q) k with hgt | hle
    · have := habove hgt
      rw [abs_of_nonneg (by linarith)]
      exact ⟨by linarith, fun heq hne => absurd (hinj hm (by rw [hhi]; linarith)) hne⟩
    · have := hbelow hle
      rw [abs_of_nonpos (by linarith)]
      exact ⟨by linarith, fun heq _ => htie (by linarith)⟩

/-- The chosen neighbour is the infinity exactly from the middle between the largest finite value and the next one on. -/
theorem Bracket.inf_iff {ρ : ℝ} {e q c : Nat} (h : Bracket ρ e q c) :
    infMag ≤ 2 ^ 52 * e + q + c ↔ (2 ^ 54 - 1) * 2 ^ 2044 ≤ ρ := by
  obtain ⟨hc, hq, hn, hlo, hhi, hup, hdown, htie⟩ := h
  have hp : ∀ n : Nat, (2 : ℝ) ^ (n + 1) = 2 * 2 ^ n := fun n => pow_succ' 2 n
  have hp0 : ∀ n : Nat, (0 : ℝ) < 2 ^ n := fun n => pow_pos two_pos n
  rw [infMag_eq]
  rcases Nat.lt_trichotomy e 2045 with he | rfl | he
  · have hq' : (q : ℝ) + 1 ≤ 2 ^ 53 := by exact_mod_cast hq
    have hlt : ρ < (2 ^ 54 - 1) * 2 ^ 2044 :=
      calc ρ < ((q : ℝ) + 1) * 2 ^ e := hhi
        _ ≤ 2 ^ 53 * 2 ^ 2044 := mul_le_mul hq' (pow_le_pow_right₀ one_le_two (by omega)) (hp0 e).le (by norm_num)
        _ ≤ (2 ^ 54 - 1) * 2 ^ 2044 := mul_le_mul_of_nonneg_right (by norm_num) (hp0 2044).le
    exact iff_of_false (by omega) (not_le.2 hlt)
  · have hpow := hp 2044
    have hpos := hp0 2044
    rw [show 2045 = 2044 + 1 from rfl, hpow] at hhi hup hdown htie
    generalize (2 : ℝ) ^ 2044 = P at *
    rcases Nat.lt_or_ge (q + 1) (2 ^ 53) with hlt | hge
    · have hq' : (q : ℝ) + 1 ≤ 2 ^ 53 - 1 := by
        rw [le_sub_iff_add_le]
        exact_mod_cast hlt
      refine iff_of_false (by omega) (not_le.2 ?_)
      have := mul_le_mul_of_nonneg_right hq' hpos.le
      linarith
    · obtain rfl : q = 2 ^ 53 - 1 := by omega
      have hq' : ((2 ^ 53 - 1 : ℕ) : ℝ) = 2 ^ 53 - 1 := by norm_num
      rw [hq'] at hup hdown htie
      rcases hc with rfl | rfl
      · refine iff_of_false (by omega) fun hle => absurd (htie ?_) (by decide)
        linarith [hdown rfl]
      · exact iff_of_true (by omega) (by linarith [hup rfl])
  · have hq' : (2 : ℝ) ^ 52 ≤ q := by exact_mod_cast hn.resolve_left (by omega)
    refine iff_of_true (by omega) ?_
    calc ((2 : ℝ) ^ 54 - 1) * 2 ^ 2044 ≤ 2 ^ 54 * 2 ^ 2044 := mul_le_mul_of_nonneg_right (by norm_num) (hp0 2044).le
      _ = 2 ^ 52 * 2 ^ 2046 := by
        rw [hp 2045, hp 2044]
        generalize (2 : ℝ) ^ 2044 = P
        ring
      _ ≤ q * 2 ^ e := mul_le_mul hq' (pow_le_pow_right₀ one_le_two he) (hp0 2046).le (Nat.cast_nonneg q)
      _ ≤ ρ := hlo

theorem Bracket.nearestMag {ρ : ℝ} {e q c : Nat} (h : Bracket ρ e q c) : NearestMag ρ (min infMag (2 ^ 52 * e + q + c)) where
  le := Nat.min_le_left _ _
  nearest hlt k hk := by
    have hm : 2 ^ 52 * e + q + c < infMag := by omega
    rw [Nat.min_eq_right hm.le]
    exact h.nearest hm hk
  inf_iff := by rw [← h.inf_iff]; omega

/-! ## The rounding of a quotient (R11) -/

/-- The significand of a quotient has 53 bits, or the quotient is that of a subnormal. -/
theorem sig_bounds (a d : Nat) :
    a / (d * 2 ^ ulpExp a d) < 2 ^ 53 ∧ (ulpExp a d = 0 ∨ 2 ^ 52 ≤ a / (d * 2 ^ ulpExp a d)) := by
  rw [← Nat.div_div_eq_div_mul, ulpExp, floorLog2_eq]
  generalize a / d = n
  have hlt := Nat.lt_log2_self (n := n)
  rcases Nat.lt_or_ge 52 (Nat.log2 n) with hbig | hsmall
  · have hn : n ≠ 0 := by rintro rfl; simp at hbig
    have hle := Nat.log2_self_le hn
    constructor
    · rw [Nat.div_lt_iff_lt_mul (Nat.two_pow_pos _), ← Nat.pow_add]
      rwa [show 53 + (Nat.log2 n - 52) = Nat.log2 n + 1 by omega]
    · right
      rw [Nat.le_div_iff_mul_le (Nat.two_pow_pos _), ← Nat.pow_add]
      rwa [show 52 + (Nat.log2 n - 52) = Nat.log2 n by omega]
  · rw [Nat.sub_eq_zero_of_le hsmall, Nat.pow_zero, Nat.div_one]
    exact ⟨hlt.trans_le (Nat.pow_le_pow_right (by decide) (by omega)), .inl rfl⟩

theorem roundNearest_eq (a d : Nat) :
    roundNearest a d = min infMag (2 ^ 52 * ulpExp a d + a / (d * 2 ^ ulpExp a d) + if roundsUp a d then 1 else 0) := by
  rw [roundNearest, Nat.mul_comm (ulpExp a d)]

/-- `roundsUp` compares the remainder with half a last place. -/
theorem roundsUp_iff (a d : Nat) : roundsUp a d = true ↔ d * 2 ^ ulpExp a d < 2 * (a % (d * 2 ^ ulpExp a d)) ∨
    2 * (a % (d * 2 ^ ulpExp a d)) = d * 2 ^ ulpExp a d ∧ a / (d * 2 ^ ulpExp a d) % 2 = 1 := by
  simp [roundsUp]

/-- A quotient between its two neighbours, with the choice of `roundNearest`. -/
theorem bracket_quotient (a : Nat) {d : Nat} (hd : 0 < d) :
    Bracket (a / d) (ulpExp a d) (a / (d * 2 ^ ulpExp a d)) (if roundsUp a d then 1 else 0) := by
  obtain ⟨hsig, hnorm⟩ := sig_bounds a d
  have hdR : (0 : ℝ) < d := Nat.cast_pos.2 hd
  have hD : 0 < d * 2 ^ ulpExp a d := Nat.mul_pos hd (Nat.two_pow_pos _)
  have hmod := Nat.mod_lt a hD
  have hup := roundsUp_iff a d
  have hdiv : (d : ℝ) * 2 ^ ulpExp a d * (a / (d * 2 ^ ulpExp a d) : ℕ) + (a % (d * 2 ^ ulpExp a d) : ℕ) = a := by
    exact_mod_cast Nat.div_add_mod a (d * 2 ^ ulpExp a d)
  have hD' : ((d * 2 ^ ulpExp a d : ℕ) : ℝ) = d * 2 ^ ulpExp a d := by push_cast; rfl
  have hρ : (a / d : ℝ) * d = a := div_mul_cancel₀ _ hdR.ne'
  generalize (a / d : ℝ) = ρ at *
  generalize ulpExp a d = e at *
  generalize d * 2 ^ e = D at *
  generalize a / D = q at *
  generalize a % D = r at *
  have hr0 : (0 : ℝ) ≤ r := Nat.cast_nonneg r
  have hrD : (r : ℝ) < D := Nat.cast_lt.2 hmod
  refine ⟨by split <;> simp, hsig, hnorm, ?_, ?_, ?_, ?_, ?_⟩
  · exact le_of_mul_le_mul_right (by linarith) hdR
  · exact lt_of_mul_lt_mul_right (by linarith) hdR.le
  · intro hc
    have h2 : D ≤ 2 * r := by
      by_contra hlt
      rw [if_neg (by rw [hup]; omega)] at hc
      cases hc
    have h2' : (D : ℝ) ≤ 2 * r := by exact_mod_cast h2
    exact le_of_mul_le_mul_right (by linarith) hdR
  · intro hc
    have h2 : 2 * r ≤ D := by
      by_contra hlt
      rw [if_pos (hup.2 (by omega))] at hc
      cases hc
    have h2' : 2 * (r : ℝ) ≤ D := by exact_mod_cast h2
    exact le_of_mul_le_mul_right (by linarith) hdR
  · intro ht
    have h2 : 2 * (r : ℝ) = D := by linear_combination (d : ℝ) * ht - hD' - 2 * hρ + 2 * hdiv
    have h2' : 2 * r = D := by exact_mod_cast h2
    split
    all_goals
      next hu =>
        rw [hup] at hu
        omega

/-- `roundNearest` is nearest the quotient, ties to even, with gradual underflow and overflow to the infinity. -/
theorem nearestMag_roundNearest (a : Nat) {d : Nat} (hd : 0 < d) : NearestMag (a / d) (roundNearest a d) := by
  rw [roundNearest_eq]
  exact (bracket_quotient a hd).nearestMag

/-- The first clause of O52: the rounding of `a / d` in units, on whole numbers. -/
theorem roundNearest_nearest (a : Nat) {d : Nat} (hd : 0 < d) :
    (roundNearest a d < infMag → ∀ k < infMag,
      |(magUnits (roundNearest a d) : ℤ) * d - a| ≤ |(magUnits k : ℤ) * d - a| ∧
        (|(magUnits (roundNearest a d) : ℤ) * d - a| = |(magUnits k : ℤ) * d - a| → k ≠ roundNearest a d →
          roundNearest a d % 2 = 0)) ∧
    (roundNearest a d = infMag ↔ (2 ^ 54 - 1) * 2 ^ 2044 * d ≤ a) := by
  have hdR : (0 : ℝ) < d := Nat.cast_pos.2 hd
  have hscale : ∀ m : Nat, ((|(magUnits m : ℤ) * d - a| : ℤ) : ℝ) = |(magUnits m : ℝ) - a / d| * d := by
    intro m
    rw [← abs_of_pos hdR, ← abs_mul, abs_of_pos hdR, sub_mul, div_mul_cancel₀ _ hdR.ne']
    push_cast
    rfl
  have h := nearestMag_roundNearest a hd
  refine ⟨fun hlt k hk => ?_, ?_⟩
  · obtain ⟨hle, heq⟩ := h.nearest hlt k hk
    refine ⟨?_, fun he => heq ?_⟩
    · have : ((|(magUnits (roundNearest a d) : ℤ) * d - a| : ℤ) : ℝ) ≤ (|(magUnits k : ℤ) * d - a| : ℤ) := by
        rw [hscale, hscale]
        exact mul_le_mul_of_nonneg_right hle hdR.le
      exact_mod_cast this
    · have he' : ((|(magUnits (roundNearest a d) : ℤ) * d - a| : ℤ) : ℝ) = (|(magUnits k : ℤ) * d - a| : ℤ) := by rw [he]
      rw [hscale, hscale] at he'
      exact mul_right_cancel₀ hdR.ne' he'
  · rw [h.inf_iff, le_div_iff₀ hdR]
    have hcast : (((2 ^ 54 - 1) * 2 ^ 2044 * d : ℕ) : ℝ) = (2 ^ 54 - 1) * 2 ^ 2044 * d := by
      have h54 : ((2 ^ 54 - 1 : ℕ) : ℝ) = 2 ^ 54 - 1 := by norm_num
      rw [Nat.cast_mul, Nat.cast_mul, h54, Nat.cast_pow, Nat.cast_ofNat]
    rw [← hcast, Nat.cast_le]

/-! ## From magnitudes to words -/

theorem value_fPack {neg : Bool} {m : Nat} (h : m < 2 ^ 63) :
    (Spec.value (fPack neg m) : ℝ) = signFactor neg * (magUnits m / unitsPerOne) := by
  rw [value_eq_units, fNeg_fPack h, fUnits_fPack h]

theorem nearestMag_zero {m : Nat} (h : NearestMag 0 m) : m = 0 := by
  have hne : m ≠ infMag := by
    rw [ne_eq, h.inf_iff, not_le]
    exact mul_pos (by norm_num) (pow_pos two_pos 2044)
  have hlt : m < infMag := lt_of_le_of_ne h.le hne
  have hle := (h.nearest hlt 0 (by decide)).1
  rw [magUnits_zero, Nat.cast_zero, sub_self, abs_zero, sub_zero, abs_nonpos_iff, Nat.cast_eq_zero] at hle
  exact magUnits_injective (by rw [infMag_eq] at hlt; omega) (by decide) (hle.trans magUnits_zero.symm)

theorem eq_signFactor_mul_abs {r : ℝ} {s : Bool} (h : s = true ↔ r < 0) : r = signFactor s * |r| := by
  cases s with
  | true => rw [abs_of_neg (h.1 rfl), signFactor, if_pos rfl, neg_one_mul, neg_neg]
  | false =>
    have hr : 0 ≤ r := not_lt.1 fun hlt => Bool.noConfusion (h.2 hlt)
    rw [abs_of_nonneg hr, signFactor, if_neg Bool.false_ne_true, one_mul]

/-- The distance between two values, by their signs and magnitudes. -/
theorem abs_sub_signed (τ s : Bool) {u v : ℝ} (hu : 0 ≤ u) (hv : 0 ≤ v) :
    |signFactor τ * u - signFactor s * v| = if τ = s then |u - v| else u + v := by
  have hsame : |-u + v| = |u - v| := by rw [← abs_neg]; ring_nf
  have hopp : |-u - v| = u + v := by rw [← abs_neg, abs_of_nonneg (by linarith)]; ring
  cases τ <;> cases s <;> simp [signFactor, hsame, hopp, abs_of_nonneg (add_nonneg hu hv)]

section

variable {r : ℝ} {m : Nat} {s : Bool}

/-- The distance of a word's value from `r`, in units: of one sign the difference of the magnitudes, else their sum. -/
theorem distance_eq (hs : s = true ↔ r < 0) (y : Word) : |(Spec.value y : ℝ) - r| =
    (if fNeg y = s then |(magUnits (fMag y) : ℝ) - |r| * unitsPerOne| else magUnits (fMag y) + |r| * unitsPerOne) / unitsPerOne := by
  have hU := unitsPerOne_real_pos
  conv_lhs => rw [value_eq_units, fUnits_eq_magUnits, eq_signFactor_mul_abs hs]
  rw [abs_sub_signed (fNeg y) s (div_nonneg (Nat.cast_nonneg _) hU.le) (abs_nonneg r), eq_div_iff hU.ne', ite_mul, add_mul,
    div_mul_cancel₀ _ hU.ne']
  congr 1
  rw [← abs_of_pos hU, ← abs_mul, abs_of_pos hU, sub_mul, div_mul_cancel₀ _ hU.ne']

/-- Among the finite words of both signs, the word of the sign of `r` and the nearest magnitude is nearest `r`: a word of
the other sign is no nearer than the one of the same magnitude. -/
theorem nearest_fPack (h : NearestMag (|r| * unitsPerOne) m) (hr : r ≠ 0) (hs : s = true ↔ r < 0) (hlt : m < infMag) {y : Word}
    (hy : Spec.Finite y) : |(Spec.value (fPack s m) : ℝ) - r| ≤ |(Spec.value y : ℝ) - r| ∧
      (|(Spec.value (fPack s m) : ℝ) - r| = |(Spec.value y : ℝ) - r| → Spec.value y ≠ Spec.value (fPack s m) → m % 2 = 0) := by
  have hU := unitsPerOne_real_pos
  have hm : m < 2 ^ 63 := lt_of_le_of_lt h.le (by decide)
  have hval : fMag y = m → (fNeg y = s ∨ magUnits m = 0) → Spec.value y = Spec.value (fPack s m) := by
    intro hmag hsame
    rw [← Rat.cast_inj (α := ℝ), value_eq_units y, fUnits_eq_magUnits, value_fPack hm, hmag]
    rcases hsame with hsign | hzero
    · rw [hsign]
    · rw [hzero, Nat.cast_zero, zero_div, mul_zero, mul_zero]
  have hρ : 0 < |r| * unitsPerOne := mul_pos (abs_pos.2 hr) hU
  obtain ⟨hle, heven⟩ := h.nearest hlt (fMag y) (finite_iff.1 hy)
  rw [distance_eq hs, distance_eq hs, fNeg_fPack hm, fMag_fPack hm, if_pos rfl, div_le_div_iff_of_pos_right hU,
    div_left_inj' hU.ne']
  generalize |r| * (unitsPerOne : ℝ) = ρ at *
  split
  · next hsame => exact ⟨hle, fun he hne => heven he fun hkm => hne (hval hkm (.inl hsame))⟩
  · have hu : (0 : ℝ) ≤ magUnits (fMag y) := Nat.cast_nonneg _
    have htri : |(magUnits (fMag y) : ℝ) - ρ| ≤ magUnits (fMag y) + ρ := by
      rw [abs_le]
      constructor <;> linarith
    refine ⟨hle.trans htri, fun he hne => heven (by linarith) fun hkm => hne (hval hkm (.inr ?_))⟩
    rw [hkm] at he hu
    have hzero : (magUnits m : ℝ) = 0 := by
      rcases abs_choice ((magUnits m : ℝ) - ρ) with ha | ha <;> rw [ha] at he <;> linarith
    exact_mod_cast hzero

/-- A word whose magnitude is nearest that of `r`, with the sign of `r`, is `r` rounded once. -/
theorem rounded_fPack {neg : Bool} (h : NearestMag (|r| * unitsPerOne) m) (hz : r = 0 → s = neg)
    (hs : r ≠ 0 → (s = true ↔ r < 0)) : Spec.Rounded r neg (fPack s m) := by
  have hm : m < 2 ^ 63 := lt_of_le_of_lt h.le (by decide)
  have hlimit : |r| < (2 ^ 54 - 1) * 2 ^ 970 ↔ m ≠ infMag := by
    rw [ne_eq, h.inf_iff, not_le, unitsPerOne_real, show 2044 = 970 + 1074 from rfl, pow_add, ← mul_assoc]
    exact (mul_lt_mul_iff_left₀ (pow_pos two_pos 1074)).symm
  refine ⟨?_, ?_, ?_, ?_⟩
  · rintro rfl
    rw [abs_zero, zero_mul] at h
    rw [hz rfl, nearestMag_zero h, zero_eq]
    rfl
  · intro hr
    rw [sign_eq, fNeg_fPack hm, hs hr]
  · intro hr hlt
    have hmlt : m < infMag := lt_of_le_of_ne h.le (hlimit.1 hlt)
    have heven : m % 2 = 0 → Spec.fraction (fPack s m) % 2 = 0 := by
      rw [fraction_eq, fMag_fPack hm]
      omega
    refine ⟨finite_iff.2 (by rwa [fMag_fPack hm]), fun y hy => ?_⟩
    obtain ⟨hle, htie⟩ := nearest_fPack h hr (hs hr) hmlt hy
    exact ⟨hle, fun he hne => heven (htie he hne)⟩
  · intro hle
    rw [infinite_iff, fMag_fPack hm]
    by_contra hne
    exact absurd (hlimit.2 hne) (not_lt.2 hle)

end

end Sys2Proof.Machine

/-! SUPPORT. The integer square root, and the rounding of a root that is no whole number (R11). -/

namespace Sys2Proof.Machine

/-! ## The integer square root (R11) -/

/-- A guess above the root comes to less than half as far above it. -/
theorem newton_lt {n x b : Nat} (h : x < Nat.sqrt n + 2 * b) (hx : Nat.sqrt n < x) : (x + n / x) / 2 < Nat.sqrt n + b := by
  have hlt : n / x < Nat.sqrt n + 1 :=
    (Nat.div_lt_iff_lt_mul (by omega)).2 (lt_of_lt_of_le (Nat.sqrt_lt'.1 (Nat.lt_succ_self _)) (by
      rw [pow_two]; exact Nat.mul_le_mul_left _ hx))
  omega

theorem le_newton {n x : Nat} (h : x ≤ Nat.sqrt n) : x ≤ (x + n / x) / 2 := by
  rcases Nat.eq_zero_or_pos x with rfl | hx
  · exact Nat.zero_le _
  · have hle : x ≤ n / x := (Nat.le_div_iff_mul_le hx).2 (Nat.le_sqrt.1 h)
    omega

/-- No step goes below the root: the mean of a guess and its quotient is at least their geometric mean. -/
theorem sqrt_le_newton {n x : Nat} (hx : 0 < x) : Nat.sqrt n ≤ (x + n / x) / 2 := by
  have hsq := Nat.sqrt_le n
  rcases Nat.le_total (2 * Nat.sqrt n) x with hle | hle
  · generalize n / x = k
    omega
  · obtain ⟨y, hy⟩ := Nat.exists_eq_add_of_le hle
    have hprod : y * x ≤ n := by nlinarith [sq_nonneg ((x : ℤ) - Nat.sqrt n), sq_nonneg ((x : ℤ) - y)]
    have := (Nat.le_div_iff_mul_le hx).2 hprod
    omega

/-- With fuel for a guess that far above the root, the iteration ends at the root. -/
theorem isqrtLoop_eq (n : Nat) : ∀ fuel x, Nat.sqrt n ≤ x → x < Nat.sqrt n + 2 ^ fuel → isqrtLoop n fuel x = Nat.sqrt n
  | 0, x, hle, hlt => by
    rw [isqrtLoop]
    omega
  | fuel + 1, x, hle, hlt => by
    rw [isqrtLoop]
    split
    · next hfall =>
      have hroot : Nat.sqrt n < x := by
        by_contra hge
        have := le_newton (n := n) (x := x) (by omega)
        omega
      have hnext := newton_lt (by rwa [← Nat.pow_succ']) hroot
      exact isqrtLoop_eq n fuel _ (sqrt_le_newton (Nat.zero_lt_of_lt hroot)) hnext
    · next hstay =>
      by_contra hne
      have := newton_lt (n := n) (x := x) (b := x - Nat.sqrt n) (by omega) (by omega)
      omega

theorem isqrt_eq (n : Nat) : isqrt n = Nat.sqrt n := by
  have hlog := Nat.lt_log2_self (n := n)
  have hstart : Nat.sqrt n ≤ 2 ^ (floorLog2 n / 2 + 1) := by
    rw [floorLog2_eq, ← Nat.lt_succ_iff, Nat.sqrt_lt]
    calc n < 2 ^ (Nat.log2 n + 1) := hlog
      _ ≤ 2 ^ (Nat.log2 n / 2 + 1 + (Nat.log2 n / 2 + 1)) := Nat.pow_le_pow_right (by decide) (by omega)
      _ = 2 ^ (Nat.log2 n / 2 + 1) * 2 ^ (Nat.log2 n / 2 + 1) := Nat.pow_add _ _ _
      _ ≤ _ := Nat.mul_le_mul (Nat.le_succ _) (Nat.le_succ _)
  have hfuel : 2 ^ (floorLog2 n / 2 + 1) < 2 ^ (floorLog2 n + 2) := Nat.pow_lt_pow_right (by decide) (by omega)
  exact isqrtLoop_eq n _ _ hstart (by omega)

/-! ## The rounding of an irrational root (R11) -/

section

variable {s e : Nat}

/-- The last place of the mean of `s` and `s + 1` is at least two from `2^53` on. -/
theorem ulpExp_mean (hs : 2 ^ 53 ≤ s) : ∃ e, ulpExp (2 * s + 1) 2 = e + 1 := by
  have hlog : 53 ≤ Nat.log2 s := (Nat.le_log2 (by omega)).2 hs
  refine ⟨Nat.log2 s - 53, ?_⟩
  rw [ulpExp, floorLog2_eq, show (2 * s + 1) / 2 = s by omega]
  omega

theorem mean_div (s e : Nat) : (2 * s + 1) / (2 * 2 ^ e) = s / 2 ^ e := by
  rw [← Nat.div_div_eq_div_mul, show (2 * s + 1) / 2 = s by omega]

theorem mean_mod (s e : Nat) : (2 * s + 1) % (2 * 2 ^ e) = 2 * (s % 2 ^ e) + 1 := by
  have hmean := Nat.div_add_mod (2 * s + 1) (2 * 2 ^ e)
  have hs := Nat.div_add_mod s (2 ^ e)
  rw [mean_div, Nat.mul_assoc] at hmean
  omega

/-- The mean is no tie: it rounds up when `s` is in the upper half of its last place. -/
theorem roundsUp_mean (he : ulpExp (2 * s + 1) 2 = e + 1) : roundsUp (2 * s + 1) 2 = true ↔ 2 ^ e ≤ s % 2 ^ (e + 1) := by
  have hpow := Nat.pow_succ' (n := 2) (m := e)
  rw [roundsUp_iff, he, mean_mod]
  omega

/-- The neighbours of a number that lies strictly between two whole ones are those of their mean, and so is the choice: all
whole numbers of last places and their halves are whole from `2^53` on. -/
theorem bracket_between {ρ : ℝ} (hs : 2 ^ 53 ≤ s) (h1 : (s : ℝ) < ρ) (h2 : ρ < s + 1) :
    Bracket ρ (ulpExp (2 * s + 1) 2) ((2 * s + 1) / (2 * 2 ^ ulpExp (2 * s + 1) 2))
      (if roundsUp (2 * s + 1) 2 then 1 else 0) := by
  obtain ⟨e, he⟩ := ulpExp_mean hs
  obtain ⟨hsig, hnorm⟩ := sig_bounds (2 * s + 1) 2
  have hup := roundsUp_mean he
  rw [he, mean_div] at hsig hnorm ⊢
  have hmod := Nat.mod_lt s (Nat.two_pow_pos (e + 1))
  have hdiv : (2 : ℝ) ^ (e + 1) * (s / 2 ^ (e + 1) : ℕ) + (s % 2 ^ (e + 1) : ℕ) = s := by
    exact_mod_cast Nat.div_add_mod s (2 ^ (e + 1))
  have hmodR : ((s % 2 ^ (e + 1) : ℕ) : ℝ) + 1 ≤ 2 ^ (e + 1) := by exact_mod_cast hmod
  have hpow : (2 : ℝ) ^ (e + 1) = 2 * 2 ^ e := pow_succ' 2 e
  have hr0 : (0 : ℝ) ≤ (s % 2 ^ (e + 1) : ℕ) := Nat.cast_nonneg _
  generalize s / 2 ^ (e + 1) = q at *
  generalize s % 2 ^ (e + 1) = r at *
  have hhi : 2 ^ e ≤ r → (2 : ℝ) ^ e ≤ r := fun h => by exact_mod_cast h
  have hlo : ¬ 2 ^ e ≤ r → (r : ℝ) + 1 ≤ 2 ^ e := fun h => by exact_mod_cast not_le.1 h
  refine ⟨by split <;> simp, hsig, hnorm, by linarith, by linarith, fun hc => ?_, fun hc => ?_, fun ht => ?_⟩
  · have := hhi (hup.1 (by by_contra hne; rw [if_neg hne] at hc; cases hc))
    linarith
  · have := hlo (fun hle => by rw [if_pos (hup.2 hle)] at hc; cases hc)
    linarith
  · by_cases hle : 2 ^ e ≤ r
    · have := hhi hle
      linarith
    · have := hlo hle
      linarith

end

theorem nearestMag_between {ρ : ℝ} {s : Nat} (hs : 2 ^ 53 ≤ s) (h1 : (s : ℝ) < ρ) (h2 : ρ < s + 1) :
    NearestMag ρ (roundNearest (2 * s + 1) 2) := by
  rw [roundNearest_eq]
  exact (bracket_between hs h1 h2).nearestMag

/-- The magnitude of a root is the one nearest it. -/
theorem nearestMag_sqrtMag {u : Nat} (hu : 0 < u) : NearestMag √((u * unitsPerOne : ℕ) : ℝ) (sqrtMag u) := by
  rw [sqrtMag, isqrt_eq]
  have hlo := Nat.sqrt_le (u * unitsPerOne)
  have hbig : 2 ^ 53 ≤ Nat.sqrt (u * unitsPerOne) := by
    rw [Nat.le_sqrt]
    calc 2 ^ 53 * 2 ^ 53 ≤ 2 ^ 1074 := by rw [← Nat.pow_add]; exact Nat.pow_le_pow_right (by decide) (by decide)
      _ ≤ u * unitsPerOne := Nat.le_mul_of_pos_left _ hu
  generalize u * unitsPerOne = n at *
  split
  · next hsq =>
    have hroot : √(n : ℝ) = (Nat.sqrt n : ℝ) / (1 : ℕ) := by
      rw [Nat.cast_one, div_one, Real.sqrt_eq_iff_mul_self_eq (Nat.cast_nonneg _) (Nat.cast_nonneg _)]
      exact_mod_cast hsq.symm
    rw [hroot]
    exact nearestMag_roundNearest _ Nat.one_pos
  · next hsq =>
    refine nearestMag_between hbig ?_ ?_
    · rw [Real.lt_sqrt (Nat.cast_nonneg _)]
      have hlt : Nat.sqrt n * Nat.sqrt n < n := lt_of_le_of_ne hlo hsq
      rw [pow_two]
      exact_mod_cast hlt
    · rw [Real.sqrt_lt' (by positivity), pow_two]
      exact_mod_cast Nat.lt_succ_sqrt n

end Sys2Proof.Machine

/-! SUPPORT. Each operation on each class of operands (R11, R12), and the constants (R16, R68). -/

namespace Sys2Proof.Machine

/-! ## The operations on finite operands (R11, R12) -/

section

variable {x y : Word}

theorem isZero_iff_value : isZero x = true ↔ (Spec.value x : ℝ) = 0 := by
  rw [value_eq_zero_iff, fUnits_eq_zero_iff, isZero, beq_iff_eq]

theorem isZero_eq_decide (x : Word) : isZero x = decide ((Spec.value x : ℝ) = 0) := by
  rw [Bool.eq_iff_iff, isZero_iff_value, decide_eq_true_iff]

@[simp] theorem value_fneg (x : Word) : (Spec.value (fneg x) : ℝ) = -Spec.value x := by
  rw [value_eq_units, value_eq_units, fNeg_fneg, signFactor_not, fUnits_eq_magUnits, fUnits_eq_magUnits, fMag_fneg, neg_mul]

theorem finite_fneg : Spec.Finite (fneg x) ↔ Spec.Finite x := by rw [finite_iff, finite_iff, fMag_fneg]

@[simp] theorem isNaN_fneg (x : Word) : isNaN (fneg x) = isNaN x := by rw [isNaN, fMag_fneg, isNaN]

@[simp] theorem isInf_fneg (x : Word) : isInf (fneg x) = isInf x := by rw [isInf, fMag_fneg, isInf]

theorem abs_value (x : Word) : |(Spec.value x : ℝ)| = fUnits x / unitsPerOne := by
  rw [value_eq_units, abs_mul, abs_signFactor, one_mul, abs_of_nonneg (div_nonneg (Nat.cast_nonneg _) unitsPerOne_real_pos.le)]

/-- A value that is not zero has the sign of its word. -/
theorem fNeg_iff_value_neg (h : (Spec.value x : ℝ) ≠ 0) : fNeg x = true ↔ (Spec.value x : ℝ) < 0 := by
  rw [ne_eq, value_eq_zero_iff, fUnits_eq_zero_iff] at h
  rw [value_neg_iff, and_iff_left h]

/-- The sign of a product or quotient. -/
theorem bne_sign_iff {a b : Bool} {u v : ℝ} (hu : u ≠ 0) (hv : v ≠ 0) (ha : a = true ↔ u < 0) (hb : b = true ↔ v < 0) :
    (a != b) = true ↔ u * v < 0 := by
  rw [mul_neg_iff, ← ha, ← hb, ← not_le, ← not_le, hu.le_iff_lt, hv.le_iff_lt, ← ha, ← hb]
  cases a <;> cases b <;> simp

theorem fadd_finite (hx : Spec.Finite x) (hy : Spec.Finite y) : fadd x y = addFinite x y := by
  obtain ⟨nx, ix⟩ := class_of_finite hx
  obtain ⟨ny, iy⟩ := class_of_finite hy
  simp [fadd, nx, ix, ny, iy]

/-- A quotient in units, rounded, with its sign. -/
theorem rounded_ratio {r : ℝ} {a d : Nat} {neg s : Bool} (hd : 0 < d) (habs : |r| * unitsPerOne = a / d)
    (hz : r = 0 → s = neg) (hs : r ≠ 0 → (s = true ↔ r < 0)) : Spec.Rounded r neg (fPack s (roundNearest a d)) :=
  rounded_fPack (by rw [habs]; exact nearestMag_roundNearest a hd) hz hs

theorem rounded_zero (neg : Bool) : Spec.Rounded 0 neg (fZero neg) := by
  have hmag : NearestMag 0 (roundNearest 0 1) := by simpa using nearestMag_roundNearest 0 Nat.one_pos
  rw [fZero, ← nearestMag_zero hmag]
  exact rounded_ratio Nat.one_pos (by rw [abs_zero, zero_mul, Nat.cast_zero, zero_div]) (fun _ => rfl) fun h => absurd rfl h

theorem rounded_fadd (hx : Spec.Finite x) (hy : Spec.Finite y) :
    Spec.Rounded ((Spec.value x : ℝ) + Spec.value y) (Spec.sign x && Spec.sign y) (fadd x y) := by
  have hU := unitsPerOne_real_pos
  have hsum : (Spec.value x : ℝ) + Spec.value y = ((fInt x + fInt y : ℤ) : ℝ) / unitsPerOne := by
    rw [value_eq, value_eq, Int.cast_add, add_div]
  rw [fadd_finite hx hy, addFinite, hsum, sign_eq, sign_eq]
  generalize fInt x + fInt y = i
  split
  · next h0 =>
    rw [h0, Int.cast_zero, zero_div]
    exact rounded_zero _
  · next h0 =>
    have hne : ((i : ℤ) : ℝ) / unitsPerOne ≠ 0 := div_ne_zero (Int.cast_ne_zero.2 h0) hU.ne'
    refine rounded_ratio Nat.one_pos ?_ (fun h => absurd h hne) fun _ => ?_
    · rw [abs_div, abs_of_pos hU, div_mul_cancel₀ _ hU.ne', Nat.cast_one, div_one, Nat.cast_natAbs, Int.cast_abs]
    · rw [decide_eq_true_iff, div_lt_iff₀ hU, zero_mul, Int.cast_lt_zero]

theorem rounded_fsub (hx : Spec.Finite x) (hy : Spec.Finite y) :
    Spec.Rounded ((Spec.value x : ℝ) - Spec.value y) (Spec.sign x && !Spec.sign y) (fsub x y) := by
  have h := rounded_fadd hx (finite_fneg.2 hy)
  rw [value_fneg, ← sub_eq_add_neg, sign_eq (fneg y), fNeg_fneg, ← sign_eq y] at h
  rwa [fsub, (class_of_finite hy).1, if_neg Bool.false_ne_true]

theorem rounded_fmul (hx : Spec.Finite x) (hy : Spec.Finite y) :
    Spec.Rounded ((Spec.value x : ℝ) * Spec.value y) (Spec.sign x != Spec.sign y) (fmul x y) := by
  obtain ⟨nx, ix⟩ := class_of_finite hx
  obtain ⟨ny, iy⟩ := class_of_finite hy
  have hU := unitsPerOne_real_pos
  have heq : fmul x y = fPack (fNeg x != fNeg y) (roundNearest (fUnits x * fUnits y) unitsPerOne) := by
    simp [fmul, nx, ix, ny, iy]
  rw [heq, sign_eq, sign_eq]
  refine rounded_ratio unitsPerOne_pos ?_ (fun _ => rfl) fun h => ?_
  · rw [abs_mul, abs_value, abs_value, Nat.cast_mul, mul_assoc, div_mul_cancel₀ _ hU.ne', div_mul_eq_mul_div]
  · obtain ⟨hx0, hy0⟩ := mul_ne_zero_iff.1 h
    exact bne_sign_iff hx0 hy0 (fNeg_iff_value_neg hx0) (fNeg_iff_value_neg hy0)

theorem fdiv_finite (hx : Spec.Finite x) (hy : Spec.Finite y) :
    fdiv x y = if isZero y then (if isZero x then fNaN else fInf (fNeg x != fNeg y))
      else fPack (fNeg x != fNeg y) (roundNearest (fUnits x * unitsPerOne) (fUnits y)) := by
  obtain ⟨nx, ix⟩ := class_of_finite hx
  obtain ⟨ny, iy⟩ := class_of_finite hy
  simp [fdiv, nx, ix, ny, iy]

theorem rounded_fdiv (hx : Spec.Finite x) (hy : Spec.Finite y) (hy0 : (Spec.value y : ℝ) ≠ 0) :
    Spec.Rounded ((Spec.value x : ℝ) / Spec.value y) (Spec.sign x != Spec.sign y) (fdiv x y) := by
  have hU := unitsPerOne_real_pos
  have hu : fUnits y ≠ 0 := by rwa [ne_eq, ← value_eq_zero_iff]
  rw [fdiv_finite hx hy, isZero_eq_decide y, decide_eq_false hy0, if_neg Bool.false_ne_true, sign_eq, sign_eq]
  refine rounded_ratio (Nat.pos_of_ne_zero hu) ?_ (fun _ => rfl) fun h => ?_
  · have huR : (fUnits y : ℝ) ≠ 0 := Nat.cast_ne_zero.2 hu
    rw [abs_div, abs_value, abs_value, div_div_div_cancel_right₀ hU.ne', Nat.cast_mul, div_mul_eq_mul_div]
  · obtain ⟨hx0, _⟩ := div_ne_zero_iff.1 h
    rw [div_eq_mul_inv]
    exact bne_sign_iff hx0 (inv_ne_zero hy0) (fNeg_iff_value_neg hx0) (by rw [inv_lt_zero]; exact fNeg_iff_value_neg hy0)

theorem fdiv_by_zero (hx : Spec.Finite x) (hy : Spec.Finite y) (hy0 : (Spec.value y : ℝ) = 0) :
    fdiv x y = if (Spec.value x : ℝ) = 0 then Spec.nan else Spec.infinity (Spec.sign x != Spec.sign y) := by
  rw [fdiv_finite hx hy, isZero_eq_decide y, decide_eq_true hy0, if_pos rfl, isZero_eq_decide x, infinity_eq, sign_eq, sign_eq]
  simp only [decide_eq_true_eq, nan_eq]

/-! ### Comparisons -/

/-- `fKey` is the magnitude with the sign; as the magnitudes are ordered as the values are, so are the keys. -/
theorem fKey_lt_iff (x y : Word) : fKey x < fKey y ↔ fInt x < fInt y := by
  have hx := fMag_lt x
  have hy := fMag_lt y
  have hlt : ∀ {j k : Nat}, k < 2 ^ 63 → j < 2 ^ 63 → (magUnits j < magUnits k ↔ j < k) := fun hk hj =>
    ⟨fun h => by by_contra hge; exact absurd (magUnits_le hj (not_lt.1 hge)) (not_le.2 h), magUnits_lt hk⟩
  have hxy := hlt hy hx
  have hyx := hlt hx hy
  have hx0 := hlt hx (show 0 < 2 ^ 63 by decide)
  have hy0 := hlt hy (show 0 < 2 ^ 63 by decide)
  rw [magUnits_zero] at hx0 hy0
  rw [fKey, fKey, fInt, fInt, fUnits_eq_magUnits, fUnits_eq_magUnits]
  cases fNeg x <;> cases fNeg y <;> simp only [Bool.false_eq_true, if_false, if_true] <;> omega

theorem value_lt_iff (x y : Word) : (Spec.value x : ℝ) < Spec.value y ↔ fInt x < fInt y := by
  rw [value_eq, value_eq, div_lt_div_iff_of_pos_right unitsPerOne_real_pos, Int.cast_lt]

theorem flt_iff_value (hx : Spec.Finite x) (hy : Spec.Finite y) : flt x y = true ↔ (Spec.value x : ℝ) < Spec.value y := by
  rw [flt, (class_of_finite hx).1, (class_of_finite hy).1, value_lt_iff, ← fKey_lt_iff]
  simp

theorem fle_iff_value (hx : Spec.Finite x) (hy : Spec.Finite y) : fle x y = true ↔ (Spec.value x : ℝ) ≤ Spec.value y := by
  rw [fle, (class_of_finite hx).1, (class_of_finite hy).1, ← not_lt (α := ℝ), value_lt_iff, ← fKey_lt_iff]
  simp

/-! ### Roots -/

theorem fsqrt_zero (hx : Spec.Finite x) (h : (Spec.value x : ℝ) = 0) : fsqrt x = x := by
  rw [fsqrt, (class_of_finite hx).1, isZero_eq_decide, decide_eq_true h]
  rfl

theorem fsqrt_neg (hx : Spec.Finite x) (h : (Spec.value x : ℝ) < 0) : fsqrt x = Spec.nan := by
  rw [fsqrt, (class_of_finite hx).1, isZero_eq_decide, decide_eq_false h.ne, (value_neg_iff.1 h).1]
  rfl

theorem rounded_fsqrt (hx : Spec.Finite x) (h : 0 < (Spec.value x : ℝ)) :
    Spec.Rounded √(Spec.value x : ℝ) false (fsqrt x) := by
  obtain ⟨nx, ix⟩ := class_of_finite hx
  have hU := unitsPerOne_real_pos
  have hu : 0 < fUnits x := Nat.pos_of_ne_zero fun h0 => h.ne' (value_eq_zero_iff.2 h0)
  have heq : fsqrt x = fPack false (sqrtMag (fUnits x)) := by
    simp [fsqrt, nx, ix, isZero_eq_decide, h.ne', (value_pos_iff.1 h).1]
  have hroot : |√(Spec.value x : ℝ)| * unitsPerOne = √((fUnits x * unitsPerOne : ℕ) : ℝ) := by
    have hnn : (0 : ℝ) ≤ fUnits x / unitsPerOne := div_nonneg (Nat.cast_nonneg _) hU.le
    rw [abs_of_nonneg (Real.sqrt_nonneg _), ← abs_of_pos h, abs_value, Nat.cast_mul]
    calc √(fUnits x / unitsPerOne : ℝ) * unitsPerOne = √(fUnits x / unitsPerOne : ℝ) * √((unitsPerOne : ℝ) * unitsPerOne) := by
          rw [Real.sqrt_mul_self hU.le]
      _ = √((fUnits x / unitsPerOne : ℝ) * (unitsPerOne * unitsPerOne)) := (Real.sqrt_mul hnn _).symm
      _ = √((fUnits x : ℝ) * unitsPerOne) := by rw [← mul_assoc, div_mul_cancel₀ _ hU.ne']
  rw [heq]
  refine rounded_fPack (by rw [hroot]; exact nearestMag_sqrtMag hu) (fun _ => rfl) fun _ => ?_
  exact iff_of_false Bool.false_ne_true (not_lt.2 (Real.sqrt_nonneg _))

end

/-! ## Infinities and NaNs (R11, R12) -/

section

variable {x y : Word}

theorem isNaN_of (h : Spec.NotANumber x) : isNaN x = true := (isNaN_iff_notANumber x).2 h

theorem nan_operand (h : Spec.NotANumber x ∨ Spec.NotANumber y) :
    fadd x y = Spec.nan ∧ fsub x y = Spec.nan ∧ fmul x y = Spec.nan ∧ fdiv x y = Spec.nan ∧
      flt x y = false ∧ fle x y = false := by
  rw [← isNaN_iff_notANumber, ← isNaN_iff_notANumber] at h
  have hor : (isNaN x || isNaN y) = true := by simpa using h
  have hadd : fadd x y = Spec.nan := by rw [fadd, if_pos hor]; rfl
  refine ⟨hadd, ?_, by rw [fmul, if_pos hor]; rfl, by rw [fdiv, if_pos hor]; rfl, ?_, ?_⟩
  · rw [fsub]
    split
    · rfl
    · rw [fadd, isNaN_fneg, if_pos hor]
      rfl
  · rcases h with h | h <;> simp [flt, h]
  · rcases h with h | h <;> simp [fle, h]

theorem fsqrt_nan (h : Spec.NotANumber x) : fsqrt x = Spec.nan := by
  rw [fsqrt, if_pos (isNaN_of h)]
  rfl

theorem fsqrt_infinite (h : Spec.Infinite x) : fsqrt x = if Spec.sign x then Spec.nan else x := by
  obtain ⟨hn, hi, hz⟩ := class_of_infinite h
  rw [sign_eq, fsqrt, hn, hz, hi]
  rfl

theorem fneg_infinite (h : Spec.Infinite x) : fneg x = Spec.infinity (!Spec.sign x) := by
  rw [infinity_eq, sign_eq, fneg, infinite_iff.1 h, fInf]

/-- The key of an infinity is beyond that of every finite value. -/
theorem fKey_infinite (h : Spec.Infinite x) : fKey x = if fNeg x then -(infMag : ℤ) else infMag := by
  rw [fKey, infinite_iff.1 h]

theorem fKey_finite (h : Spec.Finite x) : -(infMag : ℤ) < fKey x ∧ fKey x < infMag := by
  have := finite_iff.1 h
  rw [fKey]
  cases fNeg x <;> simp only [Bool.false_eq_true, if_false, if_true] <;> omega

theorem infinite_finite (hx : Spec.Infinite x) (hy : Spec.Finite y) :
    fadd x y = x ∧ fadd y x = x ∧ fsub x y = x ∧ fsub y x = Spec.infinity (!Spec.sign x) ∧
      (fmul x y = if (Spec.value y : ℝ) = 0 then Spec.nan else Spec.infinity (Spec.sign x != Spec.sign y)) ∧
      (fmul y x = if (Spec.value y : ℝ) = 0 then Spec.nan else Spec.infinity (Spec.sign x != Spec.sign y)) ∧
      fdiv x y = Spec.infinity (Spec.sign x != Spec.sign y) ∧ fdiv y x = Spec.zero (Spec.sign x != Spec.sign y) ∧
      flt x y = Spec.sign x ∧ fle x y = Spec.sign x ∧ flt y x = !Spec.sign x ∧ fle y x = !Spec.sign x := by
  obtain ⟨nx, ix, zx⟩ := class_of_infinite hx
  obtain ⟨ny, iy⟩ := class_of_finite hy
  obtain ⟨hlo, hhi⟩ := fKey_finite hy
  have hk := fKey_infinite hx
  have hcomm : (fNeg y != fNeg x) = (fNeg x != fNeg y) := bne_comm
  refine ⟨by simp [fadd, nx, ix, ny, iy], by simp [fadd, nx, ix, ny, iy], by simp [fsub, fadd, nx, ix, ny, iy], ?_,
    ?_, ?_, ?_, ?_, ?_, ?_, ?_, ?_⟩
  · rw [← fneg_infinite hx]
    simp [fsub, fadd, nx, ix, ny, iy]
  · simp [fmul, nx, ix, zx, ny, iy, isZero_eq_decide y, infinity_eq, nan_eq, sign_eq]
  · simp [fmul, nx, ix, zx, ny, iy, isZero_eq_decide y, infinity_eq, nan_eq, sign_eq, hcomm]
  · simp [fdiv, nx, ix, ny, iy, infinity_eq, sign_eq]
  · simp [fdiv, nx, ix, ny, iy, zero_eq, sign_eq, hcomm]
  all_goals
    simp only [flt, fle, nx, ny, hk, sign_eq, Bool.not_false, Bool.true_and]
    cases fNeg x <;> simp <;> omega

theorem infinite_infinite (hx : Spec.Infinite x) (hy : Spec.Infinite y) :
    (fadd x y = if Spec.sign x = Spec.sign y then x else Spec.nan) ∧
      (fsub x y = if Spec.sign x = Spec.sign y then Spec.nan else x) ∧
      fmul x y = Spec.infinity (Spec.sign x != Spec.sign y) ∧ fdiv x y = Spec.nan ∧
      (flt x y = (Spec.sign x && !Spec.sign y)) ∧ (fle x y = (Spec.sign x || !Spec.sign y)) := by
  obtain ⟨nx, ix, zx⟩ := class_of_infinite hx
  obtain ⟨ny, iy, zy⟩ := class_of_infinite hy
  have hpos : (0 : ℤ) < infMag := by decide
  refine ⟨?_, ?_, ?_, ?_, ?_, ?_⟩
  · simp only [fadd, nx, ix, ny, iy, sign_eq, nan_eq]
    cases fNeg x <;> cases fNeg y <;> rfl
  · simp only [fsub, fadd, isNaN_fneg, isInf_fneg, fNeg_fneg, nx, ix, ny, iy, sign_eq, nan_eq]
    cases fNeg x <;> cases fNeg y <;> rfl
  · simp [fmul, nx, ix, zx, ny, iy, zy, infinity_eq, sign_eq]
  · simp [fdiv, nx, ix, ny, iy, nan_eq]
  all_goals
    simp only [flt, fle, nx, ny, fKey_infinite hx, fKey_infinite hy, sign_eq, Bool.not_false, Bool.true_and]
    cases fNeg x <;> cases fNeg y <;> simp
    omega

end

/-! ## Integers and constants (R12, R16, R68) -/

theorem rounded_fofNat (n : Nat) : Spec.Rounded (n : ℝ) false (fofNat n) := by
  rw [fofNat]
  refine rounded_ratio Nat.one_pos ?_ (fun _ => rfl) fun _ => iff_of_false Bool.false_ne_true (not_lt.2 (Nat.cast_nonneg n))
  rw [abs_of_nonneg (Nat.cast_nonneg n), Nat.cast_one, div_one, Nat.cast_mul]

theorem rounded_fofInt (i : Int) : Spec.Rounded (i : ℝ) false (fofInt i) := by
  rw [fofInt]
  split
  · next hneg =>
    rw [fofNat, fneg_fPack (roundNearest_lt _ _)]
    have hr : (i : ℝ) < 0 := Int.cast_lt_zero.2 hneg
    refine rounded_ratio Nat.one_pos ?_ (fun h => absurd h hr.ne) fun _ => iff_of_true rfl hr
    rw [Nat.cast_one, div_one, Nat.cast_mul, Nat.cast_natAbs, Int.cast_abs]
  · next hpos =>
    have h := rounded_fofNat i.natAbs
    rwa [Nat.cast_natAbs, abs_of_nonneg (not_lt.1 hpos)] at h

/-- A word packed from the rounded quotient of two natural numbers is that quotient rounded. -/
theorem rounded_quotient {w : Word} {a d : Nat} (hd : 0 < d) (hw : w = fPack false (roundNearest (a * unitsPerOne) d)) :
    Spec.Rounded ((a : ℝ) / (d : ℝ)) false w := by
  have h0 : (0 : ℝ) ≤ (a : ℝ) / d := div_nonneg (Nat.cast_nonneg a) (Nat.cast_nonneg d)
  rw [hw]
  refine rounded_ratio hd ?_ (fun _ => rfl) fun _ => iff_of_false Bool.false_ne_true (not_lt.2 h0)
  rw [abs_of_nonneg h0, Nat.cast_mul, div_mul_eq_mul_div]

theorem decimalConstants_rounded :
    ∀ c ∈ decimalConstants, 0 < c.2.2 ∧ c.1 = fPack false (roundNearest (c.2.1 * unitsPerOne) c.2.2) := by
  decide +kernel

end Sys2Proof.Machine

/-! SUPPORT. The twiddle table (R67, R140) and the function unit (R15). -/

namespace Sys2Proof.Machine

/-! ## Multiples of PI (R16) -/

/-- A word with a multiple of the units of another has that multiple of its value. -/
theorem value_of_fInt {x y : Word} {k : Nat} (h : fInt x = k * fInt y) : Spec.value x = k * Spec.value y := by
  rw [← Rat.cast_inj (α := ℝ), value_eq, h, Rat.cast_mul, value_eq, Rat.cast_natCast, Int.cast_mul, Int.cast_natCast,
    mul_div_assoc]

/-! ## The twiddle table (R67, R140) -/

theorem cosTurnMag_lt (l t : Nat) : cosTurnMag l t < 2 ^ 63 := by
  unfold cosTurnMag
  split
  · exact fMag_lt _
  · split
    · decide
    · exact roundNearest_lt _ _

theorem cosTurnMag_zero (l : Nat) : cosTurnMag l 0 = fMag f1 := if_pos rfl

theorem cosTurnMag_quarter {l t : Nat} (ht : t ≠ 0) (h : 4 * t = 2 ^ l) : cosTurnMag l t = 0 := by
  rw [cosTurnMag, if_neg ht, if_pos h]

/-- An eighth of a turn has the same angle in every table, and its entry is the root of one half. -/
theorem cosTurnMag_eighth {l t : Nat} (ht : 0 < t) (h : 8 * t = 2 ^ l) : cosTurnMag l t = fMag (fsqrt f0p5) := by
  have hangle : ∀ c : Nat, 4 * t * c / 2 ^ l = c / 2 := by
    intro c
    rw [← h, show 8 * t = 4 * t * 2 by ring, Nat.mul_div_mul_left _ _ (by omega)]
  rw [cosTurnMag, if_neg (by omega), if_neg (by omega), hangle]
  decide +kernel

theorem tableCos_first {l t : Nat} (h : 4 * t ≤ 2 ^ l) : tableCos l t = fPack false (cosTurnMag l t) := by
  rw [tableCos, if_pos h]

theorem tableCos_second {l t : Nat} (h : 2 ^ l < 4 * t) : tableCos l t = fPack true (cosTurnMag l (2 ^ l / 2 - t)) := by
  rw [tableCos, if_neg (by omega)]

theorem tableSin_first {l t : Nat} (h : 4 * t ≤ 2 ^ l) : tableSin l t = fPack false (cosTurnMag l (2 ^ l / 4 - t)) := by
  rw [tableSin, if_pos h]

theorem tableSin_second {l t : Nat} (h : 2 ^ l < 4 * t) : tableSin l t = fPack false (cosTurnMag l (t - 2 ^ l / 4)) := by
  rw [tableSin, if_neg (by omega)]

theorem value_half : (Spec.value f0p5 : ℝ) = 1 / 2 := by
  have h : 2 * fInt f0p5 = unitsPerOne := by decide +kernel
  have hR : 2 * (fInt f0p5 : ℝ) = unitsPerOne := by exact_mod_cast h
  rw [value_eq, div_eq_iff unitsPerOne_real_pos.ne', ← hR]
  ring

/-- The root of one half is the cosine and the sine of an eighth of a turn. -/
theorem rounded_eighth : Spec.Rounded (√2 / 2) false (fsqrt f0p5) := by
  have hroot : √(Spec.value f0p5 : ℝ) = √2 / 2 := by
    rw [value_half, Real.sqrt_eq_iff_mul_self_eq (by norm_num) (by positivity), div_mul_div_comm, Real.mul_self_sqrt two_pos.le]
    norm_num
  rw [← hroot]
  exact rounded_fsqrt (finite_iff.2 (by decide)) (by rw [value_half]; norm_num)

theorem twiddleTableValues : TwiddleTableValues := by
  intro lmax h4 _
  dsimp only
  obtain ⟨t8, ht8, h8⟩ : ∃ t, 0 < t ∧ 2 ^ lmax = 8 * t :=
    ⟨2 ^ (lmax - 3), Nat.two_pow_pos _, by rw [show 8 = 2 ^ 3 from rfl, ← Nat.pow_add]; congr 1; omega⟩
  have hpack : fsqrt f0p5 = fPack false (fMag (fsqrt f0p5)) := by decide +kernel
  refine ⟨?_, ?_, ?_, ?_, ?_, ?_, ?_, ?_, ?_, ?_⟩
  · rw [tableCos_first (Nat.zero_le _), cosTurnMag_zero]
    decide
  · rw [tableSin_first (Nat.zero_le _), Nat.sub_zero, cosTurnMag_quarter (by omega) (by omega)]
    decide
  · rw [tableCos_first (by omega), cosTurnMag_quarter (by omega) (by omega)]
    decide
  · rw [tableSin_first (by omega), Nat.sub_self, cosTurnMag_zero]
    decide
  · rw [Real.cos_pi_div_four, tableCos_first (by omega), cosTurnMag_eighth (by omega) (by omega), ← hpack]
    exact rounded_eighth
  · rw [Real.sin_pi_div_four, tableSin_first (by omega), cosTurnMag_eighth (by omega) (by omega), ← hpack]
    exact rounded_eighth
  · intro t h0 hlt hne
    rcases Nat.lt_or_ge (2 ^ lmax) (4 * t) with hsec | hfst
    · rw [tableCos_second hsec, tableCos_first (by omega), fneg_fPack (cosTurnMag_lt _ _), Bool.not_true]
    · rw [tableCos_first hfst, tableCos_second (by omega), fneg_fPack (cosTurnMag_lt _ _), Bool.not_false,
        show 2 ^ lmax / 2 - (2 ^ lmax / 2 - t) = t by omega]
  · intro t h0 hlt
    rcases Nat.lt_trichotomy (4 * t) (2 ^ lmax) with hfst | heq | hsec
    · rw [tableSin_first hfst.le, tableSin_second (by omega), show 2 ^ lmax / 2 - t - 2 ^ lmax / 4 = 2 ^ lmax / 4 - t by omega]
    · rw [show 2 ^ lmax / 2 - t = t by omega]
    · rw [tableSin_second hsec, tableSin_first (by omega), show 2 ^ lmax / 4 - (2 ^ lmax / 2 - t) = t - 2 ^ lmax / 4 by omega]
  · intro t ht
    rw [tableSin_first (by omega), tableCos_first (by omega)]
  · intro l hl t
    rw [Nat.pow_div hl two_pos]
    exact ⟨rfl, rfl⟩

/-! ## The function unit (R15) -/

/-- Two words at most one place apart. -/
def WithinOnePlace (v w : Word) : Prop := (fKey v - fKey w).natAbs ≤ 1

theorem WithinOnePlace.refl (w : Word) : WithinOnePlace w w := by simp [WithinOnePlace]

theorem WithinOnePlace.ite {c : Prop} [Decidable c] {v v' w w' : Word} (h : WithinOnePlace v w) (h' : WithinOnePlace v' w') :
    WithinOnePlace (if c then v else v') (if c then w else w') := by
  split
  · exact h
  · exact h'

theorem fKey_fPack {neg : Bool} {m : Nat} (h : m < 2 ^ 63) : fKey (fPack neg m) = if neg then -(m : ℤ) else m := by
  rw [fKey, fNeg_fPack h, fMag_fPack h]

theorem withinOnePlace_fPack {neg : Bool} {m n : Nat} (hm : m ≤ infMag) (hn : n ≤ infMag) (h1 : m ≤ n + 1) (h2 : n ≤ m + 1) :
    WithinOnePlace (fPack neg m) (fPack neg n) := by
  have hinf : infMag < 2 ^ 63 := by decide
  rw [WithinOnePlace, fKey_fPack (by omega), fKey_fPack (by omega)]
  cases neg <;> simp only [Bool.false_eq_true, if_false, if_true] <;> omega

/-- The three roundings of one quotient are the same neighbour or next to each other. -/
theorem roundings_near (a d : Nat) :
    roundDown a d ≤ infMag ∧ roundUp a d ≤ infMag ∧ roundDown a d ≤ roundNearest a d ∧ roundNearest a d ≤ roundDown a d + 1 ∧
      roundUp a d ≤ roundNearest a d + 1 ∧ roundNearest a d ≤ roundUp a d + 1 := by
  obtain ⟨q, b, c, hb, hc, hdown, hup, hnear⟩ : ∃ q b c, b ≤ 1 ∧ c ≤ 1 ∧ roundDown a d = min infMag q ∧
      roundUp a d = min infMag (q + b) ∧ roundNearest a d = min infMag (q + c) := by
    unfold roundDown roundUp roundNearest
    refine ⟨_, _, _, ?_, ?_, rfl, rfl, rfl⟩ <;> split <;> decide
  omega

theorem fpRound_modes (fn : FpFn) (x : Word) (r : Ratio) : WithinOnePlace (fpRound .faithful fn x r) (fpRound .cr fn x r) := by
  obtain ⟨hd, hu, h1, h2, h3, h4⟩ := roundings_near (r.num * unitsPerOne) r.den
  have hn := roundNearest_le (r.num * unitsPerOne) r.den
  dsimp only [fpRound]
  split
  · exact .refl _
  · split
    · exact withinOnePlace_fPack hu hn h3 h4
    · exact withinOnePlace_fPack hd hn (by omega) h2

theorem modes_fpCos (x : Word) : WithinOnePlace (fpCos .faithful x) (fpCos .cr x) := by
  unfold fpCos
  exact .ite (.refl _) (.ite (.refl _) (.ite (.refl _) (fpRound_modes _ _ _)))

theorem modes_fpSin (x : Word) : WithinOnePlace (fpSin .faithful x) (fpSin .cr x) := by
  unfold fpSin
  exact .ite (.refl _) (.ite (.refl _) (.ite (.refl _) (fpRound_modes _ _ _)))

theorem modes_fpLog (x : Word) : WithinOnePlace (fpLog .faithful x) (fpLog .cr x) := by
  unfold fpLog
  exact .ite (.refl _) (.ite (.refl _) (.ite (.refl _) (.ite (.refl _) (.ite (.refl _) (fpRound_modes _ _ _)))))

theorem modes_fpExp (x : Word) : WithinOnePlace (fpExp .faithful x) (fpExp .cr x) := by
  unfold fpExp
  exact .ite (.refl _) (.ite (.refl _) (.ite (.refl _) (fpRound_modes _ _ _)))

theorem modes_fpLog10 (x : Word) : WithinOnePlace (fpLog10 .faithful x) (fpLog10 .cr x) := by
  unfold fpLog10
  refine .ite (.refl _) (.ite (.refl _) (.ite (.refl _) (.ite (.refl _) ?_)))
  cases powerOfTen (fUnits x) with
  | some k => exact .refl _
  | none => exact fpRound_modes _ _ _

theorem modes_fpPow10 (x : Word) : WithinOnePlace (fpPow10 .faithful x) (fpPow10 .cr x) := by
  unfold fpPow10
  exact .ite (.refl _) (.ite (.refl _) (.ite (.refl _) (.ite (.refl _) (.ite (fpRound_modes _ _ _) (fpRound_modes _ _ _)))))

/-! ### Operands outside the finite values, and overflow -/

section

variable (m : FpMode) {x : Word}

theorem functions_nan (h : Spec.NotANumber x) : fpCos m x = Spec.nan ∧ fpSin m x = Spec.nan ∧ fpLog m x = Spec.nan ∧
    fpExp m x = Spec.nan ∧ fpLog10 m x = Spec.nan ∧ fpPow10 m x = Spec.nan := by
  have hn := isNaN_of h
  unfold fpCos fpSin fpLog fpExp fpLog10 fpPow10
  exact ⟨if_pos hn, if_pos hn, if_pos hn, if_pos hn, if_pos hn, if_pos hn⟩

/-- A negative operand, the infinity included, has no logarithm. -/
theorem logarithms_neg (h : (Spec.Finite x ∧ Spec.value x < 0) ∨ x = Spec.infinity true) :
    fpLog m x = Spec.nan ∧ fpLog10 m x = Spec.nan := by
  have hclass : isNaN x = false ∧ isZero x = false ∧ fNeg x = true := by
    rcases h with ⟨hf, hv⟩ | rfl
    · have hv' : (Spec.value x : ℝ) < 0 := by exact_mod_cast hv
      exact ⟨(class_of_finite hf).1, by rw [isZero_eq_decide, decide_eq_false hv'.ne], (value_neg_iff.1 hv').1⟩
    · decide
  obtain ⟨hn, hz, hneg⟩ := hclass
  rw [fpLog, fpLog10, hn, hz, hneg]
  exact ⟨rfl, rfl⟩

theorem fpRound_huge (fn : FpFn) (x : Word) : fpRound m fn x hugeRatio = Spec.infinity false := by
  have hd : roundDown (hugeRatio.num * unitsPerOne) hugeRatio.den = infMag := by decide +kernel
  have hu : roundUp (hugeRatio.num * unitsPerOne) hugeRatio.den = infMag := by decide +kernel
  have hn : roundNearest (hugeRatio.num * unitsPerOne) hugeRatio.den = infMag := by decide +kernel
  cases m <;> simp only [fpRound, hd, hu, hn, ite_self] <;> decide

theorem expRatio_huge {y q one : Nat} (hone : one = 2 ^ q) (h : 2000 * one ≤ y) : expRatio false y q = hugeRatio := by
  rw [expRatio, ← hone, if_pos h]
  rfl

theorem two_pow_units_add (b : Nat) : 2 ^ (1074 + b) = unitsPerOne * 2 ^ b := Nat.pow_add 2 1074 b

theorem two_pow_constBits_le_ln10 : 2 ^ constBits ≤ ln10 := by decide +kernel

/-- The operand of the exponential that gives ten to the power of `u` units is as large as `u`. -/
theorem pow10_operand_large {u : Nat} (hu : 2000 * unitsPerOne ≤ u) : 2000 * (unitsPerOne * 2 ^ constBits) ≤ u * ln10 := by
  have hmul := Nat.mul_le_mul hu two_pow_constBits_le_ln10
  rwa [Nat.mul_assoc] at hmul

theorem exponentials_overflow (hx : Spec.Finite x) (h : 2000 ≤ Spec.value x) :
    fpExp m x = Spec.infinity false ∧ fpPow10 m x = Spec.infinity false := by
  have hv : (2000 : ℝ) ≤ Spec.value x := by exact_mod_cast h
  have hpos : (0 : ℝ) < Spec.value x := by linarith
  obtain ⟨hn, hi⟩ := class_of_finite hx
  have hz : isZero x = false := by rw [isZero_eq_decide, decide_eq_false hpos.ne']
  have hs := (value_pos_iff.1 hpos).1
  have hu : 2000 * unitsPerOne ≤ fUnits x := by
    rw [← abs_of_pos hpos, abs_value, le_div_iff₀ unitsPerOne_real_pos] at hv
    exact_mod_cast hv
  have hdiv : 2000 ≤ fUnits x / unitsPerOne := (Nat.le_div_iff_mul_le unitsPerOne_pos).2 hu
  have h22 : ¬ fUnits x / unitsPerOne ≤ 22 := not_le.2 (lt_of_lt_of_le (by decide) hdiv)
  have h400 : ¬ fUnits x / unitsPerOne ≤ 400 := not_le.2 (lt_of_lt_of_le (by decide) hdiv)
  have hexp : expRatio false (fUnits x) 1074 = hugeRatio := by
    have hq : unitsPerOne = 2 ^ 1074 := rfl
    exact expRatio_huge hq hu
  have hpow : expRatio false (fUnits x * ln10) (1074 + constBits) = hugeRatio :=
    expRatio_huge (two_pow_units_add _).symm (pow10_operand_large hu)
  rw [fpExp, fpPow10, hn, hi, hz, hs, hexp, hpow, decide_eq_false h22, decide_eq_false h400]
  simp only [Bool.and_false, Bool.false_eq_true, if_false, fpRound_huge, and_self]

/-! ### Results that are exact -/

theorem powers_of_ten_exact :
    ∀ k ≤ 22, fpLog10 m (fofNat (10 ^ k)) = fofNat k ∧ fpPow10 m (fofNat k) = fofNat (10 ^ k) := by
  cases m <;> decide +kernel

end

theorem isZero_fZero (neg : Bool) : isZero (fZero neg) = true := by cases neg <;> decide

/-! ### Powers of ten with an integer exponent -/

theorem ulpExp_mono {a b c d : Nat} (h : a / b ≤ c / d) : ulpExp a b ≤ ulpExp c d := by
  rw [ulpExp, ulpExp, floorLog2_eq, floorLog2_eq, Nat.log2_eq_log_two, Nat.log2_eq_log_two]
  exact Nat.sub_le_sub_right (Nat.log_mono_right h) 52

/-- Below the last binade of the finite values no rounding reaches the infinity. -/
theorem roundDown_lt_of_ulpExp {a d : Nat} (h : ulpExp a d ≤ 2044) : roundDown a d + 1 < infMag := by
  obtain ⟨hsig, _⟩ := sig_bounds a d
  rw [roundDown, infMag_eq, Nat.mul_comm (ulpExp a d)]
  omega

/-- Beyond the last binade of the finite values every rounding is the infinity. -/
theorem roundDown_eq_roundUp_of_ulpExp {a d : Nat} (h : 2046 ≤ ulpExp a d) : roundDown a d = roundUp a d := by
  obtain ⟨_, hnorm⟩ := sig_bounds a d
  rw [roundDown, roundUp, infMag_eq, Nat.mul_comm (ulpExp a d)]
  omega

theorem fpRound_cr_eq {fn : FpFn} {x : Word} {r : Ratio} (h : roundDown (r.num * unitsPerOne) r.den + 1 < infMag ∨
    roundDown (r.num * unitsPerOne) r.den = roundUp (r.num * unitsPerOne) r.den) :
    fpRound .cr fn x r = fPack r.neg (roundNearest (r.num * unitsPerOne) r.den) := by
  dsimp only [fpRound]
  rw [if_neg]
  rintro ⟨hge, hne⟩
  rcases h with hlt | heq
  · omega
  · exact hne heq

/-- No power of ten lies between the largest finite value and the next power of two. -/
theorem fpRound_power_of_ten (x : Word) (k : Nat) :
    fpRound .cr .pow10 x (pow10Ratio false k) = fPack false (roundNearest (10 ^ k * unitsPerOne) 1) := by
  have hmono : ∀ {j k : Nat}, j ≤ k → 10 ^ j * unitsPerOne / 1 ≤ 10 ^ k * unitsPerOne / 1 := fun h => by
    rw [Nat.div_one, Nat.div_one]
    exact Nat.mul_le_mul_right _ (Nat.pow_le_pow_right (by decide) h)
  apply fpRound_cr_eq
  rcases Nat.lt_trichotomy k 308 with hlt | rfl | hgt
  · have h307 : ulpExp (10 ^ 307 * unitsPerOne) 1 ≤ 2044 := by decide +kernel
    exact .inl (roundDown_lt_of_ulpExp ((ulpExp_mono (hmono (by omega))).trans h307))
  · exact .inl (by decide +kernel)
  · have h309 : 2046 ≤ ulpExp (10 ^ 309 * unitsPerOne) 1 := by decide +kernel
    exact .inr (roundDown_eq_roundUp_of_ulpExp (h309.trans (ulpExp_mono (hmono hgt))))

theorem fpRound_inverse_power_of_ten (x : Word) (k : Nat) :
    fpRound .cr .pow10 x (pow10Ratio true k) = fPack false (roundNearest (1 * unitsPerOne) (10 ^ k)) := by
  have hone : ulpExp unitsPerOne 1 ≤ 2044 := by decide +kernel
  have hle : 1 * unitsPerOne / 10 ^ k ≤ unitsPerOne / 1 := by
    rw [Nat.one_mul, Nat.div_one]
    exact Nat.div_le_self _ _
  exact fpRound_cr_eq (.inl (roundDown_lt_of_ulpExp ((ulpExp_mono hle).trans hone)))

/-- The branch that an operand with the value `k` or `-k` takes. -/
theorem fpPow10_of_units {m : FpMode} {x : Word} {k : Nat} (hx : Spec.Finite x) (h0 : k ≠ 0) (hk : k ≤ 400)
    (hu : fUnits x = k * unitsPerOne) : fpPow10 m x =
      if !fNeg x && decide (k ≤ 22) then fofNat (10 ^ k) else fpRound m .pow10 x (pow10Ratio (fNeg x) k) := by
  obtain ⟨hn, hi⟩ := class_of_finite hx
  have hz : isZero x = false := by
    rw [isZero_eq_decide, decide_eq_false]
    rw [value_eq_zero_iff, hu]
    exact Nat.mul_ne_zero h0 unitsPerOne_pos.ne'
  rw [fpPow10, hn, hi, hz, hu, Nat.mul_mod_left, Nat.mul_div_cancel _ unitsPerOne_pos, decide_eq_true hk]
  simp

theorem finite_fofNat {k : Nat} (hk : k ≤ 400) : Spec.Finite (fofNat k) := by
  rcases Nat.eq_zero_or_pos k with rfl | h0
  · exact finite_iff.2 (by decide +kernel)
  · obtain ⟨_, _, hfinite, _⟩ := rounded_fofNat k
    refine (hfinite (Nat.cast_ne_zero.2 h0.ne') ?_).1
    have hk' : (k : ℝ) ≤ 400 := by exact_mod_cast hk
    rw [abs_of_nonneg (Nat.cast_nonneg k)]
    calc (k : ℝ) < (2 ^ 54 - 1) * 1 := by linarith
      _ ≤ (2 ^ 54 - 1) * 2 ^ 970 := mul_le_mul_of_nonneg_left (one_le_pow₀ one_le_two) (by norm_num)

/-- Under CR a power of ten with an integer exponent is rounded once. -/
theorem fpPow10_integer {k : Nat} (hk : k ≤ 400) :
    fpPow10 .cr (fofNat k) = fPack false (roundNearest (10 ^ k * unitsPerOne) 1) ∧
      fpPow10 .cr (fneg (fofNat k)) = fPack false (roundNearest (1 * unitsPerOne) (10 ^ k)) := by
  rcases Nat.eq_zero_or_pos k with rfl | h0
  · decide +kernel
  have hfin := finite_fofNat hk
  have hu : fUnits (fofNat k) = k * unitsPerOne := fUnits_fofNat (by omega)
  have hun : fUnits (fneg (fofNat k)) = k * unitsPerOne := by rw [fUnits_eq_magUnits, fMag_fneg, ← fUnits_eq_magUnits, hu]
  rw [fpPow10_of_units hfin h0.ne' hk hu, fpPow10_of_units (finite_fneg.2 hfin) h0.ne' hk hun, fNeg_fneg, fNeg_fofNat]
  constructor
  · split
    · rw [fofNat]
    · exact fpRound_power_of_ten _ k
  · exact fpRound_inverse_power_of_ten (fneg (fofNat k)) k

theorem rounded_fpPow10 {k : Nat} (hk : k ≤ 400) : Spec.Rounded ((10 : ℝ) ^ k) false (fpPow10 .cr (fofNat k)) ∧
    Spec.Rounded ((10 : ℝ) ^ (-(k : ℤ))) false (fpPow10 .cr (fneg (fofNat k))) := by
  obtain ⟨hpos, hneg⟩ := fpPow10_integer hk
  constructor
  · simpa using rounded_quotient Nat.one_pos hpos
  · simpa using rounded_quotient (Nat.pow_pos (by decide)) hneg

/-- The sine of `-0` is a zero; its sign is not stated (log 4). -/
theorem isZero_fpSin_negZero (m : FpMode) : isZero (fpSin m 0x8000000000000000#64) = true := by
  obtain ⟨hn, hi, hz⟩ : isNaN 0x8000000000000000#64 = false ∧ isInf 0x8000000000000000#64 = false ∧
      isZero 0x8000000000000000#64 = true := by decide
  rw [fpSin, hn, hi, hz]
  exact isZero_fZero _

/-- The other operands at zero and one for which R15 lists an exact result. -/
theorem functions_listed (m : FpMode) :
    fpCos m 0 = f1 ∧ fpCos m 0x8000000000000000#64 = f1 ∧ fpSin m 0 = 0 ∧ fpLog m f1 = 0 ∧ fpExp m 0 = f1 ∧
      fpExp m 0x8000000000000000#64 = f1 := by
  cases m <;> decide +kernel

theorem functions_infinite (m : FpMode) :
    fpLog m 0 = Spec.infinity true ∧ fpLog10 m 0 = Spec.infinity true ∧
      fpLog m (Spec.infinity false) = Spec.infinity false ∧ fpLog10 m (Spec.infinity false) = Spec.infinity false ∧
      fpExp m (Spec.infinity true) = 0 ∧ fpPow10 m (Spec.infinity true) = 0 ∧
      fpExp m (Spec.infinity false) = Spec.infinity false ∧ fpPow10 m (Spec.infinity false) = Spec.infinity false := by
  cases m <;> decide +kernel

theorem functions_nearest : fpCos .cr f1 = 0x3FE14A280FB5068C#64 ∧ fpSin .cr f1 = 0x3FEAED548F090CEE#64 ∧
    fpLog .cr f2 = 0x3FE62E42FEFA39EF#64 ∧ fpExp .cr f1 = 0x4005BF0A8B145769#64 ∧
    fpLog10 .cr f2 = 0x3FD34413509F79FF#64 ∧ fpPow10 .cr f0p5 = 0x40094C583ADA5B53#64 := by
  decide +kernel

theorem functionUnitValues : FunctionUnitValues := by
  obtain ⟨hcos, hsin, hlog, hexp, hlog10, hpow10⟩ := functions_nearest
  refine ⟨fun m => ?_, fun k hk => rounded_fpPow10 hk, hcos, hsin, hlog, hexp, hlog10, hpow10, fun f hf x => ?_⟩
  · obtain ⟨hc0, hcn, hs0, hl1, he0, hen⟩ := functions_listed m
    obtain ⟨hl0, ht0, hli, hti, heni, hpni, hei, hpi⟩ := functions_infinite m
    exact ⟨hc0, hcn, hs0, isZero_fpSin_negZero m, hl1, he0, hen, powers_of_ten_exact m, hl0, ht0, hli, hti, heni, hpni, hei, hpi,
      fun x => ⟨functions_nan m, logarithms_neg m, exponentials_overflow m⟩⟩
  · simp only [List.mem_cons, List.not_mem_nil, or_false] at hf
    rcases hf with rfl | rfl | rfl | rfl | rfl | rfl
    · exact modes_fpCos x
    · exact modes_fpSin x
    · exact modes_fpLog x
    · exact modes_fpExp x
    · exact modes_fpLog10 x
    · exact modes_fpPow10 x

/-! ## The whole of R11, R12, R15, R16 and R67 -/

/-- Settles O52: each operation packs a sign with the magnitude nearest its exact result (`rounded_ratio`,
`rounded_fsqrt`); the remaining clauses are the special cases, one lemma for each class of operands. -/
theorem roundingIsToNearestEven : Obligations.RoundingIsToNearestEven := by
  refine ⟨fun a d hd => roundNearest_nearest a hd, fun x y => ?_, rounded_fofNat, rounded_fofInt, fun c hc => ?_, rfl,
    value_of_fInt (k := 2) (by decide +kernel), value_of_fInt (k := 4) (by decide +kernel), twiddleTableValues,
    functionUnitValues⟩
  · exact ⟨isFinite_iff_finite x, isNaN_iff_notANumber x, isInf_iff_infinite x, fneg_eq_xor x,
      fun hx hy => ⟨rounded_fadd hx hy, rounded_fsub hx hy, rounded_fmul hx hy, rounded_fdiv hx hy, fdiv_by_zero hx hy,
        flt_iff_value hx hy, fle_iff_value hx hy⟩,
      fsqrt_zero, fsqrt_neg, rounded_fsqrt, fsqrt_infinite, fsqrt_nan, nan_operand, infinite_finite, infinite_infinite⟩
  · obtain ⟨hden, hw⟩ := decimalConstants_rounded c hc
    exact rounded_quotient hden hw

end Sys2Proof.Machine

/-! SUPPORT. What every step keeps (`State.Inv`): the parts that are not about words written inside a command, operation by
operation, and the invariant put together from these, `State.WrittenSound` and the parameters. -/

namespace Sys2Proof.Machine

/-! ## Memory in its form and inside DMEM (R85, R87) -/

/-- Memory in its one form, with no byte beyond a DMEM of `n` words. -/
def Memory.Within (m : Memory) (n : Nat) : Prop := m.wf ∧ ∀ c ∈ m, c.1 < 8 * n

theorem within_setWord {m : Memory} {n a : Nat} (h : m.Within n) (ha : a < n) (v : Word) : (m.setWord a v).Within n := by
  refine ⟨setWord_wf h.1 a v, fun c hc => ?_⟩
  rcases mem_setWord m hc with hold | hnew
  · exact h.2 c hold
  · omega

theorem within_setWords {m : Memory} {n : Nat} {ws : List (Nat × Word)} (h : m.Within n) (hw : ∀ w ∈ ws, w.1 < n) :
    (m.setWords ws).Within n := by
  induction ws generalizing m with
  | nil => exact h
  | cons w ws ih =>
    exact ih (within_setWord h (hw w List.mem_cons_self) w.2) fun x hx => hw x (List.mem_cons_of_mem _ hx)

/-! ## The facts the operations need -/

/-- Every code of R281 is between 1 and 0x0A. -/
theorem code_bounds (e : ErrCode) : 1 ≤ e.code.toNat ∧ e.code.toNat ≤ 0x0A := by cases e <;> decide

theorem ofCheck_eq_done {x : Check Effect} {e : Effect} (h : Verdict.ofCheck x = .done e) : x = .ok e := by
  cases x <;> cases h
  rfl

/-- A frame engine has no configuration register to write. -/
theorem frames_csr {one : Check Unit} {base cols first : Nat} {outs : List FrameOut} {e : Effect}
    (h : phases one (phase2 base cols first outs) = .done e) : e.csr = none := by
  rcases phases_cases one (phase2 base cols first outs) with ⟨-, h2⟩ | ⟨r, -, h2⟩ <;> rw [h2] at h
  · rcases phase2_cases base cols first outs with ⟨-, h3⟩ | ⟨r, h3⟩ <;> rw [h3] at h <;> cases h
    rfl
  · cases h

/-- DEFAULTS alone has configuration registers to write, those of R254. -/
theorem plan_csr {i : Instr} {s : State} {e : Effect} (h : planOf i s = .done e) :
    e.csr = none ∨ ∃ ke ka, e.csr = some (s.csr.withDefaults ke ka) := by
  cases i
  case envrun first count => exact .inl (frames_csr h)
  case aprun first count => exact .inl (frames_csr h)
  case nop => cases h; exact .inl rfl
  case signal => cases h; exact .inl rfl
  all_goals
    replace h := ofCheck_eq_done h
    repeat obtain ⟨_, -, h⟩ := bind_eq_ok.1 h
    cases h
  case defaults => exact .inr ⟨_, _, rfl⟩
  all_goals exact .inl rfl

/-- A word the executing command may have written is a word of DMEM. -/
theorem inFlight_lt {s : State} : ∀ w ∈ s.inFlight, w.1 < s.cfg.dmemWords := by
  intro w hw
  unfold State.inFlight at hw
  split at hw
  · split at hw
    · exact plan_words_lt _ w hw
    · cases hw
  · cases hw
  · cases hw

/-- The host reaches words of DMEM only (R81). -/
theorem place_dmem_lt {s : State} {bits addr a : Nat} (h : s.place bits addr = .dmem a) : a < s.cfg.dmemWords := by
  unfold State.place at h
  split_ifs at h
  cases h
  omega

/-- A host write does not move the engine into or out of HALT. -/
@[simp] theorem Engine.race_eq_halt {e : Engine} {a : Nat} {old v : Word} : e.race a old v = .halt ↔ e = .halt := by
  cases e <;> simp [Engine.race]

/-- A write of ENV_CTRL keeps bit 0 of the value; a write elsewhere leaves ENV_CTRL (R54, R60). -/
theorem Csr.envCtrl_set (c : Csr) (off : Nat) (v : Word) :
    (c.set off v).envCtrl = if off = 0x0C8 then v &&& 1 else c.envCtrl := by
  by_cases h : off = 0x0C8
  · rw [h]
    rfl
  · simp only [Csr.set, apply_ite Csr.envCtrl, if_neg h, ite_self]

/-! ## The plain part of the invariant -/

/-- `State.Inv` but for the parameters and what is said of words written inside a command (`State.WrittenSound`). -/
structure State.PlainSound (s : State) : Prop where
  mem : s.mem.Within s.cfg.dmemWords
  depth : s.queue.length ≤ s.cfg.cmdqDepth
  halted : s.engine = .halt ↔ s.err = true
  flushed : s.err = true → s.queue = []
  recorded : s.err = true → 1 ≤ s.errCode.toNat ∧ s.errCode.toNat ≤ 0x0A
  unrecorded : s.err = false → s.errCode = 0 ∧ s.errInfo = 0 ∧ s.errCmd0 = 0 ∧ s.errCmd1 = 0
  envCtrl : s.csr.envCtrl.toNat ≤ 1

/-- The invariant, by its parts. -/
theorem inv_iff {s : State} : s.Inv ↔ s.cfg.Legal ∧ s.PlainSound ∧ s.WrittenSound := by
  constructor
  · intro h
    exact ⟨h.legal, ⟨⟨h.memForm, h.memRange⟩, h.depth, h.halted, h.flushed, h.recorded, h.unrecorded, h.envCtrl⟩,
      h.writtenSound⟩
  · rintro ⟨legal, ⟨⟨memForm, memRange⟩, depth, halted, flushed, recorded, unrecorded, envCtrl⟩, ⟨fresh, landed, standing⟩⟩
    exact ⟨legal, memForm, memRange, depth, halted, flushed, recorded, unrecorded, envCtrl, fresh, landed, standing⟩

section

variable {s : State}

/-- Outside HALT no error is recorded. -/
theorem State.PlainSound.err_eq_false (h : s.PlainSound) (he : s.engine ≠ .halt) : s.err = false :=
  Bool.eq_false_iff.2 fun herr => he (h.halted.2 herr)

/-! ### What the sequencer does -/

theorem plainSound_raise (h : s.PlainSound) (r : Raise) : (s.raise r).PlainSound where
  mem := h.mem
  depth := Nat.zero_le _
  halted := by simp
  flushed _ := rfl
  recorded _ := code_bounds r.code
  unrecorded herr := by simp at herr
  envCtrl := h.envCtrl

theorem plainSound_applySome (h : s.PlainSound) {ws : List (Nat × Word)} (hw : ∀ w ∈ ws, w.1 < s.cfg.dmemWords) :
    (s.applySome ws).PlainSound :=
  { h with
    mem := within_setWords h.mem fun w hmem => by
      obtain ⟨v, hv, -⟩ := mem_leftWords hmem
      exact hw (w.1, v) hv }

theorem plainSound_apply (h : s.PlainSound) {e : Effect} (hw : ∀ w ∈ e.writes, w.1 < s.cfg.dmemWords)
    (hc : e.csr = none ∨ ∃ ke ka, e.csr = some (s.csr.withDefaults ke ka)) : (s.apply e).PlainSound :=
  { h with
    mem := within_setWords h.mem fun w hmem => by
      obtain ⟨x, hx, rfl⟩ := List.mem_map.1 hmem
      exact hw x hx
    depth := by simpa using h.depth
    flushed := fun herr => by simpa using h.flushed herr
    envCtrl := by
      rw [State.apply_csr]
      rcases hc with hc | ⟨ke, ka, hc⟩ <;> rw [hc]
      · exact h.envCtrl
      · exact Nat.zero_le _ }

theorem plainSound_complete (h : s.PlainSound) (he : s.engine ≠ .halt) : s.complete.PlainSound := by
  have herr : s.err = false := h.err_eq_false he
  refine ⟨by simpa using h.mem, ?_, ?_, ?_, ?_, fun _ => ?_, by simpa using h.envCtrl⟩
  · have hd := h.depth
    rw [State.complete_queue, List.length_tail, State.complete_cfg]
    omega
  · simp [s.complete_engine_ne_halt, herr]
  · simp [herr]
  · simp [herr]
  · simpa using h.unrecorded herr

/-- However a command ends, all of this holds. -/
theorem plainSound_finish (h : s.PlainSound) (he : s.engine ≠ .halt) (i : Instr) : (s.finish (planOf i s)).PlainSound := by
  have hw := plan_words_lt (s := s) i
  cases hp : planOf i s with
  | done e =>
    rw [hp] at hw
    exact plainSound_complete (plainSound_apply h hw (plan_csr hp)) he
  | failed r => exact plainSound_raise h r
  | spoiled r ws =>
    rw [hp] at hw
    exact plainSound_raise (plainSound_applySome h hw) r

/-- Popping the head of the queue in IDLE (R38). -/
theorem plainSound_pop (h : s.PlainSound) (he : s.engine = .idle) {c : PendingCmd} {q : List PendingCmd}
    (hq : s.queue = c :: q) : State.PlainSound { s with engine := .exec c, queue := q } := by
  have herr : s.err = false := h.err_eq_false (by simp [he])
  have hd := h.depth
  rw [hq, List.length_cons] at hd
  exact { h with
    depth := Nat.le_of_succ_le hd
    halted := by simp [herr]
    flushed := fun hf => by simp [herr] at hf }

theorem plainSound_engineStep {t : State} (h : s.PlainSound) (hs : s.engineStep = .next t) : t.PlainSound := by
  unfold State.engineStep at hs
  split at hs
  · rename_i he
    split at hs
    · cases hs
      exact h
    · rename_i c q hq
      cases hs
      exact plainSound_pop h he hq
  · rename_i c he
    split at hs
    · rw [exec_eq] at hs
      cases hs
      exact plainSound_finish h (by simp [he]) _
    · cases hs
      exact plainSound_raise h _
  · cases hs
    exact h

theorem plainSound_progress (h : s.PlainSound) : s.progress.PlainSound := by
  unfold State.progress
  split
  · rename_i c he
    have herr : s.err = false := h.err_eq_false (by simp [he])
    exact { h with halted := by simp [herr] }
  · exact h
  · exact h

/-! ### What the host does -/

theorem plainSound_ackErr (h : s.PlainSound) : s.ackErr.PlainSound := by
  cases herr : s.err with
  | false =>
    rw [s.ackErr_of_not_err herr]
    exact h
  | true =>
    rw [s.ackErr_of_err herr]
    exact { h with
      halted := by simp
      flushed := fun hf => by simp at hf
      recorded := fun hf => by simp at hf
      unrecorded := fun _ => ⟨rfl, rfl, rfl, rfl⟩ }

theorem plainSound_writeStatus (h : s.PlainSound) (v : Word) : (s.writeStatus v).PlainSound := by
  unfold State.writeStatus
  split
  · exact { plainSound_ackErr h with }
  · exact { h with }

theorem plainSound_stop (h : s.PlainSound) : s.stop.PlainSound := plainSound_applySome h inFlight_lt

theorem plainSound_abort (h : s.PlainSound) : s.abort.PlainSound := by
  unfold State.abort
  split
  · exact plainSound_raise (plainSound_stop h) _
  · exact h

/-- After a soft reset everything but memory is as after power-on (R322). -/
theorem plainSound_softReset (h : s.PlainSound) : s.softReset.PlainSound where
  mem := (plainSound_stop h).mem
  depth := Nat.zero_le _
  halted := by simp [State.softReset, State.powerOn]
  flushed _ := rfl
  recorded herr := by simp [State.softReset, State.powerOn] at herr
  unrecorded _ := ⟨rfl, rfl, rfl, rfl⟩
  envCtrl := Nat.zero_le _

theorem plainSound_writeCtrl (h : s.PlainSound) (v : Word) : (s.writeCtrl v).PlainSound := by
  have h' : State.PlainSound { s with ieDone := v.getLsbD 0, ieErr := v.getLsbD 1, ieMark := v.getLsbD 2 } := { h with }
  unfold State.writeCtrl
  dsimp only
  split
  · exact plainSound_softReset h'
  · split
    · exact plainSound_abort h'
    · exact h'

theorem plainSound_push (h : s.PlainSound) (v : Word) : (s.push v).PlainSound := by
  unfold State.push
  split
  · exact { h with }
  · rename_i hc
    obtain ⟨he, hfull⟩ := not_or.1 hc
    have hlen : s.queue.length ≠ s.cfg.cmdqDepth := by simpa [State.qfull, State.qcount] using hfull
    have herr : s.err = false := h.err_eq_false he
    exact { h with
      depth := by
        rw [List.length_append]
        exact Nat.lt_of_le_of_ne h.depth hlen
      flushed := fun hf => by simp [herr] at hf }

theorem plainSound_writeCsr (h : s.PlainSound) (off : Nat) (v : Word) : (s.writeCsr off v).PlainSound := by
  unfold State.writeCsr
  split
  · exact { h with }
  · refine { h with envCtrl := ?_ }
    rw [Csr.envCtrl_set]
    split
    · rw [BitVec.toNat_and]
      exact Nat.and_le_right
    · exact h.envCtrl

theorem plainSound_regWrite (h : s.PlainSound) (off : Nat) (v : Word) : (s.regWrite off v).PlainSound := by
  unfold State.regWrite
  split_ifs
  · exact plainSound_writeCtrl h v
  · exact plainSound_writeStatus h v
  · exact { h with }
  · exact plainSound_push h v
  · exact plainSound_writeCsr h off v
  · exact h

theorem plainSound_hostSetWord (h : s.PlainSound) {a : Nat} (ha : a < s.cfg.dmemWords) (v : Word) :
    (s.hostSetWord a v).PlainSound :=
  { h with
    mem := within_setWord h.mem ha v
    depth := by simpa [State.hostSetWord] using h.depth
    halted := by simpa [State.hostSetWord] using h.halted
    flushed := fun herr => by simpa [State.hostSetWord] using h.flushed herr }

theorem plainSound_host (h : s.PlainSound) (a : HostAccess) : (s.host a).PlainSound := by
  cases a with
  | read bits addr =>
    unfold State.host State.hostRead
    dsimp only
    split <;> exact { h with }
  | write bits addr v =>
    unfold State.host State.hostWrite
    dsimp only
    split
    · exact { h with }
    · exact { h with }
    · exact { plainSound_regWrite h _ v with }
    · rename_i a hp
      exact { plainSound_hostSetWord h (place_dmem_lt hp) v with }

end

theorem plainSound_step {s t : State} (h : s.PlainSound) (hs : step s = .next t) : t.PlainSound := by
  have hts : ∀ ts, State.PlainSound { s with turns := ts } := fun ts => { h with }
  unfold step at hs
  split at hs
  · exact plainSound_engineStep h hs
  · exact plainSound_engineStep (hts _) hs
  · cases hs
    exact plainSound_progress (hts _)
  · cases hs
    exact plainSound_host (hts _) _

/-! ## The invariant at reset and after every step -/

/-- Settles O56: nothing is written, pushed or recorded after power-on. -/
theorem invariantAtReset : Obligations.InvariantAtReset := by
  refine inv_iff.2 ⟨by decide, ?_, writtenSound_none rfl fun _ => Engine.noConfusion⟩
  exact {
    mem := ⟨List.Pairwise.nil, fun c hc => by cases hc⟩
    depth := Nat.zero_le _
    halted := by decide
    flushed := fun _ => rfl
    recorded := fun herr => by cases herr
    unrecorded := fun _ => ⟨rfl, rfl, rfl, rfl⟩
    envCtrl := Nat.zero_le _ }

/-- Settles O57: each of the three parts of the invariant is kept at every kind of turn. -/
theorem invariantKeptByEveryStep : Obligations.InvariantKeptByEveryStep := by
  intro s t h hs
  obtain ⟨legal, plain, written⟩ := inv_iff.1 h
  refine inv_iff.2 ⟨?_, plainSound_step plain hs, writtenSound_step written hs⟩
  rw [parametersNeverChange s t hs]
  exact legal

end Sys2Proof.Machine

/-! SUPPORT. The register page as the host uses it (R31 to R66): where an access falls, what each register reads as, and what
a write of each register does. -/

namespace Sys2Proof.Machine

/-! ## Accesses of a register (R81, R82) -/

section

variable (s : State)

theorem place_register {off : Nat} (h8 : off % 8 = 0) (hoff : off < 0x1000) :
    s.place 64 (s.cfg.mmioBase + off) = .register off := by
  have hsub : s.cfg.mmioBase + off - s.cfg.mmioBase = off := Nat.add_sub_cancel_left _ _
  unfold State.place
  rw [hsub, if_neg (by omega), if_neg (by simp [h8]), if_pos hoff]

theorem host_read_register {off : Nat} (h8 : off % 8 = 0) (hoff : off < 0x1000) :
    s.host (.read 64 (s.cfg.mmioBase + off)) = { s with resp := .data (s.regRead off) } := by
  simp only [State.host, State.hostRead, place_register s h8 hoff]

theorem host_write_register {off : Nat} (h8 : off % 8 = 0) (hoff : off < 0x1000) (v : Word) :
    s.host (.write 64 (s.cfg.mmioBase + off) v) = { s.regWrite off v with resp := .ack } := by
  simp only [State.host, State.hostWrite, place_register s h8 hoff]

/-! ## BUSY and QFULL (R40) -/

theorem executing_iff : s.executing = true ↔ ∃ c, s.engine = .exec c := by
  unfold State.executing
  cases s.engine <;> simp

theorem busy_iff : s.busy = true ↔ (∃ c, s.engine = .exec c) ∨ s.queue ≠ [] := by
  simp [State.busy, State.qcount, executing_iff]

theorem busy_eq_false_iff : s.busy = false ↔ (∀ c, s.engine ≠ .exec c) ∧ s.queue = [] := by
  rw [Bool.eq_false_iff, ne_eq, busy_iff]
  simp

theorem qfull_eq : s.qfull = decide (s.queue.length = s.cfg.cmdqDepth) := rfl

theorem qfull_iff : s.qfull = true ↔ s.queue.length = s.cfg.cmdqDepth := by
  rw [qfull_eq, decide_eq_true_eq]

/-! ## What a register reads as -/

theorem regRead_csr (k : Nat) : s.regRead (0x080 + 8 * k) = s.csr.regs.getD k 0 := by
  have hk : (0x080 + 8 * k - 0x080) / 8 = k := by omega
  unfold State.regRead
  iterate 10 rw [if_neg (by omega)]
  rw [if_pos (by omega), hk]

/-- CMD_LO, CMD_HI and the reserved offsets read 0 (R62, R63). -/
theorem regRead_zero {off : Nat} (h : off ∈ [0x048, 0x050] ∨ (0x060 ≤ off ∧ off ≤ 0x07F) ∨ 0x130 ≤ off) :
    s.regRead off = 0 := by
  have hlen : s.csr.regs.length = 22 := rfl
  simp only [List.mem_cons, List.not_mem_nil, or_false] at h
  unfold State.regRead
  iterate 10 rw [if_neg (by omega)]
  split
  · rw [List.getD_eq_default _ _ (by omega)]
  · rfl

theorem regs_set (c : Csr) {k : Nat} (hk : k < 22) (v : Word) :
    (c.set (0x080 + 8 * k) v).regs = c.regs.set k (if k = 9 then v &&& 1 else v) := by
  interval_cases k <;> rfl

/-! ## What a write of a register does -/

/-- Read-only registers and reserved offsets ignore writes (R62, R63). -/
theorem regWrite_ignored {off : Nat}
    (h : off ∈ [0x000, 0x008, 0x010, 0x028, 0x030, 0x038, 0x040, 0x058] ∨ (0x060 ≤ off ∧ off ≤ 0x07F) ∨ 0x130 ≤ off)
    (v : Word) : s.regWrite off v = s := by
  simp only [List.mem_cons, List.not_mem_nil, or_false] at h
  unfold State.regWrite
  iterate 5 rw [if_neg (by omega)]

theorem regWrite_csr {k : Nat} (hk : k < 22) (v : Word) :
    s.regWrite (0x080 + 8 * k) v = s.writeCsr (0x080 + 8 * k) v := by
  unfold State.regWrite
  iterate 4 rw [if_neg (by omega)]
  rw [if_pos (by omega)]

theorem writeCsr_idle (h : s.busy = false) (off : Nat) (v : Word) :
    s.writeCsr off v = { s with csr := s.csr.set off v } := by
  simp [State.writeCsr, h]

theorem writeCsr_busy (h : s.busy = true) (off : Nat) (v : Word) : s.writeCsr off v = { s with cfgwerr := true } := by
  simp [State.writeCsr, h]

theorem push_dropped (h : s.engine = .halt ∨ s.queue.length = s.cfg.cmdqDepth) (v : Word) :
    s.push v = { s with drop := true } :=
  if_pos (h.imp_right (qfull_iff s).2)

theorem push_taken (he : s.engine ≠ .halt) (hq : s.queue.length ≠ s.cfg.cmdqDepth) (v : Word) :
    s.push v = { s with queue := s.queue ++ [⟨s.hold, v, [], s.free, [], []⟩], free := s.free + 1 } :=
  if_neg (not_or.2 ⟨he, fun h => hq ((qfull_iff s).1 h)⟩)

theorem writeStatus_acknowledges {v : Word} (hv : v.getLsbD 9 = true) (he : s.err = true) :
    s.writeStatus v = { s with
      done := s.done && !v.getLsbD 8, mark := s.mark && !v.getLsbD 10, drop := s.drop && !v.getLsbD 11,
      cfgwerr := s.cfgwerr && !v.getLsbD 12, err := false, errCode := 0, errInfo := 0, errCmd0 := 0, errCmd1 := 0,
      engine := .idle } := by
  unfold State.writeStatus
  rw [if_pos hv, s.ackErr_of_err he]

theorem writeStatus_clears {v : Word} (h : v.getLsbD 9 = false ∨ s.err = false) :
    s.writeStatus v = { s with
      done := s.done && !v.getLsbD 8, mark := s.mark && !v.getLsbD 10, drop := s.drop && !v.getLsbD 11,
      cfgwerr := s.cfgwerr && !v.getLsbD 12 } := by
  unfold State.writeStatus
  rcases h with hv | he
  · rw [hv, if_neg Bool.false_ne_true]
  · rw [s.ackErr_of_not_err he, ite_self]

end

/-! ## Configuration registers (R60, R61) -/

/-- Settles O43: idle, the write replaces entry `k` of the list of registers. -/
theorem configurationWriteWhileIdle : Obligations.ConfigurationWriteWhileIdle := by
  intro s k v hk he hq off t
  have hbusy : s.busy = false := (busy_eq_false_iff s).2 ⟨he, hq⟩
  have ht : t = { s with csr := s.csr.set off v, resp := .ack } := by
    change s.host _ = _
    rw [host_write_register s (by omega) (by omega), regWrite_csr s hk, writeCsr_idle s hbusy]
  have hread : ∀ j, t.regRead (0x080 + 8 * j) = (s.csr.regs.set k (if k = 9 then v &&& 1 else v)).getD j 0 := by
    intro j
    rw [regRead_csr, ht, ← regs_set s.csr hk v]
  have hlen : k < s.csr.regs.length := hk
  refine ⟨?_, fun j hj hne => ?_, by rw [ht]⟩
  · rw [hread k]
    simp [List.getD_eq_getElem?_getD, hlen]
  · rw [hread j, regRead_csr]
    simp [List.getD_eq_getElem?_getD, List.getElem?_set_ne hne.symm]

/-- Settles O44: busy, the write only sets the flag. -/
theorem configurationWriteWhileBusy : Obligations.ConfigurationWriteWhileBusy := by
  intro s k v hk hb
  rw [host_write_register s (by omega) (by omega), regWrite_csr s hk, writeCsr_busy s ((busy_iff s).2 hb)]

/-! ## Pushing a command (R66) -/

/-- Settles O45: HOLD, and the two outcomes of a push. -/
theorem pushOrDrop : Obligations.PushOrDrop := by
  intro s v
  have hhi : s.host (.write 64 (s.cfg.mmioBase + 0x050) v) = { s.push v with resp := .ack } :=
    host_write_register s rfl (by omega) v
  refine ⟨host_write_register s rfl (by omega) v, fun hdrop => ?_, fun he hq => ?_⟩
  · rw [hhi, push_dropped s hdrop]
  · rw [hhi, push_taken s he hq]
    exact ⟨⟨s.hold, v, [], s.free, [], []⟩, rfl, rfl, rfl, rfl, rfl, rfl⟩

/-! ## STATUS, CTRL and IRQ (R39 to R41, R64) -/

theorem and_not_eq_ite (a b : Bool) : (a && !b) = if b then false else a := by cases b <;> simp

/-- Settles O46: bit 9 matters while ERR is 1 only. -/
theorem statusWriteClears : Obligations.StatusWriteClears := by
  intro s v t
  have ht : t = { s.writeStatus v with resp := .ack } := host_write_register s rfl (by omega) v
  by_cases hack : v.getLsbD 9 = true ∧ s.err = true
  · obtain ⟨hv, he⟩ := hack
    rw [ht, writeStatus_acknowledges s hv he]
    exact ⟨and_not_eq_ite _ _, and_not_eq_ite _ _, and_not_eq_ite _ _, and_not_eq_ite _ _,
      fun _ _ => ⟨rfl, rfl, rfl, rfl, rfl, rfl⟩, fun h => by simp only [hv, he, Bool.true_eq_false, or_self] at h, rfl⟩
  · have hno : v.getLsbD 9 = false ∨ s.err = false := by simpa [or_iff_not_imp_left] using hack
    rw [ht, writeStatus_clears s hno]
    exact ⟨and_not_eq_ite _ _, and_not_eq_ite _ _, and_not_eq_ite _ _, and_not_eq_ite _ _,
      fun hv he => absurd ⟨hv, he⟩ hack, fun _ => ⟨rfl, rfl, rfl, rfl, rfl, rfl⟩, rfl⟩

theorem getLsbD_bitAt (j : Nat) (b : Bool) {k : Nat} (hk : k < 64) : (bitAt j b).getLsbD k = (decide (k = j) && b) := by
  unfold bitAt
  rw [BitVec.getLsbD_shiftLeft, BitVec.getLsbD_setWidth, BitVec.getLsbD_ofBool]
  by_cases h : k = j
  · subst h
    simp [hk]
  · have hne : k < j ∨ k - j ≠ 0 := by omega
    rcases hne with hlt | hne
    · simp [h, hlt]
    · simp [h, hne]

/-- QCOUNT is the low byte of the number of pending commands, in bits 23:16 (R40). -/
theorem getLsbD_qcount (n : Nat) {k : Nat} (hk : k < 64) :
    ((BitVec.ofNat 8 n).setWidth 64 <<< 16).getLsbD k = (decide (16 ≤ k ∧ k ≤ 23) && n.testBit (k - 16)) := by
  rw [BitVec.getLsbD_shiftLeft, BitVec.getLsbD_setWidth, BitVec.getLsbD_ofNat]
  by_cases h : 16 ≤ k ∧ k ≤ 23
  · simp [h, hk, show ¬ k < 16 by omega, show k - 16 < 64 by omega, show k - 16 < 8 by omega]
  · have hout : k < 16 ∨ ¬ k - 16 < 8 := by omega
    rcases hout with hlt | hge
    · simp [h, hlt]
    · simp [h, hge]

/-- Settles O48: every bit by the field it belongs to. -/
theorem statusControlIrqBits : Obligations.StatusControlIrqBits := by
  intro s
  have hstatus : ∀ k < 64, (s.regRead 0x020).getLsbD k =
      (decide (k = 0) && s.busy || decide (k = 1) && s.qfull || decide (k = 8) && s.done || decide (k = 9) && s.err ||
        decide (k = 10) && s.mark || decide (k = 11) && s.drop || decide (k = 12) && s.cfgwerr ||
        decide (16 ≤ k ∧ k ≤ 23) && s.queue.length.testBit (k - 16)) := by
    intro k hk
    change s.status.getLsbD k = _
    simp only [State.status, BitVec.getLsbD_or, getLsbD_bitAt _ _ hk, getLsbD_qcount _ hk, State.qcount]
  refine ⟨?_, fun k hk h0 => ?_, fun k hk => ?_, ?_⟩
  · rw [hstatus 0 (by omega), ← busy_iff]
    simp
  · rw [hstatus k hk, qfull_eq]
    split_ifs <;> simp [*]
  · change s.ctrl.getLsbD k = _
    simp only [State.ctrl, BitVec.getLsbD_or, getLsbD_bitAt _ _ hk]
    split_ifs with h0 h1 h2 <;> simp [*]
  · simp [State.irq, or_assoc]

/-! ## CTRL: enables, abort, soft reset (R65, R294, R322) -/

/-- The interrupt enables as a write of `v` to CTRL sets them (R65). -/
def State.withEnables (s : State) (v : Word) : State :=
  { s with ieDone := v.getLsbD 0, ieErr := v.getLsbD 1, ieMark := v.getLsbD 2 }

theorem planOf_withEnables (i : Instr) (s : State) (v : Word) : planOf i (s.withEnables v) = planOf i s := by
  cases i <;> rfl

theorem inFlight_withEnables (s : State) (v : Word) : (s.withEnables v).inFlight = s.inFlight := by
  unfold State.inFlight
  rw [show (s.withEnables v).engine = s.engine from rfl]
  simp only [planOf_withEnables]

theorem stop_withEnables (s : State) (v : Word) : (s.withEnables v).stop = s.stop.withEnables v := by
  rw [State.stop, inFlight_withEnables]
  rfl

/-- What a stop leaves in memory is what R294 and R322 allow. -/
theorem stoppedMemory_stop (s : State) : StoppedMemory s s.stop.mem := by
  intro a
  rcases wordAt_setWords s.mem (s.inFlight.filterMap fun w => (s.leftWith w).map fun v => (w.1, v)) a with hold | hnew
  · exact .inl hold
  · exact .inr (mem_leftWords hnew)

theorem writeCtrl_softReset (s : State) {v : Word} (h : v.getLsbD 9 = true) : s.writeCtrl v =
    { State.powerOn s.cfg with turns := s.turns, resp := s.resp, free := s.stop.free, mem := s.stop.mem } := by
  change (if v.getLsbD 9 then (s.withEnables v).softReset else _) = _
  rw [if_pos h, State.softReset, stop_withEnables]
  rfl

theorem writeCtrl_abort (s : State) {v : Word} (h9 : v.getLsbD 9 = false) (h8 : v.getLsbD 8 = true) (hb : s.busy = true) :
    s.writeCtrl v = (s.stop.withEnables v).raise ⟨.abort, 0⟩ := by
  change (if v.getLsbD 9 then _ else if v.getLsbD 8 then (s.withEnables v).abort else _) = _
  rw [h9, if_neg Bool.false_ne_true, if_pos h8, State.abort, if_pos (show (s.withEnables v).busy = true from hb),
    stop_withEnables]

theorem writeCtrl_enables (s : State) {v : Word} (h9 : v.getLsbD 9 = false) (h8 : v.getLsbD 8 = false ∨ s.busy = false) :
    s.writeCtrl v = s.withEnables v := by
  change (if v.getLsbD 9 then _ else if v.getLsbD 8 then (s.withEnables v).abort else s.withEnables v) = _
  rw [h9, if_neg Bool.false_ne_true]
  rcases h8 with h8 | hb
  · rw [h8, if_neg Bool.false_ne_true]
  · rw [State.abort, show (s.withEnables v).busy = s.busy from rfl, hb, if_neg Bool.false_ne_true, ite_self]

theorem cmd_not_exec {s : State} (h : ∀ c, s.engine ≠ .exec c) : s.cmd = ⟨0, 0, [], 0, [], []⟩ := by
  unfold State.cmd
  split
  · exact absurd ‹_› (h _)
  · rfl
  · rfl

/-- Settles O47: soft reset, abort of a busy engine, or the enables alone. -/
theorem controlWrite : Obligations.ControlWrite := by
  intro s v t
  have ht : t = { s.writeCtrl v with resp := .ack } := host_write_register s rfl (by omega) v
  refine ⟨fun h9 => ?_, fun h9 => ?_, fun h9 h8 => ?_, fun h9 h8 hb => ?_⟩
  · rw [ht, writeCtrl_softReset s h9]
    exact ⟨rfl, stoppedMemory_stop s⟩
  · rw [ht]
    by_cases habort : v.getLsbD 8 = true ∧ s.busy = true
    · rw [writeCtrl_abort s h9 habort.1 habort.2]
      exact ⟨rfl, rfl, rfl⟩
    · rw [writeCtrl_enables s h9 (by simpa [or_iff_not_imp_left] using habort)]
      exact ⟨rfl, rfl, rfl⟩
  · rw [ht, writeCtrl_enables s h9 (h8.imp_right (busy_eq_false_iff s).2)]
    rfl
  · rw [ht, writeCtrl_abort s h9 h8 ((busy_iff s).2 hb)]
    refine ⟨rfl, fun c he => ?_, fun hn => ?_, stoppedMemory_stop s⟩
    · change s.cmd.w0 = c.w0 ∧ s.cmd.w1 = c.w1
      rw [cmd_exec he]
      exact ⟨rfl, rfl⟩
    · change s.cmd.w0 = 0 ∧ s.cmd.w1 = 0
      rw [cmd_not_exec hn]
      exact ⟨rfl, rfl⟩

/-! ## Reading the registers (R31 to R46, R62, R63, R73) -/

theorem regRead_regs (s : State) : (List.range 22).map (fun k => s.regRead (0x080 + 8 * k)) = s.csr.regs := by
  simp only [regRead_csr]
  rfl

/-- Settles O49: each offset answers its register, and a write of the others changes nothing. -/
theorem readOnlyAndReservedRegisters : Obligations.ReadOnlyAndReservedRegisters := by
  intro s off v h8 hoff
  refine ⟨host_read_register s h8 hoff, rfl, rfl, rfl, rfl, rfl, rfl, rfl, rfl, regRead_regs s, fun h => ?_, fun h => ?_⟩
  · rw [host_write_register s h8 hoff, regWrite_ignored s h]
  · rw [host_read_register s h8 hoff, regRead_zero s h]

/-- A field put above the bits that are used adds its value, shifted. -/
theorem toNat_or_shiftLeft {x y : Word} {k : Nat} (hx : x.toNat < 2 ^ k) (hy : y.toNat * 2 ^ k < 2 ^ 64) :
    (x ||| y <<< k).toNat = x.toNat + y.toNat * 2 ^ k := by
  rw [BitVec.toNat_or, BitVec.toNat_shiftLeft, Nat.shiftLeft_eq, Nat.mod_eq_of_lt hy, Nat.mul_comm, Nat.or_comm,
    ← Nat.two_pow_add_eq_or_of_lt hx, Nat.add_comm]

/-- A field of `w` bits that holds a number of `w` bits. -/
theorem toNat_field {w n : Nat} (hw : w ≤ 64) (hn : n < 2 ^ w) : ((BitVec.ofNat w n).setWidth 64 : Word).toNat = n := by
  have h64 : n < 2 ^ 64 := Nat.lt_of_lt_of_le hn (Nat.pow_le_pow_right (by decide) hw)
  rw [BitVec.toNat_setWidth, BitVec.toNat_ofNat, Nat.mod_eq_of_lt hn, Nat.mod_eq_of_lt h64]

/-- CAP0 gives the parameters in their fields (R32). -/
theorem cap0_toNat {s : State} (h : s.cfg.Legal) : s.cap0.toNat =
    s.cfg.log2nMin + s.cfg.log2nMax * 2 ^ 8 + s.cfg.cmdqDepth * 2 ^ 16 + s.cfg.nlanes * 2 ^ 24 +
      (match s.cfg.fpMode with | .cr => 2 ^ 32 | .faithful => 0) := by
  obtain ⟨hmin, -, hmax, -, -, -, hdepth, -, hlanes⟩ := h
  have vmin := toNat_field (w := 5) (n := s.cfg.log2nMin) (by omega) (by omega)
  have vmax := toNat_field (w := 5) (n := s.cfg.log2nMax) (by omega) (by omega)
  have vdepth := toNat_field (w := 8) (n := s.cfg.cmdqDepth) (by omega) (by omega)
  have vlanes := toNat_field (w := 8) (n := s.cfg.nlanes) (by omega) (by omega)
  have vmode : ((BitVec.ofBool (s.cfg.fpMode == .cr)).setWidth 64 : Word).toNat * 2 ^ 32 =
      (match s.cfg.fpMode with | .cr => 2 ^ 32 | .faithful => 0) := by
    cases s.cfg.fpMode <;> rfl
  have hmode : ((BitVec.ofBool (s.cfg.fpMode == .cr)).setWidth 64 : Word).toNat ≤ 1 := by
    cases s.cfg.fpMode <;> decide
  have e1 := toNat_or_shiftLeft (k := 8) (x := (BitVec.ofNat 5 s.cfg.log2nMin).setWidth 64)
    (y := (BitVec.ofNat 5 s.cfg.log2nMax).setWidth 64) (by omega) (by omega)
  have e2 := toNat_or_shiftLeft (k := 16) (y := (BitVec.ofNat 8 s.cfg.cmdqDepth).setWidth 64) (e1.trans_lt (by omega))
    (by omega)
  have e3 := toNat_or_shiftLeft (k := 24) (y := (BitVec.ofNat 8 s.cfg.nlanes).setWidth 64) (e2.trans_lt (by omega))
    (by omega)
  unfold State.cap0 bitAt
  rw [toNat_or_shiftLeft (e3.trans_lt (by omega)) (by omega), e3, e2, e1, vmin, vmax, vdepth, vlanes, vmode]

/-- Settles O51: the reset values, and the parameters in CAP0 and CAP1. -/
theorem resetValues : Obligations.ResetValues := by
  intro p hp s
  have hfull : s.qfull = false := by
    rw [qfull_eq, decide_eq_false_iff_not]
    change ¬ 0 = p.cmdqDepth
    omega
  have hstatus : s.regRead 0x020 = 0 := by
    change bitAt 0 false ||| bitAt 1 s.qfull ||| bitAt 8 false ||| bitAt 9 false ||| bitAt 10 false ||| bitAt 11 false |||
      bitAt 12 false ||| (BitVec.ofNat 8 0).setWidth 64 <<< 16 = 0
    rw [hfull]
    decide
  have hctrl : s.regRead 0x018 = 0 := by
    change bitAt 0 false ||| bitAt 1 false ||| bitAt 2 false = 0
    decide
  refine ⟨rfl, rfl, rfl, rfl, ?_, regRead_regs s, rfl, cap0_toNat (s := s) hp, ?_⟩
  · simp only [List.forall_mem_cons]
    exact ⟨hctrl, hstatus, rfl, rfl, rfl, rfl, rfl, rfl, rfl, fun _ h => nomatch h⟩
  · change (BitVec.ofNat 64 p.dmemWords).toNat = p.dmemWords
    rw [BitVec.toNat_ofNat]
    exact Nat.mod_eq_of_lt (by omega)

end Sys2Proof.Machine

/-! SUPPORT. The sequencer outside a command's own meaning (R38, R286, R323, R332), and the one check that every command that
needs FS makes first (R47, R282). -/

namespace Sys2Proof.Machine

/-! ## One step of the engine, and one turn (R38, log 8) -/

section

variable {s : State}

theorem engineStep_pop (he : s.engine = .idle) {c : PendingCmd} {q : List PendingCmd} (hq : s.queue = c :: q) :
    s.engineStep = .next { s with engine := .exec c, queue := q } := by
  simp only [State.engineStep, he, hq]

/-- An engine with nothing to do stays as it is (log 13). -/
theorem engineStep_rest (h : (s.engine = .idle ∧ s.queue = []) ∨ s.engine = .halt) : s.engineStep = .next s := by
  rcases h with ⟨he, hq⟩ | he
  · simp only [State.engineStep, he, hq]
  · simp only [State.engineStep, he]

theorem step_of_no_turn (h : s.turns = []) : step s = s.engineStep := by simp only [step, h]

theorem step_of_engine_turn {ts : List Turn} (h : s.turns = .engine :: ts) :
    step s = State.engineStep { s with turns := ts } := by simp only [step, h]

theorem step_of_progress_turn {ts : List Turn} (h : s.turns = .progress :: ts) :
    step s = .next (State.progress { s with turns := ts }) := by simp only [step, h]

theorem step_of_host_turn {a : HostAccess} {ts : List Turn} (h : s.turns = .host a :: ts) :
    step s = .next (State.host { s with turns := ts } a) := by simp only [step, h]

end

/-- Settles O6: one lemma per turn; the words of a progress turn are those of `State.landing`. -/
theorem sequencerOutsideExec : Obligations.SequencerOutsideExec := by
  intro s
  refine ⟨fun h he c q hq => ?_, fun h he hq => ?_, fun h he => ?_, fun ts h => ⟨fun he c q hq => ?_, fun he hq => ?_,
    fun he => ?_⟩, fun a ts h => step_of_host_turn h, fun ts h => ⟨fun hn => ?_, fun c he => ?_⟩⟩
  · rw [step_of_no_turn h, engineStep_pop he hq]
  · rw [step_of_no_turn h, engineStep_rest (.inl ⟨he, hq⟩)]
  · rw [step_of_no_turn h, engineStep_rest (.inr he)]
  · rw [step_of_engine_turn h, engineStep_pop (s := { s with turns := ts }) he hq]
  · rw [step_of_engine_turn h, engineStep_rest (s := { s with turns := ts }) (.inl ⟨he, hq⟩)]
  · rw [step_of_engine_turn h, engineStep_rest (s := { s with turns := ts }) (.inr he)]
  · rw [step_of_progress_turn h, progress_not_exec (s := { s with turns := ts }) hn]
  · have hland : State.landing { s with turns := ts } = s.landing := by
      rw [State.landing, inFlight_turns]
      rfl
    refine ⟨s.landing.map fun w => (w.1, s.settle w.1 w.2), s.landing.flatMap fun w => s.readsBefore c w.1, ?_, ?_, ?_⟩
    · rw [step_of_progress_turn h, progress_exec (s := { s with turns := ts }) he, hland]
      rfl
    · intro w hw
      obtain ⟨x, hx, rfl⟩ := List.mem_map.1 hw
      exact ⟨⟨x.2, List.mem_of_mem_filter hx, rfl⟩, fun g hg => List.mem_flatMap.2 ⟨x, hx, hg⟩⟩
    · intro g hg
      obtain ⟨x, hx, hread⟩ := List.mem_flatMap.1 hg
      exact ⟨_, List.mem_map.2 ⟨x, hx, rfl⟩, hread⟩

/-! ## The sample rate (R47, R282) -/

/-- A plan that begins with the check of FS raises its error when FS is not legal. -/
theorem raisesClean_of_needFs {s : State} (hfs : ¬ FsOk s) {i : Instr} {f : Unit → Check Effect}
    (h : planOf i s = .ofCheck (s.needFs >>= f)) : RaisesClean i s .config 0x080 :=
  raisesClean_of (by rw [h, needFs_error hfs, error_bind, ofCheck_error])

/-- Settles O33: FS is the first check of each of the thirteen plans, after WSEG's own test of its window and as the first of
the frame engines' phase 1. -/
theorem sampleRateErrors : Obligations.SampleRateErrors := by
  intro s sz win nrm dcr slift prm src dst
  refine ⟨rfl, fun hfs hwin => ?_⟩
  have hwseg : RaisesClean (.wseg sz win nrm dcr prm dst) s .config 0x080 :=
    raisesClean_of_needFs hfs (congrArg Verdict.ofCheck (require_bind_of (bne_iff_ne.2 hwin)))
  have henv : RaisesClean (.envrun src dst) s .config 0x080 := by
    refine raisesClean_of (phases_error ?_)
    rw [State.envPhase1, State.needEnvConfig, needFs_error hfs]
    rfl
  have hap : RaisesClean (.aprun src dst) s .config 0x080 := by
    refine raisesClean_of (phases_error ?_)
    rw [State.apPhase1, State.needApConfig, needFs_error hfs]
    rfl
  have primitive : ∀ {i : Instr} {f : Unit → Check Effect}, planOf i s = .ofCheck (s.needFs >>= f) →
      RaisesClean i s .config 0x080 := raisesClean_of_needFs hfs
  simp only [List.forall_mem_cons]
  exact ⟨primitive rfl, primitive rfl, primitive rfl, hwseg, primitive rfl, primitive rfl, primitive rfl, henv,
    primitive rfl, primitive rfl, primitive rfl, primitive rfl, hap, fun _ h => nomatch h⟩

end Sys2Proof.Machine

/-! SUPPORT. DMEM as the host uses it (R81 to R84, R92, R93, R101): where an access falls, and what a write of a word
changes. -/

namespace Sys2Proof.Machine

/-! ## Where an access falls (R81 to R83) -/

/-- Where an access falls is a matter of the parameters alone. -/
theorem place_of_cfg {s' s : State} (h : s'.cfg = s.cfg) (bits addr : Nat) : s'.place bits addr = s.place bits addr := by
  unfold State.place
  rw [h]

section

variable (s : State) {bits addr off a : Nat}

theorem place_malformed (hin : off < 0x100000 + 8 * s.cfg.dmemWords)
    (hbad : bits ≠ 64 ∨ off % 8 ≠ 0 ∨ (0x1000 ≤ off ∧ off < 0x100000)) :
    s.place bits (s.cfg.mmioBase + off) = .busError := by
  have hsub : s.cfg.mmioBase + off - s.cfg.mmioBase = off := Nat.add_sub_cancel_left _ _
  unfold State.place
  rw [hsub, if_neg (by omega)]
  by_cases hform : bits ≠ 64 ∨ off % 8 ≠ 0
  · rw [if_pos hform]
  · rw [if_neg hform, if_neg (by omega), if_pos (by omega)]

theorem place_dmem (ha : a < s.cfg.dmemWords) : s.place 64 (s.cfg.mmioBase + 0x100000 + 8 * a) = .dmem a := by
  have hsub : s.cfg.mmioBase + 0x100000 + 8 * a - s.cfg.mmioBase = 0x100000 + 8 * a := by omega
  unfold State.place
  rw [hsub, if_neg (by omega), if_neg (by simp), if_neg (by omega), if_neg (by omega), Nat.add_sub_cancel_left,
    Nat.mul_div_cancel_left a (by decide)]

/-- A host read changes only the bus response (R101, log 9). -/
theorem host_read_frame (bits addr : Nat) :
    s.host (.read bits addr) = { s with resp := (s.host (.read bits addr)).resp } := by
  simp only [State.host, State.hostRead]
  cases s.place bits addr <;> rfl

/-- A read of a word answers the word. -/
theorem host_read_of_place (h : s.place bits addr = .dmem a) :
    s.host (.read bits addr) = { s with resp := .data (s.hostWord a) } := by
  simp only [State.host, State.hostRead, h]

/-- A write of a word is taken. -/
theorem host_write_of_place (h : s.place bits addr = .dmem a) (v : Word) :
    s.host (.write bits addr v) = { s.hostSetWord a v with resp := .ack } := by
  simp only [State.host, State.hostWrite, h]

end

/-- Settles O42: such an access falls on the bus error, which answers and does nothing else. -/
theorem busErrorsHaveNoEffect : Obligations.BusErrorsHaveNoEffect := by
  intro s bits off v hin hbad
  have hplace := place_malformed s hin hbad
  constructor
  · simp only [State.host, State.hostRead, hplace]
  · simp only [State.host, State.hostWrite, hplace]

/-! ## What the host reads in a word, and what its write of one changes (R92, R93, R101) -/

section

variable {s : State} {c : PendingCmd} (a : Nat) (v : Word)

theorem hostWord_exec (he : s.engine = .exec c) : s.hostWord a = (c.landed.lookup a).getD (s.mem.wordAt a) := by
  rw [State.hostWord, cmd_exec he]

theorem hostWord_not_exec (hn : ∀ c, s.engine ≠ .exec c) : s.hostWord a = s.mem.wordAt a := by
  rw [State.hostWord, cmd_not_exec hn]
  rfl

theorem hostSetWord_engine_exec (he : s.engine = .exec c) :
    (s.hostSetWord a v).engine = .exec (c.race a (s.mem.wordAt a) v) := by
  simp only [State.hostSetWord, he, Engine.race]

theorem hostSetWord_engine_not_exec (hn : ∀ c, s.engine ≠ .exec c) : (s.hostSetWord a v).engine = s.engine := by
  cases he : s.engine with
  | exec c => exact absurd he (hn c)
  | idle => simp only [State.hostSetWord, he, Engine.race]
  | halt => simp only [State.hostSetWord, he, Engine.race]

/-- The word written reads as written: what the command had written there is out of the way (R92). -/
theorem hostWord_hostSetWord_same (s : State) : (s.hostSetWord a v).hostWord a = v := by
  have hmem : (s.hostSetWord a v).mem.wordAt a = v := wordAt_setWord_same s.mem a v
  by_cases hn : ∀ c, s.engine ≠ .exec c
  · rw [hostWord_not_exec a (by rwa [hostSetWord_engine_not_exec a v hn]), hmem]
  · obtain ⟨c, he⟩ : ∃ c, s.engine = .exec c := by simpa using hn
    have hgone : (c.race a (s.mem.wordAt a) v).landed.lookup a = none :=
      lookup_of_not_mem fun w hw => by simpa using List.of_mem_filter hw
    rw [hostWord_exec a (hostSetWord_engine_exec a v he), hgone, Option.getD_none, hmem]

theorem qcount_hostSetWord (s : State) : (s.hostSetWord a v).qcount = s.qcount := List.length_map _

theorem busy_hostSetWord (s : State) : (s.hostSetWord a v).busy = s.busy := by
  have hexec : (s.hostSetWord a v).executing = s.executing := by
    unfold State.executing State.hostSetWord
    cases s.engine <;> rfl
  rw [State.busy, State.busy, qcount_hostSetWord, hexec]

/-- A host write of DMEM shows in no register (R92). -/
theorem regRead_hostSetWord (s : State) (off : Nat) : (s.hostSetWord a v).regRead off = s.regRead off := by
  have hstatus : (s.hostSetWord a v).status = s.status := by
    rw [State.status, State.status, State.qfull, State.qfull, busy_hostSetWord, qcount_hostSetWord]
    rfl
  rw [State.regRead, hstatus]
  rfl

/-- What a command leaves in a word is what it computes or a value of the host's that stands there (R92, R330). -/
theorem settle_eq_or_standing (s : State) : s.settle a v = v ∨ s.cmd.standing a = some (s.settle a v) := by
  unfold State.settle
  cases hk : s.keptByHost a with
  | none => exact .inl rfl
  | some x => exact .inr (standing_of_keptByHost hk)

end

/-- A command that does not end in HALT leaves each word in flight with its value as it settles, and every other word as it
was (R94, R287). -/
theorem wordAt_of_completed {s t : State} {c : PendingCmd} {i : Instr} (he : s.engine = .exec c)
    (hd : decodeCmd c.w0 c.w1 = .ok i) (hx : exec i s = .next t) (hh : t.engine ≠ .halt) (a : Nat) :
    (∀ w, (a, w) ∈ s.inFlight → t.mem.wordAt a = s.settle a w) ∧
      ((∀ w, (a, w) ∉ s.inFlight) → t.mem.wordAt a = s.mem.wordAt a) := by
  rw [exec_eq] at hx
  cases hx
  rw [inFlight_exec he hd]
  cases hp : planOf i s with
  | done e => simpa only [hp] using wordAt_finish_done hp a
  | failed r =>
    rw [hp] at hh
    exact absurd rfl hh
  | spoiled r ws =>
    rw [hp] at hh
    exact absurd rfl hh

/-- Settles O50: a read answers `State.hostWord`, a write is `State.hostSetWord`; what a command reads and leaves is one lemma
per clause. -/
theorem hostReadsAndWritesOfMemory : Obligations.HostReadsAndWritesOfMemory := by
  intro s bits addr a v ha there told
  have hread : s.host (.read 64 there) = { s with resp := .data (s.hostWord a) } := host_read_of_place s (place_dmem s ha)
  have hwrite : s.host (.write 64 there v) = { s.hostSetWord a v with resp := .ack } :=
    host_write_of_place s (place_dmem s ha) v
  refine ⟨host_read_frame s bits addr, fun hn => ?_, fun c he => ?_, ?_, fun h tag => ?_, settle_eq_or_standing a v s,
    fun hinv => settle_cases hinv.writtenSound a v, fun tag => cmdRead_cases s tag a,
    fun c i t he hd hx => ⟨fun hh => wordAt_of_completed he hd hx hh a, fun w hinv hw => ?_⟩⟩
  · rw [hread, hostWord_not_exec a hn]
  · rw [hread, hostWord_exec a he]
  · rw [hwrite]
    refine ⟨wordAt_setWord_same s.mem a v, fun b hb => byteAt_setWord_other s.mem v hb, rfl,
      hostSetWord_engine_not_exec a v, fun c he => ⟨hostSetWord_engine_exec a v he, fun tag b hg => ?_⟩,
      regRead_hostSetWord a v s, rfl, ?_⟩
    · exact (sameReads_hostSetWord he a v).reads tag b hg
    · have hback : State.place { s.hostSetWord a v with resp := .ack } 64 there = .dmem a :=
        (place_of_cfg (s := s) rfl 64 there).trans (place_dmem s ha)
      rw [host_read_of_place _ hback]
      exact congrArg BusResp.data (hostWord_hostSetWord_same a v s)
  · exact ⟨cmdRead_of_no_races h tag a, settle_of_no_races h a v⟩
  · have hlanded := hinv.landed c he
    rw [exec_eq] at hx
    cases hx
    have hlater : s.progress.place 64 there = .dmem a := (place_of_cfg s.progress_cfg 64 there).trans (place_dmem s ha)
    exact ⟨wordAt_finish_landed he hd hlanded hw, by
      rw [host_read_of_place _ hlater, hostWord_progress he hlanded hw]⟩

end Sys2Proof.Machine

/-! SUPPORT. What a row of a frame engine is computed from: the size range's upper end, FP_MODE, the configuration registers,
the waveform and the frame's own F0 (R96, R187, R225, R337). -/

namespace Sys2Proof.Machine

/-- A lift uses two of the parameters. -/
theorem lift_congr {p p' : Params} (hmax : p'.log2nMax = p.log2nMax) (hmode : p'.fpMode = p.fpMode) : lift p' = lift p := by
  funext fs l slift eps f0 q1 spec
  simp only [lift, hmax, hmode]

/-- BANDAP uses the same two. -/
theorem bandAperiodicity_congr {p p' : Params} (hmax : p'.log2nMax = p.log2nMax) (hmode : p'.fpMode = p.fpMode) :
    bandAperiodicity p' = bandAperiodicity p := by
  have hcoarse : bandCoarse p' = bandCoarse p := by
    funext fs l safeMin f0 g j
    simp only [bandCoarse, hmax, hmode]
  funext fs l safeMin g f0
  simp only [bandAperiodicity, hcoarse]

/-- Two states that agree in everything row `i` is computed from, as the frame reads it. The other parameters may differ, which
`SameReads` does not let them. -/
structure SameFrame (s' s : State) (i : Nat) : Prop where
  log2nMax : s'.cfg.log2nMax = s.cfg.log2nMax
  fpMode : s'.cfg.fpMode = s.cfg.fpMode
  csr : s'.csr = s.csr
  f0 : s'.f0Word (tagF0 i) i = s.f0Word (tagF0 i) i
  sample : ∀ tag, s'.sample tag = s.sample tag

section

variable {s' s : State} {i : Nat}

/-- Without host writes since the push, the frame reads the words of memory. -/
theorem sameFrame_of_no_races (hmax : s'.cfg.log2nMax = s.cfg.log2nMax) (hmode : s'.cfg.fpMode = s.cfg.fpMode)
    (hcsr : s'.csr = s.csr) (hr' : s'.cmd.races = []) (hr : s.cmd.races = [])
    (hx : ∀ j < s.csr.xLen.toNat, s'.mem.wordAt (s.csr.xBase.toNat + j) = s.mem.wordAt (s.csr.xBase.toNat + j))
    (hf0 : s'.mem.wordAt (s.csr.f0Base.toNat + i) = s.mem.wordAt (s.csr.f0Base.toNat + i)) : SameFrame s' s i where
  log2nMax := hmax
  fpMode := hmode
  csr := hcsr
  f0 := by simp only [State.f0Word, cmdRead_of_no_races hr, cmdRead_of_no_races hr', hcsr, hf0]
  sample tag := by
    funext j
    simp only [State.sample, cmdRead_of_no_races hr, cmdRead_of_no_races hr', hcsr]
    by_cases hj : 0 ≤ j ∧ j < s.csr.xLen.toNat
    · rw [if_pos hj, if_pos hj, hx j.toNat (by omega)]
    · rw [if_neg hj, if_neg hj]

theorem SameFrame.sizeExp (h : SameFrame s' s i) (sz : SizeSel) : s'.sizeExp sz = s.sizeExp sz := by
  unfold State.sizeExp
  rw [h.csr]

theorem SameFrame.envRow (h : SameFrame s' s i) : s'.envRow i = s.envRow i := by
  unfold State.envRow
  simp only [h.csr, h.log2nMax, h.fpMode, h.f0, h.sample, h.sizeExp, lift_congr h.log2nMax h.fpMode]

theorem SameFrame.apSegment (h : SameFrame s' s i) (seg : Nat) (centre f0 r : Word) (win : Win) :
    s'.apSegment i seg centre f0 r win = s.apSegment i seg centre f0 r win := by
  unfold State.apSegment
  rw [h.csr, h.fpMode, h.sizeExp, h.sample]

theorem SameFrame.apBands (h : SameFrame s' s i) (seg : Nat) (centre f0 r : Word) :
    s'.apBands i seg centre f0 r = s.apBands i seg centre f0 r := by
  unfold State.apBands
  simp only [h.csr, h.log2nMax, h.sizeExp, h.apSegment, bandAperiodicity_congr h.log2nMax h.fpMode]

theorem SameFrame.apRow (h : SameFrame s' s i) : s'.apRow i = s.apRow i := by
  unfold State.apRow
  simp only [h.csr, h.log2nMax, h.fpMode, h.f0, h.sizeExp, h.apSegment, h.apBands]

end

/-- After a completed ENVRUN without races, the words of a row of its range are those the frame computed. -/
theorem wordAt_envrun {first count : Half} {s t : State} (hx : exec (.envrun first count) s = .next t)
    (hh : t.engine ≠ .halt) (hr : s.cmd.races = []) {i k : Nat} (hi : first.toNat ≤ i)
    (hi' : i < first.toNat + count.toNat) (hk : k < s.csr.outCols.toNat) : ∃ v, s.envRow i = .ok v ∧
      t.mem.wordAt (s.csr.envBase.toNat + i * s.csr.outCols.toNat + k) = v.getD k 0 :=
  frame_rows rfl (fun h f v hv => by rw [length_envRow hv, (envPhase1_ok.1 h).frames.cols]) hx hh hr i k hi hi' hk

/-- After a completed APRUN without races, the words of a row of its range are those the frame computed. -/
theorem wordAt_aprun {first count : Half} {s t : State} (hx : exec (.aprun first count) s = .next t)
    (hh : t.engine ≠ .halt) (hr : s.cmd.races = []) {i k : Nat} (hi : first.toNat ≤ i)
    (hi' : i < first.toNat + count.toNat) (hk : k < s.csr.outCols.toNat) : ∃ v, s.apRow i = .ok v ∧
      t.mem.wordAt (s.csr.apBase.toNat + i * s.csr.outCols.toNat + k) = v.getD k 0 :=
  frame_rows rfl (fun h f v hv => by rw [length_apRow hv, (apPhase1_ok.1 h).frames.cols]) hx hh hr i k hi hi' hk

/-- Settles O60: both runs leave in the row what the frame computes, and the frame computes the same in both states. -/
theorem rowsDependOnTheirInputsOnly : Obligations.RowsDependOnTheirInputsOnly := by
  intro first count first' count' s s' t t' i hmax hmode hcsr hr hr' hwave hf0 hi1 hi2 hi1' hi2' hh hh'
  have hframe : SameFrame s s' i :=
    sameFrame_of_no_races hmax hmode hcsr hr hr' (by rwa [hcsr] at hwave) (by rwa [hcsr] at hf0)
  refine ⟨fun hx hx' k hk => ?_, fun hx hx' k hk => ?_⟩
  · obtain ⟨v, hrow, hword⟩ := wordAt_envrun hx hh hr hi1 hi2 hk
    obtain ⟨v', hrow', hword'⟩ := wordAt_envrun hx' hh' hr' hi1' hi2' (hcsr ▸ hk)
    rw [hframe.envRow, hrow'] at hrow
    cases hrow
    rw [hword, hcsr, hword']
  · obtain ⟨v, hrow, hword⟩ := wordAt_aprun hx hh hr hi1 hi2 hk
    obtain ⟨v', hrow', hword'⟩ := wordAt_aprun hx' hh' hr' hi1' hi2' (hcsr ▸ hk)
    rw [hframe.apRow, hrow'] at hrow
    cases hrow
    rw [hword, hcsr, hword']

end Sys2Proof.Machine

/-! SUPPORT. Encoding and decoding of commands (R111 to R124): each field of a command's words survives the other direction,
row by row of R117, and the tests of R119 on the fields are those on the numbers. -/

namespace Sys2Proof.Machine

/-! ## Words, fields and bytes (R84, R110, R111, R121) -/

/-- The fields of a command as R124 fills them in. -/
def fieldsOfInstr (i : Instr) : Fields := ⟨i.opc, i.flags, 0#16, i.prm, i.src, i.dst⟩

theorem fieldsOf_encode (i : Instr) : fieldsOf (encode i).1 (encode i).2 = fieldsOfInstr i := Laws.EncodedFields.all i

/-- The fields of R111 cover W0. -/
theorem w0_eq_append_fields (w0 w1 : Word) :
    (fieldsOf w0 w1).prm ++ (fieldsOf w0 w1).rsv ++ (fieldsOf w0 w1).flags ++ (fieldsOf w0 w1).opc = w0 := by
  simp only [fieldsOf]
  rw [BitVec.extractLsb'_append_extractLsb'_eq_extractLsb' (start₁ := 16) (len₁ := 16) rfl,
    BitVec.extractLsb'_append_extractLsb'_eq_extractLsb' (start₁ := 8) (len₁ := 8) rfl,
    BitVec.extractLsb'_append_extractLsb'_eq_extractLsb' (start₁ := 0) (len₁ := 8) rfl]
  exact BitVec.extractLsb'_eq_self

/-- The fields of R112 cover W1. -/
theorem w1_eq_append_fields (w0 w1 : Word) : (fieldsOf w0 w1).dst ++ (fieldsOf w0 w1).src = w1 := by
  simp only [fieldsOf]
  rw [BitVec.extractLsb'_append_extractLsb'_eq_extractLsb' (start₁ := 0) (len₁ := 32) rfl]
  exact BitVec.extractLsb'_eq_self

theorem encode_eq_of_fields {w0 w1 : Word} {i : Instr} (h : fieldsOfInstr i = fieldsOf w0 w1) : encode i = (w0, w1) := by
  have hw0 := w0_eq_append_fields w0 w1
  have hw1 := w1_eq_append_fields w0 w1
  rw [← h] at hw0 hw1
  exact Prod.ext hw0 hw1

theorem length_bytesOfWord (w : Word) : (bytesOfWord w).length = 8 := rfl

/-- Sixteen bytes in front of a byte string are read as the two words they are (R84). -/
theorem decode_bytes_of_ok {w0 w1 : Word} {i : Instr} (h : decodeCmd w0 w1 = .ok i) (rest : List Byte) :
    decode (bytesOfWord w0 ++ bytesOfWord w1 ++ rest) = .ok (i, rest) := by
  have hword : ∀ w, wordOfBytes (bytesOfWord w) = w := wordOfBytes_extract
  have hlen : ¬ (bytesOfWord w0 ++ (bytesOfWord w1 ++ rest)).length < 16 := by
    simp only [List.length_append, length_bytesOfWord]
    omega
  have hrest : (bytesOfWord w0 ++ (bytesOfWord w1 ++ rest)).drop 16 = rest := by
    rw [← List.append_assoc]
    exact List.drop_left' rfl
  rw [List.append_assoc, decode, if_neg hlen, List.take_left' (length_bytesOfWord w0),
    List.drop_left' (length_bytesOfWord w0), List.take_left' (length_bytesOfWord w1), hword, hword, h, hrest]

/-! ## Rows of the opcode map (R117, R121) -/

theorem decodeCmd_of_no_row {w0 w1 : Word} (h : opcodeMap.find? (fun r => r.opc == (fieldsOf w0 w1).opc) = none) :
    decodeCmd w0 w1 = .error .opcode := by
  rw [decodeCmd, h]

theorem decodeCmd_of_row {w0 w1 : Word} {r : Row} (h : opcodeMap.find? (fun r => r.opc == (fieldsOf w0 w1).opc) = some r) :
    decodeCmd w0 w1 = r.check (fieldsOf w0 w1) := by
  rw [decodeCmd, h]

theorem row_of_find {o : BitVec 8} {r : Row} (h : opcodeMap.find? (fun r => r.opc == o) = some r) :
    r ∈ opcodeMap ∧ r.opc = o :=
  ⟨List.mem_of_find?_eq_some h, eq_of_beq (List.find?_some (p := fun q : Row => q.opc == o) h)⟩

/-- The tests of R119 after the first find no fault with the fields of a command of row `r`. -/
structure Passes (r : Row) (f : Fields) : Prop where
  rsv : f.rsv = 0#16
  flags : flagsIllegal r f.flags = false
  prm : (r.prm || f.prm == 0#32) = true
  src : (r.src || f.src == 0#32) = true
  dst : (r.dst || f.dst == 0#32) = true

theorem passes_iff {r : Row} {f : Fields} : Passes r f ↔ f.rsv = 0#16 ∧ flagsIllegal r f.flags = false ∧
    (r.prm || f.prm == 0#32) = true ∧ (r.src || f.src == 0#32) = true ∧ (r.dst || f.dst == 0#32) = true :=
  ⟨fun h => ⟨h.rsv, h.flags, h.prm, h.src, h.dst⟩,
    fun ⟨hrsv, hflags, hprm, hsrc, hdst⟩ => ⟨hrsv, hflags, hprm, hsrc, hdst⟩⟩

theorem check_eq_ok {r : Row} {f : Fields} {i : Instr} : r.check f = .ok i ↔ Passes r f ∧ r.make f = i := by
  rw [passes_iff, Row.check]
  split_ifs with hrsv hflags hprm hsrc hdst <;> simp_all [or_iff_not_imp_left]

theorem decodeCmd_eq_ok {w0 w1 : Word} {i : Instr} (h : decodeCmd w0 w1 = .ok i) :
    ∃ r ∈ opcodeMap, r.opc = (fieldsOf w0 w1).opc ∧ Passes r (fieldsOf w0 w1) ∧ r.make (fieldsOf w0 w1) = i := by
  cases hrow : opcodeMap.find? (fun r => r.opc == (fieldsOf w0 w1).opc) with
  | none =>
    rw [decodeCmd_of_no_row hrow] at h
    cases h
  | some r =>
    obtain ⟨hmem, hopc⟩ := row_of_find hrow
    exact ⟨r, hmem, hopc, check_eq_ok.1 (decodeCmd_of_row hrow ▸ h)⟩

/-! ## From a legal command to its words and back (R124) -/

/-- Each row accepts the fields of its commands, at every value of the flags, and reads the command out of them. -/
theorem row_accepts {i : Instr} (h : i.wf = true) :
    ∃ r, opcodeMap.find? (fun r => r.opc == i.opc) = some r ∧ Passes r (fieldsOfInstr i) ∧ r.make (fieldsOfInstr i) = i := by
  cases i <;> refine ⟨_, rfl, ?_⟩ <;>
    simp only [passes_iff, fieldsOfInstr, flagsIllegal, Fields.sz, Fields.win, Fields.nrm, Fields.dcr, Fields.slift,
      Instr.flags, Instr.prm, Instr.src, Instr.dst]
  case nop | signal | defaults | dfftsz | df0flr | envrun | aprun => simp
  case fftr sz _ _ | ffti sz _ _ | pow sz _ _ | centroid sz _ _ | vuv sz _ _ | apinterp sz _ _ =>
    cases sz <;> simp [SizeSel.bit, flagSz]
  case dccorr sz _ _ _ | lsmooth sz _ _ _ | gdelay sz _ _ _ | bandap sz _ _ _ => cases sz <;> simp [SizeSel.bit, flagSz]
  case lifter sz slift _ _ _ => cases sz <;> cases slift <;> simp [SizeSel.bit, flagBit, flagSz, flagSlift]
  case wgen win _ _ => cases win <;> simp [Win.bits, flagWin]
  case wseg sz win nrm dcr _ _ =>
    cases win with
    | nuttall => cases h
    | hann | blackman =>
      cases sz <;> cases nrm <;> cases dcr <;> simp [SizeSel.bit, Win.bits, flagBit, flagSz, flagWin, flagNrm, flagDcr]

theorem decodeCmd_encode {i : Instr} (h : i.wf = true) : decodeCmd (encode i).1 (encode i).2 = .ok i := by
  obtain ⟨r, hrow, haccepts⟩ := row_accepts h
  rw [← fieldsOf_encode i] at haccepts
  exact (decodeCmd_of_row (by rw [fieldsOf_encode]; exact hrow)).trans (check_eq_ok.2 haccepts)

/-- Settles O1: the fields of the encoded words are those of the command, which its row accepts. -/
theorem decodesWhatItEncodes : Obligations.DecodesWhatItEncodes := fun _ h =>
  ⟨decodeCmd_encode h, decode_bytes_of_ok (decodeCmd_encode h)⟩

/-- Settles O4: each pair of the table is the encoding of the command it names. -/
theorem workedEncodingsDecode : Obligations.WorkedEncodingsDecode :=
  ⟨decodeCmd_encode (i := .nop) rfl, decodeCmd_encode (i := .signal) rfl, decodeCmd_encode (i := .defaults) rfl,
    decodeCmd_encode (i := .dfftsz 0x10 0x20) rfl, decodeCmd_encode (i := .fftr .ap 0x1000 0x2000) rfl,
    decodeCmd_encode (i := .wseg .ap .blackman false true 0x10 0x3000) rfl,
    decodeCmd_encode (i := .lifter .env true 0x18 0x3000 0x4000) rfl, decodeCmd_encode (i := .envrun 0 200) rfl,
    decodeCmd_encode (i := .aprun 0 200) rfl⟩

/-! ## From words that decode to the command and back (R119, R120) -/

section

variable {r : Row} (hr : r ∈ opcodeMap) (f : Fields)

include hr

/-! The fields of the command that a row makes of `f`, row by row of R117. -/

theorem opc_make : (r.make f).opc = r.opc := by
  revert r
  simp [opcodeMap, Instr.opc]

theorem prm_make : (r.make f).prm = if r.prm then f.prm else 0#32 := by
  revert r
  simp [opcodeMap, Instr.prm]

theorem src_make : (r.make f).src = if r.src then f.src else 0#32 := by
  revert r
  simp [opcodeMap, Instr.src]

theorem dst_make : (r.make f).dst = if r.dst then f.dst else 0#32 := by
  revert r
  simp [opcodeMap, Instr.dst]

end

/-- Legal FLAGS have no bit outside the row's, and WIN is not `11`, and `10` in the row of WGEN only (R114, R115). -/
theorem legal_flags {r : Row} {fl : BitVec 8} (h : flagsIllegal r fl = false) :
    fl &&& ~~~r.flags = 0#8 ∧ (fl.getLsbD 2 = true → fl.getLsbD 1 = false ∧ r.nuttall = true) := by
  simpa [flagsIllegal] using h

/-! Each flag reader gives back its bits of FLAGS (R114, R115). -/

theorem bit_sz (f : Fields) : f.sz.bit = f.flags &&& flagSz := by
  rw [show flagSz = BitVec.twoPow 8 0 from rfl, BitVec.and_twoPow, Fields.sz]
  split <;> rfl

theorem flagBit_nrm (f : Fields) : flagBit flagNrm f.nrm = f.flags &&& flagNrm := (BitVec.and_twoPow f.flags 3).symm

theorem flagBit_dcr (f : Fields) : flagBit flagDcr f.dcr = f.flags &&& flagDcr := (BitVec.and_twoPow f.flags 4).symm

theorem flagBit_slift (f : Fields) : flagBit flagSlift f.slift = f.flags &&& flagSlift :=
  (BitVec.and_twoPow f.flags 5).symm

theorem bits_win {f : Fields} (h : f.flags.getLsbD 2 = true → f.flags.getLsbD 1 = false) :
    f.win.bits = f.flags &&& flagWin := by
  rw [show flagWin = BitVec.twoPow 8 1 ||| BitVec.twoPow 8 2 from rfl, BitVec.and_or_distrib_left, BitVec.and_twoPow,
    BitVec.and_twoPow, Fields.win]
  split_ifs <;> simp_all <;> rfl

theorem flags_make {r : Row} (hr : r ∈ opcodeMap) {f : Fields} (h : flagsIllegal r f.flags = false) :
    (r.make f).flags = f.flags &&& r.flags := by
  have hwin : f.win.bits = f.flags &&& flagWin := bits_win fun h2 => ((legal_flags h).2 h2).1
  clear h
  revert r
  simp [opcodeMap, Instr.flags, BitVec.and_or_distrib_left, bit_sz, hwin, flagBit_nrm, flagBit_dcr, flagBit_slift]

theorem wf_make {r : Row} (hr : r ∈ opcodeMap) {f : Fields} (h : flagsIllegal r f.flags = false) :
    (r.make f).wf = true := by
  have hwin : r.nuttall = false → f.win ≠ .nuttall := by
    have hbit := (legal_flags h).2
    rw [Fields.win]
    split_ifs <;> simp_all
  clear h
  revert r
  simp [opcodeMap, Instr.wf]

theorem fieldsOfInstr_make {r : Row} (hr : r ∈ opcodeMap) {f : Fields} (hopc : r.opc = f.opc) (h : Passes r f) :
    fieldsOfInstr (r.make f) = f := by
  obtain ⟨hrsv, hlegal, hprm, hsrc, hdst⟩ := h
  have hflags : f.flags &&& r.flags = f.flags :=
    calc f.flags &&& r.flags
      _ = f.flags &&& r.flags ||| f.flags &&& ~~~r.flags := by rw [(legal_flags hlegal).1, BitVec.or_zero]
      _ = f.flags := by rw [← BitVec.and_or_distrib_left, BitVec.or_not_self, BitVec.and_allOnes]
  have operand : ∀ {used : Bool} {x : Half}, (used || x == 0#32) = true → (if used then x else 0#32) = x := by
    intro used x hx
    cases used
    · exact (eq_of_beq hx).symm
    · rfl
  rw [fieldsOfInstr, opc_make hr, flags_make hr hlegal, prm_make hr, src_make hr, dst_make hr, hopc, hflags, ← hrsv,
    operand hprm, operand hsrc, operand hdst]

/-- Settles O2: the words' row accepts their fields, and these are the fields of the command it makes of them. -/
theorem encodesWhatItDecodes : Obligations.EncodesWhatItDecodes := by
  intro w0 w1 i h
  obtain ⟨r, hr, hopc, hpass, rfl⟩ := decodeCmd_eq_ok h
  exact ⟨wf_make hr hpass.flags, encode_eq_of_fields (fieldsOfInstr_make hr hopc hpass)⟩

/-! ## The tests of R119 on the numbers -/

theorem opc_toNat (w0 w1 : Word) : (fieldsOf w0 w1).opc.toNat = w0.toNat % 2 ^ 8 := by
  simp [fieldsOf, BitVec.extractLsb'_toNat]

theorem rsv_toNat (w0 w1 : Word) : (fieldsOf w0 w1).rsv.toNat = w0.toNat / 2 ^ 16 % 2 ^ 16 := by
  simp [fieldsOf, BitVec.extractLsb'_toNat, Nat.shiftRight_eq_div_pow]

theorem prm_toNat (w0 w1 : Word) : (fieldsOf w0 w1).prm.toNat = w0.toNat / 2 ^ 32 := by
  simp only [fieldsOf, BitVec.extractLsb'_toNat, Nat.shiftRight_eq_div_pow]
  omega

theorem src_toNat (w0 w1 : Word) : (fieldsOf w0 w1).src.toNat = w1.toNat % 2 ^ 32 := by
  simp [fieldsOf, BitVec.extractLsb'_toNat]

theorem dst_toNat (w0 w1 : Word) : (fieldsOf w0 w1).dst.toNat = w1.toNat / 2 ^ 32 := by
  simp only [fieldsOf, BitVec.extractLsb'_toNat, Nat.shiftRight_eq_div_pow]
  omega

theorem flags_bit (w0 w1 : Word) {k : Nat} (hk : k < 8) :
    (fieldsOf w0 w1).flags.getLsbD k = decide (w0.toNat / 2 ^ (8 + k) % 2 = 1) := by
  simp [fieldsOf, hk, ← BitVec.testBit_toNat, Nat.testBit_eq_decide_div_mod_eq]

theorem field_ne_zero_iff {n : Nat} (x : BitVec n) : x ≠ 0#n ↔ x.toNat ≠ 0 := by
  rw [ne_eq, ne_eq, BitVec.toNat_eq]
  rfl

/-- Tests 4 to 6 of R119: an operand that the row has no use for must be 0. -/
theorem unused_operand_iff {used : Bool} {p : Prop} [Decidable p] {x : Half} (h : used = decide p) :
    (!used && x != 0#32) = true ↔ x.toNat ≠ 0 ∧ ¬ p := by
  simp only [h, Bool.and_eq_true, Bool.not_eq_true', decide_eq_false_iff_not, bne_iff_ne, field_ne_zero_iff, and_comm]

/-- FLAGS are illegal in a row when one of the eight bits is not the row's, or WIN is `11`, or `10` outside WGEN. -/
theorem flagsIllegal_iff {r : Row} {fl : BitVec 8} : flagsIllegal r fl = true ↔
    (∃ k < 8, fl.getLsbD k = true ∧ r.flags.getLsbD k = false) ∨
      fl.getLsbD 2 = true ∧ (fl.getLsbD 1 = true ∨ r.nuttall = false) := by
  have hmask : fl &&& ~~~r.flags ≠ 0#8 ↔ ∃ k < 8, fl.getLsbD k = true ∧ r.flags.getLsbD k = false := by
    rw [ne_eq, BitVec.eq_of_getLsbD_eq_iff, not_forall]
    refine exists_congr fun k => ?_
    by_cases hk : k < 8 <;> simp [hk, BitVec.getLsbD_not, -BitVec.getLsbD_eq_getElem]
  simp only [flagsIllegal, Bool.or_eq_true, bne_iff_ne, hmask, Bool.and_eq_true, Bool.not_eq_true']

/-- The operands that the model's rows use are those that the tests of R119 let through. -/
theorem row_operands : ∀ r ∈ opcodeMap, r.prm = decide (r.opc.toNat ∈ opcodesWith "PRM") ∧
    r.src = decide (r.opc.toNat ∈ opcodesWith "SRC") ∧ r.dst = decide (r.opc.toNat ∈ opcodesWith "DST") := by
  decide

/-- The FLAGS bits that the model's rows use are those that test 3 of R119 lets through. -/
theorem row_flags : ∀ r ∈ opcodeMap, r.flags.getLsbD 0 = decide (r.opc.toNat ∈ opcodesWith "SZ") ∧
    r.flags.getLsbD 1 = decide (r.opc.toNat ∈ opcodesWith "WIN") ∧
    r.flags.getLsbD 2 = decide (r.opc.toNat ∈ opcodesWith "WIN") ∧
    r.flags.getLsbD 3 = decide (r.opc.toNat ∈ opcodesWith "NRM") ∧
    r.flags.getLsbD 4 = decide (r.opc.toNat ∈ opcodesWith "DCR") ∧
    r.flags.getLsbD 5 = decide (r.opc.toNat ∈ opcodesWith "SLIFT") ∧
    r.flags.getLsbD 6 = false ∧ r.flags.getLsbD 7 = false ∧ r.nuttall = decide (r.opc.toNat = 0x21) := by
  decide

section

variable {w0 w1 : Word}

theorem failsTest_opcode : failsTest 1 w0.toNat w1.toNat ↔
    opcodeMap.find? (fun r => r.opc == (fieldsOf w0 w1).opc) = none := by
  have hany : opcodesWith "any" = opcodeMap.map fun r => r.opc.toNat := by decide
  simp only [failsTest, hany, ← opc_toNat w0 w1, List.mem_map, List.find?_eq_none, BitVec.toNat_inj, beq_iff_eq, not_exists,
    not_and]

theorem failsTest_reserved : failsTest 2 w0.toNat w1.toNat ↔ (fieldsOf w0 w1).rsv ≠ 0#16 := by
  rw [field_ne_zero_iff, rsv_toNat]
  rfl

variable {r : Row} (hr : r ∈ opcodeMap) (hopc : r.opc = (fieldsOf w0 w1).opc)

include hr hopc

theorem failsTest_flags : failsTest 3 w0.toNat w1.toNat ↔ flagsIllegal r (fieldsOf w0 w1).flags = true := by
  obtain ⟨hsz, hwin1, hwin2, hnrm, hdcr, hslift, hbit6, hbit7, hnuttall⟩ := row_flags r hr
  rw [hopc, opc_toNat] at hsz hwin1 hwin2 hnrm hdcr hslift hnuttall
  simp (disch := decide) only [failsTest, flagsIllegal_iff, Nat.exists_lt_succ_right, hsz, hwin1, hwin2, hnrm,
    hdcr, hslift, hbit6, hbit7, hnuttall, flags_bit, decide_eq_true_eq, decide_eq_false_iff_not, ← Nat.mod_two_ne_one]
  grind

theorem failsTest_prm : failsTest 4 w0.toNat w1.toNat ↔ (!r.prm && (fieldsOf w0 w1).prm != 0#32) = true := by
  obtain ⟨hused, _, _⟩ := row_operands r hr
  rw [unused_operand_iff hused, hopc, opc_toNat, prm_toNat]
  rfl

theorem failsTest_src : failsTest 5 w0.toNat w1.toNat ↔ (!r.src && (fieldsOf w0 w1).src != 0#32) = true := by
  obtain ⟨_, hused, _⟩ := row_operands r hr
  rw [unused_operand_iff hused, hopc, opc_toNat, src_toNat]
  rfl

theorem failsTest_dst : failsTest 6 w0.toNat w1.toNat ↔ (!r.dst && (fieldsOf w0 w1).dst != 0#32) = true := by
  obtain ⟨_, _, hused⟩ := row_operands r hr
  rw [unused_operand_iff hused, hopc, opc_toNat, dst_toNat]
  rfl

end

/-! ## The first failing test -/

/-- The decoder's answer is that of the tests of R119: a command when none fails, else the first that does. -/
def AgreesWithTests (n0 n1 : Nat) : Except Reject Instr → Prop
  | .ok _ => ∀ n, 1 ≤ n → n ≤ 6 → ¬ failsTest n n0 n1
  | .error e => 1 ≤ e.test ∧ e.test ≤ 6 ∧ failsTest e.test n0 n1 ∧ ∀ m, 1 ≤ m → m < e.test → ¬ failsTest m n0 n1

theorem check_agreesWithTests {w0 w1 : Word} {r : Row} (hr : r ∈ opcodeMap) (hopc : r.opc = (fieldsOf w0 w1).opc)
    (h1 : ¬ failsTest 1 w0.toNat w1.toNat) : AgreesWithTests w0.toNat w1.toNat (r.check (fieldsOf w0 w1)) := by
  classical
  simp only [Row.check, ← failsTest_reserved, ← failsTest_flags hr hopc, ← failsTest_prm hr hopc, ← failsTest_src hr hopc,
    ← failsTest_dst hr hopc]
  split_ifs with h2 h3 h4 h5 h6
  case neg =>
    intro n hn hn6
    interval_cases n <;> assumption
  all_goals
    refine ⟨by decide, by decide, by assumption, fun m hm hlt => ?_⟩
    simp only [Reject.test] at hlt
    interval_cases m <;> assumption

theorem decodeCmd_agreesWithTests (w0 w1 : Word) : AgreesWithTests w0.toNat w1.toNat (decodeCmd w0 w1) := by
  cases hrow : opcodeMap.find? (fun r => r.opc == (fieldsOf w0 w1).opc) with
  | none =>
    rw [decodeCmd_of_no_row hrow]
    exact ⟨by decide, by decide, failsTest_opcode.2 hrow, fun m hm hlt => absurd hlt (not_lt.2 hm)⟩
  | some r =>
    obtain ⟨hr, hopc⟩ := row_of_find hrow
    rw [decodeCmd_of_row hrow]
    exact check_agreesWithTests hr hopc fun h => by simp [failsTest_opcode.1 h] at hrow

/-- An executing command that does not decode raises E_ILLEGAL with the number of the test it fails (R119, R281). -/
theorem engineStep_illegal {s : State} {c : PendingCmd} {e : Reject} (he : s.engine = .exec c)
    (hd : decodeCmd c.w0 c.w1 = .error e) : s.engineStep = .next (s.raise ⟨.illegal, BitVec.ofNat 64 e.test⟩) := by
  simp only [State.engineStep, he, hd]

/-- Settles O3: the decoder answers as the tests on the numbers say, and the engine raises what the decoder names. -/
theorem illegalCommandsRaiseInOrder : Obligations.IllegalCommandsRaiseInOrder := by
  intro w0 w1
  have hagrees := decodeCmd_agreesWithTests w0 w1
  cases hd : decodeCmd w0 w1 with
  | ok i =>
    rw [hd] at hagrees
    exact ⟨⟨fun _ => hagrees, fun _ => ⟨i, rfl⟩⟩, fun n hn hn6 hfails => absurd hfails (hagrees n hn hn6)⟩
  | error e =>
    rw [hd] at hagrees
    obtain ⟨he1, he6, hefails, hefirst⟩ := hagrees
    refine ⟨⟨fun ⟨_, h⟩ => (nomatch h), fun hnone => absurd hefails (hnone _ he1 he6)⟩, ?_⟩
    rintro n hn hn6 hfails hfirst s c hturns hexec rfl rfl
    have htest : e.test = n :=
      le_antisymm (not_lt.1 fun hlt => hefirst n hn hlt hfails) (not_lt.1 fun hlt => hfirst _ he1 hlt hefails)
    subst htest
    exact ⟨_, (step_of_no_turn hturns).trans (engineStep_illegal hexec hd), raised_of_raise s _, State.raise_mem s _⟩

end Sys2Proof.Machine

/-! SUPPORT. FFTR, FFTI and POW (R142 to R144): the checks that the three share with their order, and the words that each
writes by the loops of the rules. -/

namespace Sys2Proof.Machine

/-! ## What the three commands share (R116, R118, R284) -/

section

variable {s : State} {sz : SizeSel} {src dst : Half} {a b : Nat} {vs : List Word} {i : Instr}

/-- The shape of the three plans: the size, the `a` words at SRC, the `b` words at DST, then the buffer `vs` at DST. -/
def State.transformPlan (s : State) (sz : SizeSel) (src dst : Half) (a b : Nat) (vs : List Word) : Check Effect := do
  s.needSize sz
  s.needRegion regionSrc src.toNat a
  s.needRegion regionDst dst.toNat b
  pure (.buffer dst.toNat vs)

theorem planOf_fftr : planOf (.fftr sz src dst) s = .ofCheck (s.transformPlan sz src dst (2 ^ s.sizeExp sz)
    (2 ^ s.sizeExp sz + 2) (wordsOfCpx (fftReal s.cfg.log2nMax (s.sizeExp sz) (s.srcWords src (2 ^ s.sizeExp sz))))) :=
  rfl

theorem planOf_ffti : planOf (.ffti sz src dst) s = .ofCheck (s.transformPlan sz src dst (2 ^ s.sizeExp sz + 2)
    (2 ^ s.sizeExp sz) (fftInverse s.cfg.log2nMax (s.sizeExp sz)
      (cpxOfWords (sizeB (s.sizeExp sz)) (s.srcWords src (2 ^ s.sizeExp sz + 2))))) :=
  rfl

theorem planOf_pow : planOf (.pow sz src dst) s = .ofCheck (s.transformPlan sz src dst (2 ^ s.sizeExp sz + 2)
    (2 ^ s.sizeExp sz / 2 + 1)
    (powerSpectrum (cpxOfWords (sizeB (s.sizeExp sz)) (s.srcWords src (2 ^ s.sizeExp sz + 2))))) :=
  rfl

/-- When every check passes, such a command completes with its buffer. -/
theorem completesWith_of_transformPlan {v : Nat → Word} (h : planOf i s = .ofCheck (s.transformPlan sz src dst a b vs))
    (hsize : SizeOk s sz) (hsrc : src.toNat + a ≤ s.cfg.dmemWords) (hdst : dst.toNat + b ≤ s.cfg.dmemWords)
    (hl : vs.length = b) (hv : ∀ k < b, vs.getD k f0p0 = v k) : CompletesWith i s dst.toNat b v := by
  refine completesWith_of (vs := vs) ?_ hl hv
  rw [h, State.transformPlan, needSize_ok hsize, ok_bind, needRegion_ok hsrc, ok_bind, needRegion_ok hdst]
  rfl

theorem raises_size_of_transformPlan (h : planOf i s = .ofCheck (s.transformPlan sz src dst a b vs))
    (hsize : ¬ SizeOk s sz) : RaisesClean i s .config (BitVec.ofNat 64 (sizeOffset sz)) :=
  raisesClean_of (by rw [h, State.transformPlan, needSize_error hsize, error_bind, ofCheck_error])

theorem raises_src_of_transformPlan (h : planOf i s = .ofCheck (s.transformPlan sz src dst a b vs))
    (hsize : SizeOk s sz) (hsrc : s.cfg.dmemWords < src.toNat + a) : RaisesClean i s .addr 1 :=
  raisesClean_of (by
    rw [h, State.transformPlan, needSize_ok hsize, ok_bind, needRegion_error hsrc, error_bind, ofCheck_error]
    rfl)

theorem raises_dst_of_transformPlan (h : planOf i s = .ofCheck (s.transformPlan sz src dst a b vs))
    (hsize : SizeOk s sz) (hsrc : src.toNat + a ≤ s.cfg.dmemWords) (hdst : s.cfg.dmemWords < dst.toNat + b) :
    RaisesClean i s .addr 2 :=
  raisesClean_of (by
    rw [h, State.transformPlan, needSize_ok hsize, ok_bind, needRegion_ok hsrc, ok_bind, needRegion_error hdst,
      error_bind, ofCheck_error]
    rfl)

end

/-- Settles O32: the three plans have one shape, and each check of it raises its own error. -/
theorem transformErrors : Obligations.TransformErrors := by
  intro sz src dst s
  refine ⟨by cases sz <;> rfl, fun i a b hi => ?_⟩
  have hplan : ∃ vs, planOf i s = .ofCheck (s.transformPlan sz src dst a b vs) := by
    simp only [List.mem_cons, Prod.mk.injEq, List.not_mem_nil, or_false] at hi
    rcases hi with ⟨rfl, rfl, rfl⟩ | ⟨rfl, rfl, rfl⟩ | ⟨rfl, rfl, rfl⟩
    · exact ⟨_, planOf_fftr⟩
    · exact ⟨_, planOf_ffti⟩
    · exact ⟨_, planOf_pow⟩
  obtain ⟨vs, h⟩ := hplan
  refine ⟨fun hsize => ?_, raises_src_of_transformPlan h, raises_dst_of_transformPlan h⟩
  have hraise := raises_size_of_transformPlan h hsize
  cases sz <;> exact hraise

/-! ## The buffers (R18, R142 to R144) -/

/-- A legal size is even (R8, R116). -/
theorem two_mul_half_size {s : State} {sz : SizeSel} (hlegal : s.cfg.Legal) (hsize : SizeOk s sz) :
    2 * (2 ^ s.sizeExp sz / 2) = 2 ^ s.sizeExp sz := by
  obtain ⟨hmin, -⟩ := hlegal
  exact two_half_le (le_trans (by omega) hsize.1)

/-- Bin `k` of the `n + 2` interleaved words at SRC (R18). -/
theorem getD_srcBins {s : State} {src : Half} {n k : Nat} (hk : k ≤ n / 2) :
    (cpxOfWords (n / 2 + 1) (s.srcWords src (n + 2))).getD k cZero =
      ⟨s.cmdRead tagSrc (src.toNat + 2 * k), s.cmdRead tagSrc (src.toNat + (2 * k + 1))⟩ := by
  rw [getD_cpxOfWords (by omega), getD_srcWords (by omega), getD_srcWords (by omega)]

/-- Settles O17: word `k` of the interleaved buffer is a part of bin `k / 2`, which `getD_fftReal` gives by the loops. -/
theorem fftrCompletes : Obligations.FftrCompletes := by
  intro sz src dst s hlegal hsize hsrc hdst
  have heven := two_mul_half_size hlegal hsize
  refine completesWith_of_transformPlan planOf_fftr hsize hsrc hdst ?_ fun k hk => ?_
  · rw [length_wordsOfCpx, length_fftReal]
    omega
  · rw [getD_default (e := 0) (by rw [length_wordsOfCpx, length_fftReal]; omega),
      getD_wordsOfCpx _ _ (by rw [length_fftReal]; omega),
      getD_fftReal (length_srcWords s src _) (fun n hn => getD_srcWords hn _) (by omega)]

/-- Settles O18: `getD_fftInverse` on the bins at SRC. -/
theorem fftiCompletes : Obligations.FftiCompletes := fun _ _ _ _ _ hsize hsrc hdst =>
  completesWith_of_transformPlan planOf_ffti hsize hsrc hdst length_fftInverse fun _ hk =>
    getD_fftInverse (fun _ hn => getD_srcBins hn) hk

/-- Settles O19: each word is the power of the bin at SRC with its index. -/
theorem powCompletes : Obligations.PowCompletes := by
  intro sz src dst s _ hsize hsrc hdst
  refine completesWith_of_transformPlan planOf_pow hsize hsrc hdst ?_ fun k hk => ?_
  · rw [powerSpectrum, List.length_map, length_cpxOfWords]
  · rw [powerSpectrum, getD_map _ _ _ cZero _ (by rw [length_cpxOfWords]; exact hk), getD_srcBins (by omega)]
    rfl

end Sys2Proof.Machine

/-! SUPPORT. WSEG and WGEN (R162 to R167): a command as a chain of checks, the checks of the two commands in their order, and
the words that each writes. -/

namespace Sys2Proof.Machine

/-! ## A command as a chain of checks (R289) -/

section

variable {α : Type} {i : Instr} {s : State} {x : Check α} {f : α → Check Effect}

/-- A check that passes leaves the command at the next one. -/
theorem planOf_of_check_ok (h : planOf i s = .ofCheck (x >>= f)) {a : α} (hx : x = .ok a) :
    planOf i s = .ofCheck (f a) := by
  rw [h, hx, ok_bind]

/-- The first check that fails is the error of the command. -/
theorem raisesClean_of_check_error (h : planOf i s = .ofCheck (x >>= f)) {c : ErrCode} {info : Word}
    (hx : x = .error ⟨c, info⟩) : RaisesClean i s c info :=
  raisesClean_of (by rw [h, hx, error_bind, ofCheck_error])

end

/-- The checks of FS and of the size are the rows of their table (R282). -/
theorem needFs_needSize_eq (s : State) (sz : SizeSel) :
    (s.needFs >>= fun _ => s.needSize sz) = checkRows .config [fsRow s, sizeRow s sz] := by
  rw [needFs_row, needSize_row, ← checkRows_last .config (sizeRow s sz).1]
  exact (checkRows_cons _ _ _ _).symm

/-! ## WGEN (R167) -/

/-- The check of `L`. -/
def State.needWgenLen (s : State) (len : Nat) : Check Unit :=
  require (1 ≤ len && len ≤ 2 ^ s.cfg.log2nMax) .param len

theorem needWgenLen_ok {s : State} {len : Nat} (hmin : 1 ≤ len) (hmax : len ≤ 2 ^ s.cfg.log2nMax) :
    s.needWgenLen len = .ok () :=
  require_eq_ok.2 (by rw [decide_eq_true hmin, decide_eq_true hmax]; rfl)

/-- An `L` out of `1 .. NMAX` is its own ERRINFO. -/
theorem needWgenLen_error {s : State} {len : Word} (h : len.toNat < 1 ∨ 2 ^ s.cfg.log2nMax < len.toNat) :
    s.needWgenLen len.toNat = .error ⟨.param, len⟩ := by
  refine require_eq_error.2 ⟨?_, by rw [BitVec.ofNat_toNat, BitVec.setWidth_eq]⟩
  rw [Bool.and_eq_false_iff, decide_eq_false_iff_not, decide_eq_false_iff_not]
  omega

/-- WGEN's checks in their order: the parameter block, `L`, the DST region. -/
theorem planOf_wgen (win : Win) (prm dst : Half) (s : State) :
    planOf (.wgen win prm dst) s = .ofCheck (do
      s.needRegion regionPrm prm.toNat 1
      s.needWgenLen (s.cmdRead tagPrm prm.toNat).toNat
      s.needRegion regionDst dst.toNat (s.cmdRead tagPrm prm.toNat).toNat
      pure (.buffer dst.toNat (genWindow s.cfg.fpMode win (s.cmdRead tagPrm prm.toNat).toNat))) := rfl

/-- Point `t` of the window; a window of one point is 1.0. -/
theorem getD_genWindow {m : FpMode} {win : Win} {len t : Nat} (ht : t < len) :
    (genWindow m win len).getD t f0p0 = if len = 1 then f1 else genValue m win (genX len t) := by
  split
  case isTrue hone =>
    subst hone
    obtain rfl : t = 0 := by omega
    rw [genWindow_one, List.getD_cons_zero]
  case isFalse hmore => rw [genWindow_ne_one _ _ hmore, getD_map_range _ _ _ _ ht]

/-- Settles O35: each check of `planOf_wgen` raises its own error when those before it pass. -/
theorem wgenErrors : Obligations.WgenErrors := by
  intro win prm dst s
  have hplan := planOf_wgen win prm dst s
  refine ⟨fun hprm => raisesClean_of_check_error hplan (needRegion_error hprm), fun hprm => ?_⟩
  have hlen := planOf_of_check_ok hplan (needRegion_ok hprm)
  exact ⟨fun hbad => raisesClean_of_check_error hlen (needWgenLen_error hbad), fun hmin hmax hdst =>
    raisesClean_of_check_error (planOf_of_check_ok hlen (needWgenLen_ok hmin hmax)) (needRegion_error hdst)⟩

/-- Settles O21: every check of `planOf_wgen` passes, and point `t` of the window is that of `getD_genWindow`. -/
theorem wgenCompletes : Obligations.WgenCompletes := by
  rintro win prm dst s len hprm rfl hmin hmax hdst
  have hlen := planOf_of_check_ok (planOf_wgen win prm dst s) (needRegion_ok hprm)
  have hwrite := planOf_of_check_ok (planOf_of_check_ok hlen (needWgenLen_ok hmin hmax)) (needRegion_ok hdst)
  refine completesWith_of hwrite (length_genWindow _ _ _) fun t ht => ?_
  rw [getD_genWindow ht]
  cases win <;> rfl

/-! ## The errors of a segment (R161, R162) -/

section

variable {m : FpMode} {fs : Word} {l : Nat} {x : Int → Word} {centre f0 r : Word} {win : Win} {nrm dcr : Bool}

/-- The lowest sample under the window that is not finite is the error of the samples, with its index (R161). -/
theorem samplesFinite_error {h k : Nat} (hk : k < 2 * h + 1)
    (hbefore : ∀ k' < k, isFinite (x (winOrigin centre + (k' : Int) - (h : Int))) = true)
    (hbad : isFinite (x (winOrigin centre + (k : Int) - (h : Int))) = false) :
    samplesFinite x (winIndices centre h) =
      .error ⟨.nonfinite, BitVec.ofNat 64 (winOrigin centre + (k : Int) - (h : Int)).toNat⟩ := by
  have hfind : (winIndices centre h).find? (fun j => !isFinite (x j)) =
      some (winOrigin centre + (k : Int) - (h : Int)) := by
    rw [winIndices, List.find?_map, List.find?_range_eq_some.2 ⟨?_, List.mem_range.2 hk, fun k' hk' => ?_⟩]
    · rfl
    · simpa using hbad
    · simpa using hbefore k' hk'
  rw [samplesFinite, hfind]

/-- A half-length that is not finite is a window that does not fit, of no stated length (R162). -/
theorem segment_error_of_not_finite (h : isFinite (winHx fs r f0) = false) :
    segment m fs l x centre f0 r win nrm dcr = .error ⟨.winlen, BitVec.ofNat 64 (2 ^ 64 - 1)⟩ := by
  rw [segment, require_bind_not (by rw [winFits, h, Bool.false_and]), winLenInfo, if_neg (by rw [h]; decide)]

/-- A window longer than the transform does not fit, and its length is ERRINFO (R162). -/
theorem segment_error_of_long (hfin : isFinite (winHx fs r f0) = true) (h : 2 ^ l < winLen fs r f0) :
    segment m fs l x centre f0 r win nrm dcr =
      .error ⟨.winlen, BitVec.ofNat 64 (min (winLen fs r f0) (2 ^ 64 - 1))⟩ := by
  have hlong : winFits fs r f0 (2 ^ l) = false := by rw [winFits, decide_eq_false (not_le.2 h), Bool.and_false]
  rw [segment, require_bind_not hlong, winLenInfo, if_pos hfin]

/-- When the window fits, what remains to fail is a sample under it (R161). -/
theorem segment_error_of_sample (hfin : isFinite (winHx fs r f0) = true) (hfit : winLen fs r f0 ≤ 2 ^ l) {e : Raise}
    (h : samplesFinite x (winIndices centre (winH fs r f0)) = .error e) :
    segment m fs l x centre f0 r win nrm dcr = .error e := by
  have hfits : winFits fs r f0 (2 ^ l) = true := by rw [winFits, hfin, decide_eq_true hfit]; rfl
  rw [segment, require_bind_of hfits, h, error_bind]

end

/-! ## WSEG (R162 to R166) -/

section

variable {sz : SizeSel} {win : Win} {nrm dcr : Bool} {prm dst : Half} {s : State}

/-- What is left of WSEG when its parameters are legal: the segment, written at DST. -/
def State.wsegSegment (s : State) (sz : SizeSel) (win : Win) (nrm dcr : Bool) (prm dst : Half) : Check Effect := do
  let v ← segment s.cfg.fpMode s.csr.fsF (s.sizeExp sz) (s.sample tagX) (s.cmdRead tagPrm prm.toNat)
    (s.cmdRead tagPrm (prm.toNat + 1)) (s.cmdRead tagPrm (prm.toNat + 2)) win nrm dcr
  pure (.buffer dst.toNat v)

/-- What is left of WSEG when its regions are valid. -/
def State.wsegParams (s : State) (sz : SizeSel) (win : Win) (nrm dcr : Bool) (prm dst : Half) : Check Effect := do
  needFinite (s.cmdRead tagPrm prm.toNat) 0
  needFinite (s.cmdRead tagPrm (prm.toNat + 1)) 1
  needFinite (s.cmdRead tagPrm (prm.toNat + 2)) 2
  needPositive (s.cmdRead tagPrm (prm.toNat + 1)) 1
  needPositive (s.cmdRead tagPrm (prm.toNat + 2)) 2
  s.wsegSegment sz win nrm dcr prm dst

/-- What is left of WSEG when FS and the size are legal. -/
def State.wsegRegions (s : State) (sz : SizeSel) (win : Win) (nrm dcr : Bool) (prm dst : Half) : Check Effect := do
  s.needRegion regionPrm prm.toNat 3
  s.needRegion regionX s.csr.xBase.toNat s.csr.xLen.toNat
  s.needRegion regionDst dst.toNat (2 ^ s.sizeExp sz)
  s.wsegParams sz win nrm dcr prm dst

/-- WSEG's register checks come first, but for the window that decoding does not admit (R119, R166). -/
theorem planOf_wseg (hwin : win ≠ .nuttall) : planOf (.wseg sz win nrm dcr prm dst) s =
    .ofCheck (checkRows .config [fsRow s, sizeRow s sz] >>= fun _ => s.wsegRegions sz win nrm dcr prm dst) := by
  rw [← needFs_needSize_eq, bind_assoc]
  exact congrArg Verdict.ofCheck (require_bind_of (bne_iff_ne.2 hwin))

/-- Legal registers leave WSEG at its regions. -/
theorem planOf_wseg_of_config (hwin : win ≠ .nuttall) (hfs : FsOk s) (hsize : SizeOk s sz) :
    planOf (.wseg sz win nrm dcr prm dst) s = .ofCheck (s.wsegRegions sz win nrm dcr prm dst) :=
  planOf_of_check_ok (planOf_wseg hwin) (by rw [← needFs_needSize_eq, needFs_ok hfs, ok_bind, needSize_ok hsize])

/-- Valid regions leave WSEG at its parameters. -/
theorem planOf_wseg_of_regions
    (h : planOf (.wseg sz win nrm dcr prm dst) s = .ofCheck (s.wsegRegions sz win nrm dcr prm dst))
    (hprm : prm.toNat + 3 ≤ s.cfg.dmemWords) (hx : s.csr.xBase.toNat + s.csr.xLen.toNat ≤ s.cfg.dmemWords)
    (hdst : dst.toNat + 2 ^ s.sizeExp sz ≤ s.cfg.dmemWords) :
    planOf (.wseg sz win nrm dcr prm dst) s = .ofCheck (s.wsegParams sz win nrm dcr prm dst) :=
  planOf_of_check_ok (planOf_of_check_ok (planOf_of_check_ok h (needRegion_ok hprm)) (needRegion_ok hx)) (needRegion_ok hdst)

/-- Legal parameters, all finite and f0 and the ratio positive, leave WSEG at its segment. -/
theorem planOf_wseg_of_params (h : planOf (.wseg sz win nrm dcr prm dst) s = .ofCheck (s.wsegParams sz win nrm dcr prm dst))
    (hcentre : isFinite (s.cmdRead tagPrm prm.toNat) = true) (hf0 : Positive (s.cmdRead tagPrm (prm.toNat + 1)))
    (hr : Positive (s.cmdRead tagPrm (prm.toNat + 2))) :
    planOf (.wseg sz win nrm dcr prm dst) s = .ofCheck (s.wsegSegment sz win nrm dcr prm dst) := by
  obtain ⟨hf0fin, hf0pos⟩ := hf0
  obtain ⟨hrfin, hrpos⟩ := hr
  rw [h, State.wsegParams, needFinite_ok hcentre, ok_bind, needFinite_ok hf0fin, ok_bind, needFinite_ok hrfin, ok_bind,
    needPositive_ok hf0pos, ok_bind, needPositive_ok hrpos, ok_bind]

end

/-- Settles O34: the checks of WSEG one after another, each with its error when those before it pass. -/
theorem wsegErrors : Obligations.WsegErrors := by
  intro sz win nrm dcr prm dst s
  refine ⟨fun _ => rfl, fun hwin => ⟨fun _ hrow => raisesClean_of_check_error (planOf_wseg hwin) (checkRows_error hrow),
    fun hfs hsize => ?_⟩⟩
  have atPrm := planOf_wseg_of_config (nrm := nrm) (dcr := dcr) (prm := prm) (dst := dst) hwin hfs hsize
  refine ⟨fun hprm => raisesClean_of_check_error atPrm (needRegion_error hprm), fun hprm => ?_⟩
  have atX := planOf_of_check_ok atPrm (needRegion_ok hprm)
  refine ⟨fun hx => raisesClean_of_check_error atX (needRegion_error hx), fun hx => ?_⟩
  have atDst := planOf_of_check_ok atX (needRegion_ok hx)
  refine ⟨fun hdst => raisesClean_of_check_error atDst (needRegion_error hdst), fun hdst => ?_⟩
  have atCentre := planOf_of_check_ok atDst (needRegion_ok hdst)
  have atF0 := fun hcentre => planOf_of_check_ok atCentre (needFinite_ok hcentre)
  have atR := fun hcentre hf0 => planOf_of_check_ok (atF0 hcentre) (needFinite_ok hf0)
  refine ⟨fun hcentre => raisesClean_of_check_error atCentre (needFinite_error hcentre),
    fun hcentre hf0 => raisesClean_of_check_error (atF0 hcentre) (needFinite_error hf0),
    fun hcentre hf0 hr => raisesClean_of_check_error (atR hcentre hf0) (needFinite_error hr), fun hcentre hf0 hr => ?_⟩
  have atF0Sign := planOf_of_check_ok (atR hcentre hf0) (needFinite_ok hr)
  have atRSign := fun hf0pos => planOf_of_check_ok atF0Sign (needPositive_ok hf0pos)
  refine ⟨fun hf0pos => raisesClean_of_check_error atF0Sign (needPositive_error hf0pos),
    fun hf0pos hrpos => raisesClean_of_check_error (atRSign hf0pos) (needPositive_error hrpos), fun hf0pos hrpos => ?_⟩
  have atSegment := planOf_of_check_ok (atRSign hf0pos) (needPositive_ok hrpos)
  exact ⟨fun hfin => raisesClean_of_check_error atSegment (segment_error_of_not_finite hfin),
    fun hfin hlong => raisesClean_of_check_error atSegment (segment_error_of_long hfin hlong),
    fun hfin hfit _ hk hbefore hbad => raisesClean_of_check_error atSegment
      (segment_error_of_sample hfin hfit (samplesFinite_error hk hbefore hbad))⟩

/-- Settles O20: every check of WSEG passes, and the words are those of `segment_ok`. -/
theorem wsegCompletes : Obligations.WsegCompletes := by
  intro sz win nrm dcr prm dst s hwin hfs hsize hprm hx hdst hcentre hf0 hr hsegment
  obtain ⟨v, hv, hlength, hword⟩ := segment_ok (m := s.cfg.fpMode) (win := win) (nrm := nrm) (dcr := dcr) hsegment
  have hregions := planOf_wseg_of_config (nrm := nrm) (dcr := dcr) (prm := prm) (dst := dst) hwin hfs hsize
  have hparams := planOf_wseg_of_regions hregions hprm hx hdst
  have hplan := planOf_wseg_of_params hparams hcentre hf0 hr
  exact completesWith_of (planOf_of_check_ok hplan hv) hlength hword

end Sys2Proof.Machine

/-! SUPPORT. ENVRUN and APRUN as one kind of command (R185 to R188, R225 to R228): phase 1, the frame it computes for each
index of its range, and what becomes of the rows when it completes or raises an error. -/

namespace Sys2Proof.Machine

/-! ## The registers that phase 1 leaves legal (R186, R226, R282) -/

theorem positive_iff {x : Word} : (isFinite x && flt f0p0 x) = true ↔ Positive x := Bool.and_eq_true_iff

theorem sizeExp_le {s : State} {sz : SizeSel} (hlegal : s.cfg.Legal) (hsize : SizeOk s sz) : s.sizeExp sz ≤ 24 :=
  hsize.2.trans hlegal.2.2.1

/-- What the envelope's computations need of the registers. -/
structure EnvRegisters (s : State) : Prop where
  size : SizeOk s .env
  floor : Positive s.csr.f0Floor
  default : Positive s.csr.defaultF0
  ratio : Positive s.csr.envLsmRatio
  eps : Positive s.csr.envEps

theorem EnvReady.registers {s : State} {first count : Nat} (h : EnvReady s first count) : EnvRegisters s := by
  have hrows := h.config
  simp only [envConfigRows, List.forall_mem_cons, positive_iff, decide_eq_true_eq] at hrows
  obtain ⟨-, -, hsize, hfloor, hdefault, -, hratio, heps, -⟩ := hrows
  exact ⟨hsize, hfloor, hdefault, hratio, heps⟩

/-- What the aperiodicity's computations need of them. -/
structure ApRegisters (s : State) : Prop where
  size : SizeOk s .ap
  floor : Positive s.csr.f0Floor
  default : Positive s.csr.defaultF0
  bands : bandsLegal s.csr.fsF s.csr.log2nAp.toNat = true

theorem ApReady.registers {s : State} {first count : Nat} (h : ApReady s first count) : ApRegisters s := by
  have hrows := h.config
  simp only [apConfigRows, List.forall_mem_cons, positive_iff, decide_eq_true_eq, bandsLegal_spec] at hrows
  obtain ⟨-, -, -, hsize, hfloor, hdefault, -, -, -, -, -, -, hbands, -⟩ := hrows
  exact ⟨hsize, hfloor, hdefault, hbands⟩

theorem frameF0_sign {s : State} (hfloor : Positive s.csr.f0Floor) (hdefault : Positive s.csr.defaultF0) (i : Nat) :
    fNeg (frameF0 s i) = false :=
  fNeg_of_pos (effF0_pos hfloor.2 hdefault.2 _)

/-! ## What a frame engine is -/

/-- What the frames of a range come to. -/
abbrev frameOuts (compute : Nat → Check (List Word)) (first count : Nat) : List FrameOut :=
  (frameRange first count).map fun f => .ofCheck (compute f)

/-- Command `i` is a frame engine over `count` frames from `first` on: phase 1 is `one`, which passes when `ready`; phase 2
computes `compute f` for frame `f`, whose checks are `checks f` and whose values are `row f`, and writes it as row `f` of the
matrix at `base`. -/
structure FrameEngine (i : Instr) (s : State) (base : Word) (first count : Nat) (ready : Prop)
    (checks : Nat → List (Prop × ErrCode)) (row : Nat → Nat → Word) (one : Check Unit)
    (compute : Nat → Check (List Word)) : Prop where
  plan : planOf i s = phases one (phase2 base.toNat s.csr.outCols.toNat first (frameOuts compute first count))
  phase1 : one = .ok () ↔ ready
  length : ready → ∀ f v, compute f = .ok v → v.length = s.csr.outCols.toNat
  value : s.cfg.Legal → ready → ∀ f v, compute f = .ok v → ∀ k < s.csr.outCols.toNat, v.getD k f0p0 = row f k
  passes : s.cfg.Legal → ready → ∀ f, (∀ c ∈ checks f, c.1) → (FrameOut.ofCheck (compute f)).err = none
  fails : s.cfg.Legal → ready → ∀ f e, FirstFails (checks f) e → (FrameOut.ofCheck (compute f)).err = some e

theorem all_isFinite_iff {v : List Word} {n : Nat} {g : Nat → Word} (hl : v.length = n + 1)
    (hv : ∀ k ≤ n, v.getD k f0p0 = g k) : v.all isFinite = true ↔ ∀ k ≤ n, isFinite (g k) = true := by
  rw [List.all_eq_true, List.forall_mem_iff_getElem]
  refine ⟨fun h k hk => ?_, fun h k hk => ?_⟩
  · rw [← hv k hk, List.getD_eq_getElem _ _ (by omega)]
    exact h k (by omega)
  · rw [← List.getD_eq_getElem _ f0p0 hk, hv k (by omega)]
    exact h k (by omega)

/-- A segment whose checks pass can be extracted. -/
theorem segmentOk_of_checks {fs : Word} {l : Nat} {x : Int → Word} {centre f0 r : Word}
    (h : ∀ c ∈ segmentChecks fs l x centre f0 r, c.1) : SegmentOk fs l x centre f0 r := by
  simp only [segmentChecks, List.forall_mem_cons] at h
  obtain ⟨hfit, hsamples, -⟩ := h
  exact ⟨hfit, hsamples⟩

/-- The values of a row that ENVRUN computes are those of R187. -/
theorem envRow_values {s : State} (hlegal : s.cfg.Legal) (h : EnvRegisters s) {f : Nat} {v : List Word}
    (hv : s.envRow f = .ok v) : ∀ k ≤ 2 ^ s.csr.log2nEnv.toNat / 2, v.getD k f0p0 = loopEnvRow s f k := by
  have hl : s.csr.log2nEnv.toNat ≤ 24 := sizeExp_le hlegal h.size
  have hf0 := frameF0_sign h.floor h.default f
  have hratio := fNeg_of_pos h.ratio.2
  have hpassed := (envRow_meets hl hf0 hratio).passed hv
  simp only [List.forall_mem_append, List.forall_mem_singleton] at hpassed
  obtain ⟨⟨⟨hsegment, hdc⟩, hsmooth⟩, -⟩ := hpassed
  obtain ⟨v', hv', -, hvalue⟩ := envRow_ok hl hf0 hratio (segmentOk_of_checks hsegment) hdc hsmooth
  cases hv.symm.trans hv'
  exact hvalue

/-- One window ratio of a voiced frame whose checks pass meets no error. -/
theorem apBandOk_of_checks {s : State} {i seg : Nat} {r : Word} (h : ∀ c ∈ apRatioChecks s i seg r, c.1) :
    ApBandOk s i seg r ∧ DcFits s.csr.fsF s.csr.log2nAp.toNat (frameF0 s i) ∧
      SmoothFits s.csr.fsF s.csr.log2nAp.toNat (frameF0 s i) ∧
      SmoothFits s.csr.fsF s.csr.log2nAp.toNat (fdiv (frameF0 s i) f2) := by
  simp only [apRatioChecks, List.forall_mem_append, List.forall_mem_cons] at h
  obtain ⟨⟨⟨⟨hbefore, hafter⟩, hdc, -⟩, hcentred⟩, hsmooth, hhalf, -⟩ := h
  exact ⟨⟨segmentOk_of_checks hbefore, segmentOk_of_checks hafter, segmentOk_of_checks hcentred⟩, hdc, hsmooth, hhalf⟩

/-- The values of a row that APRUN computes are those of R227. -/
theorem apRow_values {s : State} (hlegal : s.cfg.Legal) (h : ApRegisters s) {f : Nat} {v : List Word}
    (hv : s.apRow f = .ok v) : ∀ k ≤ 2 ^ s.csr.log2nEnv.toNat / 2, v.getD k f0p0 = loopApRow s f k := by
  have hl : s.csr.log2nAp.toNat ≤ 24 := sizeExp_le hlegal h.size
  have hf0 := frameF0_sign h.floor h.default f
  obtain ⟨hgate, hvoiced⟩ := List.forall_mem_append.1 ((apRow_meets hl hf0 h.bands).passed hv)
  obtain ⟨v', hv', -, hvalue⟩ := apRow_ok hl hf0 h.bands (segmentOk_of_checks hgate) fun hv => by
    rw [if_pos hv, List.forall_mem_append, List.forall_mem_append] at hvoiced
    obtain ⟨⟨hshort, hmid⟩, hlong⟩ := hvoiced
    obtain ⟨hbands, hfits⟩ := apBandOk_of_checks hshort
    exact ⟨hbands, (apBandOk_of_checks hmid).1, (apBandOk_of_checks hlong).1, hfits⟩
  cases hv.symm.trans hv'
  exact hvalue

/-- ENVRUN is a frame engine (R185 to R188). -/
theorem frameEngine_envrun (first count : Half) (s : State) :
    FrameEngine (.envrun first count) s s.csr.envBase first.toNat count.toNat (EnvReady s first.toNat count.toNat)
      (envFrameChecks s) (loopEnvRow s) (s.envPhase1 first.toNat count.toNat) s.envRow := by
  have herr : s.cfg.Legal → EnvReady s first.toNat count.toNat → ∀ f, _ := fun hlegal hready f =>
    ofCheck_err (envRow_meets (s := s) (i := f) (sizeExp_le hlegal hready.registers.size)
      (frameF0_sign hready.registers.floor hready.registers.default f) (fNeg_of_pos hready.registers.ratio.2))
      fun _ hv => all_isFinite_iff (length_envRow hv) (envRow_values hlegal hready.registers hv)
  exact {
    plan := rfl
    phase1 := envPhase1_ok
    length := fun hready f v hv => by rw [length_envRow hv, hready.frames.cols]
    value := fun hlegal hready f v hv k hk =>
      envRow_values hlegal hready.registers hv k (by rw [hready.frames.cols] at hk; omega)
    passes := fun hlegal hready f => (herr hlegal hready f).1
    fails := fun hlegal hready f => (herr hlegal hready f).2 }

/-- APRUN is a frame engine (R225 to R228). -/
theorem frameEngine_aprun (first count : Half) (s : State) :
    FrameEngine (.aprun first count) s s.csr.apBase first.toNat count.toNat (ApReady s first.toNat count.toNat)
      (apFrameChecks s) (loopApRow s) (s.apPhase1 first.toNat count.toNat) s.apRow := by
  have herr : s.cfg.Legal → ApReady s first.toNat count.toNat → ∀ f, _ := fun hlegal hready f =>
    ofCheck_err (apRow_meets (s := s) (i := f) (sizeExp_le hlegal hready.registers.size)
      (frameF0_sign hready.registers.floor hready.registers.default f) hready.registers.bands)
      fun _ hv => all_isFinite_iff (length_apRow hv) (apRow_values hlegal hready.registers hv)
  exact {
    plan := rfl
    phase1 := apPhase1_ok
    length := fun hready f v hv => by rw [length_apRow hv, hready.frames.cols]
    value := fun hlegal hready f v hv k hk =>
      apRow_values hlegal hready.registers hv k (by rw [hready.frames.cols] at hk; omega)
    passes := fun hlegal hready f => (herr hlegal hready f).1
    fails := fun hlegal hready f => (herr hlegal hready f).2 }

/-! ## Phase 2 that completes (R187, R227) -/

section

variable {i : Instr} {s : State} {base : Word} {first count : Nat} {ready : Prop} {checks : Nat → List (Prop × ErrCode)}
  {row : Nat → Nat → Word} {one : Check Unit} {compute : Nat → Check (List Word)}

/-- A frame engine that does not end in HALT passed phase 1, and no frame of its range met an error. -/
theorem FrameEngine.of_completed (h : FrameEngine i s base first count ready checks row one compute) {t : State}
    (hx : exec i s = .next t) (hh : t.engine ≠ .halt) :
    ready ∧ ∀ f, first ≤ f → f < first + count → (FrameOut.ofCheck (compute f)).err = none := by
  rw [exec_eq, h.plan] at hx
  cases hx
  rcases phases_cases one (phase2 base.toNat s.csr.outCols.toNat first (frameOuts compute first count)) with
    ⟨hone, hplan⟩ | ⟨r, -, hplan⟩
  · rcases phase2_cases base.toNat s.csr.outCols.toNat first (frameOuts compute first count) with
      ⟨hnone, -⟩ | ⟨r, hspoiled⟩
    · exact ⟨h.phase1.1 hone, fun f hf hf' => hnone _ (List.mem_map.2 ⟨f, mem_frameRange.2 ⟨hf, hf'⟩, rfl⟩)⟩
    · rw [hplan, hspoiled] at hh
      exact absurd rfl hh
  · rw [hplan] at hh
    exact absurd rfl hh

/-- When phase 1 passes and every frame passes its checks, the rows of the range are the whole effect. -/
theorem FrameEngine.completesWithRows (h : FrameEngine i s base first count ready checks row one compute)
    (hlegal : s.cfg.Legal) (hready : ready) (hall : ∀ f, first ≤ f → f < first + count → ∀ c ∈ checks f, c.1) :
    CompletesWithRows i s base first count row := by
  refine completesWithRows_of (h.plan.trans (phases_ok (h.phase1.2 hready))) fun f hf hf' => ?_
  obtain ⟨v, hv, -, hfinite⟩ := ofCheck_none (h.passes hlegal hready f (hall f hf hf'))
  have hlength := h.length hready f v hv
  refine ⟨v, hv, hlength, fun k hk => ?_⟩
  have hvalue := h.value hlegal hready f v hv k hk
  refine ⟨hvalue, ?_⟩
  rw [← hvalue, List.getD_eq_getElem _ _ (by omega)]
  exact hfinite _ (List.getElem_mem _)

/-! ## Errors (R188, R228) -/

theorem FrameEngine.row_length_le (h : FrameEngine i s base first count ready checks row one compute) (hready : ready) :
    ∀ o ∈ frameOuts compute first count, o.row.length ≤ s.csr.outCols.toNat := by
  intro o ho
  obtain ⟨f, -, rfl⟩ := List.mem_map.1 ho
  exact row_ofCheck_length (h.length hready f)

/-- An error of a frame engine leaves the registers and every byte outside the rows of the range as they were. -/
theorem FrameEngine.outside_of_halted (h : FrameEngine i s base first count ready checks row one compute) {t : State}
    (hx : exec i s = .next t) (hh : t.engine = .halt) :
    t.csr = s.csr ∧ ∀ b, b < 8 * (base.toNat + first * s.csr.outCols.toNat) ∨
      8 * (base.toNat + (first + count) * s.csr.outCols.toNat) ≤ b → t.mem.byteAt b = s.mem.byteAt b := by
  rw [exec_eq, h.plan] at hx
  cases hx
  rcases phases_cases one (phase2 base.toNat s.csr.outCols.toNat first (frameOuts compute first count)) with
    ⟨hone, hplan⟩ | ⟨r, -, hplan⟩
  · rw [hplan] at hh ⊢
    rcases phase2_cases base.toNat s.csr.outCols.toNat first (frameOuts compute first count) with ⟨-, hdone⟩ | ⟨r, hspoiled⟩
    · rw [hdone] at hh
      exact absurd hh (State.complete_engine_ne_halt _)
    · rw [hspoiled, finish_spoiled]
      refine ⟨rfl, fun b hb => ?_⟩
      rw [State.raise_mem, State.applySome_mem]
      refine byteAt_setWords_other _ fun w hw => ?_
      obtain ⟨v, hv, -⟩ := mem_leftWords hw
      have hrange := rowWords_range (h.row_length_le (h.phase1.1 hone)) hv
      rw [List.length_map, length_frameRange] at hrange
      dsimp only at hrange
      omega
  · rw [hplan, finish_failed]
    exact ⟨rfl, fun _ _ => rfl⟩

/-- A word lies in one row, at one place of it. -/
theorem row_place_unique {cols f g j k : Nat} (hj : j < cols) (hk : k < cols) (h : f * cols + j = g * cols + k) :
    f = g ∧ j = k := by
  have hpos : 0 < cols := by omega
  obtain ⟨hf, hj'⟩ := (Nat.div_mod_unique (a := f * cols + j) hpos).2 ⟨by rw [Nat.mul_comm, Nat.add_comm], hj⟩
  obtain ⟨hg, hk'⟩ := (Nat.div_mod_unique (a := g * cols + k) hpos).2 ⟨by rw [Nat.mul_comm, Nat.add_comm], hk⟩
  rw [h] at hf hj'
  exact ⟨hf.symm.trans hg, hj'.symm.trans hk'⟩

/-- After an error of phase 2, a word of the range's rows is old, as the host has seen it written, or as computed. -/
theorem FrameEngine.word_of_spoiled (h : FrameEngine i s base first count ready checks row one compute)
    (hlegal : s.cfg.Legal) (hready : ready) {g k : Nat} (hk : k < s.csr.outCols.toNat) {m : Memory}
    (hm : m = (s.applySome (rowWords base.toNat s.csr.outCols.toNat first (frameOuts compute first count))).mem) {a : Nat}
    (ha : a = base.toNat + g * s.csr.outCols.toNat + k) :
    m.wordAt a = s.mem.wordAt a ∨ s.cmd.landed.lookup a = some (m.wordAt a) ∨ m.wordAt a = s.settle a (row g k) := by
  subst hm
  rcases wordAt_applySome s (rowWords base.toNat s.csr.outCols.toNat first (frameOuts compute first count)) a with
    hold | hhost | ⟨v, hv, hcomputed⟩
  · exact .inl hold
  · rw [State.hostWord] at hhost
    cases hlanded : s.cmd.landed.lookup a with
    | none => exact .inl (by rw [hhost, hlanded, Option.getD_none])
    | some w => exact .inr (.inl (by rw [hhost, hlanded, Option.getD_some]))
  · obtain ⟨f, j, -, -, hj, hplace, rfl⟩ := mem_rowWords_value
      (fun f v hv => ⟨h.length hready f v hv, h.value hlegal hready f v hv⟩) hv
    obtain ⟨rfl, rfl⟩ := row_place_unique (f := f) (g := g) hj hk (by omega)
    exact .inr (.inr hcomputed)

/-- Phase 2 raises the code of the first failing check of the lowest failing frame, and spoils only rows of the range. -/
theorem FrameEngine.raises (h : FrameEngine i s base first count ready checks row one compute) (hlegal : s.cfg.Legal)
    (hready : ready) {f : Nat} {e : ErrCode} (hf : first ≤ f) (hf' : f < first + count) (hfails : FirstFails (checks f) e)
    (hbefore : ∀ g, first ≤ g → g < f → ∀ c ∈ checks g, c.1) :
    exec i s = .next ((s.applySome (rowWords base.toNat s.csr.outCols.toNat first (frameOuts compute first count))).raise
      ⟨e, BitVec.ofNat 64 f⟩) := by
  rw [exec_eq, h.plan, phases_ok (h.phase1.2 hready), phase2_first hf hf' (h.fails hlegal hready f e hfails)
    fun g hg hg' => h.passes hlegal hready g (hbefore g hg hg'), finish_spoiled]

end

/-- Settles O10: both engines are frame engines, so the two clauses are `FrameEngine.outside_of_halted` and, for the error and
the words it leaves, `FrameEngine.raises` and `FrameEngine.word_of_spoiled`. -/
theorem frameErrorsSpoilOnlyTheirRows : Obligations.FrameErrorsSpoilOnlyTheirRows := by
  intro first count s i base ready checks row hengine
  obtain ⟨one, compute, h⟩ : ∃ one compute,
      FrameEngine i s base first.toNat count.toNat ready checks row one compute := by
    rcases hengine with ⟨rfl, rfl, rfl, rfl, rfl⟩ | ⟨rfl, rfl, rfl, rfl, rfl⟩
    · exact ⟨_, _, frameEngine_envrun first count s⟩
    · exact ⟨_, _, frameEngine_aprun first count s⟩
  refine ⟨fun t hx hh => h.outside_of_halted hx hh, fun hlegal hready f e hf hf' hfails hbefore =>
    ⟨_, h.raises hlegal hready hf hf' hfails hbefore, raised_of_applySome s _ _, fun g k _ _ hk =>
      h.word_of_spoiled hlegal hready hk rfl rfl⟩⟩

/-! ## ENVRUN (R187, R189) -/

/-- A frame that meets no error of R188 passes every check of it. -/
theorem EnvFrameOk.checks {s : State} {f : Nat} (h : EnvFrameOk s f) : ∀ c ∈ envFrameChecks s f, c.1 := by
  obtain ⟨hfit, hsamples⟩ := h.segment
  simp only [envFrameChecks, segmentChecks, List.forall_mem_append, List.forall_mem_cons]
  exact ⟨⟨hfit, hsamples, fun _ hc => nomatch hc⟩, h.dc, h.smooth, h.finite, fun _ hc => nomatch hc⟩

/-- Settles O25: every frame passes its checks, so the engine completes with its rows. -/
theorem envrunCompletes : Obligations.EnvrunCompletes := fun first count s hlegal hready hframes =>
  (frameEngine_envrun first count s).completesWithRows hlegal hready fun f hf hf' => (hframes f hf hf').checks

/-- Every value of a liftered spectrum is a `MAX` with ENV_EPS (R184). -/
theorem getD_lift_floor {p : Params} {fs : Word} {l : Nat} {slift : Bool} {eps f0 q1 : Word} {spec : List Word} {k : Nat}
    (hk : k < (lift p fs l slift eps f0 q1 spec).length) :
    ∃ a, (lift p fs l slift eps f0 q1 spec).getD k 0 = fmax a eps := by
  have hmem : (lift p fs l slift eps f0 q1 spec).getD k 0 ∈ lift p fs l slift eps f0 q1 spec := by
    rw [List.getD_eq_getElem _ _ hk]
    exact List.getElem_mem _
  obtain ⟨z, -, hz⟩ := List.mem_map.1 hmem
  exact ⟨_, hz.symm⟩

/-- A finite value of a row that ENVRUN computed is at least ENV_EPS (R184, R189). -/
theorem fle_envRow {s : State} {f k : Nat} {v : List Word} (hv : s.envRow f = .ok v) (hk : k < v.length)
    (hfinite : isFinite (v.getD k 0) = true) : fle s.csr.envEps (v.getD k 0) = true := by
  unfold State.envRow at hv
  obtain ⟨_, -, hv⟩ := bind_eq_ok.1 hv
  obtain ⟨_, -, hv⟩ := bind_eq_ok.1 hv
  obtain ⟨_, -, hv⟩ := bind_eq_ok.1 hv
  cases hv
  obtain ⟨a, ha⟩ := getD_lift_floor hk
  rw [ha] at hfinite ⊢
  exact fmax_floor hfinite

/-- Settles O58: a completed ENVRUN passed phase 1 and left finite rows, and each value of a row is a `MAX` with ENV_EPS. -/
theorem envelopeValuesArePositive : Obligations.EnvelopeValuesArePositive := by
  intro first count s t hx hh hraces
  obtain ⟨hready, hframes⟩ := (frameEngine_envrun first count s).of_completed hx hh
  refine ⟨hready.registers.eps.2, hready.frames.rows, hready.frames.cols, fun f k hf hf' hk => ?_⟩
  obtain ⟨v, hv, hword⟩ := wordAt_envrun hx hh hraces hf hf' hk
  have hlength : k < v.length := by rwa [length_envRow hv, ← hready.frames.cols]
  obtain ⟨v', hv', -, hfinite⟩ := ofCheck_none (hframes f hf hf')
  cases hv.symm.trans hv'
  have hvalue : isFinite (v.getD k 0) = true := by
    rw [List.getD_eq_getElem _ _ hlength]
    exact hfinite _ (List.getElem_mem _)
  rw [hword]
  exact ⟨hvalue, fle_envRow hv hlength hvalue⟩

end Sys2Proof.Machine

/-! SUPPORT. The errors of phase 1 of the frame engines after configuration and shape (R186, R226, R284, R289). -/

namespace Sys2Proof.Machine

section

variable {s : State} {first count : Nat} {f0Ok : Word → Bool}

/-- A range past F0_LEN is the first error of the frame checks. -/
theorem needFrames_error_of_range (h : s.csr.f0Len.toNat < first + count) :
    s.needFrames first count f0Ok = .error ⟨.param, BitVec.ofNat 64 (first + count)⟩ := by
  rw [State.needFrames, require_bind_not (decide_eq_false (not_le.2 h))]

/-- The next is the lowest F0 value that is not finite. -/
theorem needFrames_error_of_not_finite (hrange : first + count ≤ s.csr.f0Len.toNat) {f : Nat} (hf : first ≤ f)
    (hf' : f < first + count) (hbad : isFinite (s.f0Word tagF0Finite f) = false)
    (hbefore : ∀ g, first ≤ g → g < f → isFinite (s.f0Word tagF0Finite g) = true) :
    s.needFrames first count f0Ok = .error ⟨.nonfinite, BitVec.ofNat 64 f⟩ := by
  rw [State.needFrames, require_bind_of (decide_eq_true hrange), allFrames_error hf hf' hbad hbefore, error_bind]

/-- The last is the lowest frame whose effective F0 fails the engine's own check. -/
theorem needFrames_error_of_limit (hrange : first + count ≤ s.csr.f0Len.toNat)
    (hfinite : ∀ f, first ≤ f → f < first + count → isFinite (s.f0Word tagF0Finite f) = true) {f : Nat} (hf : first ≤ f)
    (hf' : f < first + count) (hbad : f0Ok (effF0 s.csr (s.f0Word tagF0Limit f)) = false)
    (hbefore : ∀ g, first ≤ g → g < f → f0Ok (effF0 s.csr (s.f0Word tagF0Limit g)) = true) :
    s.needFrames first count f0Ok = .error ⟨.param, BitVec.ofNat 64 f⟩ := by
  have hpass : allFrames (fun i => isFinite (s.f0Word tagF0Finite i)) .nonfinite (frameRange first count) = .ok () :=
    allFrames_ok fun i hi => hfinite i (mem_frameRange.1 hi).1 (mem_frameRange.1 hi).2
  rw [State.needFrames, require_bind_of (decide_eq_true hrange), hpass, ok_bind, allFrames_error hf hf' hbad hbefore]

end

/-- What is left of phase 1 when configuration and shape are legal. -/
def State.frameChecks (s : State) (base : Word) (first count : Nat) (f0Ok : Word → Bool) : Check Unit := do
  s.needArrays base
  s.needFrames first count f0Ok

theorem planOf_envrun_of_shape {first count : Half} {s : State} (hconfig : ∀ row ∈ envConfigRows s, row.1 = true)
    (hshape : s.needShape = .ok ()) : ∃ two, planOf (.envrun first count) s =
      phases (s.frameChecks s.csr.envBase first.toNat count.toNat (envF0Ok s.csr)) two := by
  refine ⟨_, congrArg (phases · _) ?_⟩
  rw [State.envPhase1, needEnvConfig_eq, checkRows_ok.2 hconfig, ok_bind, hshape, ok_bind, State.frameChecks]

theorem planOf_aprun_of_shape {first count : Half} {s : State} (hconfig : ∀ row ∈ apConfigRows s, row.1 = true)
    (hshape : s.needShape = .ok ()) : ∃ two, planOf (.aprun first count) s =
      phases (s.frameChecks s.csr.apBase first.toNat count.toNat (dcLegal s.csr.fsF s.csr.log2nAp.toNat)) two := by
  refine ⟨_, congrArg (phases · _) ?_⟩
  rw [State.apPhase1, needApConfig_eq, checkRows_ok.2 hconfig, ok_bind, hshape, ok_bind, State.frameChecks]

/-- An error of phase 1 is the error of the engine, with nothing written (R287). -/
theorem raisesClean_of_phase1_error {i : Instr} {s : State} {one : Check Unit} {two : Verdict} {c : ErrCode} {info : Word}
    (h : planOf i s = phases one two) (hone : one = .error ⟨c, info⟩) : RaisesClean i s c info :=
  raisesClean_of (h.trans (phases_error hone))

/-- Settles O40: configuration and shape being legal, the address checks are the rows of R284, and the frame checks raise their
three errors in order. -/
theorem frameRangeErrors : Obligations.FrameRangeErrors := by
  intro first count s i base tooHigh hengine hrows hcols size f0Read checks hchecks
  have hshape : s.needShape = .ok () := needShape_ok.2 ⟨hrows, hcols⟩
  obtain ⟨f0Ok, two, hplan, hhigh⟩ : ∃ f0Ok two,
      planOf i s = phases (s.frameChecks base first.toNat count.toNat f0Ok) two ∧ ∀ f0, tooHigh f0 ↔ f0Ok f0 = false := by
    rcases hengine with ⟨rfl, rfl, hconfig, rfl⟩ | ⟨rfl, rfl, hconfig, rfl⟩
    · obtain ⟨two, hplan⟩ := planOf_envrun_of_shape hconfig hshape
      exact ⟨_, two, hplan, fun _ => Bool.and_eq_false_iff.symm⟩
    · obtain ⟨two, hplan⟩ := planOf_aprun_of_shape hconfig hshape
      exact ⟨_, two, hplan, fun _ => Iff.rfl⟩
  have harrays : s.needArrays base = checkRows .addr checks := by rw [hchecks]; exact needArrays_eq s base
  have raises : ∀ {c : ErrCode} {info : Word}, s.frameChecks base first.toNat count.toNat f0Ok = .error ⟨c, info⟩ →
      RaisesClean i s c info := raisesClean_of_phase1_error hplan
  refine ⟨fun n hn => raises ?_, fun hpass => ?_⟩
  · rw [State.frameChecks, harrays, checkRows_error hn, error_bind]
  · have hleft : s.frameChecks base first.toNat count.toNat f0Ok = s.needFrames first.toNat count.toNat f0Ok := by
      rw [State.frameChecks, harrays, checkRows_ok.2 hpass, ok_bind]
    rw [hleft] at raises
    exact ⟨fun hpast => raises (needFrames_error_of_range hpast), fun hrange =>
      ⟨fun f hf hf' hbad hbefore => raises (needFrames_error_of_not_finite hrange hf hf' hbad hbefore),
        fun hfinite f hf hf' hbad hbefore => raises (needFrames_error_of_limit hrange hfinite hf hf' ((hhigh _).1 hbad)
          fun g hg hg' => eq_true_of_ne_false (mt (hhigh _).2 (hbefore g hg hg')))⟩⟩

end Sys2Proof.Machine

/-! SUPPORT. The primitive commands of the envelope and aperiodicity units (R182 to R184, R210 to R212, R223, R224):
the order of checks that all eight share, what each computes when they pass, and the words that DCCORR, LSMOOTH and LIFTER
write. -/

namespace Sys2Proof.Machine

/-! ## What the eight commands share (R282, R284, R289) -/

/-- The check of a parameter block of `p` words, for a command that has one. -/
def State.needPrmRegion (s : State) (prm : Half) (p : Nat) : Check Unit :=
  match p with
  | 0 => .ok ()
  | p + 1 => s.needRegion regionPrm prm.toNat (p + 1)

/-- The checks of the parameters: f0 or a width, and LIFTER's q1 as a second word. -/
def State.needParams (s : State) (prm : Half) (p : Nat) : Check Unit :=
  match p with
  | 0 => .ok ()
  | 1 => do
    needFinite (s.cmdRead tagPrm prm.toNat) 0
    needPositive (s.cmdRead tagPrm prm.toNat) 0
  | _ + 2 => do
    needFinite (s.cmdRead tagPrm prm.toNat) 0
    needFinite (s.cmdRead tagPrm (prm.toNat + 1)) 1
    needPositive (s.cmdRead tagPrm prm.toNat) 0

/-- The shape of the eight plans: the registers in `rows`, the regions of `p`, `a` and `b` words, the parameters, and
then what the command computes. -/
def State.spectrumPlan (s : State) (rows : List (Bool × Nat)) (prm src dst : Half) (p a b : Nat) (unit : Check Effect) :
    Check Effect := do
  checkRows .config rows
  s.needPrmRegion prm p
  s.needRegion regionSrc src.toNat a
  s.needRegion regionDst dst.toNat b
  s.needParams prm p
  unit

section

variable {s : State} {prm : Half} {p : Nat}

theorem needPrmRegion_ok (h : 1 ≤ p → prm.toNat + p ≤ s.cfg.dmemWords) : s.needPrmRegion prm p = .ok () := by
  cases p with
  | zero => rfl
  | succ p => exact needRegion_ok (h (by omega))

theorem needPrmRegion_error (hp : 1 ≤ p) (h : s.cfg.dmemWords < prm.toNat + p) :
    s.needPrmRegion prm p = .error ⟨.addr, 0⟩ := by
  cases p with
  | zero => omega
  | succ p => exact needRegion_error h

/-- Parameters that are all legal pass. -/
theorem needParams_ok (hx : 1 ≤ p → Positive (s.cmdRead tagPrm prm.toNat))
    (hq : 2 ≤ p → isFinite (s.cmdRead tagPrm (prm.toNat + 1)) = true) : s.needParams prm p = .ok () := by
  match p with
  | 0 => rfl
  | 1 =>
    obtain ⟨hfinite, hpos⟩ := hx (by omega)
    rw [State.needParams, needFinite_ok hfinite, ok_bind, needPositive_ok hpos]
  | p + 2 =>
    obtain ⟨hfinite, hpos⟩ := hx (by omega)
    rw [State.needParams, needFinite_ok hfinite, ok_bind, needFinite_ok (hq (by omega)), ok_bind, needPositive_ok hpos]

theorem needParams_error_of_not_finite (hp : 1 ≤ p) (hx : isFinite (s.cmdRead tagPrm prm.toNat) = false) :
    s.needParams prm p = .error ⟨.nonfinite, 0⟩ := by
  match p with
  | 0 => omega
  | 1 | p + 2 =>
    rw [State.needParams, needFinite_error hx]
    rfl

theorem needParams_error_of_second (hx : isFinite (s.cmdRead tagPrm prm.toNat) = true)
    (hq : isFinite (s.cmdRead tagPrm (prm.toNat + 1)) = false) : s.needParams prm 2 = .error ⟨.nonfinite, 1⟩ := by
  rw [State.needParams, needFinite_ok hx, ok_bind, needFinite_error hq]
  rfl

theorem needParams_error_of_not_positive (hp : 1 ≤ p) (hx : isFinite (s.cmdRead tagPrm prm.toNat) = true)
    (hq : 2 ≤ p → isFinite (s.cmdRead tagPrm (prm.toNat + 1)) = true)
    (hpos : flt f0p0 (s.cmdRead tagPrm prm.toNat) = false) : s.needParams prm p = .error ⟨.param, 0⟩ := by
  match p with
  | 0 => omega
  | 1 =>
    rw [State.needParams, needFinite_ok hx, ok_bind, needPositive_error hpos]
    rfl
  | p + 2 =>
    rw [State.needParams, needFinite_ok hx, ok_bind, needFinite_ok (hq (by omega)), ok_bind, needPositive_error hpos]
    rfl

end

/-- A table of checks in front of a computation, row by row. -/
theorem checkRows_cons_bind {α : Type} (c : ErrCode) (row : Bool × Nat) (rows : List (Bool × Nat))
    (f : Unit → Check α) :
    (checkRows c (row :: rows) >>= f) = require row.1 c row.2 >>= fun _ => checkRows c rows >>= f := by
  rw [checkRows_cons, bind_assoc]

/-! The three lemmas below on an empty check are not proved by `rfl`: `simp` would then leave it to the kernel to
find out by computation that two different checks are not the same. -/

theorem checkRows_nil_bind {α : Type} (c : ErrCode) (f : Unit → Check α) : (checkRows c [] >>= f) = f () := by
  rw [checkRows_nil, ok_bind]

section

variable {α : Type} (s : State) (prm : Half) (f : Unit → Check α)

theorem needPrmRegion_zero_bind : (s.needPrmRegion prm 0 >>= f) = f () := by rw [State.needPrmRegion, ok_bind]

theorem needPrmRegion_one : s.needPrmRegion prm 1 = s.needRegion regionPrm prm.toNat 1 := rfl

theorem needPrmRegion_two : s.needPrmRegion prm 2 = s.needRegion regionPrm prm.toNat 2 := rfl

theorem needParams_zero_bind : (s.needParams prm 0 >>= f) = f () := by rw [State.needParams, ok_bind]

theorem needParams_one_bind : (s.needParams prm 1 >>= f) = (do
    needFinite (s.cmdRead tagPrm prm.toNat) 0
    needPositive (s.cmdRead tagPrm prm.toNat) 0 >>= f) := bind_assoc _ _ _

theorem needParams_two_bind : (s.needParams prm 2 >>= f) = (do
    needFinite (s.cmdRead tagPrm prm.toNat) 0
    needFinite (s.cmdRead tagPrm (prm.toNat + 1)) 1
    needPositive (s.cmdRead tagPrm prm.toNat) 0 >>= f) := by
  simp only [State.needParams, bind_assoc]

end

/-! ## The eight plans -/

section

variable (sz : SizeSel) (prm src dst : Half) (s : State)

/-- What is left of DCCORR when its registers, regions and parameter are legal (R182). -/
def State.dccorrUnit : Check Effect := do
  require (dcLegal s.csr.fsF (s.sizeExp sz) (s.cmdRead tagPrm prm.toNat)) .param 0
  let out ← dcCorr s.csr.fsF (s.sizeExp sz) (s.srcWords src (sizeB (s.sizeExp sz))) (s.cmdRead tagPrm prm.toNat)
  pure (.buffer dst.toNat out)

/-- What is left of LSMOOTH (R183). -/
def State.lsmoothUnit : Check Effect := do
  require (smoothLegal s.csr.fsF (s.sizeExp sz) (s.cmdRead tagPrm prm.toNat)) .param 0
  let out ← smooth s.csr.fsF (s.sizeExp sz) (s.srcWords src (sizeB (s.sizeExp sz))) (s.cmdRead tagPrm prm.toNat)
  pure (.buffer dst.toNat out)

/-- What is left of LIFTER (R184). -/
def State.lifterUnit (slift : Bool) : Check Effect :=
  pure (.buffer dst.toNat (lift s.cfg s.csr.fsF (s.sizeExp sz) slift s.csr.envEps (s.cmdRead tagPrm prm.toNat)
    (s.cmdRead tagPrm (prm.toNat + 1)) (s.srcWords src (sizeB (s.sizeExp sz)))))

/-- What is left of CENTROID (R210). -/
def State.centroidUnit : Check Effect :=
  pure (.buffer dst.toNat
    (centroid s.cfg.log2nMax (s.sizeExp sz) s.csr.safeMin (s.srcWords src (sizeN (s.sizeExp sz)))))

/-- What is left of GDELAY (R211). -/
def State.gdelayUnit : Check Effect := do
  require (smoothLegal s.csr.fsF (s.sizeExp sz) (s.cmdRead tagPrm prm.toNat)) .param 0
  let out ← groupDelay s.csr.fsF (s.sizeExp sz) s.csr.safeMin
    ((s.srcWords src (2 * sizeB (s.sizeExp sz))).take (sizeB (s.sizeExp sz)))
    ((s.srcWords src (2 * sizeB (s.sizeExp sz))).drop (sizeB (s.sizeExp sz))) (s.cmdRead tagPrm prm.toNat)
  pure (.buffer dst.toNat out)

/-- What is left of VUV (R212). -/
def State.vuvUnit : Check Effect :=
  pure (.buffer dst.toNat
    [vuvIndicator s.csr.fsF (s.sizeExp sz) s.csr.safeMin (s.srcWords src (sizeB (s.sizeExp sz)))])

/-- What is left of BANDAP (R223). -/
def State.bandapUnit : Check Effect := do
  let out ← bandAperiodicity s.cfg s.csr.fsF (s.sizeExp sz) s.csr.safeMin (s.srcWords src (sizeB (s.sizeExp sz)))
    (s.cmdRead tagPrm prm.toNat)
  pure (.buffer dst.toNat out)

/-- What is left of APINTERP (R224). -/
def State.apinterpUnit : Check Effect :=
  pure (.buffer dst.toNat (apInterp s.cfg.fpMode s.csr (s.sizeExp sz) (s.srcWords src (bandCount s.csr.fsF))))

/-! Each plan is its own checks and lengths in the shape of `State.spectrumPlan`. -/

theorem planOf_dccorr : planOf (.dccorr sz prm src dst) s = .ofCheck
    (s.spectrumPlan [fsRow s, sizeRow s sz] prm src dst 1 (sizeB (s.sizeExp sz)) (sizeB (s.sizeExp sz))
      (s.dccorrUnit sz prm src dst)) := by
  simp only [planOf, planDccorr, State.dccorrUnit, State.spectrumPlan, checkRows_cons_bind, checkRows_nil_bind,
    needPrmRegion_one, needParams_one_bind, State.prmWord, Nat.add_zero, ← needFs_row, ← needSize_row]

theorem planOf_lsmooth : planOf (.lsmooth sz prm src dst) s = .ofCheck
    (s.spectrumPlan [fsRow s, sizeRow s sz] prm src dst 1 (sizeB (s.sizeExp sz)) (sizeB (s.sizeExp sz))
      (s.lsmoothUnit sz prm src dst)) := by
  simp only [planOf, planLsmooth, State.lsmoothUnit, State.spectrumPlan, checkRows_cons_bind, checkRows_nil_bind,
    needPrmRegion_one, needParams_one_bind, State.prmWord, Nat.add_zero, ← needFs_row, ← needSize_row]

theorem planOf_lifter (slift : Bool) : planOf (.lifter sz slift prm src dst) s = .ofCheck
    (s.spectrumPlan [fsRow s, envEpsRow s, sizeRow s sz] prm src dst 2 (sizeB (s.sizeExp sz)) (sizeB (s.sizeExp sz))
      (s.lifterUnit sz prm src dst slift)) := by
  simp only [planOf, planLifter, State.lifterUnit, State.spectrumPlan, checkRows_cons_bind, checkRows_nil_bind,
    needPrmRegion_two, needParams_two_bind, State.prmWord, Nat.add_zero, ← needFs_row, ← needEnvEps_row,
    ← needSize_row]

theorem planOf_centroid : planOf (.centroid sz src dst) s = .ofCheck
    (s.spectrumPlan [safeMinRow s, sizeRow s sz] prm src dst 0 (sizeN (s.sizeExp sz)) (sizeB (s.sizeExp sz))
      (s.centroidUnit sz src dst)) := by
  simp only [planOf, planCentroid, State.centroidUnit, State.spectrumPlan, checkRows_cons_bind, checkRows_nil_bind,
    needPrmRegion_zero_bind, needParams_zero_bind, ← needSafeMin_row, ← needSize_row]

theorem planOf_gdelay : planOf (.gdelay sz prm src dst) s = .ofCheck
    (s.spectrumPlan [fsRow s, safeMinRow s, sizeRow s sz] prm src dst 1 (2 * sizeB (s.sizeExp sz)) (sizeB (s.sizeExp sz))
      (s.gdelayUnit sz prm src dst)) := by
  simp only [planOf, planGdelay, State.gdelayUnit, State.spectrumPlan, checkRows_cons_bind, checkRows_nil_bind,
    needPrmRegion_one, needParams_one_bind, State.prmWord, Nat.add_zero, ← needFs_row, ← needSafeMin_row,
    ← needSize_row]

theorem planOf_vuv : planOf (.vuv sz src dst) s = .ofCheck
    (s.spectrumPlan [fsRow s, safeMinRow s, sizeRow s sz] prm src dst 0 (sizeB (s.sizeExp sz)) 1
      (s.vuvUnit sz src dst)) := by
  simp only [planOf, planVuv, State.vuvUnit, State.spectrumPlan, checkRows_cons_bind, checkRows_nil_bind,
    needPrmRegion_zero_bind, needParams_zero_bind, ← needFs_row, ← needSafeMin_row, ← needSize_row]

theorem planOf_bandap : planOf (.bandap sz prm src dst) s = .ofCheck
    (s.spectrumPlan [fsRow s, safeMinRow s, sizeRow s sz] prm src dst 1 (sizeB (s.sizeExp sz)) (bandCount s.csr.fsF)
      (s.bandapUnit sz prm src dst)) := by
  simp only [planOf, planBandap, State.bandapUnit, State.spectrumPlan, checkRows_cons_bind, checkRows_nil_bind,
    needPrmRegion_one, needParams_one_bind, State.prmWord, Nat.add_zero, ← needFs_row, ← needSafeMin_row,
    ← needSize_row]

theorem planOf_apinterp : planOf (.apinterp sz src dst) s = .ofCheck
    (s.spectrumPlan [fsRow s, apDcDbRow s, safeMinRow s, apFloorRow s, sizeRow s sz] prm src dst 0 (bandCount s.csr.fsF)
      (sizeB (s.sizeExp sz)) (s.apinterpUnit sz src dst)) := by
  simp only [planOf, planApinterp, State.apinterpUnit, State.spectrumPlan, checkRows_cons_bind, checkRows_nil_bind,
    needPrmRegion_zero_bind, needParams_zero_bind, ← needFs_row, ← needApDcDb_row, ← needSafeMin_row,
    ← needApFloor_row, ← needSize_row]

end

/-! ## Errors (R282, R284, R288, R289) -/

section

variable {sz : SizeSel} {slift : Bool} {prm src dst : Half} {s : State} {i : Instr} {rows : List (Bool × Nat)}
  {p a b : Nat} {unit : Check Effect}

/-- When every check passes, the command is left at what it computes. -/
theorem planOf_of_spectrumPlan (h : planOf i s = .ofCheck (s.spectrumPlan rows prm src dst p a b unit))
    (hrows : ∀ row ∈ rows, row.1 = true) (hprm : 1 ≤ p → prm.toNat + p ≤ s.cfg.dmemWords)
    (hsrc : src.toNat + a ≤ s.cfg.dmemWords) (hdst : dst.toNat + b ≤ s.cfg.dmemWords)
    (hparams : s.needParams prm p = .ok ()) : planOf i s = .ofCheck unit := by
  have atPrm := planOf_of_check_ok h (checkRows_ok.2 hrows)
  have atSrc := planOf_of_check_ok atPrm (needPrmRegion_ok hprm)
  have atDst := planOf_of_check_ok atSrc (needRegion_ok hsrc)
  exact planOf_of_check_ok (planOf_of_check_ok atDst (needRegion_ok hdst)) hparams

/-- An f0 too high for the size (R182). -/
theorem dccorrUnit_error (h : dcLegal s.csr.fsF (s.sizeExp sz) (s.cmdRead tagPrm prm.toNat) = false) :
    s.dccorrUnit sz prm src dst = .error ⟨.param, 0⟩ := require_bind_not h

/-- A width too high for the size (R183). -/
theorem lsmoothUnit_error (h : smoothLegal s.csr.fsF (s.sizeExp sz) (s.cmdRead tagPrm prm.toNat) = false) :
    s.lsmoothUnit sz prm src dst = .error ⟨.param, 0⟩ := require_bind_not h

/-- An f0 too high for the second smoothing (R211). -/
theorem gdelayUnit_error (h : smoothLegal s.csr.fsF (s.sizeExp sz) (s.cmdRead tagPrm prm.toNat) = false) :
    s.gdelayUnit sz prm src dst = .error ⟨.param, 0⟩ := require_bind_not h

/-- An illegal band geometry (R222, R223). -/
theorem bandapUnit_error (h : bandsLegal s.csr.fsF (s.sizeExp sz) = false) :
    s.bandapUnit sz prm src dst = .error ⟨.range, 0⟩ := by
  rw [State.bandapUnit, bandAperiodicity, require_bind_not h, error_bind]
  rfl

/-- What a row of `spectrumCommands` says of its command: its plan has the shape of `State.spectrumPlan` with the row's
registers and lengths, and its last check, where it has one, raises its own error. -/
structure SpectrumCommand (sz : SizeSel) (prm src dst : Half) (s : State) (i : Instr) (rows : List (Bool × Nat))
    (p a b : Nat) (unit : Check Effect) : Prop where
  plan : planOf i s = .ofCheck (s.spectrumPlan rows prm src dst p a b unit)
  params : p ≤ 2
  f0High : i = .dccorr sz prm src dst → p = 1 ∧
    (dcLegal s.csr.fsF (s.sizeExp sz) (s.cmdRead tagPrm prm.toNat) = false → unit = .error ⟨.param, 0⟩)
  widthHigh : i = .lsmooth sz prm src dst ∨ i = .gdelay sz prm src dst → p = 1 ∧
    (smoothLegal s.csr.fsF (s.sizeExp sz) (s.cmdRead tagPrm prm.toNat) = false → unit = .error ⟨.param, 0⟩)
  bandsIllegal : i = .bandap sz prm src dst → p = 1 ∧
    (bandsLegal s.csr.fsF (s.sizeExp sz) = false → unit = .error ⟨.range, 0⟩)

/-- Each row of `spectrumCommands` describes its command. -/
theorem spectrumCommand_of_mem (h : (i, rows, p, a, b) ∈ spectrumCommands s sz slift prm src dst) :
    ∃ unit, SpectrumCommand sz prm src dst s i rows p a b unit := by
  simp only [spectrumCommands, List.mem_cons, Prod.mk.injEq, List.not_mem_nil, or_false] at h
  rcases h with h | h | h | h | h | h | h | h <;> obtain ⟨rfl, rfl, rfl, rfl, rfl⟩ := h
  · exact ⟨_, planOf_dccorr sz prm src dst s, by decide, fun _ => ⟨rfl, dccorrUnit_error⟩, nofun, nofun⟩
  · exact ⟨_, planOf_lsmooth sz prm src dst s, by decide, nofun, fun _ => ⟨rfl, lsmoothUnit_error⟩, nofun⟩
  · exact ⟨_, planOf_lifter sz prm src dst s slift, by decide, nofun, nofun, nofun⟩
  · exact ⟨_, planOf_centroid sz prm src dst s, by decide, nofun, nofun, nofun⟩
  · exact ⟨_, planOf_gdelay sz prm src dst s, by decide, nofun, fun _ => ⟨rfl, gdelayUnit_error⟩, nofun⟩
  · exact ⟨_, planOf_vuv sz prm src dst s, by decide, nofun, nofun, nofun⟩
  · exact ⟨_, planOf_bandap sz prm src dst s, by decide, nofun, nofun, fun _ => ⟨rfl, bandapUnit_error⟩⟩
  · exact ⟨_, planOf_apinterp sz prm src dst s, by decide, nofun, nofun, nofun⟩

end

/-- Settles O37: the checks of `State.spectrumPlan` one after another, each with its error when those before it pass. -/
theorem spectrumCommandErrors : Obligations.SpectrumCommandErrors := by
  intro sz slift prm src dst s i rows p a b hmem x q
  obtain ⟨unit, h⟩ := spectrumCommand_of_mem hmem
  refine ⟨fun n hn => raisesClean_of_check_error h.plan (checkRows_error hn), fun hrows => ?_⟩
  have atPrm := planOf_of_check_ok h.plan (checkRows_ok.2 hrows)
  refine ⟨fun hp hprm => raisesClean_of_check_error atPrm (needPrmRegion_error hp hprm), fun hprm => ?_⟩
  have atSrc := planOf_of_check_ok atPrm (needPrmRegion_ok hprm)
  have atDst := fun hsrc => planOf_of_check_ok atSrc (needRegion_ok hsrc)
  refine ⟨fun hsrc => raisesClean_of_check_error atSrc (needRegion_error hsrc),
    fun hsrc hdst => raisesClean_of_check_error (atDst hsrc) (needRegion_error hdst), fun hp hsrc hdst => ?_⟩
  have atParams := planOf_of_check_ok (atDst hsrc) (needRegion_ok hdst)
  have hwords := h.params
  have raisesUnit : ∀ {e : ErrCode}, p = 1 → Positive x → unit = .error ⟨e, 0⟩ → RaisesClean i s e 0 :=
    fun hone hx hunit => raisesClean_of (by
      rw [planOf_of_check_ok atParams (needParams_ok (fun _ => hx) (by omega)), hunit, ofCheck_error])
  refine ⟨fun hx => raisesClean_of_check_error atParams (needParams_error_of_not_finite hp hx), ?_,
    fun hx hq hpos => raisesClean_of_check_error atParams
      (needParams_error_of_not_positive hp hx (fun htwo => hq (by omega)) hpos),
    fun hx hi hhigh => ?_, fun hx hi hhigh => ?_, fun hx hi hbands => ?_⟩
  · rintro hx rfl hq
    exact raisesClean_of_check_error atParams (needParams_error_of_second hx hq)
  · obtain ⟨hone, hunit⟩ := h.f0High hi
    exact raisesUnit hone hx (hunit hhigh)
  · obtain ⟨hone, hunit⟩ := h.widthHigh hi
    exact raisesUnit hone hx (hunit hhigh)
  · obtain ⟨hone, hunit⟩ := h.bandsIllegal hi
    exact raisesUnit hone hx (hunit (bandsLegal_spec ▸ hbands))

/-! ## DCCORR, LSMOOTH and LIFTER complete (R182 to R184) -/

section

variable {s : State} {sz : SizeSel}

theorem fsRow_of (h : FsOk s) : (fsRow s).1 = true := decide_eq_true h

theorem envEpsRow_of (h : Positive s.csr.envEps) : (envEpsRow s).1 = true := positive_iff.2 h

theorem sizeRow_of (h : SizeOk s sz) : (sizeRow s sz).1 = true := by
  cases sz <;> exact decide_eq_true h

theorem fsSizeRows_of (hfs : FsOk s) (hsize : SizeOk s sz) : ∀ row ∈ [fsRow s, sizeRow s sz], row.1 = true := by
  simp only [List.forall_mem_cons]
  exact ⟨fsRow_of hfs, sizeRow_of hsize, fun _ h => nomatch h⟩

end

/-- Settles O22: every check of DCCORR passes, and the words are those of `dcCorr_ok`. -/
theorem dccorrCompletes : Obligations.DccorrCompletes := by
  intro sz prm src dst s hlegal hfs hsize hprm hsrc hdst hx hfits
  have hunit := planOf_of_spectrumPlan (planOf_dccorr sz prm src dst s) (fsSizeRows_of hfs hsize) (fun _ => hprm) hsrc hdst
    (needParams_ok (fun _ => hx) nofun)
  obtain ⟨v, hv, hlength, hvalue⟩ := dcCorr_ok (p := s.srcWords src (sizeB (s.sizeExp sz))) (sizeExp_le hlegal hsize)
    (fNeg_of_pos hx.2) (length_srcWords s src _) (fun k hk => getD_srcWords (Nat.lt_succ_of_le hk) f0p0) hfits
  have hwrite := planOf_of_check_ok (planOf_of_check_ok hunit (require_eq_ok.2 hfits.1)) hv
  exact completesWith_of hwrite hlength fun k hk => hvalue k (Nat.le_of_lt_succ hk)

/-- Settles O23: every check of LSMOOTH passes, and the words are those of `smooth_ok`. -/
theorem lsmoothCompletes : Obligations.LsmoothCompletes := by
  intro sz prm src dst s hlegal hfs hsize hprm hsrc hdst hx hfits
  have hunit := planOf_of_spectrumPlan (planOf_lsmooth sz prm src dst s) (fsSizeRows_of hfs hsize) (fun _ => hprm) hsrc hdst
    (needParams_ok (fun _ => hx) nofun)
  obtain ⟨v, hv, hlength, hvalue⟩ := smooth_ok (p := s.srcWords src (sizeB (s.sizeExp sz))) (sizeExp_le hlegal hsize)
    (fNeg_of_pos hx.2) (fun k hk => getD_srcWords (Nat.lt_succ_of_le hk) f0p0) hfits
  have hwrite := planOf_of_check_ok (planOf_of_check_ok hunit (require_eq_ok.2 hfits.1)) hv
  exact completesWith_of hwrite hlength fun k hk => hvalue k (Nat.le_of_lt_succ hk)

/-- Settles O24: every check of LIFTER passes, and the words are those of `getD_lift`. -/
theorem lifterCompletes : Obligations.LifterCompletes := by
  intro sz slift prm src dst s _ hfs heps hsize hprm hsrc hdst hx hq
  have hrows : ∀ row ∈ [fsRow s, envEpsRow s, sizeRow s sz], row.1 = true := by
    simp only [List.forall_mem_cons]
    exact ⟨fsRow_of hfs, envEpsRow_of heps, sizeRow_of hsize, fun _ h => nomatch h⟩
  have hunit := planOf_of_spectrumPlan (planOf_lifter sz prm src dst s slift) hrows (fun _ => hprm) hsrc hdst
    (needParams_ok (fun _ => hx) fun _ => hq)
  exact completesWith_of hunit length_lift fun k hk =>
    getD_lift (length_srcWords s src _) (fun k hk => getD_srcWords (Nat.lt_succ_of_le hk) f0p0) (Nat.le_of_lt_succ hk)

end Sys2Proof.Machine

/-! SUPPORT. The commands of the aperiodicity unit complete (R210 to R212, R220 to R224): the register checks beside those of
the envelope unit, and the words that CENTROID, GDELAY, VUV, BANDAP and APINTERP write. -/

namespace Sys2Proof.Machine

/-! ## Registers (R282) -/

section

variable {s : State} {sz : SizeSel}

theorem safeMinRow_of (h : Positive s.csr.safeMin) : (safeMinRow s).1 = true := positive_iff.2 h

theorem apDcDbRow_of (h : isFinite s.csr.apDcDb = true) : (apDcDbRow s).1 = true := h

theorem apFloorRow_of (h : Positive s.csr.apFloor) (hone : fle s.csr.apFloor f1 = true) : (apFloorRow s).1 = true :=
  Bool.and_eq_true_iff.2 ⟨positive_iff.2 h, hone⟩

/-- The registers that GDELAY, VUV and BANDAP check. -/
theorem fsSafeMinSizeRows_of (hfs : FsOk s) (hsafe : Positive s.csr.safeMin) (hsize : SizeOk s sz) :
    ∀ row ∈ [fsRow s, safeMinRow s, sizeRow s sz], row.1 = true := by
  simp only [List.forall_mem_cons]
  exact ⟨fsRow_of hfs, safeMinRow_of hsafe, sizeRow_of hsize, fun _ h => nomatch h⟩

end

/-! ## Group delay and voicing (R210 to R212) -/

/-- Settles O26: every check of CENTROID passes, and the words are those of `getD_centroid`. -/
theorem centroidCompletes : Obligations.CentroidCompletes := by
  intro sz src dst s _ hsafe hsize hsrc hdst
  have hrows : ∀ row ∈ [safeMinRow s, sizeRow s sz], row.1 = true := by
    simp only [List.forall_mem_cons]
    exact ⟨safeMinRow_of hsafe, sizeRow_of hsize, fun _ h => nomatch h⟩
  have hunit := planOf_of_spectrumPlan (planOf_centroid sz 0 src dst s) hrows nofun hsrc hdst (needParams_ok nofun nofun)
  exact completesWith_of hunit length_centroid fun k hk =>
    getD_centroid (length_srcWords s src _) (fun n hn => getD_srcWords hn f0p0) (Nat.le_of_lt_succ hk)

/-! The two halves of `2n` words at SRC: GDELAY's centroid and its power spectrum. -/

section

variable (s : State) (src : Half) (n : Nat)

theorem length_take_srcWords : ((s.srcWords src (2 * n)).take n).length = n := by
  rw [List.length_take, length_srcWords]
  omega

theorem length_drop_srcWords : ((s.srcWords src (2 * n)).drop n).length = n := by
  rw [List.length_drop, length_srcWords]
  omega

variable {s src n} {k : Nat}

theorem getD_take_srcWords (hk : k < n) :
    ((s.srcWords src (2 * n)).take n).getD k f0p0 = s.cmdRead tagSrc (src.toNat + k) := by
  rw [getD_take _ _ _ _ hk, getD_srcWords (by omega)]

theorem getD_drop_srcWords (hk : k < n) :
    ((s.srcWords src (2 * n)).drop n).getD k f0p0 = s.cmdRead tagSrc (src.toNat + (n + k)) := by
  rw [getD_drop, getD_srcWords (by omega)]

end

/-- Settles O27: every check of GDELAY passes, and the words are those of `groupDelay_ok` on the two halves of SRC. -/
theorem gdelayCompletes : Obligations.GdelayCompletes := by
  intro sz prm src dst s hlegal hfs hsafe hsize hprm hsrc hdst hx hfits hfitsHalf
  have hunit := planOf_of_spectrumPlan (planOf_gdelay sz prm src dst s) (fsSafeMinSizeRows_of hfs hsafe hsize) (fun _ => hprm)
    hsrc hdst (needParams_ok (fun _ => hx) nofun)
  obtain ⟨v, hv, hlength, hvalue⟩ := groupDelay_ok (safeMin := s.csr.safeMin) (sizeExp_le hlegal hsize) (fNeg_of_pos hx.2)
    (length_take_srcWords s src _) (length_drop_srcWords s src _) (fun _ hk => getD_take_srcWords (Nat.lt_succ_of_le hk))
    (fun _ hk => getD_drop_srcWords (Nat.lt_succ_of_le hk)) hfits hfitsHalf
  have hwrite := planOf_of_check_ok (planOf_of_check_ok hunit (require_eq_ok.2 hfits.1)) hv
  exact completesWith_of hwrite hlength fun k hk => hvalue k (Nat.le_of_lt_succ hk)

/-- Settles O28: every check of VUV passes, and its one word is that of `vuv_eq`. -/
theorem vuvCompletes : Obligations.VuvCompletes := by
  intro sz src dst s _ hfs hsafe hsize hsrc hdst
  have hunit := planOf_of_spectrumPlan (planOf_vuv sz 0 src dst s) (fsSafeMinSizeRows_of hfs hsafe hsize) nofun hsrc hdst
    (needParams_ok nofun nofun)
  refine completesWith_of hunit rfl fun k hk => ?_
  obtain rfl : k = 0 := by omega
  rw [List.getD_cons_zero]
  exact vuv_eq (length_srcWords s src _) fun k hk => getD_srcWords (Nat.lt_succ_of_le hk) f0p0

/-! ## Bands (R220 to R224) -/

/-- Settles O29: every check of BANDAP passes, and the words are those of `bandAperiodicity_ok`. -/
theorem bandapCompletes : Obligations.BandapCompletes := by
  intro sz prm src dst s _ hfs hsafe hsize hprm hsrc hdst hx hbands
  have hunit := planOf_of_spectrumPlan (planOf_bandap sz prm src dst s) (fsSafeMinSizeRows_of hfs hsafe hsize) (fun _ => hprm)
    hsrc hdst (needParams_ok (fun _ => hx) nofun)
  obtain ⟨v, hv, hlength, hvalue⟩ := bandAperiodicity_ok (p := s.cfg) (safeMin := s.csr.safeMin)
    (f0 := s.cmdRead tagPrm prm.toNat) (length_srcWords s src _) (fun k hk => getD_srcWords (Nat.lt_succ_of_le hk) f0p0)
    (bandsLegal_spec ▸ hbands)
  exact completesWith_of (planOf_of_check_ok hunit hv) hlength hvalue

/-- Settles O30: every check of APINTERP passes, and the words are those of `getD_apInterp`. -/
theorem apinterpCompletes : Obligations.ApinterpCompletes := by
  intro sz src dst s _ hfs hdc hsafe hfloor hone hsize hsrc hdst
  have hrows : ∀ row ∈ [fsRow s, apDcDbRow s, safeMinRow s, apFloorRow s, sizeRow s sz], row.1 = true := by
    simp only [List.forall_mem_cons]
    exact ⟨fsRow_of hfs, apDcDbRow_of hdc, safeMinRow_of hsafe, apFloorRow_of hfloor hone, sizeRow_of hsize,
      fun _ h => nomatch h⟩
  have hunit := planOf_of_spectrumPlan (planOf_apinterp sz 0 src dst s) hrows nofun hsrc hdst (needParams_ok nofun nofun)
  exact completesWith_of hunit (length_apInterp _ _ _ _) fun k hk =>
    getD_apInterp (length_srcWords s src _) (fun j hj => getD_srcWords hj f0p0) (Nat.le_of_lt_succ hk)

end Sys2Proof.Machine

/-! SUPPORT. The sort of BANDAP (R223) is the library's insertion sort for the order of the rule. -/

namespace Sys2Proof.Machine

/-- A NaN stands before NaNs only, and of two numbers the one with the smaller key may stand first. -/
theorem sortedBefore_iff {a b : Word} :
    SortedBefore a b ↔ isNaN b = true ∨ (isNaN a = false ∧ isNaN b = false ∧ fKey a ≤ fKey b) := by
  unfold SortedBefore flt
  cases isNaN a <;> cases isNaN b <;> simp

theorem sortedBefore_total : Std.Total SortedBefore where
  total a b := by
    simp only [sortedBefore_iff]
    cases isNaN a <;> cases isNaN b <;> simp [le_total]

theorem sortedBefore_trans : IsTrans Word SortedBefore where
  trans a b c hab hbc := by
    rw [sortedBefore_iff] at hab hbc ⊢
    rcases hbc with hc | ⟨hb, hc, hbc⟩
    · exact .inl hc
    · rcases hab with hb' | ⟨ha, -, hab⟩
      · exact absurd hb' (by simp [hb])
      · exact .inr ⟨ha, hc, hab.trans hbc⟩

/-- The test of `insertSorted` passes over exactly the values that must stand before the new one. -/
theorem not_sortedBefore_iff {x y : Word} : ¬ SortedBefore x y ↔ (flt y x || (isNaN x && !isNaN y)) = true := by
  unfold SortedBefore
  cases flt y x <;> cases isNaN x <;> cases isNaN y <;> simp

theorem insertSorted_eq_orderedInsert [DecidableRel SortedBefore] (x : Word) (ys : List Word) :
    insertSorted x ys = ys.orderedInsert SortedBefore x := by
  induction ys with
  | nil => rfl
  | cons y ys ih =>
    rw [insertSorted, ih, List.orderedInsert_cons]
    by_cases h : SortedBefore x y
    · rw [if_neg (mt not_sortedBefore_iff.2 (not_not_intro h)), if_pos h]
    · rw [if_pos (not_sortedBefore_iff.1 h), if_neg h]

theorem sortAscending_eq_insertionSort [DecidableRel SortedBefore] (xs : List Word) :
    sortAscending xs = xs.insertionSort SortedBefore := by
  induction xs with
  | nil => rfl
  | cons x xs ih =>
    calc sortAscending (x :: xs) = insertSorted x (sortAscending xs) := rfl
      _ = (xs.insertionSort SortedBefore).orderedInsert SortedBefore x := by rw [insertSorted_eq_orderedInsert, ih]
      _ = (x :: xs).insertionSort SortedBefore := rfl

/-- Settles O55: an insertion sort permutes, and its order is total and transitive. -/
theorem bandPowersAreSorted : Obligations.BandPowersAreSorted := by
  classical
  intro xs
  have := sortedBefore_total
  have := sortedBefore_trans
  rw [sortAscending_eq_insertionSort]
  exact ⟨List.perm_insertionSort _ xs, List.pairwise_insertionSort SortedBefore xs⟩

end Sys2Proof.Machine

/-! SUPPORT. APRUN (R225 to R229): a frame that meets no error passes every check, and each value of a row is clipped to
AP_FLOOR and 1.0. -/

namespace Sys2Proof.Machine

/-! ## Rows (R227, R228) -/

theorem SegmentOk.checks {fs : Word} {l : Nat} {x : Int → Word} {centre f0 r : Word} (h : SegmentOk fs l x centre f0 r) :
    ∀ c ∈ segmentChecks fs l x centre f0 r, c.1 := by
  obtain ⟨hfit, hsamples⟩ := h
  simp only [segmentChecks, List.forall_mem_cons]
  exact ⟨hfit, hsamples, fun _ hc => nomatch hc⟩

/-- One window ratio of a voiced frame that meets no error passes every check of it. -/
theorem ApBandOk.checks {s : State} {i seg : Nat} {r : Word} (h : ApBandOk s i seg r)
    (hdc : DcFits s.csr.fsF s.csr.log2nAp.toNat (frameF0 s i))
    (hsmooth : SmoothFits s.csr.fsF s.csr.log2nAp.toNat (frameF0 s i))
    (hhalf : SmoothFits s.csr.fsF s.csr.log2nAp.toNat (fdiv (frameF0 s i) f2)) : ∀ c ∈ apRatioChecks s i seg r, c.1 := by
  simp only [apRatioChecks, List.forall_mem_append, List.forall_mem_cons]
  exact ⟨⟨⟨⟨h.before.checks, h.after.checks⟩, hdc, fun _ hc => nomatch hc⟩, h.centred.checks⟩, hsmooth, hhalf,
    fun _ hc => nomatch hc⟩

/-- A frame that meets no error of R228 passes every check of it. -/
theorem ApFrameOk.checks {s : State} {f : Nat} (h : ApFrameOk s f) : ∀ c ∈ apFrameChecks s f, c.1 := by
  unfold apFrameChecks
  simp only [List.forall_mem_append, List.forall_mem_singleton]
  refine ⟨⟨h.gate.checks, ?_⟩, h.finite⟩
  split
  next hvoiced =>
    obtain ⟨hshort, hmid, hlong, hdc, hsmooth, hhalf⟩ := h.voiced hvoiced
    simp only [List.forall_mem_append]
    exact ⟨⟨hshort.checks hdc hsmooth hhalf, hmid.checks hdc hsmooth hhalf⟩, hlong.checks hdc hsmooth hhalf⟩
  next => exact fun _ hc => nomatch hc

/-- Settles O31: every frame passes its checks, so the engine completes with its rows. -/
theorem aprunCompletes : Obligations.AprunCompletes := fun first count s hlegal hready hframes =>
  (frameEngine_aprun first count s).completesWithRows hlegal hready fun f hf hf' => (hframes f hf hf').checks

/-! ## Values (R224, R227, R229) -/

theorem ApReady.floor_le_one {s : State} {first count : Nat} (h : ApReady s first count) : fle s.csr.apFloor f1 = true := by
  have hrow := h.config (apFloorRow s) (by simp [apConfigRows, apFloorRow])
  exact (Bool.and_eq_true_iff.1 hrow).2

/-- Every value of a row, of a voiced or an unvoiced frame, is clipped (R224, R227). -/
theorem apRow_clipped {s : State} {f : Nat} {v : List Word} (hv : s.apRow f = .ok v) :
    ∀ w ∈ v, ∃ x, w = apClip s.csr.apFloor x := by
  unfold State.apRow at hv
  obtain ⟨_, -, hv⟩ := bind_eq_ok.1 hv
  split at hv
  next =>
    obtain ⟨_, -, hv⟩ := bind_eq_ok.1 hv
    obtain ⟨_, -, hv⟩ := bind_eq_ok.1 hv
    obtain ⟨_, -, hv⟩ := bind_eq_ok.1 hv
    cases hv
    intro w hw
    obtain ⟨k, -, rfl⟩ := List.mem_map.1 hw
    exact ⟨_, rfl⟩
  next =>
    cases hv
    exact fun w hw => ⟨_, List.eq_of_mem_replicate hw⟩

/-- Settles O59: a completed APRUN passed phase 1 and left finite rows, and a finite value that is clipped lies between AP_FLOOR
and 1.0. -/
theorem aperiodicityValuesAreRatios : Obligations.AperiodicityValuesAreRatios := by
  intro first count s t hx hh hraces
  obtain ⟨hready, hframes⟩ := (frameEngine_aprun first count s).of_completed hx hh
  refine ⟨hready.frames.rows, hready.frames.cols, fun f k hf hf' hk => ?_⟩
  obtain ⟨v, hv, hword⟩ := wordAt_aprun hx hh hraces hf hf' hk
  have hlength : k < v.length := by rwa [length_apRow hv, ← hready.frames.cols]
  obtain ⟨v', hv', -, hfinite⟩ := ofCheck_none (hframes f hf hf')
  cases hv.symm.trans hv'
  have hmem : v.getD k 0 ∈ v := by
    rw [List.getD_eq_getElem _ _ hlength]
    exact List.getElem_mem _
  obtain ⟨x, hclip⟩ := apRow_clipped hv _ hmem
  have hvalue := hfinite _ hmem
  rw [hclip] at hvalue
  rw [hword, hclip]
  exact ⟨hvalue, fmin_clip hready.floor_le_one hvalue⟩

end Sys2Proof.Machine

/-! SUPPORT. DF0FLR, DFFTSZ and DEFAULTS (R250 to R254): when a size exists, the checks of the three commands in their
order, and which commands have configuration registers or MARK to write (R70, R254, R271). -/

namespace Sys2Proof.Machine

/-! ## Sizes (R250 to R252) -/

section

variable {s : State} {f r : Word} {k p : Nat}

/-- The search of R251 finds the exponent that the rule describes. -/
theorem fftSizeExp_eq_some : s.fftSizeExp f r = some k ↔ IsSizeExp s f r k := by
  unfold State.fftSizeExp fftSizeExp IsSizeExp f0FloorR
  rw [List.find?_filter, List.find?_range_eq_some]
  simp only [List.mem_range, Nat.lt_succ_iff, decide_eq_true_eq, Bool.decide_and, Bool.decide_eq_true, Bool.and_eq_true,
    Bool.not_eq_true', Bool.and_eq_false_imp]
  constructor
  · rintro ⟨⟨hmin, hfloor⟩, hmax, hleast⟩
    exact ⟨hmin, hmax, hfloor, fun j hj hjk => hleast j hjk hj⟩
  · rintro ⟨hmin, hmax, hfloor, hleast⟩
    exact ⟨⟨hmin, hfloor⟩, hmax, fun j hjk hj => hleast j hj hjk⟩

theorem fftSizeExp_eq_none (h : ∀ k, ¬ IsSizeExp s f r k) : s.fftSizeExp f r = none :=
  Option.eq_none_iff_forall_ne_some.2 fun k hk => h k (fftSizeExp_eq_some.1 hk)

/-- A number is a legal size exactly when it is a power of two with a legal exponent (R252). -/
theorem sizeOf?_isSome :
    (s.sizeOf? p).isSome = true ↔ ∃ k, s.cfg.log2nMin ≤ k ∧ k ≤ s.cfg.log2nMax ∧ p = 2 ^ k := by
  unfold State.sizeOf?
  simp only [List.find?_isSome, List.mem_filter, List.mem_range, Nat.lt_succ_iff, decide_eq_true_eq, beq_iff_eq]
  constructor
  · rintro ⟨k, ⟨hmax, hmin⟩, hp⟩
    exact ⟨k, hmin, hmax, hp.symm⟩
  · rintro ⟨k, hmin, hmax, hp⟩
    exact ⟨k, ⟨hmax, hmin⟩, hp.symm⟩

end

/-! ## The checks of a size -/

/-- The check of DF0FLR on `P` (R252). -/
def State.needSizeValue (s : State) (p : Nat) : Check Unit := require (s.sizeOf? p).isSome .param 0

section

variable {s : State} {f r : Word} {k p info : Nat} {c : ErrCode}

theorem needSizeValue_ok (h : ∃ k, s.cfg.log2nMin ≤ k ∧ k ≤ s.cfg.log2nMax ∧ p = 2 ^ k) :
    s.needSizeValue p = .ok () :=
  require_eq_ok.2 (sizeOf?_isSome.2 h)

theorem needSizeValue_error (h : ∀ k, s.cfg.log2nMin ≤ k → k ≤ s.cfg.log2nMax → p ≠ 2 ^ k) :
    s.needSizeValue p = .error ⟨.param, 0⟩ := by
  refine require_eq_error.2 ⟨?_, rfl⟩
  rw [← Bool.not_eq_true, sizeOf?_isSome]
  exact fun ⟨k, hmin, hmax, hp⟩ => h k hmin hmax hp

theorem orRaise_fftSizeExp_ok (h : IsSizeExp s f r k) : orRaise (s.fftSizeExp f r) c info = .ok k := by
  rw [fftSizeExp_eq_some.2 h]
  rfl

theorem orRaise_fftSizeExp_error (h : ∀ k, ¬ IsSizeExp s f r k) :
    orRaise (s.fftSizeExp f r) c info = .error ⟨c, BitVec.ofNat 64 info⟩ := by
  rw [fftSizeExp_eq_none h]
  rfl

end

/-! ## What DF0FLR and DFFTSZ share (R252, R253, R284) -/

section

variable {s : State} {prm dst : Half} {i : Instr} {rest : Check Effect}

/-- The shape of the two plans: FS, two words at PRM, one at DST, and then what the command makes of its parameters. -/
def State.helperPlan (s : State) (prm dst : Half) (rest : Check Effect) : Check Effect := do
  s.needFs
  s.needRegion regionPrm prm.toNat 2
  s.needRegion regionDst dst.toNat 1
  rest

/-- What DF0FLR makes of `P` and `r` (R252). -/
def State.df0flrRest (s : State) (dst : Half) (p r : Word) : Check Effect := do
  needFinite r 1
  s.needSizeValue p.toNat
  needPositive r 1
  pure (.buffer dst.toNat [f0FloorR s.csr.fsF r p.toNat])

/-- What DFFTSZ makes of `f` and `r` (R253). -/
def State.dfftszRest (s : State) (dst : Half) (f r : Word) : Check Effect := do
  needFinite f 0
  needFinite r 1
  needPositive f 0
  needPositive r 1
  let k ← orRaise (s.fftSizeExp f r) .param 0
  pure (.buffer dst.toNat [BitVec.ofNat 64 (2 ^ k)])

theorem planOf_df0flr : planOf (.df0flr prm dst) s = .ofCheck (s.helperPlan prm dst
    (s.df0flrRest dst (s.cmdRead tagPrm prm.toNat) (s.cmdRead tagPrm (prm.toNat + 1)))) := rfl

theorem planOf_dfftsz : planOf (.dfftsz prm dst) s = .ofCheck (s.helperPlan prm dst
    (s.dfftszRest dst (s.cmdRead tagPrm prm.toNat) (s.cmdRead tagPrm (prm.toNat + 1)))) := rfl

theorem raises_prm_of_helperPlan (h : planOf i s = .ofCheck (s.helperPlan prm dst rest)) (hfs : FsOk s)
    (hprm : s.cfg.dmemWords < prm.toNat + 2) : RaisesClean i s .addr 0 :=
  raisesClean_of_check_error (planOf_of_check_ok h (needFs_ok hfs)) (needRegion_error hprm)

theorem raises_dst_of_helperPlan (h : planOf i s = .ofCheck (s.helperPlan prm dst rest)) (hfs : FsOk s)
    (hprm : prm.toNat + 2 ≤ s.cfg.dmemWords) (hdst : s.cfg.dmemWords < dst.toNat + 1) : RaisesClean i s .addr 2 :=
  raisesClean_of_check_error (planOf_of_check_ok (planOf_of_check_ok h (needFs_ok hfs)) (needRegion_ok hprm))
    (needRegion_error hdst)

/-- With FS and the regions legal, the parameters decide. -/
theorem planOf_of_helperPlan (h : planOf i s = .ofCheck (s.helperPlan prm dst rest)) (hfs : FsOk s)
    (hprm : prm.toNat + 2 ≤ s.cfg.dmemWords) (hdst : dst.toNat + 1 ≤ s.cfg.dmemWords) : planOf i s = .ofCheck rest :=
  planOf_of_check_ok (planOf_of_check_ok (planOf_of_check_ok h (needFs_ok hfs)) (needRegion_ok hprm)) (needRegion_ok hdst)

end

/-- A command whose verdict is to write one word completes with it. -/
theorem completesWith_word {i : Instr} {s : State} {dst : Nat} {v : Word} (h : planOf i s = .done (.buffer dst [v])) :
    CompletesWith i s dst 1 fun _ => v :=
  completesWith_of h rfl fun k hk => by
    obtain rfl : k = 0 := Nat.lt_one_iff.1 hk
    rfl

/-- Settles O15: every check of DFFTSZ passes, and R251's search finds `k`. -/
theorem dfftszCompletes : Obligations.DfftszCompletes := by
  rintro prm dst s k hfs hprm hdst ⟨hffin, hfpos⟩ ⟨hrfin, hrpos⟩ hsize
  have hparams := planOf_of_helperPlan planOf_dfftsz hfs hprm hdst
  have hfinite := planOf_of_check_ok (planOf_of_check_ok hparams (needFinite_ok hffin)) (needFinite_ok hrfin)
  have hpositive := planOf_of_check_ok (planOf_of_check_ok hfinite (needPositive_ok hfpos)) (needPositive_ok hrpos)
  exact completesWith_word (planOf_of_check_ok hpositive (orRaise_fftSizeExp_ok hsize))

/-- Settles O16: every check of DF0FLR passes, and the word is `F0FloorR` of the size (R250). -/
theorem dfZeroFlrCompletes : Obligations.DfZeroFlrCompletes := by
  rintro prm dst s k hfs hprm hdst hp hmin hmax ⟨hrfin, hrpos⟩
  have hparams := planOf_of_helperPlan planOf_df0flr hfs hprm hdst
  have hfinite := planOf_of_check_ok hparams (needFinite_ok hrfin)
  have hsize := planOf_of_check_ok hfinite (needSizeValue_ok ⟨k, hmin, hmax, hp⟩)
  have hwrite := planOf_of_check_ok hsize (needPositive_ok hrpos)
  rw [hp] at hwrite
  exact completesWith_word hwrite

/-! ## DEFAULTS (R254) -/

/-- DEFAULTS in its order: FS, the size for the envelope, the size for aperiodicity, then the registers. -/
theorem planOf_defaults (s : State) : planOf .defaults s = .ofCheck (do
    s.needFs
    let ke ← orRaise (s.fftSizeExp Csr.reset.f0Floor marginEnv) .config 0x080
    let ka ← orRaise (s.fftSizeExp Csr.reset.f0Floor marginAp) .config 0x080
    pure { writes := [], csr := some (s.csr.withDefaults ke ka) }) := rfl

/-- Settles O14: both sizes exist, so DEFAULTS completes with the registers of `Csr.withDefaults` and nothing else. -/
theorem defaultsCompletes : Obligations.DefaultsCompletes := by
  intro s ke ka hfs henv hap
  have hsizes := planOf_of_check_ok (planOf_defaults s) (needFs_ok hfs)
  have hdone : planOf .defaults s = .done { writes := [], csr := some (s.csr.withDefaults ke ka) } :=
    planOf_of_check_ok (planOf_of_check_ok hsizes (orRaise_fftSizeExp_ok henv)) (orRaise_fftSizeExp_ok hap)
  refine ⟨_, by rw [exec_eq, hdone, finish_done], completed_of_apply s _, ?_, ?_, ?_⟩
  · rw [State.complete_mark, State.apply_mark, Bool.or_false]
  · rw [State.complete_mem]
    rfl
  · rw [State.complete_csr, State.apply_csr, Option.getD_some]
    simp only [Csr.withDefaults, Csr.reset, and_self]

/-! ## Errors (R252 to R254, R289) -/

/-- Settles O36: the checks of the three commands one after another, each with its error when those before it pass. -/
theorem helperErrors : Obligations.HelperErrors := by
  intro prm dst s a r hfs
  refine ⟨fun hmissing => ?defaults, fun i hi => ?regions, fun hprm hdst => ?parameters⟩
  case defaults =>
    have hsizes := planOf_of_check_ok (planOf_defaults s) (needFs_ok hfs)
    by_cases henv : ∃ k, IsSizeExp s 0x4051C00000000000#64 marginEnv k
    · obtain ⟨ke, henv⟩ := henv
      have hap := hmissing.resolve_left fun h => h ke henv
      exact raisesClean_of_check_error (planOf_of_check_ok hsizes (orRaise_fftSizeExp_ok henv))
        (orRaise_fftSizeExp_error hap)
    · exact raisesClean_of_check_error hsizes (orRaise_fftSizeExp_error (not_exists.1 henv))
  case regions =>
    have hplan : ∃ rest, planOf i s = .ofCheck (s.helperPlan prm dst rest) := by
      rcases List.mem_pair.1 hi with rfl | rfl
      · exact ⟨_, planOf_df0flr⟩
      · exact ⟨_, planOf_dfftsz⟩
    obtain ⟨rest, hplan⟩ := hplan
    exact ⟨raises_prm_of_helperPlan hplan hfs, raises_dst_of_helperPlan hplan hfs⟩
  case parameters =>
    have hfloor := planOf_of_helperPlan planOf_df0flr hfs hprm hdst
    have hsize := planOf_of_helperPlan planOf_dfftsz hfs hprm hdst
    have hratio := fun hr => planOf_of_check_ok hfloor (needFinite_ok hr)
    have hfirst := fun ha => planOf_of_check_ok hsize (needFinite_ok ha)
    have hfinite := fun ha hr => planOf_of_check_ok (hfirst ha) (needFinite_ok hr)
    have hpositive := fun ha hr hapos => planOf_of_check_ok (hfinite ha hr) (needPositive_ok hapos)
    exact ⟨fun hr => raisesClean_of_check_error hfloor (needFinite_error hr),
      fun hr hp => raisesClean_of_check_error (hratio hr) (needSizeValue_error hp),
      fun hr hp hpos => raisesClean_of_check_error (planOf_of_check_ok (hratio hr) (needSizeValue_ok hp))
        (needPositive_error hpos),
      fun ha => raisesClean_of_check_error hsize (needFinite_error ha),
      fun ha hr => raisesClean_of_check_error (hfirst ha) (needFinite_error hr),
      fun ha hr => ⟨fun hapos => raisesClean_of_check_error (hfinite ha hr) (needPositive_error hapos),
        fun hapos hrpos => raisesClean_of_check_error (hpositive ha hr hapos) (needPositive_error hrpos),
        fun hapos hrpos hnone => raisesClean_of_check_error
          (planOf_of_check_ok (hpositive ha hr hapos) (needPositive_ok hrpos)) (orRaise_fftSizeExp_error hnone)⟩⟩

/-! ## What no command changes (R70, R254, R271) -/

/-- A frame engine that completes has words of DMEM to write and nothing else. -/
theorem frames_effect {one : Check Unit} {base cols first : Nat} {outs : List FrameOut} {e : Effect}
    (h : phases one (phase2 base cols first outs) = .done e) : ∃ ws, e = { writes := ws } := by
  rcases phases_cases one (phase2 base cols first outs) with ⟨-, hphase⟩ | ⟨r, -, hphase⟩ <;> rw [hphase] at h
  · rcases phase2_cases base cols first outs with ⟨-, hend⟩ | ⟨r, hend⟩ <;> rw [hend] at h <;> cases h
    exact ⟨_, rfl⟩
  · cases h

/-- DEFAULTS alone has configuration registers to write, SIGNAL alone MARK. -/
theorem plan_csr_mark {i : Instr} {s : State} {e : Effect} (h : planOf i s = .done e) :
    (i ≠ .defaults → e.csr = none) ∧ (i ≠ .signal → e.mark = false) := by
  cases i
  case envrun first count =>
    obtain ⟨ws, rfl⟩ := frames_effect h
    exact ⟨fun _ => rfl, fun _ => rfl⟩
  case aprun first count =>
    obtain ⟨ws, rfl⟩ := frames_effect h
    exact ⟨fun _ => rfl, fun _ => rfl⟩
  case nop => cases h; exact ⟨fun _ => rfl, fun _ => rfl⟩
  case signal => cases h; exact ⟨fun _ => rfl, fun hne => absurd rfl hne⟩
  all_goals
    replace h := ofCheck_eq_done h
    repeat obtain ⟨_, -, h⟩ := bind_eq_ok.1 h
    cases h
  case defaults => exact ⟨fun hne => absurd rfl hne, fun _ => rfl⟩
  all_goals exact ⟨fun _ => rfl, fun _ => rfl⟩

/-- However a command ends, it keeps the parameters, the enables, HOLD and the other fields of `Kept`. -/
theorem kept_finish (s : State) (v : Verdict) : Kept s (s.finish v) := by
  cases v with
  | done e => exact (completed_of_apply s e).kept
  | failed r => exact (raised_of_raise s r).kept
  | spoiled r ws => exact (raised_of_applySome s ws r).kept

/-- Settles O11: an error keeps everything but the record of it; a command that completes writes
what `plan_csr_mark` says. -/
theorem onlyDefaultsConfiguresOnlySignalMarks : Obligations.OnlyDefaultsConfiguresOnlySignalMarks := by
  intro i s t hx
  rw [exec_eq] at hx
  cases hx
  refine ⟨kept_finish s _, ?_⟩
  cases hp : planOf i s with
  | done e =>
    obtain ⟨hcsr, hmark⟩ := plan_csr_mark hp
    rw [finish_done, State.complete_csr, State.apply_csr, State.complete_mark, State.apply_mark, State.complete_done,
      State.apply_done, State.complete_err, State.apply_err]
    exact ⟨fun hi => by rw [hcsr hi, Option.getD_none], fun hi => by rw [hmark hi, Bool.or_false],
      fun hdone => by rw [hdone, Bool.true_or], id⟩
  | failed r => exact ⟨fun _ => rfl, fun _ => rfl, id, fun _ => rfl⟩
  | spoiled r ws => exact ⟨fun _ => rfl, fun _ => rfl, id, fun _ => rfl⟩

end Sys2Proof.Machine

/-! SUPPORT. The sequencer's own cycle (R270, R271, R273): a step in EXEC runs the decoded command, and a command that checks
and writes nothing completes in every state. -/

namespace Sys2Proof.Machine

/-! ## A step in EXEC (R273, logs 7, 8) -/

/-- The counterpart of `engineStep_illegal`: an executing command that decodes is run. -/
theorem engineStep_exec {s : State} {c : PendingCmd} {i : Instr} (he : s.engine = .exec c)
    (hd : decodeCmd c.w0 c.w1 = .ok i) : s.engineStep = exec i s := by
  simp only [State.engineStep, he, hd]

/-- Settles O5: with no turn listed, or the engine's first, the step is the engine's, and using up a turn changes neither
the engine nor the words it decodes. -/
theorem stepRunsTheDecodedCommand : Obligations.StepRunsTheDecodedCommand := by
  intro s c i he hd
  refine ⟨fun h => ?_, fun ts h => ?_⟩
  · rw [step_of_no_turn h, engineStep_exec he hd]
  · rw [step_of_engine_turn h, engineStep_exec (s := { s with turns := ts }) he hd]

/-! ## NOP and SIGNAL (R270, R271) -/

theorem planOf_nop (s : State) : planOf .nop s = .done { writes := [] } := rfl

theorem planOf_signal (s : State) : planOf .signal s = .done { writes := [], mark := true } := rfl

/-- A command whose verdict holds no word of DMEM and no configuration register completes, its whole effect on the data
being the MARK it asks for. -/
theorem completes_of_only_mark {i : Instr} {s : State} {m : Bool} (h : planOf i s = .done { writes := [], mark := m }) :
    ∃ t, exec i s = .next t ∧ Completed s t (fun _ => none) ∧ t.csr = s.csr ∧ t.mark = (s.mark || m) ∧ t.mem = s.mem := by
  refine ⟨_, by rw [exec_eq, h, finish_done], completed_of_apply s _, ?csr, ?mark, ?mem⟩
  case csr => rw [State.complete_csr, State.apply_csr, Option.getD_none]
  case mark => rw [State.complete_mark, State.apply_mark]
  case mem => rw [State.complete_mem, State.apply_mem, List.map_nil, setWords_nil]

/-- Settles O13: neither command has a check to fail; NOP asks for no MARK, SIGNAL for MARK. -/
theorem nopAndSignalComplete : Obligations.NopAndSignalComplete := by
  intro s
  have hnop := completes_of_only_mark (planOf_nop s)
  have hsignal := completes_of_only_mark (planOf_signal s)
  rw [Bool.or_false] at hnop
  rw [Bool.or_true] at hsignal
  exact ⟨hnop, hsignal⟩

end Sys2Proof.Machine

/-! SUPPORT. How commands end (R273, R285 to R287, R291, R293): each completes or raises, what a step that ends in HALT
records, and that an error of a primitive command leaves the data alone. -/

namespace Sys2Proof.Machine

/-! ## Completing or raising (R291, R293) -/

/-- A verdict ends the command in one of two ways that exclude each other: it completes, and the engine is not in HALT, or
it raises, and the engine is. -/
theorem finish_cases (s : State) (v : Verdict) :
    (Completed s (s.finish v) (fun a => v.words.lookup a) ∧ (s.finish v).engine ≠ .halt) ∨
      ∃ r : Raise, Raised s (s.finish v) r.code.code r.info := by
  cases v with
  | done e => exact .inl ⟨completed_of_apply s e, State.complete_engine_ne_halt _⟩
  | failed r => exact .inr ⟨r, raised_of_raise s r⟩
  | spoiled r ws => exact .inr ⟨r, raised_of_applySome s ws r⟩

/-- Settles O7: a command ends as its verdict says. -/
theorem commandsCompleteOrRaise : Obligations.CommandsCompleteOrRaise := by
  intro i s
  refine ⟨_, exec_eq i s, ?_⟩
  rcases finish_cases s (planOf i s) with hcompleted | ⟨r, hraised⟩
  · exact .inl hcompleted
  · exact .inr ⟨r.code, r.info, hraised⟩

/-! ## What a step that ends in HALT records (R285, R286) -/

/-- An executing command that leaves the engine in HALT has raised: a command that decodes by its verdict, one that does
not by E_ILLEGAL (R119). -/
theorem raised_of_engineStep {s t : State} {c : PendingCmd} (he : s.engine = .exec c) (hs : s.engineStep = .next t)
    (hh : t.engine = .halt) : ∃ r : Raise, Raised s t r.code.code r.info := by
  cases hd : decodeCmd c.w0 c.w1 with
  | ok i =>
    rw [engineStep_exec he hd, exec_eq] at hs
    cases hs
    rcases finish_cases s (planOf i s) with ⟨-, hnot⟩ | hraised
    · exact absurd hh hnot
    · exact hraised
  | error e =>
    rw [engineStep_illegal he hd] at hs
    cases hs
    exact ⟨_, raised_of_raise s _⟩

/-- An error is seen on IRQ when it is enabled (R41). -/
theorem Raised.irq {s t : State} {code info : Word} (h : Raised s t code info) (hie : s.ieErr = true) : t.irq = true := by
  have hieErr : t.ieErr = true := h.kept.ieErr.trans hie
  simp [State.irq, h.err, hieErr]

/-- Settles O8: such a step has raised, and the words recorded are those of the executing command. -/
theorem raisingRecordsTheCommand : Obligations.RaisingRecordsTheCommand := by
  intro s t c hturns he hs hh
  rw [step_of_no_turn hturns] at hs
  obtain ⟨r, hraised⟩ := raised_of_engineStep he hs hh
  have hcmd0 := hraised.errCmd0
  have hcmd1 := hraised.errCmd1
  rw [cmd_exec he] at hcmd0 hcmd1
  exact ⟨⟨r.code, hraised.errCode⟩, hcmd0, hcmd1, hraised.err, hraised.queue, hraised.completed, hraised.done, hraised.csr,
    hraised.irq⟩

/-! ## Errors of the primitive commands (R103, R287) -/

/-- Every command but the frame engines checks and computes first and writes last, all at once (R103). -/
theorem planOf_primitive {i : Instr} (s : State) (henv : ∀ first count, i ≠ .envrun first count)
    (hap : ∀ first count, i ≠ .aprun first count) : ∃ x, planOf i s = .ofCheck x := by
  cases i
  case envrun first count => exact absurd rfl (henv first count)
  case aprun first count => exact absurd rfl (hap first count)
  case nop => exact ⟨planNop s, rfl⟩
  case signal => exact ⟨planSignal s, rfl⟩
  all_goals exact ⟨_, rfl⟩

/-- Settles O9: a primitive command that ends in HALT raised before it wrote. -/
theorem primitiveErrorsChangeNoData : Obligations.PrimitiveErrorsChangeNoData := by
  intro i s t henv hap hx hh
  obtain ⟨x, hplan⟩ := planOf_primitive s henv hap
  rw [exec_eq, hplan] at hx
  cases hx
  cases x with
  | ok e => exact absurd hh (State.complete_engine_ne_halt _)
  | error r => exact ⟨State.raise_mem s r, State.raise_csr s r⟩

end Sys2Proof.Machine

/-! SUPPORT. The first two checks of the frame engines: the configuration tables of R282 and the shape of R283. -/

namespace Sys2Proof.Machine

section

variable {i : Instr} {s : State} {rows : List (Bool × Nat)} {rest : Check Unit} {two : Verdict}

/-! ## Phase 1 begins with configuration and shape (R186, R226, R289) -/

theorem planOf_envrun_checks (first count : Half) (s : State) : ∃ rest two, planOf (.envrun first count) s =
    phases (do checkRows .config (envConfigRows s); s.needShape; rest) two := by
  rw [← needEnvConfig_eq]
  exact ⟨_, _, rfl⟩

theorem planOf_aprun_checks (first count : Half) (s : State) : ∃ rest two, planOf (.aprun first count) s =
    phases (do checkRows .config (apConfigRows s); s.needShape; rest) two := by
  rw [← needApConfig_eq]
  exact ⟨_, _, rfl⟩

/-! ## Configuration (R282) -/

theorem raises_config_of_checks (h : planOf i s = phases (do checkRows .config rows; s.needShape; rest) two) {offset : Nat}
    (hfirst : rows.find? (fun row => !row.1) = some (false, offset)) :
    RaisesClean i s .config (BitVec.ofNat 64 offset) :=
  raisesClean_of_phase1_error h (by rw [checkRows_error hfirst, error_bind])

/-! ## Shape (R283) -/

theorem needShape_error_of_rows (h : s.csr.outRows ≠ s.csr.f0Len) : s.needShape = .error ⟨.shape, 0⟩ :=
  require_bind_not (beq_false_of_ne h)

theorem needShape_error_of_cols (hrows : s.csr.outRows = s.csr.f0Len)
    (h : s.csr.outCols.toNat ≠ 2 ^ s.csr.log2nEnv.toNat / 2 + 1) : s.needShape = .error ⟨.shape, 1⟩ := by
  rw [State.needShape, require_bind_of (beq_iff_eq.2 hrows)]
  exact require_eq_error.2 ⟨beq_false_of_ne h, rfl⟩

theorem raises_shape_of_checks (h : planOf i s = phases (do checkRows .config rows; s.needShape; rest) two)
    (hconfig : ∀ row ∈ rows, row.1 = true) {info : Word} (hshape : s.needShape = .error ⟨.shape, info⟩) :
    RaisesClean i s .shape info :=
  raisesClean_of_phase1_error h (by rw [checkRows_ok.2 hconfig, ok_bind, hshape, error_bind])

end

/-- Settles O38: the configuration table is the first check of either engine. -/
theorem frameConfigurationOrder : Obligations.FrameConfigurationOrder := by
  intro first count s offset
  obtain ⟨_, _, henv⟩ := planOf_envrun_checks first count s
  obtain ⟨_, _, hap⟩ := planOf_aprun_checks first count s
  exact ⟨raises_config_of_checks henv, raises_config_of_checks hap⟩

/-- Settles O39: with the table passed, the shape check of either engine decides. -/
theorem frameShapeErrors : Obligations.FrameShapeErrors := by
  intro first count s i hengine
  have raises : ∀ {info : Word}, s.needShape = .error ⟨.shape, info⟩ → RaisesClean i s .shape info := by
    rcases hengine with ⟨rfl, hconfig⟩ | ⟨rfl, hconfig⟩
    · obtain ⟨_, _, hplan⟩ := planOf_envrun_checks first count s
      exact raises_shape_of_checks hplan hconfig
    · obtain ⟨_, _, hplan⟩ := planOf_aprun_checks first count s
      exact raises_shape_of_checks hplan hconfig
  exact ⟨fun hrows => raises (needShape_error_of_rows hrows),
    fun hrows hcols => raises (needShape_error_of_cols hrows hcols)⟩

end Sys2Proof.Machine

/-! SUPPORT. The machine right after power-on reset (R324): FS and both sizes are not legal, every command that needs one of
them raises E_CONFIG, and the other three have no register to check. -/

namespace Sys2Proof.Machine

/-! ## The registers at reset (R46, R49, R73) -/

theorem not_fsOk_of_reset {s : State} (h : s.csr = Csr.reset) : ¬ FsOk s := by
  rw [FsOk, h]
  decide

/-- Both size registers are 0 at reset, and the smallest legal exponent is 4 (R8). -/
theorem not_sizeOk_of_reset {s : State} (hlegal : s.cfg.Legal) (h : s.csr = Csr.reset) (sz : SizeSel) : ¬ SizeOk s sz := by
  obtain ⟨hmin, -⟩ := hlegal
  have hzero : s.sizeExp sz = 0 := by rw [State.sizeExp, h]; cases sz <;> rfl
  rw [SizeOk, hmin, hzero]
  omega

/-! ## Commands without a register to check (R270, R271, R167) -/

/-- The three opcodes that R324 excepts are those of NOP, SIGNAL and WGEN (R117). -/
theorem opc_unchecked_iff {i : Instr} : (i.opc = 0x00#8 ∨ i.opc = 0x01#8 ∨ i.opc = 0x21#8) ↔
    i = .nop ∨ i = .signal ∨ ∃ win prm dst, i = .wgen win prm dst := by
  cases i <;> simp [Instr.opc]

/-- WGEN checks its parameter block, its length and its DST region, so it completes or raises E_ADDR or E_PARAM. -/
theorem errCode_of_wgen (win : Win) (prm dst : Half) (s : State) : ∃ t, exec (.wgen win prm dst) s = .next t ∧
    (t.errCode = s.errCode ∨ t.errCode = ErrCode.addr.code ∨ t.errCode = ErrCode.param.code) := by
  obtain ⟨badPrm, hprmOk⟩ := wgenErrors win prm dst s
  rcases lt_or_ge s.cfg.dmemWords (prm.toNat + 1) with hprm | hprm
  · obtain ⟨t, ht, hraised, -⟩ := badPrm hprm
    exact ⟨t, ht, .inr (.inl hraised.errCode)⟩
  obtain ⟨badLen, badDst⟩ := hprmOk hprm
  by_cases hlen : 1 ≤ (s.cmdRead tagPrm prm.toNat).toNat ∧ (s.cmdRead tagPrm prm.toNat).toNat ≤ 2 ^ s.cfg.log2nMax
  case neg =>
    obtain ⟨t, ht, hraised, -⟩ := badLen (by omega)
    exact ⟨t, ht, .inr (.inr hraised.errCode)⟩
  obtain ⟨hmin, hmax⟩ := hlen
  rcases lt_or_ge s.cfg.dmemWords (dst.toNat + (s.cmdRead tagPrm prm.toNat).toNat) with hdst | hdst
  · obtain ⟨t, ht, hraised, -⟩ := badDst hmin hmax hdst
    exact ⟨t, ht, .inr (.inl hraised.errCode)⟩
  · obtain ⟨t, ht, hcompleted, -⟩ := wgenCompletes win prm dst s _ hprm rfl hmin hmax hdst
    exact ⟨t, ht, .inl hcompleted.errCode⟩

/-- None of the three records E_CONFIG. -/
theorem errCode_ne_config_of_unchecked {i : Instr} {s : State} (hs : s.errCode ≠ ErrCode.config.code)
    (hi : i.opc = 0x00#8 ∨ i.opc = 0x01#8 ∨ i.opc = 0x21#8) :
    ∃ t, exec i s = .next t ∧ t.errCode ≠ ErrCode.config.code := by
  rcases opc_unchecked_iff.1 hi with rfl | rfl | ⟨win, prm, dst, rfl⟩
  · obtain ⟨⟨t, ht, hcompleted, -⟩, -⟩ := nopAndSignalComplete s
    exact ⟨t, ht, hcompleted.errCode ▸ hs⟩
  · obtain ⟨-, t, ht, hcompleted, -⟩ := nopAndSignalComplete s
    exact ⟨t, ht, hcompleted.errCode ▸ hs⟩
  · obtain ⟨t, ht, hcode⟩ := errCode_of_wgen win prm dst s
    refine ⟨t, ht, ?_⟩
    rcases hcode with hcode | hcode | hcode <;> rw [hcode]
    · exact hs
    · decide
    · decide

/-! ## Commands that need FS or a size (R282, R324) -/

/-- A table of checks in which some row fails has a first row that fails. -/
theorem exists_first_failing {rows : List (Bool × Nat)} {row : Bool × Nat} (hmem : row ∈ rows) (hfails : row.1 = false) :
    ∃ n, rows.find? (fun row => !row.1) = some (false, n) := by
  have hsome : (rows.find? fun row => !row.1).isSome = true :=
    List.find?_isSome.2 ⟨row, hmem, by rw [hfails]; rfl⟩
  obtain ⟨⟨b, n⟩, hfirst⟩ := Option.isSome_iff_exists.1 hsome
  obtain rfl : b = false := by simpa using List.find?_some hfirst
  exact ⟨n, hfirst⟩

theorem sizeRow_of_not {s : State} {sz : SizeSel} (h : ¬ SizeOk s sz) : (sizeRow s sz).1 = false := by
  cases sz <;> exact decide_eq_false h

/-- Where neither FS nor a size is legal, every other command raises E_CONFIG: the transforms and CENTROID for the size,
all the rest for FS. -/
theorem raises_config_of_unconfigured {i : Instr} {s : State} (hfs : ¬ FsOk s) (hsize : ∀ sz, ¬ SizeOk s sz)
    (hwf : i.wf = true) (hi : ¬ (i.opc = 0x00#8 ∨ i.opc = 0x01#8 ∨ i.opc = 0x21#8)) :
    ∃ info, RaisesClean i s .config info := by
  rw [opc_unchecked_iff] at hi
  cases i
  case nop => exact absurd (.inl rfl) hi
  case signal => exact absurd (.inr (.inl rfl)) hi
  case wgen win prm dst => exact absurd (.inr (.inr ⟨win, prm, dst, rfl⟩)) hi
  case fftr sz src dst => exact ⟨_, raises_size_of_transformPlan planOf_fftr (hsize sz)⟩
  case ffti sz src dst => exact ⟨_, raises_size_of_transformPlan planOf_ffti (hsize sz)⟩
  case pow sz src dst => exact ⟨_, raises_size_of_transformPlan planOf_pow (hsize sz)⟩
  case centroid sz src dst =>
    obtain ⟨n, hfirst⟩ := exists_first_failing (rows := [safeMinRow s, sizeRow s sz]) (by simp) (sizeRow_of_not (hsize sz))
    exact ⟨_, raisesClean_of_check_error (planOf_centroid sz 0 src dst s) (checkRows_error hfirst)⟩
  case wseg sz win nrm dcr prm dst =>
    obtain ⟨-, needsFs⟩ := sampleRateErrors s sz win nrm dcr false prm 0 dst
    exact ⟨_, needsFs hfs (bne_iff_ne.1 hwf) _ (by simp)⟩
  case envrun first count =>
    obtain ⟨-, needsFs⟩ := sampleRateErrors s .env .hann false false false 0 first count
    exact ⟨_, needsFs hfs (by decide) _ (by simp)⟩
  case aprun first count =>
    obtain ⟨-, needsFs⟩ := sampleRateErrors s .env .hann false false false 0 first count
    exact ⟨_, needsFs hfs (by decide) _ (by simp)⟩
  case defaults | dfftsz | df0flr | dccorr | lsmooth | lifter | gdelay | vuv | bandap | apinterp =>
    exact ⟨_, raisesClean_of_needFs hfs rfl⟩

/-- Settles O41: at reset neither FS nor a size is legal. -/
theorem resetNeedsConfiguration : Obligations.ResetNeedsConfiguration := by
  intro p c i hlegal hwf s
  by_cases hi : i.opc = 0x00#8 ∨ i.opc = 0x01#8 ∨ i.opc = 0x21#8
  case pos =>
    have hreset : (0 : Word) ≠ ErrCode.config.code := by decide
    obtain ⟨t, ht, hcode⟩ := errCode_ne_config_of_unchecked (s := s) hreset hi
    exact ⟨t, ht, fun _ => hcode, fun hnop hsignal hwgen => absurd hi (by simp [hnop, hsignal, hwgen])⟩
  case neg =>
    obtain ⟨_, t, ht, hraised, -⟩ :=
      raises_config_of_unconfigured (s := s) (not_fsOk_of_reset rfl) (not_sizeOk_of_reset hlegal rfl) hwf hi
    exact ⟨t, ht, fun h => absurd h hi, fun _ _ _ => ⟨hraised.engine, hraised.errCode⟩⟩

end Sys2Proof.Machine
